-- ==== Sys2Proof/Word.lean ====
section
/-! DEFINITION. The words of the machine: the widths the spec gives its bytes, instruction words, registers and
addresses (00 R3, 04 R47 and R58, 12 R176 and R179). -/
namespace Sys2Proof

/-- One byte of memory. -/
abbrev Byte := BitVec 8
/-- A 32-bit word: an instruction word (07 R85) or a per-lane register (04 R47). -/
abbrev Word := BitVec 32
/-- A 64-bit word: a scalar register (04 R58) or a register pair. -/
abbrev DWord := BitVec 64
/-- One result of up to 128 bits: the widest load (14 R219). -/
abbrev QWord := BitVec 128
/-- One bit per lane of a group (02 R8). -/
abbrev Mask := BitVec 32
/-- A program counter as a lane holds it: 64 bits, since a register target may have any of them set (09 R139). -/
abbrev Pc := BitVec 64

end Sys2Proof
end

