-- ==== Sys2Proof/Config.lean ====
section
/-! DEFINITION. What is fixed for one M3 and what the spec leaves open: sizes of the device, and the free values, which
have no body, so that nothing can be proved about one of them that is not true of every one. -/
namespace Sys2Proof.Config

/-- Physical cores of the device (00 R1). -/
def coreCount : Nat := 1536
/-- Cores of one herd (02 R14). -/
def coresPerHerd : Nat := 8
/-- Cores of one die (00 R1). -/
def coresPerDie : Nat := 48
/-- Compute dies (00 R1). -/
def dieCount : Nat := 32
/-- Issue partitions of a core (00 R1). -/
def partitions : Nat := 6
/-- Group slots of a partition (00 R1). -/
def slots : Nat := 16
/-- Bytes of one core's SRAM slice, 2 MiB (12 R179). -/
def sliceBytes : Nat := 0x200000
/-- First slice offset not available for team windows (02 R17). -/
def windowTop : Nat := 0x1E0000
/-- Bytes of HBM, 4 TB as 32 stacks of 128 GB, GB read as 2^30 bytes (00 R1). DEDUCED, log 13. -/
def hbmBytes : Nat := 32 * 128 * 2 ^ 30
/-- Bytes of one weight-buffer unit (15 R247). -/
def wbUnitBytes : Nat := 0x10000
/-- Weight-buffer units of a core (15 R247). -/
def wbUnits : Nat := 8
/-- Network ports of the module (25 R383). -/
def ports : Nat := 64
/-- Accumulator tiles of a core (15 R247). -/
def tiles : Nat := 16

/-- A value the spec leaves open: the n-th free value the machine takes (DESIGN CHOICE, log 3). -/
opaque freeValue : Nat → BitVec 64

/-- The first byte of the HBM that only firmware uses, the last 2^40 bytes: backing stores and contexts stand there (04 R49; 20 R324; DESIGN
CHOICE, log 44). -/
def firmwareHbm : Nat := hbmBytes - 2 ^ 40
/-- Bytes of firmware's memory for one team's context (DESIGN CHOICE, log 44). -/
def contextBytes : Nat := 2 ^ 25

/-- The result bits of an SFU function evaluated in FP32 on the bits of one FP32 source: the spec bounds the error of
FRCP, FRSQ, FEXP2, FLOG2, FSIN, FCOS and FTANH (10 R156) and fixes no table. The first argument is the low five bits of the
opcode (8 FRCP to 15 FTANH). A fixed function of the source bits, as R156 says (DESIGN CHOICE, log 14). -/
opaque sfuResult : Nat → BitVec 32 → BitVec 32

/-- The signature SCAN_REF expects: pattern number and core to signature (22 R346; DESIGN CHOICE, log 15). -/
opaque scanSignature : Nat → Nat → BitVec 64

/-- What a lane of a cross-lane instruction gives its peers through an indexed register outside its window, by lane and index register: the
spec states no value (04 R56; 09 R143; DESIGN CHOICE, log 59). -/
opaque unboundWord : Nat → Nat → BitVec 128

/-- The key under which a physical line reads when it was written under another owner's key (24 R380): the bytes such a
read returns, by address (DESIGN CHOICE, log 16). -/
opaque foreignByte : Nat → BitVec 8

/-- A byte of a peer device's memory as an engine operation, a queue or firmware reads it: clock and address to byte (25 R387; DESIGN CHOICE, log 3). -/
opaque peerByte : Nat → Nat → BitVec 8

/-- The measurement of the boot ROM, the first stage of the chain (24 R381; DESIGN CHOICE, log 17). -/
opaque bootRomMeasurement : BitVec 512

/-- The measurement of the firmware the module boots (24 R381; DESIGN CHOICE, log 17). -/
opaque firmwareMeasurement : BitVec 512

/-- The words of the manifest the spec gives no value for, by field: 1 part number code and stepping, 3 SFU table version, 6 SR hash
constants version (24 R377; DESIGN CHOICE, log 17). -/
opaque manifestWord : Nat → BitVec 64

/-- The version of a firmware by its measurement (24 R377; DESIGN CHOICE, log 17). -/
opaque firmwareVersion : BitVec 512 → BitVec 64

/-- The Ed448 signature of a report: report bytes to 114 signature bytes (24 R381; DESIGN CHOICE, log 18). -/
opaque ed448Sign : List (BitVec 8) → List (BitVec 8)

end Sys2Proof.Config
end

