-- ==== Sys2Proof/Syntax.lean ====
section
/-! DEFINITION. The syntax of the machine, whole: the fields of a compute word (07 R86, R88, R89), the fields of the
transfer words (16 R269 to R281), the data of the machine's events (95), and `Instr`, one constructor per row of the opcode
table. Register numbers and codes stand as the spec's fields give them; `WellFormed` says which of them an instruction may
hold. -/
namespace Sys2Proof

/-- The fields of a compute instruction (07 R85 to R89). `ext` says whether the extended words are present (L bit 0) and
`lit` holds the literal word when it is present (L bit 1). Without extended words the fields from `c` on hold the values of
R87. -/
structure Form where
  ext : Bool := false
  lit : Option (BitVec 64) := none
  k : Bool := false
  d : BitVec 7 := 0x64#7
  a : BitVec 7 := 0x64#7
  b : BitVec 7 := 0x64#7
  c : BitVec 9 := 0x164#9
  dx : BitVec 2 := 0#2
  ax : BitVec 2 := 0#2
  bx : BitVec 2 := 0#2
  pred : BitVec 3 := 7#3
  neg : Bool := false
  sub : BitVec 8 := 0#8
  ty : BitVec 5 := 0#5
  rm : BitVec 3 := 0#3
  sat : Bool := false
  scope : BitVec 3 := 0#3
  hint : BitVec 2 := 0#2
  imm : BitVec 23 := 0#23
  deriving DecidableEq, Repr

/-- The compute operations that carry a `Form`, one per row of the opcode map (07 R97); JMP and PARK have one name for
each value of SUB (09 R137). -/
inductive Op where
  | iadd | isub | imul | imad | imin | imax | iabs | ineg | and | or | xor | andn | not | shl | shr | sar
  | rot | popc | clz | ctz | brev | bfx | bfi | perm | sel | icmp | lea | pand | por | pxor | pnot | pmov
  | awset | reggrow | regshrink | sadd | ssub | smul | sand | sor | sxor | sshl | sshr | scmp | smov | sld
  | bcast | readlane | br | jmpDirect | jmpRegister | call | calli | ret | exit | next | park | parkFull
  | yield | nop | shfl | vote | redux | scanx | matchLanes | elect | barsync | barinit | bararv | barwait
  | syncm | csrr | csrw | syscall | eret | trap | brk | fadd | fsub | fmul | ffma | fmin | fmax | fcmp
  | fclass | frcp | frsq | fsqrt | fexp2 | flog2 | fsin | fcos | ftanh | dadd | dmul | dfma | hadd2 | hfma2
  | fcvt | f2i | i2f | qdot4 | pack | unpack | ld | st | ldm | stm | ldfe | stfe | atom | red | ldnt | stnt
  | prefetch | cctl | pld | fence | fenceR | ntdrain | publish | ldgen | tdld | tdst | tdset | mxgo | mxv
  | accrd | accwr | acczero | xstart | xsig | xstat | worknext
  deriving DecidableEq, Repr
/-- Format A of a transfer word (16 R269): `m` is bits [16:0], an immediate when `i`, else register B in [16:13] and 0. -/
structure AForm where
  d : BitVec 4
  a : BitVec 4
  i : Bool
  m : BitVec 17
  deriving DecidableEq, Repr

/-- Format M of a transfer word (16 R269): data register, base, width code, space, signed byte offset. -/
structure MForm where
  c : BitVec 4
  b : BitVec 4
  w : BitVec 2
  sp : Bool
  o : BitVec 15
  deriving DecidableEq, Repr

/-- Format V of a transfer word (16 R269): barrier base, offset ÷ 8, operand kind, operand. -/
structure VForm where
  b : BitVec 4
  o : BitVec 11
  i : Bool
  m : BitVec 10
  deriving DecidableEq, Repr

/-- Format X, the first word of a bulk instruction (16 R269). -/
structure XForm where
  mode : BitVec 3
  dst : BitVec 4
  src : BitVec 4
  bar : BitVec 4
  off : BitVec 11
  deriving DecidableEq, Repr

/-- The operand word of XCOPY (16 R276): `len` is bits [30:20], `soff` bits [8:0]. -/
structure CopyWord where
  lr : Bool
  len : BitVec 11
  dz : Bool
  sh : Bool
  doff : BitVec 9
  soff : BitVec 9
  deriving DecidableEq, Repr

/-- The operand word of XGATH and XSCAT (16 R278): index and count registers, row bytes ÷ 16. -/
structure RowWord where
  idx : BitVec 4
  cnt : BitVec 4
  row : BitVec 11
  deriving DecidableEq, Repr

/-- The fields of XFENCE (16 R280). -/
structure FenceForm where
  scope : BitVec 3
  r : Bool
  h0 : BitVec 6
  v0 : Bool
  h1 : BitVec 6
  v1 : Bool
  rr : BitVec 4
  vr : Bool
  deriving DecidableEq, Repr

/-! ## The parties and inputs that events name -/

/-- A group by its place: physical core, partition, slot (02 R8, 03 R41). -/
structure GroupRef where
  core : Nat
  part : Nat
  slot : Nat
  deriving DecidableEq, Repr

/-- A transfer processor by its place: physical core, number (16 R265). -/
structure ProgRef where
  core : Nat
  n : Nat
  deriving DecidableEq, Repr

/-- A team: the number of its launch and its linear id (02 R8). -/
structure TeamRef where
  launch : Nat
  team : Nat
  deriving DecidableEq, Repr

/-- A party that issues instructions (13 R192). -/
inductive PartyRef where
  | group (g : GroupRef)
  | prog (x : ProgRef)
  deriving DecidableEq, Repr

/-- What a page's mapping leads to (12 R176, R190; 25 R387): HBM at a physical base, a published buffer's entry and page of
it, or a peer device's memory over one plane. -/
inductive PageTarget where
  | hbm (base : Nat)
  | published (entry page : Nat)
  | peer (device plane base : Nat)
  deriving DecidableEq, Repr

/-- One page mapping of an owner's address space (12 R176): size in bytes 2^16, 2^21 or 2^30, the kinds of access it allows,
its world, the doorbell mark (23 R353), and whether it is a text page of an object (21 R333). `demand` says that firmware
holds the page's contents and maps it on the first fault (23 R368); `peers` are the peer devices the page is mapped to (25 R384, R387). -/
structure PageMap where
  owner : Nat
  va : Nat
  size : Nat
  target : PageTarget
  read : Bool := true
  write : Bool := true
  atomic : Bool := true
  exec : Bool := false
  secure : Bool := false
  doorbell : Bool := false
  demand : Bool := false
  valid : Bool := true
  peers : List Nat := []
  deriving DecidableEq, Repr

/-- A candidate body that a Forage search found (18 R293): its instructions, and whether a sampled constant was folded. -/
structure Candidate where
  body : List (Op × Form)
  sampled : Bool
  deriving DecidableEq, Repr

/-- What reads uncorrectable data (24 R369): a group, by an access of its instruction (0), its fetch (1) or a backing-store row (2); a transfer
program by its own access, or a bulk operation of it; the operation a core's engine runs (15 R256). -/
inductive Consumer where
  | group (g : GroupRef) (how : Nat)
  | prog (x : ProgRef)
  | bulk (x : ProgRef) (op : Nat)
  | engine (core : Nat)
  deriving DecidableEq, Repr

/-- What an error detector reports (24 R369, R370). `consumer` names what reads uncorrectable data, `addr` the address of that access. -/
structure ErrorInput where
  corrected : Bool
  unit : Nat
  part : Nat
  die : Nat
  core : Nat
  row : Nat
  col : Nat
  idx : Nat
  det1 : BitVec 64
  ltag : Nat
  consumer : Option Consumer
  addr : BitVec 57 := 0#57
  deriving DecidableEq, Repr

/-- What the host gives and the loader chooses when an object is registered (21 R333, R338, R340). -/
structure RegisterInput where
  file : List (BitVec 8)
  owner : Nat
  secure : Bool
  textVa : Nat
  poolVa : Nat
  dataVa : Nat
  textPa : Nat
  poolPa : Nat
  dataPa : Nat
  deriving DecidableEq, Repr

/-- The debug credential a host session holds: firmware's, or an owner's (25 R384). -/
inductive Cred where
  | firmware
  | owner (n : Nat)
  deriving DecidableEq, Repr

/-- A core's fault register as its own firmware agent reaches it, with no host, or a host session of a credential (20 R316; 25 R384). -/
structure FaultPort where
  host : Option Cred
  core : Nat
  deriving DecidableEq, Repr

/-- A core's debug register as a host session of a credential reaches it (25 R384, R388). -/
structure DebugPort where
  cred : Cred
  core : Nat
  deriving DecidableEq, Repr

/-- A key slot reached from a session, secure or not (24 R380). -/
structure KeyAccess where
  secure : Bool
  slot : Nat
  deriving DecidableEq, Repr

/-- An access by peer device `device` to a page mapped to it (25 R387). `kind` is 0 for a read of as many bytes as `bytes` has, 1 for a write of
`bytes`, and 2 + c + 16 × y for the atomic operation of code c and integer type y (07 R96) on the operand, and for `.cas` the value after
it, that `bytes` holds. -/
structure PeerInput where
  device : Nat
  owner : Nat
  va : Nat
  kind : Nat
  bytes : List (BitVec 8)
  deriving DecidableEq, Repr


/-- The ONE instruction type of the model: every row of the opcode table, the compute instructions first, then the
transfer instructions, then the events the spec gives the machine (95), those that come from outside it last, each with the data that
names its party and its input. -/
inductive Instr where
  /-- IADD: Adds two integer sources per guard-true lane, wrapping or saturating, and writes the destination (R125). -/
  | iadd (f : Form)
  /-- ISUB: Subtracts the second integer source from the first per lane, wrapping or saturating (R125). -/
  | isub (f : Form)
  /-- IMUL: Multiplies two integers per lane and writes the low or high half of the exact product (R125). -/
  | imul (f : Form)
  /-- IMAD: Forms a × b + c per lane and writes its low or high half (R125). -/
  | imad (f : Form)
  /-- IMIN: Writes the smaller of two integers under the type's signedness (R125). -/
  | imin (f : Form)
  /-- IMAX: Writes the larger of two integers under the type's signedness (R125). -/
  | imax (f : Form)
  /-- IABS: Writes the absolute value of an integer, wrapping at the minimum (R125). -/
  | iabs (f : Form)
  /-- INEG: Writes the negation of an integer, wrapping (R125). -/
  | ineg (f : Form)
  /-- AND: Writes the bitwise AND of two sources (R126). -/
  | and (f : Form)
  /-- OR: Writes the bitwise OR of two sources (R126). -/
  | or (f : Form)
  /-- XOR: Writes the bitwise XOR of two sources (R126). -/
  | xor (f : Form)
  /-- ANDN: Writes a AND NOT b (R126). -/
  | andn (f : Form)
  /-- NOT: Writes the bitwise complement of a source (R126). -/
  | not (f : Form)
  /-- SHL: Shifts a source left by an amount, giving 0 at or beyond the width (R126). -/
  | shl (f : Form)
  /-- SHR: Shifts a source right logically (R126). -/
  | shr (f : Form)
  /-- SAR: Shifts a source right arithmetically (R126). -/
  | sar (f : Form)
  /-- ROT: Rotates a source left by the amount modulo the width (R126). -/
  | rot (f : Form)
  /-- POPC: Writes the count of one bits of a source (R126). -/
  | popc (f : Form)
  /-- CLZ: Writes the count of leading zero bits (R126). -/
  | clz (f : Form)
  /-- CTZ: Writes the count of trailing zero bits (R126). -/
  | ctz (f : Form)
  /-- BREV: Writes the bit-reversed source (R126). -/
  | brev (f : Form)
  /-- BFX: Extracts a bit field given by position and length, sign- or zero-extended (R126). -/
  | bfx (f : Form)
  /-- BFI: Inserts a bit field of b into a at the position and length given (R126). -/
  | bfi (f : Form)
  /-- PERM: Selects each result byte from eight source bytes by a selector nibble (R126). -/
  | perm (f : Form)
  /-- SEL: Writes a where a named predicate is set and b elsewhere (R126). -/
  | sel (f : Form)
  /-- ICMP: Compares two integers and writes 1 or 0 to a predicate (R127). -/
  | icmp (f : Form)
  /-- LEA: Writes the 64-bit sum of a base and a shifted 32-bit index to a register pair (R128). -/
  | lea (f : Form)
  /-- PAND: Writes the AND of two predicates (R129). -/
  | pand (f : Form)
  /-- POR: Writes the OR of two predicates (R129). -/
  | por (f : Form)
  /-- PXOR: Writes the XOR of two predicates (R129). -/
  | pxor (f : Form)
  /-- PNOT: Writes the complement of a predicate (R129). -/
  | pnot (f : Form)
  /-- PMOV: Copies a predicate (R129). -/
  | pmov (f : Form)
  /-- AWSET: Sets an array window's base and length for the group and the index register in guard-true lanes (R130). -/
  | awset (f : Form)
  /-- REGGROW: Requests a larger register allotment, waiting until rows are granted (R52). -/
  | reggrow (f : Form)
  /-- REGSHRINK: Writes rows above the new allotment to the backing store and frees them (R52). -/
  | regshrink (f : Form)
  /-- SADD: Adds two scalar sources into a scalar register (R133). -/
  | sadd (f : Form)
  /-- SSUB: Subtracts two scalar sources (R133). -/
  | ssub (f : Form)
  /-- SMUL: Multiplies two scalar sources (R133). -/
  | smul (f : Form)
  /-- SAND: Scalar bitwise AND (R133). -/
  | sand (f : Form)
  /-- SOR: Scalar bitwise OR (R133). -/
  | sor (f : Form)
  /-- SXOR: Scalar bitwise XOR (R133). -/
  | sxor (f : Form)
  /-- SSHL: Shifts a 64-bit scalar left (R133). -/
  | sshl (f : Form)
  /-- SSHR: Shifts a 64-bit scalar right, logically or arithmetically by type (R133). -/
  | sshr (f : Form)
  /-- SCMP: Compares two scalars and writes a predicate in every lane of the issue set (R134). -/
  | scmp (f : Form)
  /-- SMOV: Copies a scalar source into a scalar register (R133). -/
  | smov (f : Form)
  /-- SLD: Loads one value from global memory into a scalar register for the group (R136). -/
  | sld (f : Form)
  /-- BCAST: Writes a 64-bit scalar source to a register pair in every lane of the issue set (R135). -/
  | bcast (f : Form)
  /-- READLANE: Writes the value of a v register in one chosen lane to a scalar register (R135). -/
  | readlane (f : Form)
  /-- BR: Sends guard-true lanes to a PC-relative target and others to the next instruction, ending the segment (R138). -/
  | br (f : Form)
  /-- JMP_DIRECT: Unguarded PC-relative jump of the whole issue set (R138). -/
  | jmpDirect (f : Form)
  /-- JMP_REGISTER: Sends each guard-true lane to the address in its register, checked on arrival (R138). -/
  | jmpRegister (f : Form)
  /-- CALL: Pushes the return address, increments depth and branches PC-relative in guard-true lanes (R139). -/
  | call (f : Form)
  /-- CALLI: Pushes the return address, increments depth and branches to a register target per lane (R139). -/
  | calli (f : Form)
  /-- RET: Pops the return address in guard-true lanes, or exits lanes at depth 0 (R140). -/
  | ret (f : Form)
  /-- EXIT: Moves guard-true lanes to DONE (R140). -/
  | exit (f : Form)
  /-- NEXT: Ends the segment and sends the issue set to the next instruction (R142). -/
  | next (f : Form)
  /-- PARK: Parks guard-true lanes whose SRAM word still equals the comparand until the word changes (R141). -/
  | park (f : Form)
  /-- PARK_FULL: Parks guard-true lanes until the named granule becomes FULL (R141). -/
  | parkFull (f : Form)
  /-- YIELD: Marks guard-true lanes with a yield mark and ends the segment (R142). -/
  | yield (f : Form)
  /-- NOP: Does nothing except push an empty latch entry (R142). -/
  | nop (f : Form)
  /-- UDF: The permanently illegal opcode 0xFF faults ILLEGAL_OP for the issue set (R101). -/
  | udf (b a : BitVec 7) (k : Bool) (d : BitVec 7) (l : BitVec 2)
  /-- SHFL: Gives each participant the source value of a computed lane (R144). -/
  | shfl (f : Form)
  /-- VOTE: Writes the any, all or ballot of a predicate over participants (R145). -/
  | vote (f : Form)
  /-- REDUX: Writes the ascending-lane fold of a source over all participants to each (R146). -/
  | redux (f : Form)
  /-- SCANX: Writes to each participant the fold of participants up to itself (R146). -/
  | scanx (f : Form)
  /-- MATCH: Writes to each participant the mask of participants holding an equal value (R147). -/
  | matchLanes (f : Form)
  /-- ELECT: Sets a predicate in the lowest participant and clears it in the others (R147). -/
  | elect (f : Form)
  /-- BARSYNC: Puts the issue set in WAITB at the team barrier (R237). -/
  | barsync (f : Form)
  /-- BARINIT: Rewrites a counted barrier word with a new expected count and zero arrivals and pending bytes (R238). -/
  | barinit (f : Form)
  /-- BARARV: Adds one arrival per guard-true lane to a counted barrier, as a release (R239). -/
  | bararv (f : Form)
  /-- BARWAIT: Continues lanes whose barrier phase differs from their operand and puts the others in WAITB (R240). -/
  | barwait (f : Form)
  /-- SYNCM: Puts lanes in WAITB until every lane of their mask set has arrived with matching masks (R241). -/
  | syncm (f : Form)
  /-- CSRR: Reads a CSR into a scalar register (R328). -/
  | csrr (f : Form)
  /-- CSRW: Writes a CSR field by field according to its access codes (R328). -/
  | csrw (f : Form)
  /-- SYSCALL: Holds the issue set and writes a TRAP record for the firmware agent to serve (R329). -/
  | syscall (f : Form)
  /-- ERET: Resolves a fault record with resume or kill from the firmware slot (R330). -/
  | eret (f : Form)
  /-- TRAP: Holds guard-true lanes with TRAP and writes one record naming them (R331). -/
  | trap (f : Form)
  /-- BRK: Holds guard-true lanes with BREAK and writes one record naming them (R331). -/
  | brk (f : Form)
  /-- FADD: Adds two floats and rounds once under RM (R152). -/
  | fadd (f : Form)
  /-- FSUB: Subtracts two floats and rounds once (R152). -/
  | fsub (f : Form)
  /-- FMUL: Multiplies two floats and rounds once (R152). -/
  | fmul (f : Form)
  /-- FFMA: Forms a × b + c exactly and rounds once (R152). -/
  | ffma (f : Form)
  /-- FMIN: Returns the IEEE minimumNumber of two floats (R153). -/
  | fmin (f : Form)
  /-- FMAX: Returns the IEEE maximumNumber of two floats (R153). -/
  | fmax (f : Form)
  /-- FCMP: Compares two floats and writes a predicate (R154). -/
  | fcmp (f : Form)
  /-- FCLASS: Writes a float's class mask, or tests it against a selector into a predicate (R155). -/
  | fclass (f : Form)
  /-- FRCP: Computes a reciprocal on the SFU (R156). -/
  | frcp (f : Form)
  /-- FRSQ: Computes a reciprocal square root on the SFU (R156). -/
  | frsq (f : Form)
  /-- FSQRT: Computes a correctly rounded square root (R156). -/
  | fsqrt (f : Form)
  /-- FEXP2: Computes 2 to the power of the source (R156). -/
  | fexp2 (f : Form)
  /-- FLOG2: Computes the base-2 logarithm (R156). -/
  | flog2 (f : Form)
  /-- FSIN: Computes the sine in radians (R156). -/
  | fsin (f : Form)
  /-- FCOS: Computes the cosine in radians (R156). -/
  | fcos (f : Form)
  /-- FTANH: Computes the hyperbolic tangent (R156). -/
  | ftanh (f : Form)
  /-- DADD: FP64 addition on the FP64 unit (R158). -/
  | dadd (f : Form)
  /-- DMUL: FP64 multiplication (R158). -/
  | dmul (f : Form)
  /-- DFMA: FP64 fused multiply-add (R158). -/
  | dfma (f : Form)
  /-- HADD2: Adds two packed pairs of FP16 or BF16 elements (R159). -/
  | hadd2 (f : Form)
  /-- HFMA2: Fused multiply-add on packed pairs of FP16 or BF16 elements (R159). -/
  | hfma2 (f : Form)
  /-- FCVT: Converts a value between float formats (R161). -/
  | fcvt (f : Form)
  /-- F2I: Rounds a float to an integer type (R162). -/
  | f2i (f : Form)
  /-- I2F: Converts an integer to a float format (R163). -/
  | i2f (f : Form)
  /-- QDOT4: Forms a four-term dot product and adds it to an addend (R164). -/
  | qdot4 (f : Form)
  /-- PACK: Converts two FP32 values and inserts them as a pair of narrow codes into a packed word (R166). -/
  | pack (f : Form)
  /-- UNPACK: Extracts a pair of narrow codes from a packed word as exact FP32 values (R167). -/
  | unpack (f : Form)
  /-- LD: Loads from global memory at each lane's address (R222). -/
  | ld (f : Form)
  /-- ST: Stores to global memory at each lane's address (R222). -/
  | st (f : Form)
  /-- LDM: Loads from an SRAM address per lane (R224). -/
  | ldm (f : Form)
  /-- STM: Stores to an SRAM address per lane (R224). -/
  | stm (f : Form)
  /-- LDFE: Reads a FULL granule, optionally clearing it, or parks the issue set until it fills (R225). -/
  | ldfe (f : Form)
  /-- STFE: Writes a granule and sets it FULL as a release (R226). -/
  | stfe (f : Form)
  /-- ATOM: Performs an indivisible read-modify-write per lane and returns the old value (R228). -/
  | atom (f : Form)
  /-- RED: Performs an indivisible reduction per lane without return (R228). -/
  | red (f : Form)
  /-- LDNT: Non-temporal global load (R223). -/
  | ldnt (f : Form)
  /-- STNT: Non-temporal global store, outside every counter until drained (R223). -/
  | stnt (f : Form)
  /-- PREFETCH: Brings the line of the lowest guard-true lane's address into the caches (R229). -/
  | prefetch (f : Form)
  /-- CCTL: Fetches, writes back and drops, or drops from L1 each lane's line (R229). -/
  | cctl (f : Form)
  /-- PLD: Loads the base VA of a pool record into a scalar register (R230). -/
  | pld (f : Form)
  /-- FENCE: Holds later load-store instructions until all the group's counters are performed at the scope (R232). -/
  | fence (f : Form)
  /-- FENCE_R: Holds later load-store instructions until the counters tagged with the named ranges are performed (R233). -/
  | fenceR (f : Form)
  /-- NTDRAIN: Waits until the group's earlier STNTs are performed at the scope and counts them performed (R234). -/
  | ntdrain (f : Form)
  /-- PUBLISH: Fences, promotes and then swaps front and back of a published buffer once per issue (R235). -/
  | publish (f : Form)
  /-- LDGEN: Reads the generation of a handle's published buffer as an acquire (R236). -/
  | ldgen (f : Form)
  /-- TDLD: Reads and checks a 64-byte tensor descriptor and loads it into a handle (R242). -/
  | tdld (f : Form)
  /-- TDST: Stores one element per lane through a tensor handle (R243). -/
  | tdst (f : Form)
  /-- TDSET: Changes one field of a tensor handle (R244). -/
  | tdset (f : Form)
  /-- MXGO: Checks a matrix parameter block and queues one tile product for the engine (R251). -/
  | mxgo (f : Form)
  /-- MXV: Checks an MXV block and queues one matrix-vector streaming operation (R258). -/
  | mxv (f : Form)
  /-- ACCRD: Reads an accumulator element and converts it to a format (R260). -/
  | accrd (f : Form)
  /-- ACCWR: Writes an accumulator element per lane (R261). -/
  | accwr (f : Form)
  /-- ACCZERO: Zeroes every accumulator tile named in a mask (R262). -/
  | acczero (f : Form)
  /-- XSTART: Restarts an ENDED transfer program with an argument and reports whether it started (R284). -/
  | xstart (f : Form)
  /-- XSIG: ORs signal bits into a transfer program's SIGNAL as a release (R284). -/
  | xsig (f : Form)
  /-- XSTAT: Reads a transfer program's status word and POST value (R284). -/
  | xstat (f : Form)
  /-- WORKNEXT: Takes the team's next piece of the persistent iteration range into five scalar registers (R29). -/
  | worknext (f : Form)
  /-- XADD: Transfer register addition (R271). -/
  | xadd (f : AForm)
  /-- XSUB: Transfer register subtraction (R271). -/
  | xsub (f : AForm)
  /-- XMUL: Transfer register multiplication, low 64 bits (R271). -/
  | xmul (f : AForm)
  /-- XAND: Transfer register bitwise AND (R271). -/
  | xand (f : AForm)
  /-- XIOR: Transfer register bitwise OR (R271). -/
  | xior (f : AForm)
  /-- XXOR: Transfer register bitwise XOR (R271). -/
  | xxor (f : AForm)
  /-- XSHL: Transfer register left shift (R271). -/
  | xshl (f : AForm)
  /-- XSHR: Transfer register logical right shift (R271). -/
  | xshr (f : AForm)
  /-- XSAR: Transfer register arithmetic right shift (R271). -/
  | xsar (f : AForm)
  /-- XMOV: Loads a 16-bit constant into one aligned field of a c register, zeroing the rest (R272). -/
  | xmov (d : BitVec 4) (h : BitVec 2) (v : BitVec 16)
  /-- XMOVK: Replaces one aligned 16-bit field of a c register, keeping the rest (R272). -/
  | xmovk (d : BitVec 4) (h : BitVec 2) (v : BitVec 16)
  /-- XSETK: Sets a loop counter from an immediate or a c register (R272). -/
  | xsetk (n : BitVec 2) (i : Bool) (m : BitVec 23)
  /-- XRDK: Copies a loop counter into a c register (R272). -/
  | xrdk (d : BitVec 4) (n : BitVec 2)
  /-- XLD: Transfer program load into a c register (R274). -/
  | xld (f : MForm)
  /-- XST: Transfer program store of a c register (R274). -/
  | xst (f : MForm)
  /-- XLDX: Transfer program indexed load of an index-list element (R274). -/
  | xldx (c b : BitVec 4) (w : BitVec 2) (sp : Bool) (x : BitVec 4)
  /-- XB: Transfer program branch, unconditional or on a register comparison (R273). -/
  | xb (a b : BitVec 4) (cond : BitVec 3) (o : BitVec 11)
  /-- XLOOP: Decrements a loop counter and branches while it is non-zero (R273). -/
  | xloop (n : BitVec 2) (o : BitVec 11)
  /-- XSWAIT: Waits until masked SIGNAL bits are set, then takes and clears them (R281). -/
  | xswait (d : BitVec 4) (m : BitVec 16)
  /-- XPOST: Writes POST after earlier accesses are performed at TEAM scope, as a release (R281). -/
  | xpost (a : BitVec 4)
  /-- XADDR: Computes the address of a tensor element through a handle (R275). -/
  | xaddr (d : BitVec 4) (h : BitVec 6) (i : BitVec 4) (n : BitVec 3)
  /-- XCOPY: Queues a bulk copy whose bytes credit a barrier as they land (R276). -/
  | xcopy (f : XForm) (g : CopyWord)
  /-- XGATH: Queues a bulk gather of rows through an index list (R278). -/
  | xgath (f : XForm) (g : RowWord)
  /-- XSCAT: Queues a bulk scatter of rows through an index list (R278). -/
  | xscat (f : XForm) (g : RowWord)
  /-- XARV: After earlier stores are performed, adds one arrival and a byte count to a barrier (R279). -/
  | xarv (f : VForm)
  /-- XWAIT: Continues if the barrier phase differs from the operand, otherwise waits for a flip (R279). -/
  | xwait (f : VForm)
  /-- XFE: After earlier stores are performed, sets consecutive granules FULL as a release (R280). -/
  | xfe (b : BitVec 4) (o : BitVec 13) (g : BitVec 9)
  /-- XPUB: Performs PUBLISH for the transfer program (R280). -/
  | xpub (h : BitVec 6) (scope : BitVec 3)
  /-- XFENCE: Fences the program's accesses over all counters or over named ranges (R280). -/
  | xfence (f : FenceForm)
  /-- XEND: Ends the transfer program while queued bulk operations continue (R281). -/
  | xend
  /-- XTRAP: Holds the transfer program with a TRAP record carrying a code (R281). -/
  | xtrap (code : BitVec 16)
  /-- XNOP: Transfer program no-operation (R281). -/
  | xnop
  /-- SPIN_EXPIRY: When GRP_SPINCNT reaches GRP_SPINLIM the next selection rotates to another distinct key (R39). -/
  | spinExpiry (g : GroupRef)
  /-- BREAKPOINT_HIT: An issue set about to issue an enabled breakpoint PC holds with BREAK before any effect (R389). -/
  | breakpointHit (g : GroupRef)
  /-- MAYBE_FAULT_CHECK_DONE: All lanes of a maybe-fault issue pass or hold, fixing the completion mask and records, and the group becomes ready (R311). -/
  | maybeFaultCheckDone (g : GroupRef)
  /-- FAULT_RECORD_DEFERRED: A party waiting for a free fault-queue place writes its record when one frees (R314). -/
  | faultRecordDeferred
  /-- FPX_WINDOW_CLOSE: 64 clk after opening, the FP exception window writes one record naming its lowest thread (R317). -/
  | fpxWindowClose (core launch : Nat)
  /-- LOAD_RESULT_RETURN: A scoreboarded load or atomic result arrives and its destination becomes readable (R221). -/
  | loadResultReturn (g : GroupRef) (tag : Nat)
  /-- OVERFLOW_READ_FILL: An overflow register read completes from the overflow cache or the backing store (R50). -/
  | overflowReadFill (g : GroupRef) (tag : Nat)
  /-- ACCESS_PERFORMED: A counted access becomes performed at a scope and leaves its counter at SYSTEM scope (R193). -/
  | accessPerformed (p : PartyRef) (n scope : Nat)
  /-- FENCE_COMPLETE: A waiting fence finds its counters performed and releases later load-store instructions (R201). -/
  | fenceComplete (p : PartyRef)
  /-- NTDRAIN_COMPLETE: A waiting NTDRAIN finds its STNTs performed and counts them performed (R234). -/
  | ntdrainComplete (p : PartyRef)
  /-- PUBLISH_SWAP: After its wait, PUBLISH swaps FRONT and BACK and increments GEN device-wide in one step (R191). -/
  | publishSwap (p : PartyRef)
  /-- PROMOTE_REQUEST: A promote message makes the tag's core perform its covered releases at DEVICE scope and reply (R199). -/
  | promoteRequest (p : PartyRef) (n : Nat)
  /-- PROMOTE_REPLY: The promote reply arrives and the waiting reading access completes (R199). -/
  | promoteReply (p : PartyRef) (n : Nat)
  /-- REGGROW_GRANT: Free rows are granted to a waiting requester, moving allotments and loading its rows (R53). -/
  | reggrowGrant (core part : Nat)
  /-- REGISTER_RECLAIM: When every group of a partition waits or is stopped, victim teams are spilled until the requester fits (R54). -/
  | registerReclaim (core part : Nat)
  /-- ENGINE_OP_START: The engine takes the next accepted operation from its queue in acceptance order (R252). -/
  | engineOpStart (core : Nat)
  /-- ENGINE_STEP_COMMIT: The engine finishes a K-step and commits every element of that step at once (R253). -/
  | engineStepCommit (core : Nat)
  /-- BULK_BYTE_CREDIT: Bulk bytes land at their destination, set granules FULL and are credited to the barrier (R277). -/
  | bulkByteCredit (x : ProgRef) (op unit : Nat)
  /-- TRANSFER_LOAD_RETURN: A transfer program's load or index read returns its value (R267). -/
  | transferLoadReturn (x : ProgRef) (c : Nat)
  /-- XARV_APPLY: After its wait, XARV applies its arrival and byte count as a release (R279). -/
  | xarvApply (x : ProgRef)
  /-- TEAM_RETIRE: When groups, programs, engine operations and stores are all finished the team retires and frees its resources (R21). -/
  | teamRetire (t : TeamRef)
  /-- LAUNCH_COMPLETE: After the last team retires the launch writes its status word and completes its packet or firing (R360). -/
  | launchComplete (launch : Nat)
  /-- PLACEMENT_DECISION: A herd places the head cluster, back-fills another, or places nothing (R364). -/
  | placementDecision (herd winOff : Nat)
  /-- HEAD_AGE_EXPIRY: A head that has waited AGE_LIMIT ages and reserves a herd (R364). -/
  | headAgeExpiry
  /-- STALL_VACATE: After 100 µs with no runnable resident lane and a cluster waiting, the highest-key resident cluster is vacated (R24). -/
  | stallVacate (launch : Nat)
  /-- SPATIAL_PREEMPTION: A launch's request for k cores takes free cores and vacates lower-priority clusters (R322). -/
  | spatialPreemption (launch : Nat)
  /-- VACATE_TEAM: Groups stop at pre-emption points, counters drain and programs and engines stop (R323). -/
  | vacateTeam (t : TeamRef)
  /-- CONTEXT_WRITE: A drained team's context is written encrypted to firmware-held HBM (R324). -/
  | contextWrite (t : TeamRef)
  /-- CONTEXT_RESTORE: A vacated cluster is restored whole onto cores that can take it, or refused (R325). -/
  | contextRestore (launch key : Nat) (cores : List Nat)
  /-- WATCHDOG_EXPIRY: A team's stalled-clock count reaching its limit ends it with WATCHDOG (R321). -/
  | watchdogExpiry (t : TeamRef)
  /-- CLUSTER_FREE: Once an ended cluster's accesses are performed, its cores, windows and grants are freed (R319). -/
  | clusterFree (launch key : Nat)
  /-- CLUSTER_RELAUNCH: An ended cluster of an IDEMPOTENT launch is relaunched from its start within the retry limit (R320). -/
  | clusterRelaunch (launch key : Nat)
  /-- HOT_EPOCH_END: A hot-segment entry's 2^20-clock epoch ends and its count or marks reset by progress (R286). -/
  | hotEpochEnd (core entry : Nat)
  /-- FORAGE_SEARCH_DONE: A search ends with an acceptable candidate or marks the entry done (R293). -/
  | forageSearchDone (core entry : Nat) (cand : Option Candidate)
  /-- TETHER_COMPARE: The candidate's live-outs for one execution are compared with the original's (R289). -/
  | tetherCompare (core place : Nat)
  /-- FORAGE_AUDIT_COMPARE: An audit execution's candidate is compared with the committed original (R298). -/
  | forageAuditCompare (core place : Nat)
  /-- FORAGE_RELAUNCH: After all teams retire, teams that used a withdrawn overlay are relaunched (R300). -/
  | forageRelaunch (launch : Nat)
  /-- QUEUE_UNMAP: QIDLE with no signal store and no unclaimed packet unmaps a queue, writing back its ticket (R353). -/
  | queueUnmap (slot : Nat)
  /-- PACKET_CLAIM: A free open agent claims the next packet of a mapped slot by CAS on its ticket (R355). -/
  | packetClaim (core slot : Nat)
  /-- LAUNCH: Reads and checks a launch parameter block and enters the launch in the launch table or rejects it (R359). -/
  | launch (core : Nat)
  /-- LAUNCH_TABLE_ADMIT: A launch held for a full table enters it when a place frees (R362). -/
  | launchTableAdmit (core : Nat)
  /-- SIGNAL: Stores or atomically adds a value at SYSTEM scope as a release (R357). -/
  | signal (core : Nat)
  /-- WAIT: Starts waiting until a word meets a condition (R357). -/
  | wait (core : Nat)
  /-- WAIT_SATISFIED: The waited word meets its condition and the WAIT completes (R357). -/
  | waitSatisfied (core : Nat)
  /-- WAIT_TIMEOUT: A WAIT's timeout expires and stops the queue with QERR_TIMEOUT (R356). -/
  | waitTimeout (core : Nat)
  /-- INDIRECT: Checks nesting and runs an array of packets in order (R358). -/
  | indirect (core : Nat)
  /-- TTSET: Writes a whole time-trigger entry, dropping its pending start (R366). -/
  | ttset (core : Nat)
  /-- ATTEST: Writes a signed attestation report over a nonce and the measurement chain (R381). -/
  | attest (core : Nat)
  /-- MANIFEST: Compares a stored manifest with the present one and writes the result (R377). -/
  | manifest (core : Nat)
  /-- SCAN: Passes a scan request to the named core's agent, which runs it when free (R357). -/
  | scan (core : Nat)
  /-- QUEUE_FENCE: Completes when every earlier packet is complete and its writes performed at SYSTEM scope (R357). -/
  | queueFence (core : Nat)
  /-- TIME_TRIGGER_FIRE: An enabled entry's slot time starts its launch, skips it or holds it pending (R367). -/
  | timeTriggerFire (entry : Nat)
  /-- SCAN_DRAINED: A DRAINING core meeting every drain condition becomes DRAINED (R348). -/
  | scanDrained (core : Nat)
  /-- SCAN_PATTERN_END: After 480,000 clk the core is reset and the signature compared, giving PASSED or FAILED (R349). -/
  | scanPatternEnd (core : Nat) (sig : BitVec 64) (faildom : BitVec 8)
  /-- ERROR_RECORD_DEFERRED: A waiting error record is written when an error-queue place frees (R371). -/
  | errorRecordDeferred
  /-- PREDICT_INTERVAL_END: At each interval end counts passing their limits write PREDICT records (R373). -/
  | predictIntervalEnd
  /-- SCOREBOARD_RESULT_ARRIVAL: A scoreboarded result of IMUL, IMAD, QDOT4, FP64, cross-lane, SFU or a core CSRR arrives and the waiting group becomes ready (R43). -/
  | scoreboardResultArrival (g : GroupRef) (tag : Nat)
  /-- TRACE_CACHE_FILL: A trace-cache miss finishes fetching the segment from text, readying the group or holding the lanes at the start PC on a fetch fault (R343). -/
  | traceCacheFill (g : GroupRef)
  /-- IDLE_ISSUE_POSITION: In a clock where no group fills an issue position, it is offered to the Forage slot or counted idle (R44). -/
  | idleIssuePosition (core part : Nat) (forage : Bool)
  /-- TRANSFER_ILLEGAL_WORD: A transfer program reaches a reserved or malformed word, or its XPC leaves the window, and its team ends with TX_FAULT (R270). -/
  | transferIllegalWord (x : ProgRef)
  /-- FAULT_ACK: Writing a SEQ resolves the record with resume, returning the hold set when its last record resolves (R308). -/
  | faultAck (port : FaultPort) (seq : BitVec 64)
  /-- FAULT_KILL: Writing a SEQ resolves the record with kill, ending its team (R316). -/
  | faultKill (port : FaultPort) (seq : BitVec 64)
  /-- SIGNAL_STORE: A store to a queue's signal word maps the queue to a hardware slot or pends it (R353). -/
  | signalStore (queue : Nat) (w : BitVec 64)
  /-- QUEUE_RECORD_WRITE: The host writes a queue record, creating it or clearing its error to resume claiming (R352). -/
  | queueRecordWrite (queue owner : Nat) (secure : Bool) (r : List (BitVec 8))
  /-- SCAN_CLOSE: SCAN_CTL CLOSE closes the core to dispatch and enters DRAINING or DRAINED (R347). -/
  | scanClose (core : Nat) (v : BitVec 64)
  /-- SCAN_START: SCAN_CTL START runs the selected pattern and enters RUNNING (R349). -/
  | scanStart (core : Nat) (v : BitVec 64)
  /-- SCAN_OPEN: SCAN_CTL OPEN reopens the core to dispatch (R347). -/
  | scanOpen (core : Nat) (v : BitVec 64)
  /-- SCAN_REMOVE: SCAN_CTL REMOVE starts a new map epoch without the core and writes an error record (R351). -/
  | scanRemove (core : Nat) (v : BitVec 64)
  /-- SCAN_CTL_NO_COMMAND: A SCAN_CTL write with no command updates PRIO and PAT only (R347). -/
  | scanCtlNoCommand (core : Nat) (v : BitVec 64)
  /-- ERROR_DETECTED: A check detects a corrected or uncorrected error, writes an error record and starts self-test (R369). -/
  | errorDetected (e : ErrorInput)
  /-- LINK_CRC_ERROR: A flit CRC failure is replayed, and repeated failures retrain the link (R369). -/
  | linkCrcError (unit die idx : Nat) (retrain : Bool)
  /-- SELFTEST_DONE: A targeted self-test ends with a SELFTEST record of TRANSIENT, SPARED or RETIRED (R372). -/
  | selftestDone (n outcome : Nat)
  /-- ERROR_QUEUE_FREE: The host frees a place in the device error queue (R371). -/
  | errorQueueFree (n : Nat)
  /-- DIE_THERMAL_TRIP: A die at 105 °C closes its cores and vacates its clusters (R392). -/
  | dieThermalTrip (die : Nat)
  /-- DIE_THERMAL_REOPEN: A die cooled below 95 °C reopens and bound clusters are restored (R392). -/
  | dieThermalReopen (die : Nat)
  /-- POWER_CAP_CHECK: Each 1 ms average of module power above CAP withholds issue positions (R392). -/
  | powerCapCheck (meas : BitVec 16)
  /-- MODULE_RESET: Module reset applies the removed-core list and builds the logical core map (R374). -/
  | moduleReset
  /-- PTP_MESSAGE: An IEEE 1588 message updates device time by slewing or one forward step (R386). -/
  | ptpMessage (offset : Int) (port : BitVec 8)
  /-- FIRMWARE_HANDOVER_COMMIT: All agents change to the incoming firmware in one device-wide step (R382). -/
  | firmwareHandoverCommit
  /-- FIRMWARE_HANDOVER_ABANDON: An abandoned hand-over clears the pending measurement (R382). -/
  | firmwareHandoverAbandon
  /-- KEY_SLOT_LOAD: The secure host channel loads an owner key slot (R380). -/
  | keySlotLoad (key : KeyAccess)
  /-- KEY_SLOT_CLEAR: The secure host channel clears an owner key slot (R380). -/
  | keySlotClear (key : KeyAccess)
  /-- OBJECT_REGISTER: The loader places, patches, measures and verifies an object and returns a result (R340). -/
  | objectRegister (r : RegisterInput)
  /-- OBJECT_UNREGISTER: Waits for the object's launches, then drops its trace segments and overlays and frees it (R338). -/
  | objectUnregister (obj : Nat)
  /-- HOST_MEMORY_READ: A host session reads launch memory through translation (R385). -/
  | hostMemoryRead (owner : Nat) (secure : Bool) (va len : Nat)
  /-- HOST_MEMORY_WRITE: A host session writes launch memory, performed at SYSTEM scope before acknowledgement (R385). -/
  | hostMemoryWrite (owner : Nat) (secure : Bool) (va : Nat) (bytes : List (BitVec 8))
  /-- PEER_ACCESS: A peer device accesses a page mapped to it over a scale-up plane (R387). -/
  | peerAccess (a : PeerInput)
  /-- DBG_HALT: Halts each group of a team at its next pre-emption point with BREAK (R390). -/
  | dbgHalt (port : DebugPort) (team : BitVec 64)
  /-- DBG_STEP: Resolves a BREAK record so its lanes issue one instruction and hold again (R390). -/
  | dbgStep (port : DebugPort) (seq : BitVec 64)
  /-- LCR_CLEAR: Writing LCR_CTL.CLR zeroes every counter of the core in one clock (R46). -/
  | lcrClear (core : Nat)
  /-- FORAGE_BLACKLIST_CLEAR: Writing FORAGE_CTL.BLCLR clears every blacklist mark of the core (R304). -/
  | forageBlacklistClear (core : Nat)
  /-- FORAGE_DISABLE: Clearing FORAGE_CTL.EN stops Forage and drops every overlay without record (R304). -/
  | forageDisable (core : Nat)
  /-- FP_FLAG_CLEAR: A write to a GRP_FPF CSR waits for earlier flags and clears the bits written as 1 (R168). -/
  | fpFlagClear (g : GroupRef) (csr : Nat) (v : BitVec 64)
  /-- REGISTER_WRITE: A write to any CSR without a row of its own updates fields by their access codes (R328). -/
  | registerWrite (host : Option Cred) (core csr : Nat) (v : BitVec 64)
  /-- TLB_SHOOTDOWN: Firmware changes a mapping together with a shootdown of both TLB levels on every core (R177). -/
  | tlbShootdown (old : Option (Nat × Nat)) (page : Option PageMap)
  /-- PUBLISHED_BUFFER_CREATE: Firmware creates a published-buffer entry on host command (R190). -/
  | publishedBufferCreate (n front back owner len : Nat)
  /-- PUBLISHED_BUFFER_FREE: Firmware frees a published-buffer entry on host command (R190). -/
  | publishedBufferFree (n : Nat)
  /-- FIRMWARE_HANDOVER_START: A live firmware hand-over begins, so reports set HANDOVER_PENDING and carry the incoming measurement (R382). -/
  | firmwareHandoverStart (m : BitVec 512)
  /-- PTP_HOLDOVER: Loss of the time master moves DEV_PTP STATE from locked to holdover (R386). -/
  | ptpHoldover
  /-- PEER_PAGE_UNREACHABLE: A peer device's page becomes unreachable, and accesses to it fault XLATE until firmware maps it again (R387). -/
  | peerPageUnreachable (owner va : Nat)
  deriving DecidableEq, Repr

/-- The instruction an operation and its fields make. -/
def Instr.ofOp (o : Op) (f : Form) : Instr :=
  match o with
  | .iadd => .iadd f
  | .isub => .isub f
  | .imul => .imul f
  | .imad => .imad f
  | .imin => .imin f
  | .imax => .imax f
  | .iabs => .iabs f
  | .ineg => .ineg f
  | .and => .and f
  | .or => .or f
  | .xor => .xor f
  | .andn => .andn f
  | .not => .not f
  | .shl => .shl f
  | .shr => .shr f
  | .sar => .sar f
  | .rot => .rot f
  | .popc => .popc f
  | .clz => .clz f
  | .ctz => .ctz f
  | .brev => .brev f
  | .bfx => .bfx f
  | .bfi => .bfi f
  | .perm => .perm f
  | .sel => .sel f
  | .icmp => .icmp f
  | .lea => .lea f
  | .pand => .pand f
  | .por => .por f
  | .pxor => .pxor f
  | .pnot => .pnot f
  | .pmov => .pmov f
  | .awset => .awset f
  | .reggrow => .reggrow f
  | .regshrink => .regshrink f
  | .sadd => .sadd f
  | .ssub => .ssub f
  | .smul => .smul f
  | .sand => .sand f
  | .sor => .sor f
  | .sxor => .sxor f
  | .sshl => .sshl f
  | .sshr => .sshr f
  | .scmp => .scmp f
  | .smov => .smov f
  | .sld => .sld f
  | .bcast => .bcast f
  | .readlane => .readlane f
  | .br => .br f
  | .jmpDirect => .jmpDirect f
  | .jmpRegister => .jmpRegister f
  | .call => .call f
  | .calli => .calli f
  | .ret => .ret f
  | .exit => .exit f
  | .next => .next f
  | .park => .park f
  | .parkFull => .parkFull f
  | .yield => .yield f
  | .nop => .nop f
  | .shfl => .shfl f
  | .vote => .vote f
  | .redux => .redux f
  | .scanx => .scanx f
  | .matchLanes => .matchLanes f
  | .elect => .elect f
  | .barsync => .barsync f
  | .barinit => .barinit f
  | .bararv => .bararv f
  | .barwait => .barwait f
  | .syncm => .syncm f
  | .csrr => .csrr f
  | .csrw => .csrw f
  | .syscall => .syscall f
  | .eret => .eret f
  | .trap => .trap f
  | .brk => .brk f
  | .fadd => .fadd f
  | .fsub => .fsub f
  | .fmul => .fmul f
  | .ffma => .ffma f
  | .fmin => .fmin f
  | .fmax => .fmax f
  | .fcmp => .fcmp f
  | .fclass => .fclass f
  | .frcp => .frcp f
  | .frsq => .frsq f
  | .fsqrt => .fsqrt f
  | .fexp2 => .fexp2 f
  | .flog2 => .flog2 f
  | .fsin => .fsin f
  | .fcos => .fcos f
  | .ftanh => .ftanh f
  | .dadd => .dadd f
  | .dmul => .dmul f
  | .dfma => .dfma f
  | .hadd2 => .hadd2 f
  | .hfma2 => .hfma2 f
  | .fcvt => .fcvt f
  | .f2i => .f2i f
  | .i2f => .i2f f
  | .qdot4 => .qdot4 f
  | .pack => .pack f
  | .unpack => .unpack f
  | .ld => .ld f
  | .st => .st f
  | .ldm => .ldm f
  | .stm => .stm f
  | .ldfe => .ldfe f
  | .stfe => .stfe f
  | .atom => .atom f
  | .red => .red f
  | .ldnt => .ldnt f
  | .stnt => .stnt f
  | .prefetch => .prefetch f
  | .cctl => .cctl f
  | .pld => .pld f
  | .fence => .fence f
  | .fenceR => .fenceR f
  | .ntdrain => .ntdrain f
  | .publish => .publish f
  | .ldgen => .ldgen f
  | .tdld => .tdld f
  | .tdst => .tdst f
  | .tdset => .tdset f
  | .mxgo => .mxgo f
  | .mxv => .mxv f
  | .accrd => .accrd f
  | .accwr => .accwr f
  | .acczero => .acczero f
  | .xstart => .xstart f
  | .xsig => .xsig f
  | .xstat => .xstat f
  | .worknext => .worknext f

/-- The operation and fields of a compute instruction; none for UDF, a transfer instruction or an event. -/
def Instr.opForm (i : Instr) : Option (Op × Form) :=
  match i with
  | .iadd f => some (.iadd, f)
  | .isub f => some (.isub, f)
  | .imul f => some (.imul, f)
  | .imad f => some (.imad, f)
  | .imin f => some (.imin, f)
  | .imax f => some (.imax, f)
  | .iabs f => some (.iabs, f)
  | .ineg f => some (.ineg, f)
  | .and f => some (.and, f)
  | .or f => some (.or, f)
  | .xor f => some (.xor, f)
  | .andn f => some (.andn, f)
  | .not f => some (.not, f)
  | .shl f => some (.shl, f)
  | .shr f => some (.shr, f)
  | .sar f => some (.sar, f)
  | .rot f => some (.rot, f)
  | .popc f => some (.popc, f)
  | .clz f => some (.clz, f)
  | .ctz f => some (.ctz, f)
  | .brev f => some (.brev, f)
  | .bfx f => some (.bfx, f)
  | .bfi f => some (.bfi, f)
  | .perm f => some (.perm, f)
  | .sel f => some (.sel, f)
  | .icmp f => some (.icmp, f)
  | .lea f => some (.lea, f)
  | .pand f => some (.pand, f)
  | .por f => some (.por, f)
  | .pxor f => some (.pxor, f)
  | .pnot f => some (.pnot, f)
  | .pmov f => some (.pmov, f)
  | .awset f => some (.awset, f)
  | .reggrow f => some (.reggrow, f)
  | .regshrink f => some (.regshrink, f)
  | .sadd f => some (.sadd, f)
  | .ssub f => some (.ssub, f)
  | .smul f => some (.smul, f)
  | .sand f => some (.sand, f)
  | .sor f => some (.sor, f)
  | .sxor f => some (.sxor, f)
  | .sshl f => some (.sshl, f)
  | .sshr f => some (.sshr, f)
  | .scmp f => some (.scmp, f)
  | .smov f => some (.smov, f)
  | .sld f => some (.sld, f)
  | .bcast f => some (.bcast, f)
  | .readlane f => some (.readlane, f)
  | .br f => some (.br, f)
  | .jmpDirect f => some (.jmpDirect, f)
  | .jmpRegister f => some (.jmpRegister, f)
  | .call f => some (.call, f)
  | .calli f => some (.calli, f)
  | .ret f => some (.ret, f)
  | .exit f => some (.exit, f)
  | .next f => some (.next, f)
  | .park f => some (.park, f)
  | .parkFull f => some (.parkFull, f)
  | .yield f => some (.yield, f)
  | .nop f => some (.nop, f)
  | .udf _ _ _ _ _ => none
  | .shfl f => some (.shfl, f)
  | .vote f => some (.vote, f)
  | .redux f => some (.redux, f)
  | .scanx f => some (.scanx, f)
  | .matchLanes f => some (.matchLanes, f)
  | .elect f => some (.elect, f)
  | .barsync f => some (.barsync, f)
  | .barinit f => some (.barinit, f)
  | .bararv f => some (.bararv, f)
  | .barwait f => some (.barwait, f)
  | .syncm f => some (.syncm, f)
  | .csrr f => some (.csrr, f)
  | .csrw f => some (.csrw, f)
  | .syscall f => some (.syscall, f)
  | .eret f => some (.eret, f)
  | .trap f => some (.trap, f)
  | .brk f => some (.brk, f)
  | .fadd f => some (.fadd, f)
  | .fsub f => some (.fsub, f)
  | .fmul f => some (.fmul, f)
  | .ffma f => some (.ffma, f)
  | .fmin f => some (.fmin, f)
  | .fmax f => some (.fmax, f)
  | .fcmp f => some (.fcmp, f)
  | .fclass f => some (.fclass, f)
  | .frcp f => some (.frcp, f)
  | .frsq f => some (.frsq, f)
  | .fsqrt f => some (.fsqrt, f)
  | .fexp2 f => some (.fexp2, f)
  | .flog2 f => some (.flog2, f)
  | .fsin f => some (.fsin, f)
  | .fcos f => some (.fcos, f)
  | .ftanh f => some (.ftanh, f)
  | .dadd f => some (.dadd, f)
  | .dmul f => some (.dmul, f)
  | .dfma f => some (.dfma, f)
  | .hadd2 f => some (.hadd2, f)
  | .hfma2 f => some (.hfma2, f)
  | .fcvt f => some (.fcvt, f)
  | .f2i f => some (.f2i, f)
  | .i2f f => some (.i2f, f)
  | .qdot4 f => some (.qdot4, f)
  | .pack f => some (.pack, f)
  | .unpack f => some (.unpack, f)
  | .ld f => some (.ld, f)
  | .st f => some (.st, f)
  | .ldm f => some (.ldm, f)
  | .stm f => some (.stm, f)
  | .ldfe f => some (.ldfe, f)
  | .stfe f => some (.stfe, f)
  | .atom f => some (.atom, f)
  | .red f => some (.red, f)
  | .ldnt f => some (.ldnt, f)
  | .stnt f => some (.stnt, f)
  | .prefetch f => some (.prefetch, f)
  | .cctl f => some (.cctl, f)
  | .pld f => some (.pld, f)
  | .fence f => some (.fence, f)
  | .fenceR f => some (.fenceR, f)
  | .ntdrain f => some (.ntdrain, f)
  | .publish f => some (.publish, f)
  | .ldgen f => some (.ldgen, f)
  | .tdld f => some (.tdld, f)
  | .tdst f => some (.tdst, f)
  | .tdset f => some (.tdset, f)
  | .mxgo f => some (.mxgo, f)
  | .mxv f => some (.mxv, f)
  | .accrd f => some (.accrd, f)
  | .accwr f => some (.accwr, f)
  | .acczero f => some (.acczero, f)
  | .xstart f => some (.xstart, f)
  | .xsig f => some (.xsig, f)
  | .xstat f => some (.xstat, f)
  | .worknext f => some (.worknext, f)
  | .xadd _ => none
  | .xsub _ => none
  | .xmul _ => none
  | .xand _ => none
  | .xior _ => none
  | .xxor _ => none
  | .xshl _ => none
  | .xshr _ => none
  | .xsar _ => none
  | .xmov _ _ _ => none
  | .xmovk _ _ _ => none
  | .xsetk _ _ _ => none
  | .xrdk _ _ => none
  | .xld _ => none
  | .xst _ => none
  | .xldx _ _ _ _ _ => none
  | .xb _ _ _ _ => none
  | .xloop _ _ => none
  | .xswait _ _ => none
  | .xpost _ => none
  | .xaddr _ _ _ _ => none
  | .xcopy _ _ => none
  | .xgath _ _ => none
  | .xscat _ _ => none
  | .xarv _ => none
  | .xwait _ => none
  | .xfe _ _ _ => none
  | .xpub _ _ => none
  | .xfence _ => none
  | .xend => none
  | .xtrap _ => none
  | .xnop => none
  | .spinExpiry _ => none
  | .breakpointHit _ => none
  | .maybeFaultCheckDone _ => none
  | .faultRecordDeferred => none
  | .fpxWindowClose _ _ => none
  | .loadResultReturn _ _ => none
  | .overflowReadFill _ _ => none
  | .accessPerformed _ _ _ => none
  | .fenceComplete _ => none
  | .ntdrainComplete _ => none
  | .publishSwap _ => none
  | .promoteRequest _ _ => none
  | .promoteReply _ _ => none
  | .reggrowGrant _ _ => none
  | .registerReclaim _ _ => none
  | .engineOpStart _ => none
  | .engineStepCommit _ => none
  | .bulkByteCredit _ _ _ => none
  | .transferLoadReturn _ _ => none
  | .xarvApply _ => none
  | .teamRetire _ => none
  | .launchComplete _ => none
  | .placementDecision _ _ => none
  | .headAgeExpiry => none
  | .stallVacate _ => none
  | .spatialPreemption _ => none
  | .vacateTeam _ => none
  | .contextWrite _ => none
  | .contextRestore _ _ _ => none
  | .watchdogExpiry _ => none
  | .clusterFree _ _ => none
  | .clusterRelaunch _ _ => none
  | .faultAck _ _ => none
  | .faultKill _ _ => none
  | .hotEpochEnd _ _ => none
  | .forageSearchDone _ _ _ => none
  | .tetherCompare _ _ => none
  | .forageAuditCompare _ _ => none
  | .forageRelaunch _ => none
  | .signalStore _ _ => none
  | .queueUnmap _ => none
  | .queueRecordWrite _ _ _ _ => none
  | .packetClaim _ _ => none
  | .launch _ => none
  | .launchTableAdmit _ => none
  | .signal _ => none
  | .wait _ => none
  | .waitSatisfied _ => none
  | .waitTimeout _ => none
  | .indirect _ => none
  | .ttset _ => none
  | .attest _ => none
  | .manifest _ => none
  | .scan _ => none
  | .queueFence _ => none
  | .timeTriggerFire _ => none
  | .scanClose _ _ => none
  | .scanStart _ _ => none
  | .scanOpen _ _ => none
  | .scanRemove _ _ => none
  | .scanCtlNoCommand _ _ => none
  | .scanDrained _ => none
  | .scanPatternEnd _ _ _ => none
  | .errorDetected _ => none
  | .linkCrcError _ _ _ _ => none
  | .selftestDone _ _ => none
  | .errorRecordDeferred => none
  | .errorQueueFree _ => none
  | .predictIntervalEnd => none
  | .dieThermalTrip _ => none
  | .dieThermalReopen _ => none
  | .powerCapCheck _ => none
  | .moduleReset => none
  | .ptpMessage _ _ => none
  | .firmwareHandoverCommit => none
  | .firmwareHandoverAbandon => none
  | .keySlotLoad _ => none
  | .keySlotClear _ => none
  | .objectRegister _ => none
  | .objectUnregister _ => none
  | .hostMemoryRead _ _ _ _ => none
  | .hostMemoryWrite _ _ _ _ => none
  | .peerAccess _ => none
  | .dbgHalt _ _ => none
  | .dbgStep _ _ => none
  | .lcrClear _ => none
  | .forageBlacklistClear _ => none
  | .forageDisable _ => none
  | .fpFlagClear _ _ _ => none
  | .registerWrite _ _ _ _ => none
  | .scoreboardResultArrival _ _ => none
  | .traceCacheFill _ => none
  | .idleIssuePosition _ _ _ => none
  | .tlbShootdown _ _ => none
  | .publishedBufferCreate _ _ _ _ _ => none
  | .publishedBufferFree _ => none
  | .firmwareHandoverStart _ => none
  | .ptpHoldover => none
  | .peerPageUnreachable _ _ => none
  | .transferIllegalWord _ => none

end Sys2Proof
end

