-- ==== Sys2Proof/Machine/Forms.lean ====
section
/-! DEFINITION. What each compute and transfer word may hold: opcode bytes (07 R97), the kind of each selector position,
the fields each operation uses, and the checks of R99 in their two classes, form and operand. The decoder refuses what these
checks refuse and `WellFormed` says that they pass. -/
namespace Sys2Proof.Machine

/-- The opcode byte of an operation, bits [9:2] of the base word (07 R97). -/
def opCode (o : Op) : BitVec 8 :=
  match o with
  | .iadd => 0x00#8 | .isub => 0x01#8 | .imul => 0x02#8 | .imad => 0x03#8 | .imin => 0x04#8 | .imax => 0x05#8
  | .iabs => 0x06#8 | .ineg => 0x07#8 | .and => 0x08#8 | .or => 0x09#8 | .xor => 0x0A#8 | .andn => 0x0B#8
  | .not => 0x0C#8 | .shl => 0x0D#8 | .shr => 0x0E#8 | .sar => 0x0F#8 | .rot => 0x10#8 | .popc => 0x11#8
  | .clz => 0x12#8 | .ctz => 0x13#8 | .brev => 0x14#8 | .bfx => 0x15#8 | .bfi => 0x16#8 | .perm => 0x17#8
  | .sel => 0x18#8 | .icmp => 0x19#8 | .lea => 0x1A#8 | .pand => 0x20#8 | .por => 0x21#8 | .pxor => 0x22#8
  | .pnot => 0x23#8 | .pmov => 0x24#8 | .awset => 0x30#8 | .reggrow => 0x31#8 | .regshrink => 0x32#8
  | .sadd => 0x40#8 | .ssub => 0x41#8 | .smul => 0x42#8 | .sand => 0x43#8 | .sor => 0x44#8 | .sxor => 0x45#8
  | .sshl => 0x46#8 | .sshr => 0x47#8 | .scmp => 0x48#8 | .smov => 0x49#8 | .sld => 0x4A#8 | .bcast => 0x4B#8
  | .readlane => 0x4C#8 | .br => 0x60#8 | .jmpDirect => 0x61#8 | .jmpRegister => 0x61#8 | .call => 0x62#8
  | .calli => 0x63#8 | .ret => 0x64#8 | .exit => 0x65#8 | .next => 0x66#8 | .park => 0x67#8
  | .parkFull => 0x67#8 | .yield => 0x68#8 | .nop => 0x69#8 | .shfl => 0x6A#8 | .vote => 0x6B#8
  | .redux => 0x6C#8 | .scanx => 0x6D#8 | .matchLanes => 0x6E#8 | .elect => 0x6F#8 | .barsync => 0x70#8
  | .barinit => 0x71#8 | .bararv => 0x72#8 | .barwait => 0x73#8 | .syncm => 0x74#8 | .csrr => 0x78#8
  | .csrw => 0x79#8 | .syscall => 0x7A#8 | .eret => 0x7B#8 | .trap => 0x7C#8 | .brk => 0x7D#8 | .fadd => 0x80#8
  | .fsub => 0x81#8 | .fmul => 0x82#8 | .ffma => 0x83#8 | .fmin => 0x84#8 | .fmax => 0x85#8 | .fcmp => 0x86#8
  | .fclass => 0x87#8 | .frcp => 0x88#8 | .frsq => 0x89#8 | .fsqrt => 0x8A#8 | .fexp2 => 0x8B#8
  | .flog2 => 0x8C#8 | .fsin => 0x8D#8 | .fcos => 0x8E#8 | .ftanh => 0x8F#8 | .dadd => 0x90#8 | .dmul => 0x91#8
  | .dfma => 0x92#8 | .hadd2 => 0x93#8 | .hfma2 => 0x94#8 | .fcvt => 0xA0#8 | .f2i => 0xA1#8 | .i2f => 0xA2#8
  | .qdot4 => 0xA3#8 | .pack => 0xA4#8 | .unpack => 0xA5#8 | .ld => 0xC0#8 | .st => 0xC1#8 | .ldm => 0xC2#8
  | .stm => 0xC3#8 | .ldfe => 0xC4#8 | .stfe => 0xC5#8 | .atom => 0xC6#8 | .red => 0xC7#8 | .ldnt => 0xC8#8
  | .stnt => 0xC9#8 | .prefetch => 0xCA#8 | .cctl => 0xCB#8 | .pld => 0xCC#8 | .fence => 0xD0#8
  | .fenceR => 0xD1#8 | .ntdrain => 0xD2#8 | .publish => 0xD3#8 | .ldgen => 0xD4#8 | .tdld => 0xE0#8
  | .tdst => 0xE1#8 | .tdset => 0xE2#8 | .mxgo => 0xE3#8 | .mxv => 0xE4#8 | .accrd => 0xE5#8 | .accwr => 0xE6#8
  | .acczero => 0xE7#8 | .xstart => 0xE8#8 | .xsig => 0xE9#8 | .xstat => 0xEA#8 | .worknext => 0xEB#8

/-- The operation an opcode byte and a SUB field name; none for a reserved opcode and for UDF (07 R97). SUB chooses only
between the two forms of JMP and of PARK (09 R137). -/
def opOfCode (c : BitVec 8) (sub : BitVec 8) : Option Op :=
  match c.toNat with
  | 0x00 => some .iadd | 0x01 => some .isub | 0x02 => some .imul | 0x03 => some .imad | 0x04 => some .imin
  | 0x05 => some .imax | 0x06 => some .iabs | 0x07 => some .ineg | 0x08 => some .and | 0x09 => some .or
  | 0x0A => some .xor | 0x0B => some .andn | 0x0C => some .not | 0x0D => some .shl | 0x0E => some .shr
  | 0x0F => some .sar | 0x10 => some .rot | 0x11 => some .popc | 0x12 => some .clz | 0x13 => some .ctz
  | 0x14 => some .brev | 0x15 => some .bfx | 0x16 => some .bfi | 0x17 => some .perm | 0x18 => some .sel
  | 0x19 => some .icmp | 0x1A => some .lea | 0x20 => some .pand | 0x21 => some .por | 0x22 => some .pxor
  | 0x23 => some .pnot | 0x24 => some .pmov | 0x30 => some .awset | 0x31 => some .reggrow
  | 0x32 => some .regshrink | 0x40 => some .sadd | 0x41 => some .ssub | 0x42 => some .smul | 0x43 => some .sand
  | 0x44 => some .sor | 0x45 => some .sxor | 0x46 => some .sshl | 0x47 => some .sshr | 0x48 => some .scmp
  | 0x49 => some .smov | 0x4A => some .sld | 0x4B => some .bcast | 0x4C => some .readlane | 0x60 => some .br
  | 0x61 => some (if sub = 1#8 then .jmpRegister else .jmpDirect) | 0x62 => some .call | 0x63 => some .calli
  | 0x64 => some .ret | 0x65 => some .exit | 0x66 => some .next
  | 0x67 => some (if sub = 1#8 then .parkFull else .park) | 0x68 => some .yield | 0x69 => some .nop
  | 0x6A => some .shfl | 0x6B => some .vote | 0x6C => some .redux | 0x6D => some .scanx
  | 0x6E => some .matchLanes | 0x6F => some .elect | 0x70 => some .barsync | 0x71 => some .barinit
  | 0x72 => some .bararv | 0x73 => some .barwait | 0x74 => some .syncm | 0x78 => some .csrr
  | 0x79 => some .csrw | 0x7A => some .syscall | 0x7B => some .eret | 0x7C => some .trap | 0x7D => some .brk
  | 0x80 => some .fadd | 0x81 => some .fsub | 0x82 => some .fmul | 0x83 => some .ffma | 0x84 => some .fmin
  | 0x85 => some .fmax | 0x86 => some .fcmp | 0x87 => some .fclass | 0x88 => some .frcp | 0x89 => some .frsq
  | 0x8A => some .fsqrt | 0x8B => some .fexp2 | 0x8C => some .flog2 | 0x8D => some .fsin | 0x8E => some .fcos
  | 0x8F => some .ftanh | 0x90 => some .dadd | 0x91 => some .dmul | 0x92 => some .dfma | 0x93 => some .hadd2
  | 0x94 => some .hfma2 | 0xA0 => some .fcvt | 0xA1 => some .f2i | 0xA2 => some .i2f | 0xA3 => some .qdot4
  | 0xA4 => some .pack | 0xA5 => some .unpack | 0xC0 => some .ld | 0xC1 => some .st | 0xC2 => some .ldm
  | 0xC3 => some .stm | 0xC4 => some .ldfe | 0xC5 => some .stfe | 0xC6 => some .atom | 0xC7 => some .red
  | 0xC8 => some .ldnt | 0xC9 => some .stnt | 0xCA => some .prefetch | 0xCB => some .cctl | 0xCC => some .pld
  | 0xD0 => some .fence | 0xD1 => some .fenceR | 0xD2 => some .ntdrain | 0xD3 => some .publish
  | 0xD4 => some .ldgen | 0xE0 => some .tdld | 0xE1 => some .tdst | 0xE2 => some .tdset | 0xE3 => some .mxgo
  | 0xE4 => some .mxv | 0xE5 => some .accrd | 0xE6 => some .accwr | 0xE7 => some .acczero
  | 0xE8 => some .xstart | 0xE9 => some .xsig | 0xEA => some .xstat | 0xEB => some .worknext
  | _ => none

/-- Bits [hi:lo] of the 23-bit immediate, as a number. -/
def immBits (f : Form) (hi lo : Nat) : Nat := f.imm.toNat / 2 ^ lo % 2 ^ (hi + 1 - lo)

/-- The byte length of an instruction (07 R85, R99). -/
def formLength (f : Form) : Nat := 4 + (if f.ext then 8 else 0) + (if f.lit.isSome then 8 else 0)

/-! ## Types, formats and widths -/

/-- Width in bits of an integer type code (07 R96). -/
def intWidth (ty : BitVec 5) : Nat :=
  match ty.toNat % 4 with
  | 0 => 32
  | 1 => 64
  | 2 => 8
  | _ => 16

/-- Whether an integer type code is signed (07 R96). -/
def intSigned (ty : BitVec 5) : Bool := ty.toNat / 4 % 2 = 1

/-- Bits of one element of a format; TRI5 counts the byte that holds five (08 R102). -/
def formatBits (fmt : Nat) : Nat :=
  match fmt with
  | 0x00 => 32 | 0x01 => 16 | 0x02 => 16 | 0x03 => 8 | 0x04 => 8 | 0x05 => 6 | 0x06 => 6 | 0x07 => 4 | 0x08 => 6
  | 0x09 => 8 | 0x0A => 8 | 0x0B => 4 | 0x0C => 32 | 0x0D => 8 | 0x0E => 64 | _ => 0

/-- The float set of the conversions: 0x00 to 0x08, 0x0D and 0x0E (10 R160). -/
def floatFormat (c : Nat) : Bool := decide (c ≤ 8) || c == 0x0D || c == 0x0E

/-- Bytes of an access width code (07 R96): .32, .64, .128, .8, .16. -/
def widthBytes (sub : BitVec 8) : Nat :=
  match sub.toNat % 8 with
  | 0 => 4 | 1 => 8 | 2 => 16 | 3 => 1 | 4 => 2 | _ => 0

/-- The pairs of width and type that R219 allows. -/
def widthTypeOk (w : Nat) (ty : BitVec 5) : Bool :=
  match w with
  | 0 => ty == 0x00#5 || ty == 0x04#5
  | 1 => ty == 0x01#5 || ty == 0x05#5
  | 2 => ty == 0x00#5
  | 3 => ty == 0x02#5 || ty == 0x06#5
  | 4 => ty == 0x03#5 || ty == 0x07#5
  | _ => false

/-! ## Selectors -/

/-- What a selector code names (07 R90, R92). -/
inductive Sel where
  | v (n : BitVec 8)
  | s (n : Nat)
  | latch (k : Nat)
  | idx (n : Nat)
  | zero
  | laneid
  | groupid
  | team (n : Nat)
  | lit32
  | lit64
  | inline (x : BitVec 4)
  | reserved
  deriving DecidableEq, Repr

/-- A seven-bit selector code with its register bits [7:6] (07 R88, R90). -/
def selOf (code : BitVec 7) (x : BitVec 2) : Sel :=
  if code.toNat < 0x40 then .v (x ++ code.extractLsb' 0 6)
  else if code.toNat < 0x58 then .s (code.toNat - 0x40)
  else if code.toNat < 0x60 then .latch (code.toNat - 0x57)
  else if code.toNat < 0x64 then .idx (code.toNat - 0x60)
  else if code = 0x64#7 then .zero
  else if code = 0x65#7 then .laneid
  else if code = 0x66#7 then .groupid
  else if code.toNat < 0x6A then .team (code.toNat - 0x67)
  else if code = 0x6A#7 then .lit32
  else if code = 0x6B#7 then .lit64
  else if code.toNat < 0x70 then .reserved
  else .inline (code.extractLsb' 0 4)

/-- The nine-bit selector C (07 R92). -/
def selOfC (c : BitVec 9) : Sel :=
  if c.toNat < 0x100 then .v (c.extractLsb' 0 8)
  else if c.toNat < 0x140 then .reserved
  else if c.toNat < 0x180 then selOf (c.extractLsb' 0 7) 0#2
  else .reserved

/-- The kind of a source position. The last two hold numbers, not selectors (07 R94). -/
inductive SrcPos where
  | unread | s32 | s64 | s128 | base32 | base64 | scalar | scalarBase | vreg | target | range | pred | handle
  deriving DecidableEq, Repr

/-- The kind of the destination position (07 R91). -/
inductive DstPos where
  | none | v32 | v64 | v128 | pred | scalar | bcast | window
  deriving DecidableEq, Repr

/-- The four positions of an instruction. -/
structure Shape where
  d : DstPos := .none
  a : SrcPos := .unread
  b : SrcPos := .unread
  c : SrcPos := .unread
  deriving DecidableEq, Repr

/-- A source position as wide as the integer type (09 R124). -/
def srcInt (ty : BitVec 5) : SrcPos := if intWidth ty = 64 then .s64 else .s32
/-- A destination position as wide as the integer type (09 R124). -/
def dstInt (ty : BitVec 5) : DstPos := if intWidth ty = 64 then .v64 else .v32
/-- A source position of a format (10 R148). -/
def srcFmt (c : Nat) : SrcPos := if c = 0x0E then .s64 else .s32
/-- A destination position of a format (10 R148). -/
def dstFmt (c : Nat) : DstPos := if c = 0x0E then .v64 else .v32
/-- The data position of a store width (14 R219). -/
def srcWidth (sub : BitVec 8) : SrcPos := match sub.toNat % 8 with | 1 => .s64 | 2 => .s128 | _ => .s32
/-- The destination position of a load width (14 R219). -/
def dstWidth (sub : BitVec 8) : DstPos := match sub.toNat % 8 with | 1 => .v64 | 2 => .v128 | _ => .v32
/-- The base position of an atomic: HINT 0 is global memory, 1 is SRAM (14 R227). HINT 2 and 3, which the entry refuses after the operand checks,
take a 64-bit base there: R227 names no width for them (DESIGN CHOICE, log 69). -/
def atomBase (f : Form) : SrcPos := if f.hint = 1#2 then .base32 else .base64
/-- The position an item kind of FENCE.R makes (14 R233). -/
def itemPos (k : Nat) : SrcPos := match k with | 1 => .handle | 2 => .range | _ => .unread

/-- Whether F of a cross-lane operation is 1, so that TYPE is a format (07 R97). -/
def crossFmt (f : Form) : Bool := f.sub.getLsbD 7

/-- The positions of every operation, from each instruction's own entry. FCLASS with any bit of IMM23 set has its test form's predicate, and the
cross-lane operations with F = 1 have 32-bit positions (DESIGN CHOICE, log 69). -/
def shape (o : Op) (f : Form) : Shape :=
  match o with
  | .iadd | .isub | .imul | .imin | .imax | .and | .or | .xor | .andn =>
    { d := dstInt f.ty, a := srcInt f.ty, b := srcInt f.ty }
  | .imad => { d := dstInt f.ty, a := srcInt f.ty, b := srcInt f.ty, c := srcInt f.ty }
  | .iabs | .ineg | .not | .brev => { d := dstInt f.ty, a := srcInt f.ty }
  | .shl | .shr | .sar | .rot | .bfx => { d := dstInt f.ty, a := srcInt f.ty, b := .s32 }
  | .shfl => if crossFmt f then { d := .v32, a := .s32, b := .s32 } else { d := dstInt f.ty, a := srcInt f.ty, b := .s32 }
  | .popc | .clz | .ctz => { d := .v32, a := srcInt f.ty }
  | .matchLanes => { d := .v32, a := if crossFmt f then .s32 else srcInt f.ty }
  | .bfi => { d := dstInt f.ty, a := srcInt f.ty, b := srcInt f.ty, c := .s32 }
  | .perm => { d := .v32, a := .s32, b := .s32, c := .s32 }
  | .sel => { d := dstInt f.ty, a := srcInt f.ty, b := srcInt f.ty, c := .pred }
  | .icmp => { d := .pred, a := srcInt f.ty, b := srcInt f.ty }
  | .lea => { d := .v64, a := .s64, b := .s32 }
  | .pand | .por | .pxor => { d := .pred, a := .pred, b := .pred }
  | .pnot | .pmov => { d := .pred, a := .pred }
  | .awset => { d := .window, a := .s32 }
  | .reggrow | .regshrink => {}
  | .sadd | .ssub | .smul | .sand | .sor | .sxor | .sshl | .sshr => { d := .scalar, a := .scalar, b := .scalar }
  | .scmp => { d := .pred, a := .scalar, b := .scalar }
  | .smov | .pld => { d := .scalar, a := .scalar }
  | .sld => { d := .scalar, a := .scalarBase }
  | .bcast => { d := .bcast, a := .scalar }
  | .readlane => { d := .scalar, a := .vreg, b := .scalar }
  | .br | .jmpDirect | .call | .ret | .exit | .next | .yield | .nop | .barsync | .syscall | .trap | .brk | .fence
  | .ntdrain | .acczero => {}
  | .jmpRegister | .calli => { a := .target }
  | .park | .barinit | .barwait => { a := .base32, b := .s32 }
  | .parkFull | .bararv | .mxgo | .mxv => { a := .base32 }
  | .vote => { d := if f.sub.toNat % 128 = 2 then .v32 else .pred, a := .pred }
  | .redux | .scanx =>
    if crossFmt f then { d := .v32, a := .s32 } else { d := dstInt f.ty, a := srcInt f.ty }
  | .elect => { d := .pred }
  | .syncm | .xsig => { b := .s32 }
  | .csrr | .worknext => { d := .scalar }
  | .csrw | .eret => { a := .scalar }
  | .fadd | .fsub | .fmul | .fmin | .fmax | .hadd2 => { d := .v32, a := .s32, b := .s32 }
  | .ffma | .hfma2 | .qdot4 | .pack => { d := .v32, a := .s32, b := .s32, c := .s32 }
  | .fcmp => { d := .pred, a := .s32, b := .s32 }
  | .fclass => { d := if f.imm = 0#23 then .v32 else .pred, a := .s32 }
  | .frcp | .frsq | .fsqrt | .fexp2 | .flog2 | .fsin | .fcos | .ftanh | .accrd => { d := .v32, a := .s32 }
  | .dadd | .dmul => { d := .v64, a := .s64, b := .s64 }
  | .dfma => { d := .v64, a := .s64, b := .s64, c := .s64 }
  | .fcvt => { d := dstFmt f.ty.toNat, a := srcFmt (immBits f 4 0) }
  | .f2i => { d := dstInt f.ty, a := srcFmt (immBits f 4 0) }
  | .i2f => { d := dstFmt f.ty.toNat, a := srcInt (BitVec.ofNat 5 (immBits f 4 0)) }
  | .unpack => { d := .v64, a := .s32 }
  | .ld | .ldnt => { d := dstWidth f.sub, a := .base64 }
  | .st | .stnt => { a := .base64, b := srcWidth f.sub }
  | .ldm | .ldfe => { d := dstWidth f.sub, a := .base32 }
  | .stm | .stfe => { a := .base32, b := srcWidth f.sub }
  | .atom =>
    { d := dstInt f.ty, a := atomBase f, b := srcInt f.ty, c := if f.sub = 7#8 then srcInt f.ty else .unread }
  | .red => { a := atomBase f, b := srcInt f.ty }
  | .prefetch | .cctl => { a := .base64 }
  | .fenceR => { a := itemPos (immBits f 1 0), b := itemPos (immBits f 3 2), c := itemPos (immBits f 5 4) }
  | .publish => { a := .handle }
  | .ldgen => { d := .v32, a := .handle }
  | .tdld => { a := .handle, b := .base64 }
  | .tdst => { a := .handle, b := .s32, c := srcFmt f.ty.toNat }
  | .tdset => { a := .handle, b := if immBits f 4 0 = 0 ∨ immBits f 4 0 = 11 then .s64 else .s32 }
  | .accwr => { a := .s32, b := .s32 }
  | .xstart => { d := .v32, a := .s64 }
  | .xstat => { d := .v64 }

/-! ## Form checks (07 R97 to R99) -/

/-- The SUB values of the opcode's row (07 R97). The six cross-lane operations share one row, which has F for each of them. -/
def subOk (o : Op) (f : Form) : Bool :=
  match o with
  | .imul | .imad => decide (f.sub.toNat ≤ 1)
  | .icmp | .scmp => decide (f.sub.toNat ≤ 5)
  | .fcmp => decide (f.sub.toNat ≤ 7)
  | .jmpRegister | .parkFull => f.sub == 1#8
  | .shfl => decide (f.sub.toNat % 128 ≤ 3)
  | .vote | .redux | .scanx => decide (f.sub.toNat % 128 ≤ 2)
  | .matchLanes | .elect => f.sub.toNat % 128 == 0
  | .sld | .ld | .st | .ldm | .stm | .ldnt | .stnt | .stfe => decide (f.sub.toNat ≤ 4)
  | .ldfe => decide (f.sub.toNat < 16) && decide (f.sub.toNat % 8 ≤ 4)
  | .atom => decide (f.sub.toNat ≤ 8)
  | .red => decide (f.sub.toNat ≤ 5) || f.sub == 8#8
  | _ => f.sub == 0#8

/-- The TYPE values of the opcode's row, for the conversions with the source code in IMM23[4:0] (07 R97; 10 R160). What an entry then excludes of
them is one of its own checks (`entryTypeOk`). -/
def typeOk (o : Op) (f : Form) : Bool :=
  match o with
  | .iadd | .isub | .imul | .imad | .imin | .imax | .iabs | .ineg | .and | .or | .xor | .andn | .not | .shl | .shr
  | .sar | .rot | .popc | .clz | .ctz | .brev | .bfx | .bfi | .perm | .sel | .icmp | .sadd | .ssub | .smul | .sand | .sor
  | .sxor | .sshl | .sshr | .scmp | .smov | .sld | .ld | .st | .ldm | .stm | .ldnt | .stnt | .ldfe | .stfe
  | .atom | .red => decide (f.ty.toNat ≤ 7)
  | .shfl | .vote | .redux | .scanx | .matchLanes | .elect => if crossFmt f then decide (f.ty.toNat ≤ 0x0E) else decide (f.ty.toNat ≤ 7)
  | .fadd | .fsub | .fmul | .ffma | .fmin | .fmax | .fcmp | .fclass | .frcp | .frsq | .fsqrt | .fexp2 | .flog2 | .fsin
  | .fcos | .ftanh => decide (f.ty.toNat ≤ 2)
  | .dadd | .dmul | .dfma => f.ty == 0x0E#5
  | .hadd2 | .hfma2 => f.ty == 0x01#5 || f.ty == 0x02#5
  | .fcvt => floatFormat f.ty.toNat && floatFormat (immBits f 4 0)
  | .f2i => decide (f.ty.toNat ≤ 7) && floatFormat (immBits f 4 0) && immBits f 4 0 != 0x0D
  | .i2f => floatFormat f.ty.toNat && f.ty != 0x0D#5 && decide (immBits f 4 0 ≤ 7)
  | .qdot4 => f.ty == 0x0A#5 || f.ty == 0x03#5 || f.ty == 0x04#5 || f.ty == 0x08#5
  | .pack | .unpack => decide (3 ≤ f.ty.toNat) && decide (f.ty.toNat ≤ 9)
  | .tdst | .accrd | .accwr => decide (f.ty.toNat ≤ 0x0E)
  | _ => f.ty == 0#5

/-- What an entry excludes of the SUB and TYPE values its row allows: the pairs of R219 and R136, F and the types of a cross-lane operation (09 R143), the types
of PERM (09 R123), of an atomic (14 R227), of TDST (14 R243) and of the accumulator accesses (15 R260). -/
def entryTypeOk (o : Op) (f : Form) : Bool :=
  match o with
  | .perm => f.ty == 0#5
  | .vote | .elect => !crossFmt f && f.ty == 0#5
  | .sld => widthTypeOk f.sub.toNat f.ty && f.sub != 2#8
  | .ld | .st | .ldm | .stm | .ldnt | .stnt => widthTypeOk f.sub.toNat f.ty
  | .ldfe | .stfe => widthTypeOk (f.sub.toNat % 8) f.ty && decide (f.sub.toNat % 8 ≤ 2)
  | .shfl | .matchLanes => !crossFmt f && decide (f.ty.toNat % 4 ≤ 1)
  | .redux | .scanx => !crossFmt f || decide (f.ty.toNat ≤ 2)
  | .atom | .red => decide (f.ty.toNat % 4 ≤ 1) && (f.sub != 8#8 || f.ty == 0x00#5)
  | .tdst => decide (f.ty.toNat ≤ 4) || f.ty == 0x0A#5 || f.ty == 0x0C#5 || f.ty == 0x0D#5 || f.ty == 0x0E#5
  | .accrd => decide (f.ty.toNat ≤ 4) || f.ty == 0x0C#5
  | .accwr => decide (f.ty.toNat ≤ 2) || f.ty == 0x0C#5
  | _ => true

/-- The operations whose entries list RM; QDOT4 on INT8 does not (10 R164). -/
def usesRm (o : Op) (f : Form) : Bool :=
  match o with
  | .fadd | .fsub | .fmul | .ffma | .fsqrt | .dadd | .dmul | .dfma | .hadd2 | .hfma2 | .fcvt | .f2i | .i2f | .pack
  | .accrd => true
  | .qdot4 => f.ty != 0x0A#5
  | _ => false

/-- The operations whose entries list SAT. -/
def usesSat (o : Op) (f : Form) : Bool :=
  match o with
  | .iadd | .isub | .fadd | .fsub | .fmul | .ffma | .dadd | .dmul | .dfma | .hadd2 | .hfma2 | .fcvt | .f2i | .i2f
  | .pack | .accrd => true
  | .qdot4 => f.ty != 0x0A#5
  | _ => false

/-- The operations whose entries list SCOPE. -/
def usesScope (o : Op) : Bool :=
  match o with
  | .atom | .red | .fence | .fenceR | .ntdrain | .publish | .syncm => true
  | _ => false

/-- The operations whose entries list HINT: a cache hint, or the space of an atomic (14 R227). -/
def usesHint (o : Op) : Bool :=
  match o with
  | .sld | .ld | .st | .atom | .red | .prefetch | .cctl | .tdst => true
  | _ => false

/-- The layout of IMM23 in FENCE.R (14 R233). -/
def fenceItemsOk (f : Form) : Bool :=
  immBits f 22 14 == 0 && immBits f 1 0 != 3 && immBits f 3 2 != 3 && immBits f 5 4 != 3
  && decide (immBits f 7 6 ≤ 1) && (immBits f 7 6 == 1 || immBits f 13 8 == 0)
  && (immBits f 7 6 == 0 || immBits f 5 4 != 0)
  && (immBits f 1 0 != 0 || immBits f 3 2 != 0 || immBits f 5 4 != 0 || immBits f 7 6 != 0)

/-- The pair indexes PACK and UNPACK take for a format (10 R165). -/
def pairLimit (ty : Nat) : Nat := match ty with | 7 => 3 | 9 => 9 | _ => 1

/-- The operations whose entries list IMM23: an offset, a target or modifiers (07 R89, R98). -/
def usesImm (o : Op) : Bool :=
  match o with
  | .lea | .awset | .reggrow | .regshrink | .sld | .br | .jmpDirect | .call | .park | .parkFull | .barinit | .bararv | .barwait | .ld
  | .st | .ldm | .stm | .ldfe | .stfe | .atom | .red | .ldnt | .stnt | .prefetch | .cctl | .tdld | .mxgo | .mxv | .csrr | .csrw
  | .syscall | .trap | .acczero | .eret | .fclass | .fcvt | .f2i | .i2f | .pack | .unpack | .fenceR | .tdset | .xstart | .xsig
  | .xstat => true
  | _ => false

/-- What the entry of an operation that uses IMM23 lets it hold; the values an entry makes ILLEGAL_OPERAND are not checked here, nor the source
code of a conversion. -/
def immOk (o : Op) (f : Form) : Bool :=
  match o with
  | .lea => decide (f.imm.toNat < 8)
  | .awset => immBits f 22 17 == 0
  | .reggrow | .regshrink => immBits f 22 9 == 0
  | .csrr | .csrw => immBits f 22 12 == 0
  | .syscall | .trap | .acczero => immBits f 22 16 == 0
  | .eret => immBits f 22 1 == 0
  | .fclass => immBits f 22 10 == 0
  | .fcvt | .f2i | .i2f => immBits f 22 5 == 0
  | .pack | .unpack => immBits f 22 5 == 0 && decide (immBits f 4 0 ≤ pairLimit f.ty.toNat)
  | .fenceR => fenceItemsOk f
  | .tdset => immBits f 22 5 == 0 && decide (immBits f 4 0 ≤ 11)
  | .xstart | .xsig | .xstat => immBits f 22 2 == 0
  | _ => true

/-- The instructions that must be unguarded (07 R101; PLD obeys R132 by 14 R230). -/
def unguardedOp (o : Op) : Bool :=
  match o with
  | .barsync | .jmpDirect | .reggrow | .regshrink | .sadd | .ssub | .smul | .sand | .sor | .sxor | .sshl | .sshr
  | .scmp | .smov | .sld | .bcast | .readlane | .csrr | .csrw | .syscall | .eret | .pld => true
  | _ => false

/-- The checks an entry adds that fault ILLEGAL_FORM. -/
def entryFormOk (o : Op) (f : Form) : Bool :=
  match o with
  | .cctl => f.hint != 0#2
  | .atom | .red => decide (f.hint.toNat ≤ 1)
  | .publish => f.scope == 4#3 || f.scope == 5#3
  | .worknext => !f.ext && f.lit.isNone
  | .ld | .ldm | .ldnt | .ldfe => !(f.sub.toNat % 8 == 2 && f.k)
  | _ => true

/-- Whether a destination position writes v registers, so that K may be 1 (07 R91). -/
def dstIsV (p : DstPos) : Bool := match p with | .v32 | .v64 | .v128 | .bcast => true | _ => false
/-- Whether a destination position holds a number (07 R94). -/
def dstIsNumber (p : DstPos) : Bool := match p with | .pred | .window => true | _ => false
/-- Whether a source position holds a number (07 R94). -/
def srcIsNumber (p : SrcPos) : Bool := match p with | .pred | .handle => true | _ => false

/-- K against D (07 R91): K = 1 needs a v result and the zero code, and a position without a result holds the zero code. -/
def kOk (sh : Shape) (f : Form) : Bool :=
  if f.k then dstIsV sh.d && f.d == 0x64#7 else sh.d != .none || f.d == 0x64#7

/-- Unread selectors hold the zero code (07 R93). -/
def unreadOk (sh : Shape) (f : Form) : Bool :=
  (sh.a != .unread || f.a == 0x64#7) && (sh.b != .unread || f.b == 0x64#7) && (sh.c != .unread || f.c == 0x164#9)

/-- Extension bits are 0 beside a code that is no v register and beside a number (07 R88, R94). -/
def extBitsOk (sh : Shape) (f : Form) : Bool :=
  ((!dstIsNumber sh.d && decide (f.d.toNat < 0x40)) || f.dx == 0#2)
  && ((!srcIsNumber sh.a && decide (f.a.toNat < 0x40)) || f.ax == 0#2)
  && ((!srcIsNumber sh.b && decide (f.b.toNat < 0x40)) || f.bx == 0#2)

/-- Whether some selector names the literal (07 R95). -/
def readsLit (sh : Shape) (f : Form) : Bool :=
  (!dstIsNumber sh.d && (f.d == 0x6A#7 || f.d == 0x6B#7)) || (!srcIsNumber sh.a && (f.a == 0x6A#7 || f.a == 0x6B#7))
  || (!srcIsNumber sh.b && (f.b == 0x6A#7 || f.b == 0x6B#7))
  || (!srcIsNumber sh.c && (f.c == 0x16A#9 || f.c == 0x16B#9))

/-- The checks of R99 that fault ILLEGAL_FORM before any operand check: SUB and TYPE, RM, SCOPE and unused fields, K, unread selectors,
extension bits, the literal. -/
def formOk (o : Op) (f : Form) : Bool :=
  subOk o f && typeOk o f && decide (f.rm.toNat ≤ 5) && decide (f.scope.toNat ≤ 5)
  && (usesRm o f || f.rm == 0#3) && (usesSat o f || !f.sat) && (usesScope o || f.scope == 0#3)
  && (usesHint o || f.hint == 0#2) && (usesImm o || f.imm == 0#23)
  && kOk (shape o f) f && unreadOk (shape o f) f && extBitsOk (shape o f) f && (readsLit (shape o f) f == f.lit.isSome)

/-- The opcode's own checks that fault ILLEGAL_FORM: what its entry excludes of SUB, TYPE and IMM23, the guard, and what it adds (07 R99, R101). They
come after the operand checks. -/
def ownFormOk (o : Op) (f : Form) : Bool :=
  entryTypeOk o f && immOk o f && (!unguardedOp o || (f.pred == 7#3 && !f.neg)) && entryFormOk o f

/-! ## Operand checks (07 R90 to R94, R47) -/

/-- The selectors a source position takes (07 R90, R94; 09 R132, R135 to R137; 14 R218, R219, R233). -/
def selOk (p : SrcPos) (s : Sel) : Bool :=
  match p, s with
  | .unread, _ | .pred, _ | .handle, _ => true
  | .s32, .reserved => false
  | .s32, _ => true
  | .s64, .v n => n.toNat % 2 == 0
  | .s64, .lit32 => false
  | .s64, .reserved => false
  | .s64, _ => true
  | .s128, .v n => n.toNat % 4 == 0
  | .s128, .zero => true
  | .s128, _ => false
  | .base32, .v _ => true
  | .base32, .s _ => true
  | .base32, _ => false
  | .base64, .v n => n.toNat % 2 == 0
  | .base64, .s _ => true
  | .base64, _ => false
  | .target, .v n => n.toNat % 2 == 0
  | .target, .s _ => true
  | .target, _ => false
  | .scalar, .s _ => true
  | .scalar, .zero => true
  | .scalar, .groupid => true
  | .scalar, .team _ => true
  | .scalar, .lit64 => true
  | .scalar, .inline _ => true
  | .scalar, _ => false
  | .scalarBase, .s _ => true
  | .scalarBase, .zero => true
  | .scalarBase, _ => false
  | .vreg, .v _ => true
  | .vreg, _ => false
  | .range, .v n => n.toNat % 2 == 0
  | .range, .s _ => true
  | .range, .lit64 => true
  | .range, _ => false

/-- The number a number position may hold (07 R94). -/
def numberOk (p : SrcPos) (n : Nat) : Bool :=
  match p with
  | .pred => decide (n < 8)
  | .handle => decide (n < 64)
  | _ => true

/-- What D may hold (07 R91, R94, R47). -/
def dstOk (p : DstPos) (f : Form) : Bool :=
  match p with
  | .none => true
  | .v32 => f.k || decide (f.d.toNat < 0x40) || (decide (0x60 ≤ f.d.toNat) && decide (f.d.toNat < 0x64))
  | .v64 =>
    f.k || (decide (f.d.toNat < 0x40) && f.d.toNat % 2 == 0) || (decide (0x60 ≤ f.d.toNat) && decide (f.d.toNat < 0x64))
  | .v128 => f.k || decide (f.d.toNat < 0x40) && f.d.toNat % 4 == 0
  | .bcast => f.k || (decide (f.d.toNat < 0x40) && f.d.toNat % 2 == 0)
  | .pred => decide (f.d.toNat < 8)
  | .scalar => decide (0x40 ≤ f.d.toNat) && decide (f.d.toNat < 0x58)
  | .window => decide (f.d.toNat < 4)

/-- The CSR numbers R327 assigns. -/
def csrAssigned (n : Nat) : Bool :=
  decide (n ≤ 0x00D) || (decide (0x010 ≤ n) && decide (n ≤ 0x020)) || n == 0x100
  || (decide (0x110 ≤ n) && decide (n ≤ 0x176)) || (decide (0x200 ≤ n) && decide (n ≤ 0x21F)) || n == 0x300
  || (decide (0x310 ≤ n) && decide (n ≤ 0x325)) || (decide (0x400 ≤ n) && decide (n ≤ 0x404))
  || (decide (0x420 ≤ n) && decide (n ≤ 0x437)) || (decide (0x500 ≤ n) && decide (n ≤ 0x503))
  || (decide (0x510 ≤ n) && decide (n ≤ 0x513)) || (decide (0x520 ≤ n) && decide (n ≤ 0x532))

/-- The checks an entry adds that fault ILLEGAL_OPERAND on the encoding alone (07 R101). -/
def entryOperandOk (o : Op) (f : Form) : Bool :=
  match o with
  | .awset => immBits f 16 8 != 0 && decide (immBits f 16 8 ≤ 256) && decide (immBits f 7 0 + immBits f 16 8 ≤ 256)
  | .reggrow | .regshrink =>
    immBits f 8 0 % 8 == 0 && decide (8 ≤ immBits f 8 0) && decide (immBits f 8 0 ≤ 256)
  | .csrr | .csrw => csrAssigned (immBits f 11 0)
  | .worknext => decide (f.d.toNat ≤ 0x53)
  | _ => true

/-- The operand checks of R99: each selector against its position, and even registers in 64-bit positions. -/
def operandOk (o : Op) (f : Form) : Bool :=
  dstOk (shape o f).d f && selOk (shape o f).a (selOf f.a f.ax) && selOk (shape o f).b (selOf f.b f.bx)
  && selOk (shape o f).c (selOfC f.c) && numberOk (shape o f).a f.a.toNat && numberOk (shape o f).b f.b.toNat
  && numberOk (shape o f).c f.c.toNat

/-- Whether an instruction passes every check of R99. -/
def checksOk (o : Op) (f : Form) : Bool := formOk o f && operandOk o f && ownFormOk o f && entryOperandOk o f

/-- The fields of a base-form instruction (07 R87). -/
def baseFields (f : Form) : Bool :=
  f.c == 0x164#9 && f.dx == 0#2 && f.ax == 0#2 && f.bx == 0#2 && f.pred == 7#3 && !f.neg && f.sub == 0#8 && f.ty == 0#5
  && f.rm == 0#3 && !f.sat && f.scope == 0#3 && f.hint == 0#2 && f.imm == 0#23

/-! ## Transfer words (16 R269 to R281) -/

/-- Format A: with a register operand the bits below it are 0. -/
def aFormOk (f : AForm) : Bool := f.i || f.m.toNat % 2 ^ 13 == 0
/-- XSETK: with a register the bits above its number are 0 (16 R272). -/
def xsetkOk (i : Bool) (m : BitVec 23) : Bool := !i || decide (m.toNat < 16)
/-- XB: condition 7 is reserved, and without a condition A and B are 0 (16 R273). -/
def xbOk (a b : BitVec 4) (cond : BitVec 3) : Bool := cond != 7#3 && (cond != 0#3 || (a == 0#4 && b == 0#4))
/-- XADDR: one to five indices in registers up to c15 (16 R275). -/
def xaddrOk (i : BitVec 4) (n : BitVec 3) : Bool :=
  decide (1 ≤ n.toNat) && decide (n.toNat ≤ 5) && decide (i.toNat + n.toNat - 1 ≤ 15)
/-- XCOPY: the modes, the length field, DZ and SH (16 R276). -/
def xcopyOk (f : XForm) (g : CopyWord) : Bool :=
  decide (f.mode.toNat ≤ 3) && (if g.lr then decide (g.len.toNat < 16) else g.len != 0#11)
  && (!g.dz || f.mode == 1#3) && (!g.sh || (decide (f.mode.toNat ≤ 1) && decide (g.soff.toNat < 64)))
/-- XGATH takes MODE 0 or 2 (16 R278). -/
def xgathOk (f : XForm) (g : RowWord) : Bool := (f.mode == 0#3 || f.mode == 2#3) && g.row != 0#11
/-- XSCAT takes MODE 3 or 2 (16 R278). -/
def xscatOk (f : XForm) (g : RowWord) : Bool := (f.mode == 3#3 || f.mode == 2#3) && g.row != 0#11
/-- XARV: a register count has no other bits (16 R279). -/
def xarvOk (f : VForm) : Bool := !f.i || decide (f.m.toNat < 16)
/-- XWAIT: a phase bit or a register (16 R279). -/
def xwaitOk (f : VForm) : Bool := if f.i then decide (f.m.toNat < 16) else decide (f.m.toNat < 2)
/-- XFE sets 1 to 511 granules (16 R280). -/
def xfeOk (g : BitVec 9) : Bool := g != 0#9
/-- XPUB names scope 4 or 5 (16 R280). -/
def xpubOk (s : BitVec 3) : Bool := s == 4#3 || s == 5#3
/-- XFENCE: scope 1 to 5; items only with R, one at least, and an item that is not valid is 0 (16 R280). -/
def xfenceOk (f : FenceForm) : Bool :=
  decide (1 ≤ f.scope.toNat) && decide (f.scope.toNat ≤ 5) && (f.v0 || f.h0 == 0#6) && (f.v1 || f.h1 == 0#6)
  && (f.vr || f.rr == 0#4) && (if f.r then f.v0 || f.v1 || f.vr else !f.v0 && !f.v1 && !f.vr)
/-- XSWAIT needs a mask (16 R281). -/
def xswaitOk (m : BitVec 16) : Bool := m != 0#16

end Sys2Proof.Machine
end

