-- ==== Sys2Proof/WellFormed.lean ====
section
/-! DEFINITION. Which instructions are well formed: those whose fields pass the checks of 07 R99 and R101 (compute words)
or the entries of 16 R269 to R281 (transfer words). An event has no encoding and no check: one that names a party that does
not exist changes nothing. -/
namespace Sys2Proof

/-- A compute instruction: its fields pass both classes of checks, and without extended words they hold the values of
R87. -/
def Form.wellFormed (o : Op) (f : Form) : Bool :=
  Machine.checksOk o f && (f.ext || Machine.baseFields f)

/-- Well-formedness of every instruction. -/
def Instr.wellFormed (i : Instr) : Bool :=
  match i with
  | .iadd f => f.wellFormed .iadd
  | .isub f => f.wellFormed .isub
  | .imul f => f.wellFormed .imul
  | .imad f => f.wellFormed .imad
  | .imin f => f.wellFormed .imin
  | .imax f => f.wellFormed .imax
  | .iabs f => f.wellFormed .iabs
  | .ineg f => f.wellFormed .ineg
  | .and f => f.wellFormed .and
  | .or f => f.wellFormed .or
  | .xor f => f.wellFormed .xor
  | .andn f => f.wellFormed .andn
  | .not f => f.wellFormed .not
  | .shl f => f.wellFormed .shl
  | .shr f => f.wellFormed .shr
  | .sar f => f.wellFormed .sar
  | .rot f => f.wellFormed .rot
  | .popc f => f.wellFormed .popc
  | .clz f => f.wellFormed .clz
  | .ctz f => f.wellFormed .ctz
  | .brev f => f.wellFormed .brev
  | .bfx f => f.wellFormed .bfx
  | .bfi f => f.wellFormed .bfi
  | .perm f => f.wellFormed .perm
  | .sel f => f.wellFormed .sel
  | .icmp f => f.wellFormed .icmp
  | .lea f => f.wellFormed .lea
  | .pand f => f.wellFormed .pand
  | .por f => f.wellFormed .por
  | .pxor f => f.wellFormed .pxor
  | .pnot f => f.wellFormed .pnot
  | .pmov f => f.wellFormed .pmov
  | .awset f => f.wellFormed .awset
  | .reggrow f => f.wellFormed .reggrow
  | .regshrink f => f.wellFormed .regshrink
  | .sadd f => f.wellFormed .sadd
  | .ssub f => f.wellFormed .ssub
  | .smul f => f.wellFormed .smul
  | .sand f => f.wellFormed .sand
  | .sor f => f.wellFormed .sor
  | .sxor f => f.wellFormed .sxor
  | .sshl f => f.wellFormed .sshl
  | .sshr f => f.wellFormed .sshr
  | .scmp f => f.wellFormed .scmp
  | .smov f => f.wellFormed .smov
  | .sld f => f.wellFormed .sld
  | .bcast f => f.wellFormed .bcast
  | .readlane f => f.wellFormed .readlane
  | .br f => f.wellFormed .br
  | .jmpDirect f => f.wellFormed .jmpDirect
  | .jmpRegister f => f.wellFormed .jmpRegister
  | .call f => f.wellFormed .call
  | .calli f => f.wellFormed .calli
  | .ret f => f.wellFormed .ret
  | .exit f => f.wellFormed .exit
  | .next f => f.wellFormed .next
  | .park f => f.wellFormed .park
  | .parkFull f => f.wellFormed .parkFull
  | .yield f => f.wellFormed .yield
  | .nop f => f.wellFormed .nop
  | .udf _ _ _ _ _ => true
  | .shfl f => f.wellFormed .shfl
  | .vote f => f.wellFormed .vote
  | .redux f => f.wellFormed .redux
  | .scanx f => f.wellFormed .scanx
  | .matchLanes f => f.wellFormed .matchLanes
  | .elect f => f.wellFormed .elect
  | .barsync f => f.wellFormed .barsync
  | .barinit f => f.wellFormed .barinit
  | .bararv f => f.wellFormed .bararv
  | .barwait f => f.wellFormed .barwait
  | .syncm f => f.wellFormed .syncm
  | .csrr f => f.wellFormed .csrr
  | .csrw f => f.wellFormed .csrw
  | .syscall f => f.wellFormed .syscall
  | .eret f => f.wellFormed .eret
  | .trap f => f.wellFormed .trap
  | .brk f => f.wellFormed .brk
  | .fadd f => f.wellFormed .fadd
  | .fsub f => f.wellFormed .fsub
  | .fmul f => f.wellFormed .fmul
  | .ffma f => f.wellFormed .ffma
  | .fmin f => f.wellFormed .fmin
  | .fmax f => f.wellFormed .fmax
  | .fcmp f => f.wellFormed .fcmp
  | .fclass f => f.wellFormed .fclass
  | .frcp f => f.wellFormed .frcp
  | .frsq f => f.wellFormed .frsq
  | .fsqrt f => f.wellFormed .fsqrt
  | .fexp2 f => f.wellFormed .fexp2
  | .flog2 f => f.wellFormed .flog2
  | .fsin f => f.wellFormed .fsin
  | .fcos f => f.wellFormed .fcos
  | .ftanh f => f.wellFormed .ftanh
  | .dadd f => f.wellFormed .dadd
  | .dmul f => f.wellFormed .dmul
  | .dfma f => f.wellFormed .dfma
  | .hadd2 f => f.wellFormed .hadd2
  | .hfma2 f => f.wellFormed .hfma2
  | .fcvt f => f.wellFormed .fcvt
  | .f2i f => f.wellFormed .f2i
  | .i2f f => f.wellFormed .i2f
  | .qdot4 f => f.wellFormed .qdot4
  | .pack f => f.wellFormed .pack
  | .unpack f => f.wellFormed .unpack
  | .ld f => f.wellFormed .ld
  | .st f => f.wellFormed .st
  | .ldm f => f.wellFormed .ldm
  | .stm f => f.wellFormed .stm
  | .ldfe f => f.wellFormed .ldfe
  | .stfe f => f.wellFormed .stfe
  | .atom f => f.wellFormed .atom
  | .red f => f.wellFormed .red
  | .ldnt f => f.wellFormed .ldnt
  | .stnt f => f.wellFormed .stnt
  | .prefetch f => f.wellFormed .prefetch
  | .cctl f => f.wellFormed .cctl
  | .pld f => f.wellFormed .pld
  | .fence f => f.wellFormed .fence
  | .fenceR f => f.wellFormed .fenceR
  | .ntdrain f => f.wellFormed .ntdrain
  | .publish f => f.wellFormed .publish
  | .ldgen f => f.wellFormed .ldgen
  | .tdld f => f.wellFormed .tdld
  | .tdst f => f.wellFormed .tdst
  | .tdset f => f.wellFormed .tdset
  | .mxgo f => f.wellFormed .mxgo
  | .mxv f => f.wellFormed .mxv
  | .accrd f => f.wellFormed .accrd
  | .accwr f => f.wellFormed .accwr
  | .acczero f => f.wellFormed .acczero
  | .xstart f => f.wellFormed .xstart
  | .xsig f => f.wellFormed .xsig
  | .xstat f => f.wellFormed .xstat
  | .worknext f => f.wellFormed .worknext
  | .xadd f => Machine.aFormOk f
  | .xsub f => Machine.aFormOk f
  | .xmul f => Machine.aFormOk f
  | .xand f => Machine.aFormOk f
  | .xior f => Machine.aFormOk f
  | .xxor f => Machine.aFormOk f
  | .xshl f => Machine.aFormOk f
  | .xshr f => Machine.aFormOk f
  | .xsar f => Machine.aFormOk f
  | .xmov _ _ _ => true
  | .xmovk _ _ _ => true
  | .xsetk _ i m => Machine.xsetkOk i m
  | .xrdk _ _ => true
  | .xld _ => true
  | .xst _ => true
  | .xldx _ _ _ _ _ => true
  | .xb a b cond _ => Machine.xbOk a b cond
  | .xloop _ _ => true
  | .xswait _ m => Machine.xswaitOk m
  | .xpost _ => true
  | .xaddr _ _ i n => Machine.xaddrOk i n
  | .xcopy f g => Machine.xcopyOk f g
  | .xgath f g => Machine.xgathOk f g
  | .xscat f g => Machine.xscatOk f g
  | .xarv f => Machine.xarvOk f
  | .xwait f => Machine.xwaitOk f
  | .xfe _ _ g => Machine.xfeOk g
  | .xpub _ scope => Machine.xpubOk scope
  | .xfence f => Machine.xfenceOk f
  | .xend => true
  | .xtrap _ => true
  | .xnop => true
  | .spinExpiry _ => true
  | .breakpointHit _ => true
  | .maybeFaultCheckDone _ => true
  | .faultRecordDeferred => true
  | .fpxWindowClose _ _ => true
  | .loadResultReturn _ _ => true
  | .overflowReadFill _ _ => true
  | .accessPerformed _ _ _ => true
  | .fenceComplete _ => true
  | .ntdrainComplete _ => true
  | .publishSwap _ => true
  | .promoteRequest _ _ => true
  | .promoteReply _ _ => true
  | .reggrowGrant _ _ => true
  | .registerReclaim _ _ => true
  | .engineOpStart _ => true
  | .engineStepCommit _ => true
  | .bulkByteCredit _ _ _ => true
  | .transferLoadReturn _ _ => true
  | .xarvApply _ => true
  | .teamRetire _ => true
  | .launchComplete _ => true
  | .placementDecision _ _ => true
  | .headAgeExpiry => true
  | .stallVacate _ => true
  | .spatialPreemption _ => true
  | .vacateTeam _ => true
  | .contextWrite _ => true
  | .contextRestore _ _ _ => true
  | .watchdogExpiry _ => true
  | .clusterFree _ _ => true
  | .clusterRelaunch _ _ => true
  | .faultAck _ _ => true
  | .faultKill _ _ => true
  | .hotEpochEnd _ _ => true
  | .forageSearchDone _ _ _ => true
  | .tetherCompare _ _ => true
  | .forageAuditCompare _ _ => true
  | .forageRelaunch _ => true
  | .signalStore _ _ => true
  | .queueUnmap _ => true
  | .queueRecordWrite _ _ _ _ => true
  | .packetClaim _ _ => true
  | .launch _ => true
  | .launchTableAdmit _ => true
  | .signal _ => true
  | .wait _ => true
  | .waitSatisfied _ => true
  | .waitTimeout _ => true
  | .indirect _ => true
  | .ttset _ => true
  | .attest _ => true
  | .manifest _ => true
  | .scan _ => true
  | .queueFence _ => true
  | .timeTriggerFire _ => true
  | .scanClose _ _ => true
  | .scanStart _ _ => true
  | .scanOpen _ _ => true
  | .scanRemove _ _ => true
  | .scanCtlNoCommand _ _ => true
  | .scanDrained _ => true
  | .scanPatternEnd _ _ _ => true
  | .errorDetected _ => true
  | .linkCrcError _ _ _ _ => true
  | .selftestDone _ _ => true
  | .errorRecordDeferred => true
  | .errorQueueFree _ => true
  | .predictIntervalEnd => true
  | .dieThermalTrip _ => true
  | .dieThermalReopen _ => true
  | .powerCapCheck _ => true
  | .moduleReset => true
  | .ptpMessage _ _ => true
  | .firmwareHandoverCommit => true
  | .firmwareHandoverAbandon => true
  | .keySlotLoad _ => true
  | .keySlotClear _ => true
  | .objectRegister _ => true
  | .objectUnregister _ => true
  | .hostMemoryRead _ _ _ _ => true
  | .hostMemoryWrite _ _ _ _ => true
  | .peerAccess _ => true
  | .dbgHalt _ _ => true
  | .dbgStep _ _ => true
  | .lcrClear _ => true
  | .forageBlacklistClear _ => true
  | .forageDisable _ => true
  | .fpFlagClear _ _ _ => true
  | .registerWrite _ _ _ _ => true
  | .scoreboardResultArrival _ _ => true
  | .traceCacheFill _ => true
  | .idleIssuePosition _ _ _ => true
  | .tlbShootdown _ _ => true
  | .publishedBufferCreate _ _ _ _ _ => true
  | .publishedBufferFree _ => true
  | .firmwareHandoverStart _ => true
  | .ptpHoldover => true
  | .peerPageUnreachable _ _ => true
  | .transferIllegalWord _ => true

end Sys2Proof
end

