-- ==== Sys2Proof/Decode.lean ====
section
/-! DEFINITION. The decoder, total on any words and bytes, refusing by name, in the order of 07 R99 (compute) and 16 R270
(transfer), and after it the encoder, written from the same encodings. Compute text and transfer text are two instruction
streams that share no decoder: a group fetches compute words and a transfer processor fetches transfer words. -/
namespace Sys2Proof

/-- Why a decoder refuses: the three decode faults of R99, and too few bytes to hold the instruction. -/
inductive DecodeFault where
  | illegalOp
  | illegalForm
  | illegalOperand
  | truncated
  deriving DecidableEq, Repr

/-- What a decoder answers. -/
inductive Decoded where
  | instr (i : Instr)
  | bad (r : DecodeFault)
  deriving DecidableEq, Repr

/-! ## Bytes and words -/

/-- The bytes of a word, least significant first (00 R3). -/
def wordBytes (w : Word) : List Byte :=
  [w.extractLsb' 0 8, w.extractLsb' 8 8, w.extractLsb' 16 8, w.extractLsb' 24 8]

/-- The words of a run of bytes, least significant byte first; a last part of a word is dropped (00 R3). -/
def wordsOfBytes (bs : List Byte) : List Word :=
  match bs with
  | a :: b :: c :: d :: rest => (d ++ c ++ b ++ a) :: wordsOfBytes rest
  | _ => []

/-! ## Compute words -/

/-- The fields of the base word (07 R86). -/
def formOfBase (w : Word) : Form :=
  { b := w.extractLsb' 25 7, a := w.extractLsb' 18 7, k := (w.extractLsb' 17 1) == 1#1, d := w.extractLsb' 10 7 }

/-- The fields of the extended words added to a form (07 R88, R89). -/
def formWithExt (f : Form) (w1 w2 : Word) : Form :=
  { f with
    ext := true
    ty := w1.extractLsb' 27 5
    sub := w1.extractLsb' 19 8
    neg := (w1.extractLsb' 18 1) == 1#1
    pred := w1.extractLsb' 15 3
    bx := w1.extractLsb' 13 2
    ax := w1.extractLsb' 11 2
    dx := w1.extractLsb' 9 2
    c := w1.extractLsb' 0 9
    imm := w2.extractLsb' 9 23
    hint := w2.extractLsb' 7 2
    scope := w2.extractLsb' 4 3
    sat := (w2.extractLsb' 3 1) == 1#1
    rm := w2.extractLsb' 0 3 }

/-- The checks of R99 on a form, in its order. -/
def checkForm (o : Op) (f : Form) : Decoded :=
  if !Machine.formOk o f then .bad .illegalForm
  else if !Machine.operandOk o f then .bad .illegalOperand
  else if !Machine.ownFormOk o f then .bad .illegalForm
  else if !Machine.entryOperandOk o f then .bad .illegalOperand
  else .instr (.ofOp o f)

/-- The form of an instruction from its words: the base word, then the extended words when L bit 0 is set, then the literal
when L bit 1 is set (07 R85). None when too few words are given. -/
def formOfWords (w0 : Word) (rest : List Word) : Option Form :=
  match (w0.extractLsb' 0 2).toNat, rest with
  | 0, _ => some (formOfBase w0)
  | 1, w1 :: w2 :: _ => some (formWithExt (formOfBase w0) w1 w2)
  | 2, l0 :: l1 :: _ => some { formOfBase w0 with lit := some (l1 ++ l0) }
  | 3, w1 :: w2 :: l0 :: l1 :: _ => some { formWithExt (formOfBase w0) w1 w2 with lit := some (l1 ++ l0) }
  | _, _ => none

/-- The compute decoder (07 R99): the reserved opcodes and UDF before any word after the base word is read. -/
def decodeWords (ws : List Word) : Decoded :=
  match ws with
  | [] => .bad .truncated
  | w0 :: rest =>
    if w0.extractLsb' 2 8 = 0xFF#8 then
      .instr (.udf (w0.extractLsb' 25 7) (w0.extractLsb' 18 7) ((w0.extractLsb' 17 1) == 1#1) (w0.extractLsb' 10 7)
        (w0.extractLsb' 0 2))
    else if (Machine.opOfCode (w0.extractLsb' 2 8) 0#8).isNone then .bad .illegalOp
    else
      match formOfWords w0 rest with
      | none => .bad .truncated
      | some f =>
        match Machine.opOfCode (w0.extractLsb' 2 8) f.sub with
        | none => .bad .illegalOp
        | some o => checkForm o f

/-- The compute decoder on bytes. -/
def decodeBytes (bs : List Byte) : Decoded := decodeWords (wordsOfBytes bs)

/-! ## Transfer words -/

/-- A field of a transfer word. -/
def xfld (w : Word) (lo n : Nat) : BitVec n := w.extractLsb' lo n
/-- One bit of a transfer word. -/
def xbit (w : Word) (lo : Nat) : Bool := w.extractLsb' lo 1 == 1#1
/-- Whether a field that an entry marks 0 is 0. -/
def xzero (w : Word) (lo n : Nat) : Bool := w.extractLsb' lo n == 0#n

/-- Format A (16 R269). -/
def aFormOf (w : Word) : AForm := { d := xfld w 22 4, a := xfld w 18 4, i := xbit w 17, m := xfld w 0 17 }
/-- Format M (16 R269). -/
def mFormOf (w : Word) : MForm :=
  { c := xfld w 22 4, b := xfld w 18 4, w := xfld w 16 2, sp := xbit w 15, o := xfld w 0 15 }
/-- Format V (16 R269). -/
def vFormOf (w : Word) : VForm := { b := xfld w 22 4, o := xfld w 11 11, i := xbit w 10, m := xfld w 0 10 }
/-- Format X (16 R269). -/
def xFormOf (w : Word) : XForm :=
  { mode := xfld w 23 3, dst := xfld w 19 4, src := xfld w 15 4, bar := xfld w 11 4, off := xfld w 0 11 }
/-- The operand word of XCOPY (16 R276). -/
def copyWordOf (w : Word) : CopyWord :=
  { lr := xbit w 31, len := xfld w 20 11, dz := xbit w 19, sh := xbit w 18, doff := xfld w 9 9, soff := xfld w 0 9 }
/-- The operand word of XGATH and XSCAT (16 R278). -/
def rowWordOf (w : Word) : RowWord := { idx := xfld w 28 4, cnt := xfld w 24 4, row := xfld w 13 11 }
/-- XFENCE (16 R280). -/
def fenceFormOf (w : Word) : FenceForm :=
  { scope := xfld w 23 3, r := xbit w 22, h0 := xfld w 16 6, v0 := xbit w 15, h1 := xfld w 9 6, v1 := xbit w 8,
    rr := xfld w 4 4, vr := xbit w 3 }

/-- The instruction of a transfer word and the word after it, with whether the zero fields of its layout are 0; none for
a reserved opcode (16 R270). -/
def xInstrOf (w w2 : Word) : Option (Bool × Instr) :=
  match (w.extractLsb' 26 6).toNat with
  | 0x01 => some (true, .xadd (aFormOf w))
  | 0x02 => some (true, .xsub (aFormOf w))
  | 0x03 => some (true, .xmul (aFormOf w))
  | 0x04 => some (true, .xand (aFormOf w))
  | 0x05 => some (true, .xior (aFormOf w))
  | 0x06 => some (true, .xxor (aFormOf w))
  | 0x07 => some (true, .xshl (aFormOf w))
  | 0x08 => some (true, .xshr (aFormOf w))
  | 0x09 => some (true, .xsar (aFormOf w))
  | 0x0A => some (xzero w 16 4, .xmov (xfld w 22 4) (xfld w 20 2) (xfld w 0 16))
  | 0x0B => some (xzero w 16 4, .xmovk (xfld w 22 4) (xfld w 20 2) (xfld w 0 16))
  | 0x0C => some (true, .xsetk (xfld w 24 2) (xbit w 23) (xfld w 0 23))
  | 0x0D => some (xzero w 0 20, .xrdk (xfld w 22 4) (xfld w 20 2))
  | 0x10 => some (true, .xld (mFormOf w))
  | 0x11 => some (true, .xst (mFormOf w))
  | 0x12 => some (xzero w 0 11, .xldx (xfld w 22 4) (xfld w 18 4) (xfld w 16 2) (xbit w 15) (xfld w 11 4))
  | 0x18 => some (xzero w 11 4, .xb (xfld w 22 4) (xfld w 18 4) (xfld w 15 3) (xfld w 0 11))
  | 0x19 => some (xzero w 11 13, .xloop (xfld w 24 2) (xfld w 0 11))
  | 0x1A => some (xzero w 16 6, .xswait (xfld w 22 4) (xfld w 0 16))
  | 0x1B => some (xzero w 0 22, .xpost (xfld w 22 4))
  | 0x20 => some (xzero w 0 9, .xaddr (xfld w 22 4) (xfld w 16 6) (xfld w 12 4) (xfld w 9 3))
  | 0x28 => some (true, .xcopy (xFormOf w) (copyWordOf w2))
  | 0x29 => some (xzero w2 0 13, .xgath (xFormOf w) (rowWordOf w2))
  | 0x2A => some (xzero w2 0 13, .xscat (xFormOf w) (rowWordOf w2))
  | 0x30 => some (true, .xarv (vFormOf w))
  | 0x31 => some (true, .xwait (vFormOf w))
  | 0x32 => some (true, .xfe (xfld w 22 4) (xfld w 9 13) (xfld w 0 9))
  | 0x33 => some (xzero w 0 17, .xpub (xfld w 20 6) (xfld w 17 3))
  | 0x34 => some (xzero w 0 3, .xfence (fenceFormOf w))
  | 0x38 => some (xzero w 0 26, .xend)
  | 0x39 => some (xzero w 16 10, .xtrap (xfld w 0 16))
  | 0x3A => some (xzero w 0 26, .xnop)
  | _ => none

/-- Whether a transfer opcode is followed by an operand word (16 R269). -/
def xHasOperandWord (w : Word) : Bool :=
  decide (0x28 ≤ (w.extractLsb' 26 6).toNat) && decide ((w.extractLsb' 26 6).toNat ≤ 0x2A)

/-- The transfer decoder on the word at XPC and the word after it (16 R270): ILLEGAL_OP for a reserved opcode, ILLEGAL_FORM
for a field that breaks its entry. -/
def decodeXWord (w w2 : Word) : Decoded :=
  match xInstrOf w w2 with
  | none => .bad .illegalOp
  | some (z, i) => if z && i.wellFormed then .instr i else .bad .illegalForm

/-! ## The encoder -/

/-- The words of a compute instruction. -/
def encodeForm (op : BitVec 8) (f : Form) : List Word :=
  let w0 : Word :=
    f.b ++ f.a ++ BitVec.ofBool f.k ++ f.d ++ op ++ BitVec.ofBool f.lit.isSome ++ BitVec.ofBool f.ext
  let w1 : Word := f.ty ++ f.sub ++ BitVec.ofBool f.neg ++ f.pred ++ f.bx ++ f.ax ++ f.dx ++ f.c
  let w2 : Word := f.imm ++ f.hint ++ f.scope ++ BitVec.ofBool f.sat ++ f.rm
  let e : List Word := if f.ext then [w1, w2] else []
  match f.lit with
  | none => w0 :: e
  | some l => w0 :: (e ++ [l.extractLsb' 0 32, l.extractLsb' 32 32])

/-- A format-A word. -/
def aWord (op : BitVec 6) (f : AForm) : Word := op ++ f.d ++ f.a ++ BitVec.ofBool f.i ++ f.m
/-- A format-M word. -/
def mWord (op : BitVec 6) (f : MForm) : Word := op ++ f.c ++ f.b ++ f.w ++ BitVec.ofBool f.sp ++ f.o
/-- A format-V word. -/
def vWord (op : BitVec 6) (f : VForm) : Word := op ++ f.b ++ f.o ++ BitVec.ofBool f.i ++ f.m
/-- A format-X word. -/
def xWord (op : BitVec 6) (f : XForm) : Word := op ++ f.mode ++ f.dst ++ f.src ++ f.bar ++ f.off
/-- The operand word of XCOPY. -/
def copyWordBits (g : CopyWord) : Word :=
  BitVec.ofBool g.lr ++ g.len ++ BitVec.ofBool g.dz ++ BitVec.ofBool g.sh ++ g.doff ++ g.soff
/-- The operand word of XGATH and XSCAT. -/
def rowWordBits (g : RowWord) : Word := g.idx ++ g.cnt ++ g.row ++ 0#13
/-- The word of XFENCE. -/
def fenceWord (f : FenceForm) : Word :=
  0x34#6 ++ f.scope ++ BitVec.ofBool f.r ++ f.h0 ++ BitVec.ofBool f.v0 ++ f.h1 ++ BitVec.ofBool f.v1 ++ f.rr
    ++ BitVec.ofBool f.vr ++ 0#3

/-- The words of an instruction, from the encodings of 07 R86 to R89 and 16 R269 to R281; an event has none. -/
def encode (i : Instr) : List Word :=
  match i with
  | .iadd f => encodeForm (Machine.opCode .iadd) f
  | .isub f => encodeForm (Machine.opCode .isub) f
  | .imul f => encodeForm (Machine.opCode .imul) f
  | .imad f => encodeForm (Machine.opCode .imad) f
  | .imin f => encodeForm (Machine.opCode .imin) f
  | .imax f => encodeForm (Machine.opCode .imax) f
  | .iabs f => encodeForm (Machine.opCode .iabs) f
  | .ineg f => encodeForm (Machine.opCode .ineg) f
  | .and f => encodeForm (Machine.opCode .and) f
  | .or f => encodeForm (Machine.opCode .or) f
  | .xor f => encodeForm (Machine.opCode .xor) f
  | .andn f => encodeForm (Machine.opCode .andn) f
  | .not f => encodeForm (Machine.opCode .not) f
  | .shl f => encodeForm (Machine.opCode .shl) f
  | .shr f => encodeForm (Machine.opCode .shr) f
  | .sar f => encodeForm (Machine.opCode .sar) f
  | .rot f => encodeForm (Machine.opCode .rot) f
  | .popc f => encodeForm (Machine.opCode .popc) f
  | .clz f => encodeForm (Machine.opCode .clz) f
  | .ctz f => encodeForm (Machine.opCode .ctz) f
  | .brev f => encodeForm (Machine.opCode .brev) f
  | .bfx f => encodeForm (Machine.opCode .bfx) f
  | .bfi f => encodeForm (Machine.opCode .bfi) f
  | .perm f => encodeForm (Machine.opCode .perm) f
  | .sel f => encodeForm (Machine.opCode .sel) f
  | .icmp f => encodeForm (Machine.opCode .icmp) f
  | .lea f => encodeForm (Machine.opCode .lea) f
  | .pand f => encodeForm (Machine.opCode .pand) f
  | .por f => encodeForm (Machine.opCode .por) f
  | .pxor f => encodeForm (Machine.opCode .pxor) f
  | .pnot f => encodeForm (Machine.opCode .pnot) f
  | .pmov f => encodeForm (Machine.opCode .pmov) f
  | .awset f => encodeForm (Machine.opCode .awset) f
  | .reggrow f => encodeForm (Machine.opCode .reggrow) f
  | .regshrink f => encodeForm (Machine.opCode .regshrink) f
  | .sadd f => encodeForm (Machine.opCode .sadd) f
  | .ssub f => encodeForm (Machine.opCode .ssub) f
  | .smul f => encodeForm (Machine.opCode .smul) f
  | .sand f => encodeForm (Machine.opCode .sand) f
  | .sor f => encodeForm (Machine.opCode .sor) f
  | .sxor f => encodeForm (Machine.opCode .sxor) f
  | .sshl f => encodeForm (Machine.opCode .sshl) f
  | .sshr f => encodeForm (Machine.opCode .sshr) f
  | .scmp f => encodeForm (Machine.opCode .scmp) f
  | .smov f => encodeForm (Machine.opCode .smov) f
  | .sld f => encodeForm (Machine.opCode .sld) f
  | .bcast f => encodeForm (Machine.opCode .bcast) f
  | .readlane f => encodeForm (Machine.opCode .readlane) f
  | .br f => encodeForm (Machine.opCode .br) f
  | .jmpDirect f => encodeForm (Machine.opCode .jmpDirect) f
  | .jmpRegister f => encodeForm (Machine.opCode .jmpRegister) f
  | .call f => encodeForm (Machine.opCode .call) f
  | .calli f => encodeForm (Machine.opCode .calli) f
  | .ret f => encodeForm (Machine.opCode .ret) f
  | .exit f => encodeForm (Machine.opCode .exit) f
  | .next f => encodeForm (Machine.opCode .next) f
  | .park f => encodeForm (Machine.opCode .park) f
  | .parkFull f => encodeForm (Machine.opCode .parkFull) f
  | .yield f => encodeForm (Machine.opCode .yield) f
  | .nop f => encodeForm (Machine.opCode .nop) f
  | .udf b a k d l => [b ++ a ++ BitVec.ofBool k ++ d ++ 0xFF#8 ++ l]
  | .shfl f => encodeForm (Machine.opCode .shfl) f
  | .vote f => encodeForm (Machine.opCode .vote) f
  | .redux f => encodeForm (Machine.opCode .redux) f
  | .scanx f => encodeForm (Machine.opCode .scanx) f
  | .matchLanes f => encodeForm (Machine.opCode .matchLanes) f
  | .elect f => encodeForm (Machine.opCode .elect) f
  | .barsync f => encodeForm (Machine.opCode .barsync) f
  | .barinit f => encodeForm (Machine.opCode .barinit) f
  | .bararv f => encodeForm (Machine.opCode .bararv) f
  | .barwait f => encodeForm (Machine.opCode .barwait) f
  | .syncm f => encodeForm (Machine.opCode .syncm) f
  | .csrr f => encodeForm (Machine.opCode .csrr) f
  | .csrw f => encodeForm (Machine.opCode .csrw) f
  | .syscall f => encodeForm (Machine.opCode .syscall) f
  | .eret f => encodeForm (Machine.opCode .eret) f
  | .trap f => encodeForm (Machine.opCode .trap) f
  | .brk f => encodeForm (Machine.opCode .brk) f
  | .fadd f => encodeForm (Machine.opCode .fadd) f
  | .fsub f => encodeForm (Machine.opCode .fsub) f
  | .fmul f => encodeForm (Machine.opCode .fmul) f
  | .ffma f => encodeForm (Machine.opCode .ffma) f
  | .fmin f => encodeForm (Machine.opCode .fmin) f
  | .fmax f => encodeForm (Machine.opCode .fmax) f
  | .fcmp f => encodeForm (Machine.opCode .fcmp) f
  | .fclass f => encodeForm (Machine.opCode .fclass) f
  | .frcp f => encodeForm (Machine.opCode .frcp) f
  | .frsq f => encodeForm (Machine.opCode .frsq) f
  | .fsqrt f => encodeForm (Machine.opCode .fsqrt) f
  | .fexp2 f => encodeForm (Machine.opCode .fexp2) f
  | .flog2 f => encodeForm (Machine.opCode .flog2) f
  | .fsin f => encodeForm (Machine.opCode .fsin) f
  | .fcos f => encodeForm (Machine.opCode .fcos) f
  | .ftanh f => encodeForm (Machine.opCode .ftanh) f
  | .dadd f => encodeForm (Machine.opCode .dadd) f
  | .dmul f => encodeForm (Machine.opCode .dmul) f
  | .dfma f => encodeForm (Machine.opCode .dfma) f
  | .hadd2 f => encodeForm (Machine.opCode .hadd2) f
  | .hfma2 f => encodeForm (Machine.opCode .hfma2) f
  | .fcvt f => encodeForm (Machine.opCode .fcvt) f
  | .f2i f => encodeForm (Machine.opCode .f2i) f
  | .i2f f => encodeForm (Machine.opCode .i2f) f
  | .qdot4 f => encodeForm (Machine.opCode .qdot4) f
  | .pack f => encodeForm (Machine.opCode .pack) f
  | .unpack f => encodeForm (Machine.opCode .unpack) f
  | .ld f => encodeForm (Machine.opCode .ld) f
  | .st f => encodeForm (Machine.opCode .st) f
  | .ldm f => encodeForm (Machine.opCode .ldm) f
  | .stm f => encodeForm (Machine.opCode .stm) f
  | .ldfe f => encodeForm (Machine.opCode .ldfe) f
  | .stfe f => encodeForm (Machine.opCode .stfe) f
  | .atom f => encodeForm (Machine.opCode .atom) f
  | .red f => encodeForm (Machine.opCode .red) f
  | .ldnt f => encodeForm (Machine.opCode .ldnt) f
  | .stnt f => encodeForm (Machine.opCode .stnt) f
  | .prefetch f => encodeForm (Machine.opCode .prefetch) f
  | .cctl f => encodeForm (Machine.opCode .cctl) f
  | .pld f => encodeForm (Machine.opCode .pld) f
  | .fence f => encodeForm (Machine.opCode .fence) f
  | .fenceR f => encodeForm (Machine.opCode .fenceR) f
  | .ntdrain f => encodeForm (Machine.opCode .ntdrain) f
  | .publish f => encodeForm (Machine.opCode .publish) f
  | .ldgen f => encodeForm (Machine.opCode .ldgen) f
  | .tdld f => encodeForm (Machine.opCode .tdld) f
  | .tdst f => encodeForm (Machine.opCode .tdst) f
  | .tdset f => encodeForm (Machine.opCode .tdset) f
  | .mxgo f => encodeForm (Machine.opCode .mxgo) f
  | .mxv f => encodeForm (Machine.opCode .mxv) f
  | .accrd f => encodeForm (Machine.opCode .accrd) f
  | .accwr f => encodeForm (Machine.opCode .accwr) f
  | .acczero f => encodeForm (Machine.opCode .acczero) f
  | .xstart f => encodeForm (Machine.opCode .xstart) f
  | .xsig f => encodeForm (Machine.opCode .xsig) f
  | .xstat f => encodeForm (Machine.opCode .xstat) f
  | .worknext f => encodeForm (Machine.opCode .worknext) f
  | .xadd f => [aWord 0x01#6 f]
  | .xsub f => [aWord 0x02#6 f]
  | .xmul f => [aWord 0x03#6 f]
  | .xand f => [aWord 0x04#6 f]
  | .xior f => [aWord 0x05#6 f]
  | .xxor f => [aWord 0x06#6 f]
  | .xshl f => [aWord 0x07#6 f]
  | .xshr f => [aWord 0x08#6 f]
  | .xsar f => [aWord 0x09#6 f]
  | .xmov d h v => [0x0A#6 ++ d ++ h ++ 0#4 ++ v]
  | .xmovk d h v => [0x0B#6 ++ d ++ h ++ 0#4 ++ v]
  | .xsetk n i m => [0x0C#6 ++ n ++ BitVec.ofBool i ++ m]
  | .xrdk d n => [0x0D#6 ++ d ++ n ++ 0#20]
  | .xld f => [mWord 0x10#6 f]
  | .xst f => [mWord 0x11#6 f]
  | .xldx c b w sp x => [0x12#6 ++ c ++ b ++ w ++ BitVec.ofBool sp ++ x ++ 0#11]
  | .xb a b cond o => [0x18#6 ++ a ++ b ++ cond ++ 0#4 ++ o]
  | .xloop n o => [0x19#6 ++ n ++ 0#13 ++ o]
  | .xswait d m => [0x1A#6 ++ d ++ 0#6 ++ m]
  | .xpost a => [0x1B#6 ++ a ++ 0#22]
  | .xaddr d h i n => [0x20#6 ++ d ++ h ++ i ++ n ++ 0#9]
  | .xcopy f g => [xWord 0x28#6 f, copyWordBits g]
  | .xgath f g => [xWord 0x29#6 f, rowWordBits g]
  | .xscat f g => [xWord 0x2A#6 f, rowWordBits g]
  | .xarv f => [vWord 0x30#6 f]
  | .xwait f => [vWord 0x31#6 f]
  | .xfe b o g => [0x32#6 ++ b ++ o ++ g]
  | .xpub h scope => [0x33#6 ++ h ++ scope ++ 0#17]
  | .xfence f => [fenceWord f]
  | .xend => [0xE0000000#32]
  | .xtrap code => [0x39#6 ++ 0#10 ++ code]
  | .xnop => [0xE8000000#32]
  | .spinExpiry _ => []
  | .breakpointHit _ => []
  | .maybeFaultCheckDone _ => []
  | .faultRecordDeferred => []
  | .fpxWindowClose _ _ => []
  | .loadResultReturn _ _ => []
  | .overflowReadFill _ _ => []
  | .accessPerformed _ _ _ => []
  | .fenceComplete _ => []
  | .ntdrainComplete _ => []
  | .publishSwap _ => []
  | .promoteRequest _ _ => []
  | .promoteReply _ _ => []
  | .reggrowGrant _ _ => []
  | .registerReclaim _ _ => []
  | .engineOpStart _ => []
  | .engineStepCommit _ => []
  | .bulkByteCredit _ _ _ => []
  | .transferLoadReturn _ _ => []
  | .xarvApply _ => []
  | .teamRetire _ => []
  | .launchComplete _ => []
  | .placementDecision _ _ => []
  | .headAgeExpiry => []
  | .stallVacate _ => []
  | .spatialPreemption _ => []
  | .vacateTeam _ => []
  | .contextWrite _ => []
  | .contextRestore _ _ _ => []
  | .watchdogExpiry _ => []
  | .clusterFree _ _ => []
  | .clusterRelaunch _ _ => []
  | .faultAck _ _ => []
  | .faultKill _ _ => []
  | .hotEpochEnd _ _ => []
  | .forageSearchDone _ _ _ => []
  | .tetherCompare _ _ => []
  | .forageAuditCompare _ _ => []
  | .forageRelaunch _ => []
  | .signalStore _ _ => []
  | .queueUnmap _ => []
  | .queueRecordWrite _ _ _ _ => []
  | .packetClaim _ _ => []
  | .launch _ => []
  | .launchTableAdmit _ => []
  | .signal _ => []
  | .wait _ => []
  | .waitSatisfied _ => []
  | .waitTimeout _ => []
  | .indirect _ => []
  | .ttset _ => []
  | .attest _ => []
  | .manifest _ => []
  | .scan _ => []
  | .queueFence _ => []
  | .timeTriggerFire _ => []
  | .scanClose _ _ => []
  | .scanStart _ _ => []
  | .scanOpen _ _ => []
  | .scanRemove _ _ => []
  | .scanCtlNoCommand _ _ => []
  | .scanDrained _ => []
  | .scanPatternEnd _ _ _ => []
  | .errorDetected _ => []
  | .linkCrcError _ _ _ _ => []
  | .selftestDone _ _ => []
  | .errorRecordDeferred => []
  | .errorQueueFree _ => []
  | .predictIntervalEnd => []
  | .dieThermalTrip _ => []
  | .dieThermalReopen _ => []
  | .powerCapCheck _ => []
  | .moduleReset => []
  | .ptpMessage _ _ => []
  | .firmwareHandoverCommit => []
  | .firmwareHandoverAbandon => []
  | .keySlotLoad _ => []
  | .keySlotClear _ => []
  | .objectRegister _ => []
  | .objectUnregister _ => []
  | .hostMemoryRead _ _ _ _ => []
  | .hostMemoryWrite _ _ _ _ => []
  | .peerAccess _ => []
  | .dbgHalt _ _ => []
  | .dbgStep _ _ => []
  | .lcrClear _ => []
  | .forageBlacklistClear _ => []
  | .forageDisable _ => []
  | .fpFlagClear _ _ _ => []
  | .registerWrite _ _ _ _ => []
  | .scoreboardResultArrival _ _ => []
  | .traceCacheFill _ => []
  | .idleIssuePosition _ _ _ => []
  | .tlbShootdown _ _ => []
  | .publishedBufferCreate _ _ _ _ _ => []
  | .publishedBufferFree _ => []
  | .firmwareHandoverStart _ => []
  | .ptpHoldover => []
  | .peerPageUnreachable _ _ => []
  | .transferIllegalWord _ => []

/-! ## The host's question -/

/-- Whether a first word is read as transfer text by `decodeTableWord` and `withFetchWord`: its bits [9:0] are 0 and its top six
bits are a defined transfer opcode. The opcode table gives compute and transfer words one numbering of bits, and the two
instruction sets share words; this is the host interface's choice between them and no rule of the spec (DESIGN CHOICE, log 9). -/
def tableWordIsTransfer (w : Word) : Bool := (w.extractLsb' 0 10 == 0#10) && (xInstrOf w 0#32).isSome || xTableOnly w
where
  /-- Words whose base form no compute instruction decodes, although a transfer instruction does; a defined opcode under B = 0x64 stays
  compute text. -/
  xTableOnly (w : Word) : Bool :=
    if w.extractLsb' 25 7 = 0x64#7 ∧ (Machine.opOfCode (w.extractLsb' 2 8) 0#8).isSome = true then false
    else match decodeWords [w, 0#32, 0#32, 0#32, 0#32], decodeXWord w 0#32 with
    | .bad _, .instr _ => true
    | _, _ => false

/-- The instruction this decoder reads from an instruction whose bits are `w`, numbered as the opcode table numbers them. -/
def decodeTableWord (nbits w : Nat) : Option Instr :=
  let word (k : Nat) : Word := BitVec.ofNat 32 (w % 2 ^ nbits / 2 ^ (32 * k))
  let ws : List Word := [word 0, word 1, word 2, word 3, word 4]
  let r := if tableWordIsTransfer (word 0) then decodeXWord (word 0) (word 1)
    else decodeBytes (ws.flatMap wordBytes)
  match r with
  | .instr i => some i
  | .bad _ => none

end Sys2Proof
end

