-- ==== Sys2Proof/Machine/State.lean ====
section
/-! DEFINITION. The state of the device, as plain data: lanes, groups, teams and transfer programs (04 R65, 20 R324), cores, and
the device's memory, tables and queues. Sparse fields are lists of (number, value) with rising numbers, and a number that is
not listed has the value the field's docstring names. -/
namespace Sys2Proof.Machine

/-- A fault code of 20 R313, 0x01 to 0x1A. -/
abbrev Code := BitVec 8

/-- The five states of a lane (02 R19). -/
inductive LaneState where
  | run | park | waitb | hold | done
  deriving DecidableEq, Repr

/-- The destination of a result window entry (04 R61, R63): a v register and the words it takes, a predicate, or none. -/
inductive Dest where
  | none
  | v (n words : Nat)
  | p (n : Nat)
  deriving DecidableEq, Repr

/-- One entry of a lane's result window (04 R61, R63). `tag` is the number of the issue that made it, by which a result not
yet arrived is known (03 R43). -/
structure Latch where
  val : QWord
  empty : Bool
  dest : Dest
  pending : Bool
  tag : Nat
  deriving DecidableEq, Repr

/-- What a lane waits for (20 R324): the SRAM address and comparand of PARK, the address of a PARK on a granule, BARSYNC, the
address and phase of BARWAIT, the mask and scope of SYNCM, and the address, width, `.clr`, destination and issue of an LDFE not yet served (14 R225), and
whether a lane of its issue is held. -/
inductive Wait where
  | none
  | parkWord (addr : BitVec 32) (cmp : BitVec 32)
  | parkFull (addr : BitVec 32)
  | barsync
  | barwait (addr : BitVec 32) (phase : Bool)
  | syncm (mask : Mask) (scope : Nat)
  | ldfe (addr : BitVec 32) (w : Nat) (clr : Bool) (dest : Dest) (tag : Nat) (part : Bool)
  deriving DecidableEq, Repr

/-- Why a lane is held (20 R316): its hold set, code, whether it resumes at the held instruction, and the host breakpoint that held it
(25 R389). -/
structure Hold where
  set : Nat
  code : Code
  again : Bool
  bp : Option Nat := none
  deriving DecidableEq, Repr

/-- A lane (02 R19, 04 R65). The depth is the length of the return stack, newest entry first (09 R139). Registers, index
registers: an unlisted one is 0. `completed` is the lane's bit of the partial-completion mask of the last issue of its own that held a lane;
`skipBreak` are the breakpoints its next issue skips, a halt or step that held it counted among them; `replay` says that its PC stands at an
instruction of a segment it has entered, held before (03 R33; 19 R309). -/
structure Lane where
  st : LaneState := .run
  pc : Pc
  rstack : List Pc := []
  yield : Bool := false
  v : List (Nat × BitVec 32) := []
  p : BitVec 7 := 0#7
  x : List (Nat × BitVec 16) := []
  win : List Latch := []
  flags : BitVec 5 := 0#5
  sr : BitVec 32 := 0#32
  completed : Bool := false
  wait : Wait := .none
  ldfeDone : Bool := false
  hold : Option Hold := none
  skipTrap : Bool := false
  skipBreak : List Nat := []
  replay : Bool := false
  deriving DecidableEq, Repr

/-- An array window (04 R57). -/
structure AWin where
  len : BitVec 9 := 256#9
  base : BitVec 8 := 0#8
  deriving DecidableEq, Repr

/-- The lease an issue set holds (03 R35): its lanes, segment start, PC of the next instruction, instructions issued, whether it
is a replay lease (19 R309), whether LDFE suspended it (14 R225), whether it went on from there in a halted group (25 R390), the overlay place it runs, the index of the next overlay
instruction, the original terminator's PC and the overlay's body (17 R289), the hot-segment entry it samples or the overlay place it is
compared for, and its lanes as they stood at its start (17 R287, R289). -/
structure Lease where
  mask : Mask
  start : Pc
  pc : Pc
  count : Nat := 0
  replay : Bool := false
  susp : Bool := false
  atHalt : Bool := false
  overlay : Option Nat := none
  overlayAt : Nat := 0
  term : Pc := 0#64
  body : List (Op × Form) := []
  sample : Option Nat := none
  checkAt : Option Nat := none
  entryLanes : List (Nat × Lane) := []
  deriving DecidableEq, Repr

/-- A result that has not arrived (03 R43; 04 R50): the issue's number, the clock it is due, its class (0 eight- and
sixteen-clock results, 1 loads, 2 overflow reads), whether it delivers flags, the v registers and the predicates whose newest value
it is, as (lane, number), the scalar registers, and the result-window entries of later guard-false instructions that hold it (04 R61), as
(lane, issue). -/
structure Sb where
  tag : Nat
  due : Nat
  cls : Nat
  fp : Bool := false
  vs : List (Nat × Nat) := []
  ss : List Nat := []
  ps : List (Nat × Nat) := []
  held : List (Nat × Nat) := []
  deriving DecidableEq, Repr

/-- A range tag of a counter (13 R200). Spaces: 0 global, 1 SRAM, 2 the weight-buffer grant, 3 every space. -/
structure RangeTag where
  space : Nat
  base : Nat
  size : Nat
  used : Nat := 0
  deriving DecidableEq, Repr

/-- A counted access not yet performed at SYSTEM scope (13 R193, R200): its counter (0 to 15 tagged, 16 untagged), the scopes it
is performed at (bit S for scope S), whether it stores, whether it leaves the device (25 R387), its due clock, the bulk operation
whose bytes it counts (16 R277), and whether it is an XLD or XST, which arrivals wait for (16 R279 to R281). -/
structure Access where
  ctr : Nat
  perf : BitVec 6 := 0#6
  store : Bool
  peer : Bool := false
  due : Nat
  bulk : Option Nat := none
  plain : Bool := false
  deriving DecidableEq, Repr

/-- The 17 counters of a party (13 R200): the tags of the 16 and the accesses they count. `nt` holds the STNTs that no NTDRAIN
has gathered in (05 R72). -/
structure Counters where
  tags : List (Nat × RangeTag) := []
  accs : List Access := []
  nt : List Access := []
  deriving DecidableEq, Repr

/-- A fence in flight (14 R231): FENCE, FENCE.R with its ranges, NTDRAIN, or the wait of a PUBLISH on a published-buffer entry
(14 R235). -/
inductive FenceKind where
  | plain
  | ranged (rs : List RangeTag)
  | drain
  | publish (entry : Nat)
  deriving DecidableEq, Repr

/-- A fence with its scope. -/
structure Fence where
  kind : FenceKind
  scope : Nat
  deriving DecidableEq, Repr

/-- A read that waits for a promotion (13 R199): the core its tag names, the epoch, the location, and whether the request has been
served. -/
structure Promo where
  tag : Nat
  core : Nat
  epoch : Nat
  key : Nat × Nat
  served : Bool := false
  deriving DecidableEq, Repr

/-- A group (02 R10, 04 R65). Roles: 0 general, 1 matrix, 2 epilogue. A lane that is not listed is absent (01 R6). Scalar
registers not listed are 0, windows not listed hold their reset value. `fenced` are the scopes of its completed fences; `step` are the lanes that are to
issue one instruction, and `stepped` those it has left waiting or held (25 R390). -/
structure Group where
  id : Nat
  role : Nat
  part : Nat
  slot : Nat
  lanes : List (Nat × Lane)
  s : List (Nat × BitVec 64) := []
  aw : List (Nat × AWin) := []
  alloc : Nat
  base : Nat
  req : Nat := 0
  spinCnt : BitVec 16 := 0#16
  spinLim : BitVec 16 := 1024#16
  spinRot : BitVec 5 := 0#5
  spinPc : BitVec 57 := 0#57
  lease : Option Lease := none
  requests : Nat := 0
  ovfRd : BitVec 64 := 0#64
  ovfWr : BitVec 64 := 0#64
  ovfMiss : BitVec 64 := 0#64
  ctr : Counters := {}
  fences : List Fence := []
  fenced : List Nat := []
  promos : List Promo := []
  sb : List Sb := []
  checking : Option Nat := none
  fetching : Option Nat := none
  lastIssue : Option Nat := none
  issues : Nat := 0
  movingTill : Nat := 0
  halt : Bool := false
  step : Mask := 0#32
  stepped : Mask := 0#32
  freed : Bool := false
  deriving DecidableEq, Repr

/-- A tensor handle: the fields of its descriptor record (11 R174). -/
structure Handle where
  base : BitVec 64
  fmt : Nat
  rank : Nat
  spn : Nat
  scblk : Nat
  pub : Bool
  size : List Nat
  stride : List Nat
  scale : BitVec 64
  deriving DecidableEq, Repr

/-- A bulk operation of a transfer program (16 R276 to R278): its number, its space codes (0 global, 1 SRAM, 2 weight buffer), the XPC
that issued it, its barrier address, its 16-byte units not yet moved (source address, destination address), the page tag of a
weight-buffer destination (15 R248), the fronts of the published buffers when it started (12 R191), the hold set it waits on,
and the clock from which its units may move. -/
structure BulkOp where
  num : Nat
  srcSpace : Nat
  dstSpace : Nat
  xpc : Nat
  bar : BitVec 32
  units : List (Nat × Nat)
  tag : Nat := 0
  fronts : Option (List (Nat × Nat)) := none
  waiting : Option Nat := none
  start : Nat := 0
  deriving DecidableEq, Repr

/-- What a transfer program waits for (16 R266, R279, R281): a barrier's flip, a signal for register `d`, or its earlier accesses
before an XARV is applied. -/
inductive XWaitKind where
  | none
  | barrier (addr : BitVec 32) (phase : Bool)
  | signal (d : Nat) (mask : BitVec 16)
  | arrive (addr : BitVec 32) (bytes : BitVec 64)
  deriving DecidableEq, Repr

/-- A transfer program (16 R266): `n` is its number in the team, `proc` its processor. STATE: 1 RUN, 2 WAIT, 3 HELD, 4 ENDED
(16 R285). Registers not listed are 0. -/
structure XProg where
  n : Nat
  proc : Nat
  c : List (Nat × BitVec 64) := []
  k : List (Nat × BitVec 32) := []
  xpc : Nat := 0
  state : Nat := 1
  signal : BitVec 16 := 0#16
  post : BitVec 32 := 0#32
  ctr : Counters := {}
  queue : List BulkOp := []
  wait : XWaitKind := .none
  loads : List (Nat × Nat) := []
  fences : List Fence := []
  fenced : List Nat := []
  promos : List Promo := []
  bulkNext : Nat := 0
  holdSet : Option Nat := none
  lastIssue : Option Nat := none
  deriving DecidableEq, Repr

/-- An engine operation (15 R251 to R258) with its snapshot: MXGO or MXV, block address and fields, the groups (of MXV: panels) as rows,
B offset and sparsity, handle snapshots, and progress; `interrupted` says that its PROG is written. `part`, `gid`, `lane` and `pc` name its issuer. -/
structure EngineOp where
  ref : TeamRef
  mxv : Bool
  part : Nat
  gid : Nat
  lane : Nat
  pc : Pc
  block : BitVec 32
  acc : Bool
  afmt : Nat
  bfmt : Nat
  sa : Bool
  sb : Bool
  dtile : Nat
  k : Nat
  a : Nat
  aHandle : Option Handle
  ascl : Nat
  bscl : Nat
  bar : BitVec 32
  rows : List (Nat × Nat × Nat)
  bHandle : Option Handle
  atGroup : Nat := 0
  atStep : Nat := 0
  interrupted : Bool := false
  running : Bool := false
  due : Nat := 0
  holdSet : Option Nat := none
  stop : Bool := false
  deriving DecidableEq, Repr

/-- A team of a launch, or the firmware slot's team, whose launch is 0 (02 R8; 20 R324; 22 R345). `units` and `tiles` map the
grant's relative units and tiles to physical ones (15 R247). `fpxenNext` is a TEAM_FPXEN written in the present clock, which acts from the next (08 R120). `ended` is the code that ended it (20 R319). The fields from `win` to `engSaved` hold
a vacated team's window, full/empty bits, weight buffer, page tags, tiles and engine operations (20 R324, 15 R264), and `ctx` is the number of its
place in firmware's memory, 0 of the firmware slots' teams (04 R49; log 44). -/
structure Team where
  ref : TeamRef
  core : Nat
  epoch : Nat := 0
  winOff : Nat
  winLen : Nat
  units : List Nat := []
  tiles : List Nat := []
  handles : List (Nat × Handle) := []
  fpxen : BitVec 5 := 0#5
  fpxenNext : Option (BitVec 5) := none
  usedE : Bool := false
  usedS : Bool := false
  barredS : Bool := false
  barred : List Nat := []
  groups : List Group := []
  progs : List XProg := []
  stalled : Nat := 0
  moved : Bool := false
  vacating : Bool := false
  stopped : Bool := false
  expSlot : Option Nat := none
  win : List Host.Cell := []
  winFull : List (Nat × Bool) := []
  wbSaved : List Host.Cell := []
  wbTagSaved : List (Nat × Nat) := []
  accSaved : List (Nat × BitVec 32) := []
  engSaved : List EngineOp := []
  ctx : Nat := 0
  ended : Option Code := none
  retired : Bool := false
  deriving DecidableEq, Repr

/-- A partition: `ptr`, its rotation pointer less the clock modulo 16, which stays while nothing issues and the pointer advances by one in each
clock (03 R41), the FP64 unit's busy clock and the overflow cache (03 R42; 04 R50): rows by (slot, register), most recently used first. -/
structure Part where
  ptr : Nat := 0
  fp64Till : Nat := 0
  forageAt : Option Nat := none
  cache : List (Nat × Nat) := []
  deriving DecidableEq, Repr

/-- An entry of the hot-segment table (18 R290): launch, start PC, count, the running epoch's clock, the clock of its last epoch, progress (0 counting, 1 sampling, 2
searching, 3 installed, 4 done), blacklist (0 none, 1 the epoch, 2 the launch), samples. -/
structure Hot where
  launch : Nat
  pc : Pc
  count : Nat := 0
  epoch : Option Nat
  began : Nat := 0
  progress : Nat := 0
  black : Nat := 0
  samples : Nat := 0
  order : Nat := 0
  deriving DecidableEq, Repr

/-- A comparison in progress under tether or audit (17 R289, 18 R297, R298): the team, group and partition, the lanes at lease start and
after the terminator, the lanes compared, whether it is an audit and of which execution, whether the original has ended, and the Forage
issues the candidate's body still takes. -/
structure Check where
  team : TeamRef
  gid : Nat
  part : Nat
  before : List (Nat × Lane)
  after : List (Nat × Lane) := []
  mask : Mask
  audit : Bool
  count : Nat
  ended : Bool := false
  todo : Nat := 0
  deriving DecidableEq, Repr

/-- An overlay place (18 R296, R305): its entry, launch, original segment, candidate, class S mark, promotion, agreements, executions
since promotion, last use, an audit that moved to the next execution, and the comparison in progress. -/
structure Overlay where
  entry : Nat
  launch : Nat
  pc : Pc
  body : List (Op × Form)
  classS : Bool
  promoted : Bool := false
  agree : Nat := 0
  execs : Nat := 0
  used : Nat := 0
  audit : Bool := false
  check : Option Check := none
  deriving DecidableEq, Repr

/-- The lane-cycle record of a core (03 R46) with the Forage counters (18 R305) and CORE_SRAM_PASS (12 R186). Bins and bin counters
not listed are 0. -/
structure Lcr where
  en : Bool := true
  base : List (Nat × BitVec 64) := []
  lim : List (Nat × BitVec 64) := []
  act : List (Nat × BitVec 64) := []
  div : List (Nat × BitVec 64) := []
  prd : List (Nat × BitVec 64) := []
  abs : List (Nat × BitVec 64) := []
  totAct : BitVec 64 := 0#64
  totDiv : BitVec 64 := 0#64
  totPred : BitVec 64 := 0#64
  totAbs : BitVec 64 := 0#64
  idle : BitVec 64 := 0#64
  forage : BitVec 64 := 0#64
  pass : BitVec 64 := 0#64
  hot : BitVec 64 := 0#64
  inst : BitVec 64 := 0#64
  promo : BitVec 64 := 0#64
  disc : BitVec 64 := 0#64
  wdraw : BitVec 64 := 0#64
  emiss : BitVec 64 := 0#64
  deriving DecidableEq, Repr

/-- The scan CSRs of a core (22 R346, R347), REF included, and the clock a running pattern started. -/
structure Scan where
  prio : BitVec 8 := 0#8
  pat : BitVec 8 := 0#8
  time : BitVec 16 := 0#16
  faildom : BitVec 8 := 0#8
  badcmd : Bool := false
  state : Nat := 0
  sig : BitVec 64 := 0#64
  ref : BitVec 64 := 0#64
  started : Nat := 0
  deriving DecidableEq, Repr

/-- A lane held with FPX (20 R317): team, group id, its partition, lane, the enabled flags it raised, the held PC and the lanes of its issue
that completed the instruction. -/
structure FpxLane where
  ref : TeamRef
  group : Nat
  part : Nat
  lane : Nat
  flags : BitVec 5
  pc : Pc
  cmask : Mask
  deriving DecidableEq, Repr

/-- A collection window of FP exceptions (20 R317): launch, the clock it opened, its hold set and the lanes held. -/
structure FpxWindow where
  launch : Nat
  opened : Nat
  set : Nat
  lanes : List FpxLane
  deriving DecidableEq, Repr

/-- An INDIRECT array being run (23 R357, R358): its base VA, packet count and next index, its launches not yet complete, and the VA
and completion word of the INDIRECT packet. -/
structure Frame where
  base : Nat
  count : Nat
  next : Nat := 0
  open' : Nat := 0
  va : Nat
  csig : Nat
  deriving DecidableEq, Repr

/-- A command packet in progress (23 R354, R357): the queue, its index and place, its 64 bytes (none while the innermost array waits for
its launches), the INDIRECT arrays it came through, innermost first, whether it has begun, a WAIT's time limit, a LAUNCH's place in the claim
order, and `block`: the parameter block of a LAUNCH, read at the claim, or an ATTEST's snapshot. -/
structure Packet where
  queue : Nat
  index : BitVec 64
  va : Nat
  bytes : List (BitVec 8)
  chain : List Frame := []
  running : Bool := false
  deadline : Option Nat := none
  order : Nat := 0
  block : List (BitVec 8) := []
  deriving DecidableEq, Repr

/-- A SCAN command passed to a core's agent (23 R357): the claiming core, PRIO and PAT, and whether the core has left OPEN. -/
structure ScanJob where
  agent : Nat
  prio : BitVec 8
  pat : BitVec 8
  begun : Bool := false
  deriving DecidableEq, Repr

/-- An entry of an export table (12 R182). -/
structure ExpEntry where
  range : BitVec 64 := 0#64
  ctl : BitVec 64 := 0#64
  deriving DecidableEq, Repr

/-- A core. `trace` is the trace cache by segment start PC and mask class (21 R343; 0 FULL, 1 LOW16, 2 HIGH16, 3 PARTIAL) with 4 ×
(2 × owner + world) of the fetch that filled the entry. Slice, weight
buffer and accumulator bytes not listed are 0; granules not listed are EMPTY. `relEpoch` is the release-epoch counter (13 R199);
`dirty` says that the L1 may hold a line not yet written back (22 R348). -/
structure Core where
  sram : List Host.Cell := []
  full : List (Nat × Bool) := []
  wb : List Host.Cell := []
  wbTag : List (Nat × Nat) := []
  acc : List (Nat × BitVec 32) := []
  engine : List EngineOp := []
  parts : List (Nat × Part) := []
  expTable : List (Nat × ExpEntry) := []
  lcr : Lcr := {}
  relEpoch : Nat := 0
  forageEn : Bool := true
  hot : List (Nat × Hot) := []
  overlays : List (Nat × Overlay) := []
  searching : Option Nat := none
  searchDone : Nat := 0
  scan : Scan := {}
  hgrpSel : BitVec 64 := 0#64
  bps : List (Nat × BitVec 64) := []
  dbgLtag : BitVec 16 := 0#16
  dirty : Bool := false
  windows : List FpxWindow := []
  trace : List (Pc × Nat) := []
  cmd : Option Packet := none
  scans : List ScanJob := []
  scanJob : Option ScanJob := none
  deriving DecidableEq, Repr

/-- A fault record (19 R307) with what the device keeps beside it: the hold set, the team and party it names, the owner and trap policy of its
launch (20 R316; 25 R384), and whether it has been resolved. -/
structure FaultRec where
  code : Code
  kind : Nat
  ltag : Nat
  team : BitVec 32
  lcore : Nat
  part : Nat := 0
  group : Nat := 0
  xp : Option Nat := none
  lanes : Mask := 0#32
  pc : BitVec 57
  addr : BitVec 57 := 0#57
  cmask : Mask := 0#32
  cause : Code := 0#8
  nrec : Nat := 1
  ridx : Nat := 0
  seq : Nat := 0
  time : Nat := 0
  ref : TeamRef
  core : Nat
  set : Nat
  owner : Nat := 0
  tpol : Nat := 0
  resolved : Bool := false
  deriving DecidableEq, Repr

/-- An error record (24 R370); `testing` says of one whose self-test is pending that the agent has started its pattern (24 R372). -/
structure ErrorRec where
  cls : Nat
  unit : Nat
  part : Nat
  die : Nat
  core : Nat
  ltag : Nat
  row : BitVec 32
  col : BitVec 16
  idx : BitVec 16
  det1 : BitVec 64
  det2 : BitVec 64
  lost : Nat := 0
  outcome : Nat := 0
  pat : Nat := 0
  seq : Nat := 0
  time : Nat := 0
  testing : Bool := false
  deriving DecidableEq, Repr

/-- A published-buffer entry (12 R190). -/
structure Published where
  front : Nat
  back : Nat
  owner : Nat
  len : Nat
  gen : BitVec 64
  deriving DecidableEq, Repr

/-- A queue record (23 R352) as the device holds it, with the completed packets at or past READ, whether its format bars it from a slot,
and the owner and world of the session that wrote it (DEDUCED, log 21). -/
structure Queue where
  ring : Nat
  prio : Nat
  log2 : Nat
  sigva : Nat
  read : BitVec 64
  err : Nat
  errAddr : Nat
  ticket : BitVec 64
  bad : Bool := false
  doneSet : List Nat := []
  owner : Nat := 0
  secure : Bool := false
  deriving DecidableEq, Repr

/-- A hardware slot that holds a mapped queue, with the home core of its ticket word, the word, and the clocks of its last signal store and last claim (23 R353,
R355). -/
structure HwSlot where
  queue : Nat
  home : Nat := 0
  signalled : Nat
  claimed : Nat := 0
  ticket : BitVec 64
  deriving DecidableEq, Repr

/-- A kernel's role of a registered object (21 R335): kind 0 general, 1 matrix, 2 epilogue, 3 copy; allotment; entry text offset;
transfer programs as (word offset, words). -/
structure Role where
  kind : Nat
  regs : Nat
  entry : Nat
  progs : List (Nat × Nat) := []
  deriving DecidableEq, Repr

/-- A kernel of a registered object (21 R334). -/
structure Kernel where
  khdr : BitVec 64
  sram : Nat
  lanes : Nat
  mgrp : Nat
  egrp : Nat
  cx : Nat
  cy : Nat
  cz : Nat
  roles : List Role
  toff : Nat
  tlen : Nat
  deriving DecidableEq, Repr

/-- A registered Psimi object (21 R332 to R340): where its sections stand, its text and transfer words, and its segments as (start
VA, instruction count), its core-count places, the 64 KiB pages mapped for it, and the map epoch its core counts were patched for. -/
structure Obj where
  owner : Nat
  secure : Bool
  textVa : Nat
  textPa : Nat
  textLen : Nat
  poolVa : Nat
  poolCount : Nat
  dataVa : Nat
  xtext : List Word
  segments : List (Nat × Nat)
  kernels : List Kernel
  measure : BitVec 512
  coreSites : List (Nat × Bool)
  pages : List Nat := []
  epoch : Nat := 0
  deriving DecidableEq, Repr

/-- The state of a dispatched cluster of a launch (20 R319 to R325; 23 R362): 1 resident, 2 vacated, 3 ended, 4 retired,
5 waiting for relaunch, 6 placed and held until every cluster of a PERSISTENT launch is placed, 7 ended for good. -/
structure Cluster where
  key : Nat
  state : Nat := 0
  relaunches : Nat := 0
  cores : List Nat := []
  herd : Nat := 0
  saved : List Team := []
  usedS : Bool := false
  usedE : Bool := false
  barredS : Bool := false
  barred : List Nat := []
  deriving DecidableEq, Repr

/-- A buffered RED of a DETERMINISTIC launch (24 R375): its place in the order, the physical address, and its addend. -/
structure DetRed where
  team : Nat
  group : Nat
  order : Nat
  lane : Nat
  pa : Nat
  x : BitVec 32
  deriving DecidableEq, Repr

/-- An active launch (23 R359): its block, resolved against the kernel's defaults, and its course: the packet, array frame (agent's core and
depth) or trigger it came from, how many clusters have been dispatched in ascending key and those clusters, the export entries its
PERSISTENT teams took (core, entry), their fix-up barriers (team, slice offset), whether a PERSISTENT launch has started its clusters, and the start PCs of its class E overlays that disagreed (18 R301). -/
structure Launch where
  obj : Nat
  kernel : Nat
  ltag : Nat
  tiles : Nat := 0
  wbu : Nat := 0
  tpol : Nat := 0
  retry : Nat := 0
  prio : Nat := 0
  idem : Bool := false
  det : Bool := false
  persistent : Bool := false
  forageOff : Bool := false
  forageSpec : Bool := false
  gx : Nat := 1
  gy : Nat := 1
  gz : Nat := 1
  mgrp : Nat := 0
  egrp : Nat := 0
  lanes : Nat := 32
  cx : Nat := 1
  cy : Nat := 1
  cz : Nat := 1
  sram : Nat := 0
  regG : Nat := 0
  regM : Nat := 0
  regE : Nat := 0
  iter : Nat := 0
  tile : Nat := 0
  wdog : Nat := 0
  fixBase : BitVec 64 := 0#64
  fixStride : Nat := 0
  preempt : Nat := 0
  csig : Nat := 0
  secure : Bool := false
  owner : Nat := 0
  epoch : Nat := 0
  order : Nat := 0
  queue : Option Nat := none
  packet : Option (BitVec 64) := none
  frame : Option (Nat × Nat) := none
  trigger : Option Nat := none
  dispatched : Nat := 0
  exports : List (Nat × Nat) := []
  fixups : List (Nat × Nat) := []
  admitted : Bool := true
  clusters : List Cluster := []
  fseq : BitVec 32 := 0xFFFFFFFF#32
  fcode : Code := 0#8
  relaunches : Nat := 0
  escaped : Bool := false
  withdrawnS : Bool := false
  withdrawnE : List Nat := []
  detBuf : List DetRed := []
  detCount : Nat := 0
  idleFor : Nat := 0
  preemptPending : Bool := false
  started : Bool := false
  deriving DecidableEq, Repr

/-- A time-trigger entry (23 R366) with the time of its next slot; `spent` says that its single slot lay in the past when it was written. -/
structure Trigger where
  start : Nat
  period : Nat
  lpb : Nat
  skip : BitVec 32
  catchup : Bool
  en : Bool
  owner : Nat := 0
  secure : Bool := false
  next : Nat := 0
  pending : Bool := false
  active : Option Nat := none
  spent : Bool := false
  deriving DecidableEq, Repr

/-- The party whose instruction the step runs now, set by `step` before `exec`; the model's own field (DESIGN CHOICE, log 2). -/
inductive Cur where
  | none
  | group (g : GroupRef)
  | prog (x : ProgRef)
  deriving DecidableEq, Repr

/-- What a host session reads through the debug endpoint (25 R384, R391): a device register; the LCR counters of a core; bytes of a core's
Forage area; a cumulative count of a link, port or bank by kind, unit, die and index; the 64 rows of an HBM stack with the most corrected
errors (24 R373). -/
inductive DebugRead where
  | csr (n : Nat)
  | lcr (core : Nat)
  | forage (core off len : Nat)
  | count (kind unit die idx : Nat)
  | rows (die : Nat)
  deriving DecidableEq, Repr

/-- What the agenda holds (DESIGN CHOICE, log 2): an event of the outside world or of the device, a service of a core's firmware agent for a fault
record (20 R316; 23 R368), a read of the host debug endpoint (25 R384), or one filling of an issue position, ahead of what is due. -/
inductive Item where
  | event (i : Instr)
  | service (core seq : Nat)
  | debugRead (r : DebugRead)
  | barrel
  deriving DecidableEq, Repr

/-- Where the barrel stands in the present clock (03 R41; DESIGN CHOICE, log 2): the core whose positions are being filled, its partition (6 for the transfer
processors) and position, how many places of the ring the scan has passed, the last slot that issued, the single units taken, and the
cores that are done. -/
structure Turn where
  core : Option Nat := none
  part : Nat := 0
  pos : Nat := 0
  scan : Nat := 0
  last : Option Nat := none
  taken : List Nat := []
  done : List Nat := []
  deriving DecidableEq, Repr

/-- Why the machine stops with a fault. -/
inductive Fault where
  /-- Raised by the meaning of a compute or transfer instruction when no resident group or transfer program issues it. `step` runs one
  only for the party that issues it, and drops an agenda item that names one. Safe: the spec gives an instruction no effect without an
  issuer. -/
  | noIssuer
  deriving DecidableEq, Repr

/-- Why the machine refuses an instruction. -/
inductive Refusal where
  /-- Raised by `exec` for an instruction that the model gives no meaning. Safe: nothing is claimed of it. -/
  | notModelled (mnemonic : String)
  deriving DecidableEq, Repr

/-- The whole device. HBM bytes not listed read 0 (DESIGN CHOICE, log 4). `tags` are the promotion tags (13 R199): a location, (0, 64-byte line) of HBM
or (1 + core, granule), with the releasing core and its epoch. Cores not listed are in their reset state. Launches, objects and queues are
numbered from 1, 1 and 0. `claims` counts the launches claimed or fired (23 R362); `rung` are the queues whose signal word has been stored to
since the queue unit looked (23 R353). `stages` are the measurements that extended the attestation chain after the boot stages, `firmware` the measurement of a
firmware that took over from the boot firmware (24 R381, R382). -/
structure State where
  mem : List Host.Cell
  lineKeys : List (Nat × Nat)
  tags : List ((Nat × Nat) × (Nat × Nat))
  cores : List (Nat × Core)
  teams : List Team
  pages : List PageMap
  published : List (Nat × Published)
  removed : List Nat
  epochs : List (Nat × List Nat)
  epoch : Nat
  clk : Nat
  time : Nat
  faultBase : BitVec 32
  faultBaseSet : Bool
  faultNext : Nat
  faultQ : List FaultRec
  faultWait : List FaultRec
  holdSets : Nat
  errNext : Nat
  errQ : List (Nat × ErrorRec)
  errWait : List ErrorRec
  errLost : Nat
  selftests : List ErrorRec
  counts : List (Nat × Nat)
  intervalFrom : Nat
  queues : List (Nat × Queue)
  slots : List (Nat × HwSlot)
  pendingQ : List Nat
  launches : List (Nat × Launch)
  launchNext : Nat
  claims : Nat
  rung : List Nat
  headSince : Nat
  headOf : Option (Nat × Nat)
  backfills : Nat
  reserved : Option Nat
  triggers : List (Nat × Trigger)
  objects : List (Nat × Obj)
  objNext : Nat
  unregistering : List Nat
  ctxRefused : Nat
  qidle : BitVec 16
  age : BitVec 16
  linkLim : BitVec 16
  bankLim : BitVec 16
  rowLim : BitVec 16
  logInt : BitVec 6
  ptpPort : BitVec 8
  ptpState : Nat
  ptpSteps : BitVec 8
  slew : Int
  cap : BitVec 16
  throttled : Bool
  meas : BitVec 16
  hotDies : List Nat
  retiredLinks : List (Nat × Nat)
  retiredPages : List Nat
  portReports : List Nat
  keys : List Nat
  stages : List (BitVec 512)
  firmware : Option (BitVec 512)
  pendingFw : Option (BitVec 512)
  reports : Nat
  hostReply : List (BitVec 8)
  hostStatus : Nat
  agenda : List Item
  turn : Turn
  cur : Cur
  freeCtr : Nat
  deriving DecidableEq, Repr

/-- The device right after module reset. -/
def State.reset : State :=
  { mem := []
    lineKeys := []
    tags := []
    cores := []
    teams := []
    pages := []
    published := []
    removed := []
    epochs := [(0, [])]
    epoch := 0
    clk := 0
    time := 0
    faultBase := 0#32
    faultBaseSet := false
    faultNext := 0
    faultQ := []
    faultWait := []
    holdSets := 0
    errNext := 0
    errQ := []
    errWait := []
    errLost := 0
    selftests := []
    counts := []
    intervalFrom := 0
    queues := []
    slots := []
    pendingQ := []
    launches := []
    launchNext := 1
    claims := 0
    rung := []
    headSince := 0
    headOf := none
    backfills := 0
    reserved := none
    triggers := []
    objects := []
    objNext := 1
    unregistering := []
    ctxRefused := 0
    qidle := 100#16
    age := 50#16
    linkLim := 1024#16
    bankLim := 256#16
    rowLim := 4#16
    logInt := 36#6
    ptpPort := 0#8
    ptpState := 0
    ptpSteps := 0#8
    slew := 0
    cap := 1150#16
    throttled := false
    meas := 0#16
    hotDies := []
    retiredLinks := []
    retiredPages := []
    portReports := []
    keys := []
    stages := []
    firmware := none
    pendingFw := none
    reports := 0
    hostReply := []
    hostStatus := 0
    agenda := []
    turn := {}
    cur := .none
    freeCtr := 0 }

end Sys2Proof.Machine
end

