-- ==== Sys2Proof/Machine/Maps.lean ====
section
/-! DEFINITION. Sparse data: maps as lists of (number, value) with rising numbers, memories as lists of cells in one
canonical form, and the byte-order and bit helpers every later file uses (00 R3). -/
namespace Sys2Proof.Machine

/-! ## Maps -/

/-- The value at a number, if listed. -/
def mapGet {α : Type} (m : List (Nat × α)) (k : Nat) : Option α :=
  match m with
  | [] => none
  | (j, x) :: r => if j = k then some x else if k < j then none else mapGet r k

/-- The value at a number, with the value of an unlisted number. -/
def mapGetD {α : Type} (m : List (Nat × α)) (k : Nat) (d : α) : α := (mapGet m k).getD d

/-- The map with a value listed at a number. -/
def mapPut {α : Type} (m : List (Nat × α)) (k : Nat) (x : α) : List (Nat × α) :=
  match m with
  | [] => [(k, x)]
  | (j, y) :: r => if j = k then (k, x) :: r else if k < j then (k, x) :: (j, y) :: r else (j, y) :: mapPut r k x

/-- The map with a number unlisted. -/
def mapDel {α : Type} (m : List (Nat × α)) (k : Nat) : List (Nat × α) :=
  match m with
  | [] => []
  | (j, y) :: r => if j = k then r.dropWhile (fun q => decide (q.1 ≤ k)) else if k < j then (j, y) :: r else (j, y) :: mapDel r k

/-- The map with a value at a number, unlisted when it is the value an unlisted number has. -/
def mapSet {α : Type} [DecidableEq α] (m : List (Nat × α)) (k : Nat) (x d : α) : List (Nat × α) :=
  if x = d then mapDel m k else mapPut m k x

/-- Numbers rise strictly and no listed value is the unlisted one: the canonical form of a sparse map. -/
def mapWf {α : Type} [DecidableEq α] (d : α) (m : List (Nat × α)) : Bool :=
  match m with
  | [] => true
  | (k, x) :: r => decide (x ≠ d) && (match r with | [] => true | (j, _) :: _ => decide (k < j)) && mapWf d r

/-! ## Memories -/

/-- What a byte of memory that nothing has written reads as (DESIGN CHOICE, log 4; DEDUCED, log 5). -/
def unlistedByte : Byte := 0#8

/-- The canonical form of a memory: addresses rise strictly and no entry equals what an unlisted address reads as. -/
def Memory.wf (m : List Host.Cell) : Bool := mapWf unlistedByte m

/-- One byte of a memory. -/
def readByte (m : List Host.Cell) (a : Nat) : Byte := mapGetD m a unlistedByte

/-- A memory with one byte written. -/
def writeByte (m : List Host.Cell) (a : Nat) (x : Byte) : List Host.Cell := mapSet m a x unlistedByte

/-- `n` bytes from an address. -/
def readBytes (m : List Host.Cell) (a : Nat) : Nat → List Byte
  | 0 => []
  | n + 1 => readByte m a :: readBytes m (a + 1) n

/-- A memory with bytes written from an address. -/
def writeBytes (m : List Host.Cell) (a : Nat) (bs : List Byte) : List Host.Cell :=
  match bs with
  | [] => m
  | b :: r => writeBytes (writeByte m a b) (a + 1) r

/-! ## Bytes and numbers (00 R3) -/

/-- The number little-endian bytes hold. -/
def bytesNat (bs : List Byte) : Nat :=
  match bs with
  | [] => 0
  | b :: r => b.toNat + 256 * bytesNat r

/-- `n` little-endian bytes of a number. -/
def natBytes (x : Nat) : Nat → List Byte
  | 0 => []
  | n + 1 => BitVec.ofNat 8 (x % 256) :: natBytes (x / 256) n

/-- Bits [hi:lo] of a number. -/
def bits (x hi lo : Nat) : Nat := x / 2 ^ lo % 2 ^ (hi + 1 - lo)

/-- One bit of a number. -/
def bit (x i : Nat) : Bool := x / 2 ^ i % 2 = 1

/-- A two's complement reading of the low `w` bits of a number (09 R124). -/
def toSigned (w x : Nat) : Int :=
  let y := x % 2 ^ w
  if 2 ^ (w - 1) ≤ y then (y : Int) - (2 ^ w : Nat) else y

/-- An exact integer modulo 2^w. -/
def wrap (w : Nat) (y : Int) : Nat := (y % ((2 ^ w : Nat) : Int)).toNat

/-- Bits `n` wide rounded up to a whole number of `k`. -/
def ceilDiv (n k : Nat) : Nat := (n + k - 1) / k

/-! ## Lane masks -/

/-- The mask with one lane's bit. -/
def laneBit (l : Nat) : Mask := BitVec.ofNat 32 (2 ^ l)
/-- Whether a mask names a lane. -/
def hasLane (m : Mask) (l : Nat) : Bool := m.getLsbD l
/-- The mask of a list of lanes. -/
def maskOf (ls : List Nat) : Mask := ls.foldl (fun m l => m ||| laneBit l) 0#32
/-- The lanes of a mask in ascending order. -/
def lanesOf (m : Mask) : List Nat := (List.range 32).filter (hasLane m)

/-! ## Lists -/

/-- The list with its element at a place replaced. -/
def listSet {α : Type} (l : List α) (n : Nat) (x : α) : List α :=
  match l, n with
  | [], _ => []
  | _ :: r, 0 => x :: r
  | y :: r, k + 1 => y :: listSet r k x

/-- The list without its element at a place. -/
def listDrop {α : Type} (l : List α) (n : Nat) : List α :=
  match l, n with
  | [], _ => []
  | _ :: r, 0 => r
  | y :: r, k + 1 => y :: listDrop r k

/-- The least element of a list under an order given as a test, the earliest of equals. -/
def listMin {α : Type} (lt : α → α → Bool) (l : List α) : Option α :=
  l.foldl (fun b x => match b with | none => some x | some y => if lt x y then some x else some y) none

/-- An element put before the first that is not below it. -/
def listInsert {α : Type} (le : α → α → Bool) (x : α) (l : List α) : List α :=
  match l with
  | [] => [x]
  | y :: r => if le x y then x :: y :: r else y :: listInsert le x r

/-- A list in order, equals in their old order. -/
def listSort {α : Type} (le : α → α → Bool) (l : List α) : List α := l.foldr (listInsert le) []

/-- Whether two byte ranges meet. -/
def rangesMeet (a n b m : Nat) : Bool := decide (a < b + m) && decide (b < a + n)

/-- The values a list of options holds. -/
def somes {α : Type} (l : List (Option α)) : List α := l.filterMap id

end Sys2Proof.Machine
end

