-- ==== Sys2Proof/Machine/Num.lean ====
section
/-! DEFINITION. Number formats, exact values and the one rounding of every mode (08 R102 to R119), and the arithmetic the
float, conversion, packed and matrix instructions share (10 R152 to R167). Values are exact until `roundTo`. -/
namespace Sys2Proof.Machine

/-! ## Formats (08 R103) -/

/-- A float-class format: exponent and mantissa bits, bias, and its class: 0 with infinities and NaNs as IEEE 754 codes them, 1
E4M3, 2 without either. -/
structure Fmt where
  eb : Nat
  mb : Nat
  bias : Nat
  cls : Nat
  deriving DecidableEq, Repr

/-- The float-class format of a code (08 R102, R103). -/
def fmtOf (c : Nat) : Fmt :=
  match c with
  | 0x00 => ⟨8, 23, 127, 0⟩
  | 0x01 => ⟨5, 10, 15, 0⟩
  | 0x02 => ⟨8, 7, 127, 0⟩
  | 0x03 => ⟨4, 3, 7, 1⟩
  | 0x04 => ⟨5, 2, 15, 0⟩
  | 0x05 => ⟨2, 3, 1, 2⟩
  | 0x06 => ⟨3, 2, 3, 2⟩
  | 0x07 => ⟨2, 1, 1, 2⟩
  | _ => ⟨11, 52, 1023, 0⟩

/-- The sign bit's place. -/
def Fmt.signAt (f : Fmt) : Nat := f.eb + f.mb
/-- The code of the largest finite magnitude. -/
def Fmt.maxCode (f : Fmt) : Nat :=
  match f.cls with
  | 0 => (2 ^ f.eb - 1) * 2 ^ f.mb - 1
  | 1 => 2 ^ (f.eb + f.mb) - 2
  | _ => 2 ^ (f.eb + f.mb) - 1
/-- The canonical NaN of a format code; the formats without a NaN have +0 here (08 R103, R116). -/
def canonicalNan (c : Nat) : Nat :=
  match c with
  | 0x00 => 0x7FC00000
  | 0x01 => 0x7E00
  | 0x02 => 0x7FC0
  | 0x03 => 0x7F
  | 0x04 => 0x7E
  | 0x08 => 0x20
  | 0x0D => 0xFF
  | 0x0E => 0x7FF8000000000000
  | _ => 0

/-- An exact value: a signed mantissa times a power of two; a mantissa of 0 is a signed zero. -/
structure Dy where
  neg : Bool
  m : Nat
  e : Int
  deriving DecidableEq, Repr

/-- What a code stands for: a NaN with its signalling mark, an infinity with its sign, or an exact value. -/
inductive FVal where
  | nan (sig : Bool)
  | inf (neg : Bool)
  | num (x : Dy)
  deriving DecidableEq, Repr

/-- The table of LNS6 (08 R109). -/
def lnsTable (f : Nat) : Nat := match f with | 0 => 1024 | 1 => 1218 | 2 => 1448 | _ => 1722

/-- The linear magnitude of an LNS6 log: T[f] × 2^(i − 10) with e = L − 16 (08 R109). -/
def lnsLinear (l : Nat) : Nat × Int := (lnsTable (l % 4), ((l / 4 : Nat) : Int) - 4 - 10)

/-- The value of a code of a float-class format (08 R103, R104). -/
def floatVal (c : Nat) (x : Nat) : FVal :=
  let f := fmtOf c
  let s := bit x f.signAt
  let e := x / 2 ^ f.mb % 2 ^ f.eb
  let m := x % 2 ^ f.mb
  if f.cls = 0 ∧ e = 2 ^ f.eb - 1 then
    if m = 0 then .inf s else .nan (c ≠ 0x04 && !bit m (f.mb - 1))
  else if f.cls = 1 ∧ e = 2 ^ f.eb - 1 ∧ m = 2 ^ f.mb - 1 then .nan false
  else if e = 0 then .num ⟨s, m, 1 - (f.bias : Int) - f.mb⟩
  else .num ⟨s, 2 ^ f.mb + m, (e : Int) - f.bias - f.mb⟩

/-- The value of a code of any format that holds real values (08 R103, R106, R107, R109). NaR reads as a NaN. -/
def codeVal (c : Nat) (x : Nat) : FVal :=
  match c with
  | 0x08 =>
    let y := x % 64
    if y = 0 then .num ⟨false, 0, 0⟩
    else if y = 32 then .nan false
    else .num ⟨bit y 5, (lnsLinear (y % 32)).1, (lnsLinear (y % 32)).2⟩
  | 0x0D => if x % 256 = 255 then .nan false else .num ⟨false, 1, ((x % 256 : Nat) : Int) - 127⟩
  | 0x0A => let i := toSigned 8 x; .num ⟨decide (i < 0), i.natAbs, 0⟩
  | 0x0B => let i := toSigned 4 x; .num ⟨decide (i < 0), i.natAbs, 0⟩
  | 0x0C => let i := toSigned 32 x; .num ⟨decide (i < 0), i.natAbs, 0⟩
  | _ => floatVal c x

/-! ## Exact arithmetic -/

/-- The signed integer a value is at an exponent not above its own. -/
def Dy.at (x : Dy) (e : Int) : Int :=
  let y : Int := ((x.m * 2 ^ (x.e - e).toNat : Nat) : Int)
  if x.neg then -y else y

/-- A signed integer times a power of two; zero is +0. -/
def dyOf (i : Int) (e : Int) : Dy := ⟨decide (i < 0), i.natAbs, e⟩

/-- The exact sum. A zero sum of terms that are not zeros of one sign is marked by `m = 0` and a positive sign. -/
def dyAdd (x y : Dy) : Dy :=
  if x.m = 0 ∧ y.m = 0 then ⟨x.neg && y.neg, 0, 0⟩
  else
    let e := min x.e y.e
    dyOf (x.at e + y.at e) e

/-- The exact product. -/
def dyMul (x y : Dy) : Dy := ⟨x.neg != y.neg, x.m * y.m, x.e + y.e⟩

/-- The value negated. -/
def dyNeg (x : Dy) : Dy := { x with neg := !x.neg }

/-- Whether the first value is below the second; the zeros are equal. -/
def dyLt (x y : Dy) : Bool := let e := min x.e y.e; decide (x.at e < y.at e)

/-- Whether two values are equal; the zeros are equal. -/
def dyEq (x y : Dy) : Bool := let e := min x.e y.e; decide (x.at e = y.at e)

/-! ## Rounding (08 R114 to R118) -/

/-- The flags (08 R119, R120): NV, DZ, OF, UF and NX in bits 0 to 4. -/
def flagNV : BitVec 5 := 1#5
/-- Divide by zero. -/
def flagDZ : BitVec 5 := 2#5
/-- Overflow. -/
def flagOF : BitVec 5 := 4#5
/-- Underflow. -/
def flagUF : BitVec 5 := 8#5
/-- Inexact. -/
def flagNX : BitVec 5 := 16#5
/-- A flag when a condition holds. -/
def flagIf (c : Bool) (f : BitVec 5) : BitVec 5 := if c then f else 0#5

/-- A result: its bits, the flags raised and the roundings performed (08 R118). -/
structure FRes where
  bits : Nat
  flags : BitVec 5 := 0#5
  rounds : Nat := 0
  deriving DecidableEq, Repr

/-- Whether a rounding moves up in magnitude from `lo` to `hi`, for a magnitude `x` between them in the same units (08 R114,
R117). `h` is the hash of SR. -/
def roundsUp (rm : Nat) (neg loEven : Bool) (h : BitVec 32) (x lo hi : Nat) : Bool :=
  if x = lo then false
  else match rm with
  | 0 => decide (lo + hi < 2 * x) || (decide (lo + hi = 2 * x) && !loEven)
  | 1 => false
  | 2 => neg
  | 3 => !neg
  | 4 => decide (lo + hi ≤ 2 * x)
  | _ => decide (2 ^ 32 ≤ (2 ^ 32 * (x - lo)) / (hi - lo) + h.toNat)

/-- The exponent of the leading bit of a magnitude that is not 0. -/
def topExp (x : Dy) : Int := (Nat.log2 x.m : Int) + x.e

/-- A magnitude rounded to a multiple of 2^q: the multiple and whether it is inexact. -/
def roundQuantum (rm : Nat) (h : BitVec 32) (x : Dy) (q : Int) : Nat × Bool :=
  if q ≤ x.e then (x.m * 2 ^ (x.e - q).toNat, false)
  else
    let u := 2 ^ (q - x.e).toNat
    let n := x.m / u
    (if roundsUp rm x.neg (n % 2 = 0) h x.m (n * u) ((n + 1) * u) then n + 1 else n, n * u ≠ x.m)

/-- The magnitude code of n × 2^q on a format's grid, continued past its largest finite magnitude (08 R115). -/
def gridCode (f : Fmt) (n : Nat) (q : Int) : Nat :=
  if n < 2 ^ f.mb then n
  else if n = 2 ^ (f.mb + 1) then (q + 1 + f.mb + f.bias).toNat * 2 ^ f.mb
  else (q + f.mb + f.bias).toNat * 2 ^ f.mb + (n - 2 ^ f.mb)

/-- What an overflow delivers, without the sign bit's place (08 R115): the magnitude code. -/
def overflowCode (c rm : Nat) (neg sat : Bool) : Nat :=
  let f := fmtOf c
  if sat then f.maxCode
  else match f.cls with
  | 0 =>
    let inf := (2 ^ f.eb - 1) * 2 ^ f.mb
    match rm with
    | 1 => f.maxCode
    | 2 => if neg then inf else f.maxCode
    | 3 => if neg then f.maxCode else inf
    | _ => inf
  | 1 => 0x7F
  | _ => f.maxCode

/-- An exact value rounded once to a float-class format (08 R105, R114, R115). An exact zero is passed to `round_to` and counts one SR rounding
(DESIGN CHOICE, log 70). -/
def roundFloat (c rm : Nat) (sat : Bool) (h : BitVec 32) (x : Dy) : FRes :=
  let f := fmtOf c
  let s := if x.neg then 2 ^ f.signAt else 0
  if x.m = 0 then ⟨s, 0#5, 1⟩
  else
    let emin : Int := 1 - f.bias
    let q := max (topExp x) emin - f.mb
    let r := roundQuantum rm h x q
    let code := gridCode f r.1 q
    if f.maxCode < code then
      let o := overflowCode c rm x.neg sat
      ⟨(if c = 0x03 ∧ o = 0x7F then 0 else s) + o, flagOF ||| flagNX, 1⟩
    else
      let t := roundQuantum rm h x (topExp x - f.mb)
      let tiny := decide (topExp x < emin) && !(decide (t.1 = 2 ^ (f.mb + 1)) && decide (topExp x + 1 = emin))
      ⟨s + code, flagIf (tiny && r.2) flagUF ||| flagIf r.2 flagNX, 1⟩

/-- The largest LNS6 log, of the unbounded grid, whose linear magnitude is at most a magnitude; 0 below the smallest code. The search
runs down from `k`. -/
def lnsFloor (x : Dy) : Nat → Nat
  | 0 => 0
  | k + 1 =>
    let l := lnsLinear (k + 1)
    if dyLt ⟨false, x.m, x.e⟩ ⟨false, l.1, l.2⟩ then lnsFloor x k else k + 1

/-- An exact value rounded to LNS6 (08 R114, R115; 10 R161). -/
def roundLns (rm : Nat) (sat : Bool) (h : BitVec 32) (x : Dy) : FRes :=
  if x.m = 0 then ⟨0, 0#5, 1⟩
  else
    let l := lnsFloor x 32
    let s := if x.neg then 32 else 0
    let past : FRes := ⟨if sat then s + 31 else 32, flagOF ||| flagNX, 1⟩
    if 32 ≤ l then past
    else
      let lo : Dy := if l = 0 then ⟨false, 0, 0⟩ else ⟨false, (lnsLinear l).1, (lnsLinear l).2⟩
      let hi : Dy := ⟨false, (lnsLinear (l + 1)).1, (lnsLinear (l + 1)).2⟩
      let e := min (min x.e hi.e) lo.e
      let xm := ((⟨false, x.m, x.e⟩ : Dy).at e).toNat
      let up := roundsUp rm x.neg (l % 2 = 0) h xm (lo.at e).toNat (hi.at e).toNat
      let n := if up then l + 1 else l
      let inexact := decide (xm ≠ (lo.at e).toNat)
      if 32 ≤ n then past
      else ⟨if n = 0 then 0 else s + n, flagIf (decide (l = 0) && inexact) flagUF ||| flagIf inexact flagNX, 1⟩

/-- A positive exact value rounded to E8M0 (08 R106, R115, R116). -/
def roundE8m0 (rm : Nat) (sat : Bool) (h : BitVec 32) (x : Dy) : FRes :=
  let q := topExp x
  if q < -127 then ⟨0, flagUF ||| flagNX, 1⟩
  else
    let code := (q + 127).toNat
    let lo := 2 ^ Nat.log2 x.m
    let up := roundsUp rm false (code % 2 = 0) h x.m lo (2 * lo)
    let n := if up then code + 1 else code
    if 254 < n then ⟨if sat then 0xFE else 0xFF, flagOF ||| flagNX, 1⟩
    else ⟨n, flagIf (decide (x.m ≠ lo)) flagNX, 1⟩

/-- `round_to` of the spec: an exact value rounded once to a format (08 R114 to R117). A negative value into E8M0 is a special
input (08 R116). -/
def roundTo (c rm : Nat) (sat : Bool) (h : BitVec 32) (x : Dy) : FRes :=
  match c with
  | 0x08 => roundLns rm sat h x
  | 0x0D => roundE8m0 rm sat h x
  | _ => roundFloat c rm sat h x

/-- An exact value rounded to an integer and limited to a range (10 R162; 08 R115, R117). -/
def roundInt (rm : Nat) (h : BitVec 32) (lo hi : Int) (x : Dy) : Int × BitVec 5 :=
  let r := roundQuantum rm h x 0
  let i : Int := if x.neg then -(r.1 : Int) else r.1
  if i < lo then (lo, flagNV ||| flagNX)
  else if hi < i then (hi, flagNV ||| flagNX)
  else (i, flagIf r.2 flagNX)

/-- The hash of stochastic rounding (08 R117). -/
def srHash (team : BitVec 32) (group lane : Nat) (c : BitVec 32) : BitVec 32 :=
  let x := (team * 0x9E3779B1#32) ^^^ (BitVec.ofNat 32 (32 * group + lane) * 0x85EBCA77#32) ^^^ (c * 0xC2B2AE3D#32)
  let x := (x ^^^ (x >>> 16)) * 0x7FEB352D#32
  let x := (x ^^^ (x >>> 15)) * 0x846CA68B#32
  x ^^^ (x >>> 16)

/-! ## Basic arithmetic (10 R152 to R155) -/

/-- The canonical NaN of a format with flags. -/
def nanRes (c : Nat) (fl : BitVec 5) : FRes := ⟨canonicalNan c, fl, 0⟩

/-- An infinity of a format; it counts no SR rounding (DESIGN CHOICE, log 70). -/
def infRes (c : Nat) (neg : Bool) : FRes :=
  let f := fmtOf c
  ⟨(if neg then 2 ^ f.signAt else 0) + (2 ^ f.eb - 1) * 2 ^ f.mb, 0#5, 0⟩

/-- Whether a value is a signalling NaN. -/
def isSig (v : FVal) : Bool := match v with | .nan s => s | _ => false
/-- Whether a value is a NaN. -/
def isNan (v : FVal) : Bool := match v with | .nan _ => true | _ => false

/-- An exact sum rounded, with the sign of an exact zero (10 R152): −0 under RDN unless both terms are zeros of one sign. -/
def roundSum (c rm : Nat) (sat : Bool) (h : BitVec 32) (x y : Dy) : FRes :=
  let z := dyAdd x y
  if z.m = 0 then
    let neg := if x.m = 0 ∧ y.m = 0 ∧ x.neg = y.neg then x.neg else rm == 2
    roundTo c rm sat h ⟨neg, 0, 0⟩
  else roundTo c rm sat h z

/-- The sum of two values (10 R152). -/
def fAdd (c rm : Nat) (sat : Bool) (h : BitVec 32) (a b : FVal) : FRes :=
  match a, b with
  | .nan s, y => nanRes c (flagIf (s || isSig y) flagNV)
  | x, .nan s => nanRes c (flagIf (s || isSig x) flagNV)
  | .inf p, .inf q => if p = q then infRes c p else nanRes c flagNV
  | .inf p, .num _ => infRes c p
  | .num _, .inf q => infRes c q
  | .num x, .num y => roundSum c rm sat h x y

/-- The value negated; a NaN stays. -/
def fNeg (v : FVal) : FVal :=
  match v with
  | .nan s => .nan s
  | .inf n => .inf !n
  | .num x => .num (dyNeg x)

/-- The product of two values (10 R152). -/
def fMul (c rm : Nat) (sat : Bool) (h : BitVec 32) (a b : FVal) : FRes :=
  match a, b with
  | .nan s, y => nanRes c (flagIf (s || isSig y) flagNV)
  | x, .nan s => nanRes c (flagIf (s || isSig x) flagNV)
  | .inf p, .inf q => infRes c (p != q)
  | .inf p, .num y => if y.m = 0 then nanRes c flagNV else infRes c (p != y.neg)
  | .num x, .inf q => if x.m = 0 then nanRes c flagNV else infRes c (x.neg != q)
  | .num x, .num y => roundTo c rm sat h (dyMul x y)

/-- The exact product of two values, with whether forming it is invalid: 0 × ∞. -/
def exactMul (a b : FVal) : FVal × Bool :=
  match a, b with
  | .nan _, _ => (.nan false, false)
  | _, .nan _ => (.nan false, false)
  | .inf p, .inf q => (.inf (p != q), false)
  | .inf p, .num y => if y.m = 0 then (.nan false, true) else (.inf (p != y.neg), false)
  | .num x, .inf q => if x.m = 0 then (.nan false, true) else (.inf (x.neg != q), false)
  | .num x, .num y => (.num (dyMul x y), false)

/-- The fused product and sum (10 R152): 0 × ∞ is invalid even beside a quiet NaN. -/
def fFma (c rm : Nat) (sat : Bool) (h : BitVec 32) (a b d : FVal) : FRes :=
  let p := exactMul a b
  let sig := isSig a || isSig b || isSig d
  if p.2 then nanRes c flagNV
  else if isNan a || isNan b || isNan d then nanRes c (flagIf sig flagNV)
  else fAdd c rm sat h p.1 d

/-- FMIN (`mx` false) and FMAX (10 R153): one operand's bits, or the canonical NaN. -/
def fMinMax (c : Nat) (mx : Bool) (xa xb : Nat) : FRes :=
  let a := floatVal c xa
  let b := floatVal c xb
  let fl := flagIf (isSig a || isSig b) flagNV
  if isNan a && isNan b then ⟨canonicalNan c, fl, 0⟩
  else if isNan a then ⟨xb, fl, 0⟩
  else if isNan b then ⟨xa, fl, 0⟩
  else
    let sa := bit xa (fmtOf c).signAt
    let sb := bit xb (fmtOf c).signAt
    let less : Bool :=
      match a, b with
      | .inf p, .inf q => p && !q
      | .inf p, _ => p
      | _, .inf q => !q
      | .num x, .num y => dyLt x y || (dyEq x y && sa && !sb)
      | _, _ => false
    ⟨if less != mx then xa else xb, fl, 0⟩

/-- Order of two values: none when unordered, else −1, 0 or 1 (10 R154). -/
def fCompare (a b : FVal) : Option Int :=
  match a, b with
  | .nan _, _ => none
  | _, .nan _ => none
  | .inf p, .inf q => some (if p = q then 0 else if p then -1 else 1)
  | .inf p, .num _ => some (if p then -1 else 1)
  | .num _, .inf q => some (if q then 1 else -1)
  | .num x, .num y => some (if dyLt x y then -1 else if dyLt y x then 1 else 0)

/-- The result and flags of FCMP (10 R154). -/
def fCmp (cc : Nat) (a b : FVal) : Bool × BitVec 5 :=
  let o := fCompare a b
  let sig := flagIf (isSig a || isSig b) flagNV
  let any := flagIf o.isNone flagNV
  match cc with
  | 0 => (o == some 0, sig)
  | 1 => (o != some 0, sig)
  | 2 => (o == some (-1), any)
  | 3 => (o == some (-1) || o == some 0, any)
  | 4 => (o == some 1, any)
  | 5 => (o == some 1 || o == some 0, any)
  | 6 => (o.isSome, sig)
  | _ => (o.isNone, sig)

/-- The class mask of FCLASS (10 R155). -/
def fClass (c : Nat) (x : Nat) : Nat :=
  let f := fmtOf c
  let s := bit x f.signAt
  match floatVal c x with
  | .nan sig => if sig then 0x100 else 0x200
  | .inf n => if n then 0x001 else 0x080
  | .num y =>
    if y.m = 0 then (if s then 0x008 else 0x010)
    else if y.m < 2 ^ f.mb then (if s then 0x004 else 0x020)
    else (if s then 0x002 else 0x040)

/-! ## Square root -/

/-- The integer square root, built from bit `k` down. -/
def isqrtFrom (n : Nat) : Nat → Nat → Nat
  | 0, r => if (r + 1) * (r + 1) ≤ n then r + 1 else r
  | k + 1, r => isqrtFrom n k (if (r + 2 ^ (k + 1)) * (r + 2 ^ (k + 1)) ≤ n then r + 2 ^ (k + 1) else r)

/-- The square root of a positive exact value with enough bits for one rounding; a lowest bit of 1 marks an inexact root. -/
def dySqrt (x : Dy) : Dy :=
  let odd := decide (x.e % 2 ≠ 0)
  let m0 := if odd then 2 * x.m else x.m
  let e0 := if odd then x.e - 1 else x.e
  let m := m0 * 2 ^ 256
  let r := isqrtFrom m ((Nat.log2 m) / 2 + 1) 0
  ⟨false, 2 * r + (if r * r = m then 0 else 1), (e0 - 256) / 2 - 1⟩

/-- FSQRT (10 R156, R157): correctly rounded under RM. -/
def fSqrt (c rm : Nat) (h : BitVec 32) (x : Nat) : FRes :=
  match floatVal c x with
  | .nan s => nanRes c (flagIf s flagNV)
  | .inf n => if n then nanRes c flagNV else infRes c false
  | .num y =>
    if y.m = 0 then ⟨x % 2 ^ ((fmtOf c).signAt + 1), 0#5, 0⟩
    else if y.neg then nanRes c flagNV
    else roundTo c rm false h (dySqrt y)

/-! ## Conversions (10 R161 to R163; 08 R116) -/

/-- What a NaN or NaR converts to (08 R116). That the NaN of E8M0 raises NV in E8M0 too is R116's cell; 10 R161 names NV for a signalling NaN only
(DEDUCED, log 70). -/
def cvtNan (td ts : Nat) (sig : Bool) : FRes :=
  match td with
  | 0x05 | 0x06 | 0x07 => ⟨0, flagNV ||| flagNX, 0⟩
  | 0x08 => ⟨0x20, flagIf (ts != 0x08) flagNV, 0⟩
  | 0x0D => ⟨0xFF, flagNV, 0⟩
  | _ => nanRes td (flagIf sig flagNV)

/-- What an infinity converts to (08 R116). -/
def cvtInf (td : Nat) (neg sat : Bool) : FRes :=
  match td with
  | 0x03 => if sat then ⟨(if neg then 0x80 else 0) + 0x7E, flagNV ||| flagNX, 0⟩ else ⟨0x7F, flagNV, 0⟩
  | 0x05 => ⟨(if neg then 0x20 else 0) + 0x1F, flagNV ||| flagNX, 0⟩
  | 0x06 => ⟨(if neg then 0x20 else 0) + 0x1F, flagNV ||| flagNX, 0⟩
  | 0x07 => ⟨(if neg then 0x8 else 0) + 0x7, flagNV ||| flagNX, 0⟩
  | 0x08 => if sat then ⟨(if neg then 0x20 else 0) + 0x1F, flagNV ||| flagNX, 0⟩ else ⟨0x20, flagNV, 0⟩
  | 0x0D => if sat then ⟨0xFE, flagNV ||| flagNX, 0⟩ else ⟨0xFF, flagNV, 0⟩
  | _ => infRes td neg

/-- FCVT of a value (10 R161; 08 R116). -/
def fCvt (td ts rm : Nat) (sat : Bool) (h : BitVec 32) (v : FVal) : FRes :=
  match v with
  | .nan s => cvtNan td ts s
  | .inf n => cvtInf td n sat
  | .num x =>
    if x.m = 0 then
      match td with
      | 0x08 => ⟨0, 0#5, 0⟩
      | 0x0D => ⟨0, flagUF ||| flagNX, 0⟩
      | _ => ⟨if x.neg then 2 ^ (fmtOf td).signAt else 0, 0#5, 0⟩
    else if td = 0x0D ∧ x.neg then ⟨0xFF, flagNV, 0⟩
    else roundTo td rm sat h x

/-- F2I of a value into an integer type (10 R162). -/
def fToInt (w : Nat) (signed : Bool) (rm : Nat) (h : BitVec 32) (v : FVal) : Int × BitVec 5 × Nat :=
  let lo : Int := if signed then -(2 ^ (w - 1) : Nat) else 0
  let hi : Int := if signed then (2 ^ (w - 1) : Nat) - 1 else (2 ^ w : Nat) - 1
  match v with
  | .nan _ => (0, flagNV ||| flagNX, 0)
  | .inf n => (if n then lo else hi, flagNV ||| flagNX, 0)
  | .num x => let r := roundInt rm h lo hi x; (r.1, r.2, if x.m = 0 then 0 else 1)

/-- I2F of an exact integer (10 R163): 0 gives +0, or 0x00 in LNS6, and counts no SR rounding (DESIGN CHOICE, log 70). -/
def intToF (td rm : Nat) (sat : Bool) (h : BitVec 32) (i : Int) : FRes :=
  if i = 0 then ⟨0, 0#5, 0⟩ else roundTo td rm sat h (dyOf i 0)

/-! ## Sums of products (08 R110, R122; 10 R164) -/

/-- The LNS6 product of two codes in units of 2^-10; none for NaR (08 R110). -/
def lnsProduct (a b : Nat) : Option Int :=
  let x := a % 64
  let y := b % 64
  if x = 32 ∨ y = 32 then none
  else if x = 0 ∨ y = 0 then some 0
  else
    let lp : Int := ((x % 32 : Nat) : Int) + ((y % 32 : Nat) : Int) - 16
    let e := lp - 16
    let i := e / 4
    let t := lnsTable (e % 4).toNat
    let p : Nat := if 0 ≤ i then t * 2 ^ i.toNat else t / 2 ^ (-i).toNat
    some (if bit x 5 != bit y 5 then -(p : Int) else p)

/-- The exact sum of the products of two lists of values (08 R122): a NaN product or infinities of both signs make a NaN, a zero
sum is +0. -/
def sumProducts (ps : List (FVal × FVal)) : FVal :=
  let prods := ps.map (fun p => (exactMul p.1 p.2).1)
  let pos := prods.any (fun v => v == .inf false)
  let neg := prods.any (fun v => v == .inf true)
  if prods.any isNan || (pos && neg) then .nan false
  else if pos then .inf false
  else if neg then .inf true
  else
    let s : Dy := prods.foldl (fun (a : Dy) v => match v with | .num x => dyAdd a x | _ => a) ⟨false, 0, 0⟩
    .num (if s.m = 0 then ⟨false, 0, 0⟩ else s)

/-- A sum of LNS6 products rounded to FP32 (08 R122; 10 R164). -/
def sumLns (ps : List (Nat × Nat)) : FVal :=
  let prods := ps.map (fun p => lnsProduct p.1 p.2)
  if prods.any Option.isNone then .nan false
  else
    let s := prods.foldl (fun a v => a + v.getD 0) (0 : Int)
    floatVal 0 (roundTo 0 0 false 0#32 (dyOf s (-10))).bits

end Sys2Proof.Machine
end

