-- ==== Sys2Proof/Machine/Ops.lean ====
section
/-! DEFINITION. The named operations over the device: finding and changing cores, teams and groups; the logical core map; HBM
under its keys; translation; SRAM regions, stores that wake waiters and full/empty bits; counters; taking an exception and
returning from one, each once for the whole model (19 R307 to R309, 20 R310 to R319). -/
namespace Sys2Proof.Machine

/-! ## Fault codes (20 R313) -/

def cIllegalOp : Code := 0x01#8
def cIllegalForm : Code := 0x02#8
def cIllegalOperand : Code := 0x03#8
def cPriv : Code := 0x04#8
def cScalarDiverged : Code := 0x05#8
def cIndexBounds : Code := 0x06#8
def cDepthOverflow : Code := 0x07#8
def cLatchScope : Code := 0x08#8
def cAlign : Code := 0x09#8
def cXlate : Code := 0x0A#8
def cProt : Code := 0x0B#8
def cSramProt : Code := 0x0C#8
def cWorld : Code := 0x0D#8
def cDetAtomic : Code := 0x0E#8
def cMaskMismatch : Code := 0x0F#8
def cFpx : Code := 0x10#8
def cMxFormat : Code := 0x11#8
def cMxBounds : Code := 0x12#8
def cHandle : Code := 0x13#8
def cBarrier : Code := 0x14#8
def cTxFault : Code := 0x15#8
def cEccUncorr : Code := 0x16#8
def cWatchdog : Code := 0x17#8
def cTrap : Code := 0x18#8
def cBreak : Code := 0x19#8
def cEscaped : Code := 0x1A#8

/-- Whether a fault of a code ends the team (20 R313). -/
def endsTeam (c : Code) : Bool := !(c == cXlate || c == cFpx || c == cTrap || c == cBreak || c == cEscaped)

/-! ## Cores, teams, groups, programs -/

/-- A core that no step has touched: its reset state, with the idle lane-cycles of every clock so far (03 R45, R46). -/
def untouchedCore (clk : Nat) : Core := { lcr := { idle := BitVec.ofNat 64 (384 * clk) } }

/-- A core by its physical number. -/
def coreAt (s : State) (c : Nat) : Core := (mapGet s.cores c).getD (untouchedCore s.clk)

/-- The state with a core replaced. -/
def setCore (s : State) (c : Nat) (k : Core) : State := { s with cores := mapPut s.cores c k }

/-- The state with a core changed. -/
def updCore (s : State) (c : Nat) (f : Core → Core) : State := setCore s c (f (coreAt s c))

/-- A partition of a core. -/
def partAt (k : Core) (p : Nat) : Part := mapGetD k.parts p {}

/-- The state with a partition changed. -/
def updPart (s : State) (c p : Nat) (f : Part → Part) : State :=
  updCore s c (fun k => { k with parts := mapPut k.parts p (f (partAt k p)) })

/-- A resident team by its launch and linear id. -/
def teamAt (s : State) (r : TeamRef) : Option Team := s.teams.find? (fun t => t.ref == r)

/-- The state with a team changed. -/
def updTeam (s : State) (r : TeamRef) (f : Team → Team) : State :=
  { s with teams := s.teams.map (fun t => if t.ref == r then f t else t) }

/-- A team with one of its groups changed. -/
def teamUpdGroup (t : Team) (id : Nat) (f : Group → Group) : Team :=
  { t with groups := t.groups.map (fun g => if g.id == id then f g else g) }

/-- The state with a group changed. -/
def updGroup (s : State) (r : TeamRef) (id : Nat) (f : Group → Group) : State :=
  updTeam s r (fun t => teamUpdGroup t id f)

/-- A group of a team. -/
def groupOf (t : Team) (id : Nat) : Option Group := t.groups.find? (fun g => g.id == id)

/-- The names of the team and group that hold a group slot. -/
def slotHolder (s : State) (p : GroupRef) : Option (TeamRef × Nat) :=
  s.teams.findSome? (fun t =>
    if t.core == p.core then
      (t.groups.find? (fun g => g.part == p.part && g.slot == p.slot && !g.freed)).map (fun g => (t.ref, g.id))
    else none)

/-- The state with a vacated team changed in its saved context. -/
def updSaved (s : State) (r : TeamRef) (f : Team → Team) : State :=
  { s with launches := s.launches.map (fun p =>
      (p.1, { p.2 with clusters := p.2.clusters.map (fun q => { q with saved := q.saved.map (fun t => if t.ref == r then f t else t) }) })) }

/-- A vacated team by its launch and linear id. -/
def savedTeam (s : State) (r : TeamRef) : Option Team :=
  (s.launches.flatMap (fun p => p.2.clusters.flatMap Cluster.saved)).find? (fun t => t.ref == r)

/-- A team and its group by their names. -/
def namedGroup (s : State) (r : TeamRef) (id : Nat) : Option (Team × Group) :=
  (teamAt s r).bind (fun t => (groupOf t id).map (fun g => (t, g)))

/-- The team and group that hold a group slot. -/
def groupAt (s : State) (p : GroupRef) : Option (Team × Group) := (slotHolder s p).bind (fun q => namedGroup s q.1 q.2)

/-- The place of a group. -/
def placeOf (t : Team) (g : Group) : GroupRef := ⟨t.core, g.part, g.slot⟩

/-- A group with one of its lanes changed. -/
def updLane (g : Group) (l : Nat) (f : Lane → Lane) : Group :=
  { g with lanes := g.lanes.map (fun p => if p.1 == l then (p.1, f p.2) else p) }

/-- A group with every lane of a mask changed. -/
def updLanes (g : Group) (m : Mask) (f : Lane → Lane) : Group :=
  { g with lanes := g.lanes.map (fun p => if hasLane m p.1 then (p.1, f p.2) else p) }

/-- The names of the team and transfer program that hold a transfer processor. -/
def procHolder (s : State) (x : ProgRef) : Option (TeamRef × Nat) :=
  s.teams.findSome? (fun t =>
    if t.core == x.core && !t.retired then (t.progs.find? (fun p => p.proc == x.n)).map (fun p => (t.ref, p.n)) else none)

/-- A transfer program of a team. -/
def progOf (t : Team) (n : Nat) : Option XProg := t.progs.find? (fun p => p.n == n)

/-- A team and its transfer program by their names. -/
def namedProg (s : State) (r : TeamRef) (n : Nat) : Option (Team × XProg) :=
  (teamAt s r).bind (fun t => (progOf t n).map (fun p => (t, p)))

/-- The team and transfer program that hold a transfer processor. -/
def progAt (s : State) (x : ProgRef) : Option (Team × XProg) := (procHolder s x).bind (fun q => namedProg s q.1 q.2)

/-- The state with a transfer program changed. -/
def updProg (s : State) (r : TeamRef) (n : Nat) (f : XProg → XProg) : State :=
  updTeam s r (fun t => { t with progs := t.progs.map (fun p => if p.n == n then f p else p) })

/-- The launch under which the firmware slot's team runs: none of the launch table (22 R345). Its teams' linear id is the physical core
(DESIGN CHOICE, log 19). -/
def firmwareLaunch : Launch := { obj := 0, kernel := 0, ltag := 0, gx := Config.coreCount }

/-- The launch of a team. -/
def launchOf (s : State) (t : Team) : Launch := (mapGet s.launches t.ref.launch).getD firmwareLaunch

/-- The state with a launch changed. -/
def updLaunch (s : State) (n : Nat) (f : Launch → Launch) : State :=
  match mapGet s.launches n with
  | none => s
  | some l => { s with launches := mapPut s.launches n (f l) }

/-- Whether a place is the firmware agent's slot (02 R17, 22 R345). -/
def isFirmwareSlot (part slot : Nat) : Bool := part == 5 && slot == 15

/-- The next free value and the state that has taken it (DESIGN CHOICE, log 3). -/
def takeFree (s : State) : BitVec 64 × State := (Config.freeValue s.freeCtr, { s with freeCtr := s.freeCtr + 1 })

/-- `n` free values one after another, as one number, the first lowest. -/
def freeWords : Nat → State → Nat × State
  | 0, s => (0, s)
  | n + 1, s =>
    let a := takeFree s
    let r := freeWords n a.2
    (a.1.toNat + 2 ^ 64 * r.1, r.2)

/-! ## The logical core map (00 R2, 02 R14, 22 R351) -/

/-- The removed cores of a map epoch, ascending. -/
def removedAt (s : State) (epoch : Nat) : List Nat := (mapGet s.epochs epoch).getD []

/-- The physical core of a logical core, in ascending order without the removed ones. -/
def physOfLogical (s : State) (epoch l : Nat) : Nat :=
  (removedAt s epoch).foldl (fun p r => if r ≤ p then p + 1 else p) l

/-- The logical number of a physical core. -/
def logicalOfPhys (s : State) (epoch p : Nat) : Nat := p - ((removedAt s epoch).filter (fun r => decide (r < p))).length

/-- The logical core count of an epoch. -/
def logicalCount (s : State) (epoch : Nat) : Nat := Config.coreCount - (removedAt s epoch).length

/-- Whether the herd of a physical core has an exposed core, and its logical index: herds with exposed cores in physical order
(02 R14). -/
def logicalHerd (s : State) (epoch p : Nat) : Nat :=
  ((List.range (p / Config.coresPerHerd)).filter (fun h =>
    decide (((removedAt s epoch).filter (fun r => r / Config.coresPerHerd == h)).length < Config.coresPerHerd))).length

/-! ## Launch shape (02 R8, R15) -/

/-- The coordinates of a team. -/
def teamXyz (l : Launch) (t : Nat) : Nat × Nat × Nat := (t % l.gx, t / l.gx % l.gy, t / l.gx / l.gy)

/-- The linear id of coordinates. -/
def teamLinear (l : Launch) (x y z : Nat) : Nat := x + l.gx * (y + l.gy * z)

/-- The cluster key of a team: the lowest linear id of its cluster (02 R15). -/
def clusterKey (l : Launch) (t : Nat) : Nat :=
  let c := teamXyz l t
  teamLinear l (c.1 / l.cx * l.cx) (c.2.1 / l.cy * l.cy) (c.2.2 / l.cz * l.cz)

/-- The teams of a cluster in rank order (02 R15). -/
def clusterTeams (l : Launch) (key : Nat) : List Nat :=
  let c := teamXyz l key
  (List.range (l.cx * l.cy * l.cz)).map (fun r =>
    teamLinear l (c.1 + r % l.cx) (c.2.1 + r / l.cx % l.cy) (c.2.2 + r / l.cx / l.cy))

/-- The rank of a team in its cluster (02 R15). -/
def teamRank (l : Launch) (t : Nat) : Nat :=
  let c := teamXyz l t
  c.1 % l.cx + l.cx * (c.2.1 % l.cy + l.cy * (c.2.2 % l.cz))

/-- The lanes of a team (02 R10, R12). -/
def teamLanes (l : Launch) : Nat := if l.mgrp + l.egrp = 0 then l.lanes else 32 * (l.mgrp + l.egrp)

/-- The thread number of a lane (02 R11). -/
def threadNumber (l : Launch) (team group lane : Nat) : Nat := team * teamLanes l + group * 32 + lane

/-- Whether the kernel of a launch has L16 set (21 R334, R344). -/
def launchL16 (s : State) (l : Launch) : Bool :=
  match mapGet s.objects l.obj with
  | some o => match o.kernels[l.kernel]? with | some k => k.khdr.getLsbD 8 | none => false
  | none => false

/-! ## HBM under its keys (12 R176, 24 R380) -/

/-- The key of a 64-byte line: none when nothing was written to it, else the slot that wrote it. -/
def lineKey (s : State) (pa : Nat) : Option Nat := mapGet s.lineKeys (pa / 64)

/-- One byte of HBM as an owner's key decrypts it: another owner's line reads as meaningless bytes (24 R380, DESIGN CHOICE, log 16). -/
def hbmByte (s : State) (owner pa : Nat) : Byte :=
  match lineKey s pa with
  | none => readByte s.mem pa
  | some k => if k = owner then readByte s.mem pa else Config.foreignByte pa

/-- `n` bytes of HBM read under an owner's key. -/
def hbmRead (s : State) (owner pa : Nat) : Nat → List Byte
  | 0 => []
  | n + 1 => hbmByte s owner pa :: hbmRead s owner (pa + 1) n

/-- The bytes of a line re-encrypted under an owner's key, from the address on. -/
def rekeyBytes (s : State) (m : List Host.Cell) (owner pa : Nat) : Nat → List Host.Cell
  | 0 => m
  | n + 1 => rekeyBytes s (writeByte m pa (hbmByte s owner pa)) owner (pa + 1) n

/-- The state with the line of an address held under an owner's key. -/
def ownLine (s : State) (owner pa : Nat) : State :=
  match lineKey s pa with
  | none => { s with lineKeys := mapPut s.lineKeys (pa / 64) owner }
  | some k =>
    if k = owner then s
    else { s with mem := rekeyBytes s s.mem owner (pa / 64 * 64) 64, lineKeys := mapPut s.lineKeys (pa / 64) owner }

/-- One byte written to HBM under an owner's key. -/
def hbmWriteByte (s : State) (owner pa : Nat) (x : Byte) : State :=
  let s1 := ownLine s owner pa
  { s1 with mem := writeByte s1.mem pa x }

/-- Bytes written to HBM under an owner's key. -/
def hbmWrite (s : State) (owner pa : Nat) (bs : List Byte) : State :=
  match bs with
  | [] => s
  | b :: r => hbmWrite (hbmWriteByte s owner pa b) owner (pa + 1) r

/-! ## Translation (12 R176, R190; 25 R387) -/

/-- The kinds of access a mapping is checked for; `back` is a write of an engine operation or TDST through a PUB handle. -/
inductive AccKind where
  | read | write | atomic | exec | back
  deriving DecidableEq, Repr

/-- What translation answers. -/
inductive Xl where
  | fault (c : Code)
  | hbm (pa : Nat)
  | peer (device plane addr : Nat)
  deriving DecidableEq, Repr

/-- The page of an owner's address space that holds an address. -/
def findPage (s : State) (owner va : Nat) : Option PageMap :=
  s.pages.find? (fun p => p.owner == owner && p.valid && decide (p.va ≤ va) && decide (va < p.va + p.size))

/-- Whether a mapping allows a kind of access. -/
def pageAllows (p : PageMap) (k : AccKind) : Bool :=
  match k with
  | .read => p.read
  | .write | .back => p.write
  | .atomic => p.atomic
  | .exec => p.exec

/-- The bytes of a published buffer, whose LEN counts 64 KiB pages (12 R190). -/
def Published.bytes (q : Published) : Nat := q.len * 0x10000

/-- The memory of a published buffer's two halves: (base, bytes). -/
def Published.halves (q : Published) : List (Nat × Nat) := [(q.front, q.bytes), (q.back, q.bytes)]

/-- The physical place of an address on a page: FRONT of a published buffer, or BACK for the writes R190 names. Past the buffer's LEN there is
no page (DEDUCED, log 76). -/
def pagePlace (s : State) (p : PageMap) (k : AccKind) (va : Nat) : Xl :=
  match p.target with
  | .hbm b => .hbm (b + (va - p.va))
  | .peer d pl b => .peer d pl (b + (va - p.va))
  | .published e pg =>
    match mapGet s.published e with
    | none => .fault cXlate
    | some q =>
      let off := pg * 0x10000 + (va - p.va)
      if off < q.bytes then .hbm ((if k = .back then q.back else q.front) + off) else .fault cXlate

/-- Translation in the order of R312: no mapping, the other world, the access kind. `world` is the party's; none accesses both
(24 R379). -/
def translate (s : State) (owner : Nat) (world : Option Bool) (va : Nat) (k : AccKind) : Xl :=
  match findPage s owner va with
  | none => .fault cXlate
  | some p =>
    if world.isSome && world != some p.secure then .fault cWorld
    else if !pageAllows p k then .fault cProt
    else pagePlace s p k va

/-- The owner key slot and world of a team: the firmware slot's data is slot 0's, in both worlds (24 R379, R380). -/
def teamWorld (s : State) (t : Team) : Nat × Option Bool :=
  if t.ref.launch = 0 then (0, none) else ((launchOf s t).owner, some (launchOf s t).secure)

/-- A byte of a peer device's memory as a read that takes no free value of its own sees it (25 R387; DESIGN CHOICE, log 3). -/
def peerByteAt (s : State) (d pl a : Nat) : Byte := Config.peerByte s.clk (a + 2 ^ 57 * (pl + 64 * d))

/-- Translation for a team. -/
def teamTranslate (s : State) (t : Team) (va : Nat) (k : AccKind) : Xl :=
  translate s (teamWorld s t).1 (teamWorld s t).2 va k

/-- The page key by which records of one issue are told apart (20 R315). -/
def pageKey (s : State) (t : Team) (c : Code) (va : Nat) : Nat :=
  if c = cXlate then va / 0x10000 + 1
  else if c = cProt ∨ c = cWorld then
    match findPage s (teamWorld s t).1 va with
    | some p => p.va / 0x10000 + 1
    | none => 0
  else 0

/-- A global effective address (12 R176). -/
def vaOf (base : DWord) (off : Int) : Nat := wrap 57 ((base.toNat : Int) + off)

/-! ## SRAM (12 R179 to R187) -/

/-- The physical core and offset an SRAM address names for a team; none when its CORE is no logical core. -/
def sramPlace (s : State) (t : Team) (a : BitVec 32) : Option (Nat × Nat) :=
  let c := a.toNat / 2 ^ 21
  let o := a.toNat % 2 ^ 21
  if c = 0x7FF then some (t.core, o)
  else if c < logicalCount s t.epoch then some (physOfLogical s t.epoch c, o)
  else none

/-- Whether `n` bytes at an offset lie in a window. -/
def inWindow (off len o n : Nat) : Bool := decide (off ≤ o) && decide (o + n ≤ off + len)

/-- Whether two teams are of one cluster. -/
def sameCluster (s : State) (t u : Team) : Bool :=
  t.ref.launch == u.ref.launch && t.ref.launch != 0
    && clusterKey (launchOf s t) t.ref.team == clusterKey (launchOf s t) u.ref.team

/-- Whether an export entry lets a team access `n` bytes (12 R182). -/
def expMatches (s : State) (t : Team) (e : ExpEntry) (o n : Nat) (write : Bool) : Bool :=
  let r := e.range.toNat
  let c := e.ctl.toNat
  bit r 63 && decide (bits r 20 0 ≤ o) && decide (o + n ≤ bits r 41 21 + 1)
    && (bits c 63 32 == t.ref.team || bits c 63 32 == 0xFFFFFFFF) && bits c 31 16 == (launchOf s t).ltag
    && t.ref.launch != 0 && (if write then bit c 1 else bit c 0)

/-- The first region that holds a whole access (12 R180): 0 the own window, 1 a cluster peer's, 2 an export entry; none is
SRAM_PROT. -/
def sramRegion (s : State) (t : Team) (c o n : Nat) (write : Bool) : Option Nat :=
  if c = t.core ∧ inWindow t.winOff t.winLen o n = true then some 0
  else if s.teams.any (fun u => u.core == c && sameCluster s t u && u.ref != t.ref && inWindow u.winOff u.winLen o n) then
    some 1
  else if decide (o + n ≤ Config.windowTop) && (coreAt s c).expTable.any (fun e => expMatches s t e.2 o n write) then some 2
  else none

/-- The core of a dispatched team of a launch: resident, vacated, or where it stood last while it waits for a relaunch. -/
def dispatchedCore (l : Launch) (team : Nat) : Option Nat :=
  (l.clusters.find? (fun q => q.key == clusterKey l team)).bind (fun q => q.cores[teamRank l team]?)

/-- Whether bytes at a place are the fix-up barrier of a team of the same PERSISTENT launch, also of one that waits for a relaunch (02 R28; 24
R375). -/
def isFixup (s : State) (t : Team) (c o n : Nat) : Bool :=
  let l := launchOf s t
  l.persistent && decide (n ≤ 8) && o % 8 + n ≤ 8
    && l.fixups.any (fun q => q.2 == o / 8 * 8 && dispatchedCore l q.1 == some c)

/-- The place of an SRAM access of `n` bytes after its checks: alignment, region, and the own window under DETERMINISTIC but for
the fix-up barrier (12 R179, R180; 24 R375). -/
def sramCheck (s : State) (t : Team) (a : BitVec 32) (n : Nat) (write : Bool) : Except Code (Nat × Nat) :=
  if a.toNat % n ≠ 0 then .error cAlign
  else match sramPlace s t a with
  | none => .error cSramProt
  | some (c, o) =>
    match sramRegion s t c o n write with
    | none => .error cSramProt
    | some r => if (launchOf s t).det && r != 0 && !isFixup s t c o n then .error cDetAtomic else .ok (c, o)

/-- Bytes of a slice. -/
def sramRead (s : State) (c o n : Nat) : List Byte := readBytes (coreAt s c).sram o n

/-- Whether the granule of an offset is FULL (12 R187). -/
def granuleFull (s : State) (c o : Nat) : Bool := mapGetD (coreAt s c).full (o / 16) false

/-- Whether a lane's awaited word differs between two states, or its granule has become FULL (05 R67; 09 R141; 14 R240). -/
def waitOver (s0 s1 : State) (t : Team) (w : Wait) : Bool :=
  match w with
  | .parkWord a _ =>
    match sramPlace s1 t a with
    | some (c, o) => sramRead s0 c o 4 != sramRead s1 c o 4
    | none => false
  | .parkFull a =>
    match sramPlace s1 t a with
    | some (c, o) => !granuleFull s0 c o && granuleFull s1 c o
    | none => false
  | .barwait a _ =>
    match sramPlace s1 t a with
    | some (c, o) => bit (bytesNat (sramRead s0 c o 8)) 63 != bit (bytesNat (sramRead s1 c o 8)) 63
    | none => false
  | _ => false

/-- The least clocks of the round trip to a slice: the own core, its herd, its die, another die by the hops between them on the 8 by 4
grid (12 R183). Dies stand on the grid row by row (DESIGN CHOICE, log 60). -/
def sliceDelay (c k : Nat) : Nat :=
  let d := c / Config.coresPerDie
  let e := k / Config.coresPerDie
  if c = k then 20
  else if c / Config.coresPerHerd = k / Config.coresPerHerd then 40
  else if d = e then 60
  else 110 + 29 * (natDist (d % 8) (e % 8) + natDist (d / 8) (e / 8))
where
  /-- The distance of two numbers. -/
  natDist (a b : Nat) : Nat := (a - b) + (b - a)

/-! ## Release tags and promotion (13 R199) -/

/-- A location in the tag table: a 64-byte line of HBM. -/
def lineKeyOf (pa : Nat) : Nat × Nat := (0, pa / 64)
/-- A location in the tag table: a granule of a slice. -/
def granuleKeyOf (c o : Nat) : Nat × Nat := (1 + c, o / 16)

/-- A location tagged by a release at CORE or CLUSTER scope, and the core's release epoch increased. -/
def tagRelease (s : State) (core : Nat) (key : Nat × Nat) : State :=
  let e := (coreAt s core).relEpoch
  { updCore s core (fun k => { k with relEpoch := e + 1 }) with
    tags := (key, (core, e)) :: s.tags.filter (fun p => p.1 != key) }

/-- The tag a read from another core meets. -/
def foreignTag (s : State) (core : Nat) (key : Nat × Nat) : Option (Nat × Nat) :=
  match s.tags.find? (fun p => p.1 == key) with
  | some p => if p.2.1 = core then none else some p.2
  | none => none

/-- The promotion a read of a location asks for: one when another core's tag is on it. -/
def askPromo (s : State) (core tag : Nat) (key : Nat × Nat) : List Promo :=
  match foreignTag s core key with
  | some p => [{ tag := tag, core := p.1, epoch := p.2, key := key }]
  | none => []

/-- The SRAM address a wait watches. -/
def waitAddr (w : Wait) : Option (BitVec 32) :=
  match w with
  | .parkWord a _ | .parkFull a | .barwait a _ | .ldfe a _ _ _ _ _ => some a
  | _ => none

/-- The promotion a wait that ends asks for: it reads the location it watched. -/
def wakePromo (s : State) (t : Team) (tag : Nat) (w : Wait) : List Promo :=
  match (waitAddr w).bind (sramPlace s t) with
  | some (c, o) => askPromo s t.core tag (granuleKeyOf c o)
  | none => []

/-- A lane returned to RUN from a wait. -/
def laneRun (l : Lane) : Lane := { l with st := .run, wait := .none }

/-- The lanes and transfer programs whose awaited change happened between two states, returned to RUN (11 R170), with the promotions
their reads ask for. -/
def wakeWaiters (s0 s1 : State) : State :=
  { s1 with teams := s1.teams.map (fun t =>
      { t with
        groups := t.groups.map (fun g =>
          { g with
            lanes := g.lanes.map (fun p => if waitOver s0 s1 t p.2.wait then (p.1, laneRun p.2) else p)
            promos := g.promos ++ (g.lanes.flatMap (fun p =>
              if waitOver s0 s1 t p.2.wait then wakePromo s1 t g.issues p.2.wait else [])).eraseDups })
        progs := t.progs.map (fun x =>
          match x.wait with
          | .barrier a ph => 
            if waitOver s0 s1 t (.barwait a ph) then
              { x with state := 1, wait := .none, promos := x.promos ++ wakePromo s1 t 0 (.barwait a ph) }
            else x
          | _ => x) }) }

/-- Bytes stored to a slice, with the waiters they wake. Full/empty bits stay (12 R187). -/
def sramStore (s : State) (c o : Nat) (bs : List Byte) : State :=
  wakeWaiters s (updCore s c (fun k => { k with sram := writeBytes k.sram o bs }))

/-- A granule made EMPTY (14 R225). -/
def granuleClear (s : State) (c o : Nat) : State :=
  updCore s c (fun k => { k with full := mapDel k.full (o / 16) })

/-! ## Result windows (04 R61 to R64) -/

/-- Words written to v registers from `n` on. -/
def putWords (v : List (Nat × BitVec 32)) (n : Nat) (x : QWord) : Nat → List (Nat × BitVec 32)
  | 0 => v
  | k + 1 => putWords (mapSet v n (x.extractLsb' 0 32) 0#32) (n + 1) (x >>> 32) k

/-- A lane with a predicate written; p7 keeps reading 1 (04 R60). -/
def putPred (p : BitVec 7) (n : Nat) (b : Bool) : BitVec 7 :=
  if n < 7 then (if b then p ||| BitVec.ofNat 7 (2 ^ n) else p &&& ~~~(BitVec.ofNat 7 (2 ^ n))) else p

/-- One entry written back to its destination (04 R63). -/
def writeBack (l : Lane) (e : Latch) : Lane :=
  if e.pending then
    match e.dest with
    | .none => l
    | .v n w => { l with v := putWords l.v n e.val w }
    | .p n => { l with p := putPred l.p n (e.val.getLsbD 0) }
  else l

/-- Entries written back in instruction order, the window holding the newest first. -/
def writeBackAll (l : Lane) (es : List Latch) : Lane := es.foldr (fun e a => writeBack a e) l

/-- A lane with an entry pushed: the ninth leaves the window and is written back. -/
def pushLatch (l : Lane) (e : Latch) : Lane :=
  let w := e :: l.win
  { writeBackAll l (w.drop 8) with win := w.take 8 }

/-- A lane whose segment has ended: every pending entry written back, the window empty (04 R63, R64). -/
def flushWindow (l : Lane) : Lane := { writeBackAll l l.win with win := [] }

/-- A lane with its pending entries written back and its latches still readable (04 R52). -/
def settleWindow (l : Lane) : Lane :=
  { writeBackAll l l.win with win := l.win.map (fun e => { e with pending := false }) }

/-! ## Counters (13 R200) -/

/-- Whether a tag covers a range. -/
def tagCovers (a b : RangeTag) : Bool :=
  a.space == 3 || (a.space == b.space && decide (a.base ≤ b.base) && decide (b.base + b.size ≤ a.base + a.size))

/-- Whether two ranges meet; the weight-buffer space meets no named range. -/
def tagMeets (a b : RangeTag) : Bool :=
  a.space == 3 || (a.space == b.space && decide (a.base < b.base + b.size) && decide (b.base < a.base + a.size))

/-- The smallest naturally aligned power-of-two block that covers two ranges of one space. -/
def widenBlock (a b : RangeTag) : Nat → Nat → RangeTag
  | 0, k => ⟨a.space, 0, 2 ^ k, 0⟩
  | f + 1, k =>
    let lo := min a.base b.base
    let hi := max (a.base + a.size) (b.base + b.size)
    if lo / 2 ^ k * 2 ^ k + 2 ^ k ≥ hi then ⟨a.space, lo / 2 ^ k * 2 ^ k, 2 ^ k, 0⟩ else widenBlock a b f (k + 1)

/-- A tag widened to cover a range, or to every space. -/
def widenTag (a b : RangeTag) : RangeTag := if a.space = b.space then widenBlock a b 58 0 else ⟨3, 0, 0, 0⟩

/-- Whether a counter's tag serves an access: it covers the block of a plain one, and is the range itself of one through a handle (13 R200). -/
def tagServes (exact : Bool) (a b : RangeTag) : Bool :=
  if exact then a.space == b.space && a.base == b.base && a.size == b.size else tagCovers a b

/-- The counter an access with a tag is counted on, and the tags afterwards (13 R200); `exact` of an access through a handle. Of several that cover it
the first listed serves, of several without a tag the lowest, and of several used least recently in one clock the first listed (DESIGN CHOICE,
log 77). -/
def pickCounter (c : Counters) (tag : RangeTag) (now : Nat) (exact : Bool := false) : Nat × List (Nat × RangeTag) :=
  match c.tags.find? (fun p => tagServes exact p.2 tag) with
  | some p => (p.1, mapPut c.tags p.1 { p.2 with used := now })
  | none =>
    match (List.range 16).find? (fun n => (mapGet c.tags n).isNone) with
    | some n => (n, mapPut c.tags n { tag with used := now })
    | none =>
      match listMin (fun (a b : Nat × RangeTag) => decide (a.2.used < b.2.used)) c.tags with
      | some p => (p.1, mapPut c.tags p.1 { widenTag p.2 tag with used := now })
      | none => (16, c.tags)

/-- An access counted from issue (13 R200); no tag is the untagged counter. -/
def countAccess (c : Counters) (tag : Option RangeTag) (store peer : Bool) (now due : Nat) (exact : Bool := false) : Counters :=
  match tag with
  | none => { c with accs := c.accs ++ [{ ctr := 16, store := store, peer := peer, due := due }] }
  | some g =>
    let r := pickCounter c g now exact
    { c with tags := r.2, accs := c.accs ++ [{ ctr := r.1, store := store, peer := peer, due := due }] }

/-- The tag of a plain global access: its 64 KiB block. -/
def globalTag (va : Nat) : RangeTag := ⟨0, va / 0x10000 * 0x10000, 0x10000, 0⟩
/-- The tag of a plain SRAM access: its 4 KiB block, the core field as it is written (DESIGN CHOICE, log 77). -/
def sramTag (a : BitVec 32) : RangeTag := ⟨1, a.toNat / 0x1000 * 0x1000, 0x1000, 0⟩

/-- The scopes at which an access performed at scope S is performed: S and every narrower scope that holds its party (13 R192,
R193). -/
def scopesUpTo (sc : Nat) : BitVec 6 :=
  match sc with
  | 0 => 0x01#6
  | 1 => 0x03#6
  | 2 => 0x07#6
  | 3 => 0x0B#6
  | 4 => 0x1F#6
  | _ => 0x3F#6

/-- Counters after an access is performed at a scope: at SYSTEM it leaves, and a counter at zero drops its tag. An access to a peer
device is performed at no scope before SYSTEM (25 R387). -/
def performAccess (c : Counters) (n sc : Nat) : Counters :=
  match c.accs[n]? with
  | none => c
  | some a =>
    let p := a.perf ||| (if a.peer && decide (sc < 5) then 0#6 else scopesUpTo sc)
    if p.getLsbD 5 then
      let accs := listDrop c.accs n
      { c with
        accs := accs
        tags := c.tags.filter (fun t => accs.any (fun b => b.ctr == t.1)) }
    else { c with accs := listSet c.accs n { a with perf := p } }

/-- Whether every counted access that a fence waits for is performed at its scope (13 R201, R203). A fence at DEVICE scope or narrower does
not wait for an access to a peer device (25 R387). -/
def fenceMet (c : Counters) (f : Fence) : Bool :=
  let ok (a : Access) : Bool := a.perf.getLsbD f.scope || (a.peer && decide (f.scope < 5))
  match f.kind with
  | .plain | .publish _ => c.accs.all ok
  | .drain => c.nt.all ok
  | .ranged rs =>
    c.accs.all (fun a =>
      ok a || !(match mapGet c.tags a.ctr with | some t => rs.any (fun r => tagMeets t r) | none => false))

/-! ## Full/empty fills and the LDFEs they serve (12 R187, 14 R225) -/

/-- A lane's LDFE served: its value pending, its instruction done, and noted so in the partial-completion mask when a lane of the issue is
held. -/
def ldfeTake (l : Lane) (v : QWord) (dest : Dest) (tag : Nat) (part : Bool) : Lane :=
  let r := pushLatch l ⟨v, false, dest, dest != .none, tag⟩
  { r with wait := .none, ldfeDone := true, completed := part || r.completed }

/-- The scoreboard entry of a waiting LDFE that a fill has served: the value arrives as a load's does (03 R43). -/
def ldfeArrival (l : Nat) (dest : Dest) (tag due : Nat) : Sb :=
  { tag := tag, due := due, cls := 1, vs := match dest with | .v n w => (List.range w).map (fun k => (l, n + k)) | _ => [] }

/-- Every lane of a suspended lease returned to RUN past its LDFE when none of them waits any more. Where the group is halted, the lease has come to
its pre-emption point (25 R390). -/
def ldfeResume (g : Group) : Group :=
  match g.lease with
  | none => g
  | some le =>
    let waits := g.lanes.any (fun p => hasLane le.mask p.1 && (match p.2.wait with | .ldfe _ _ _ _ _ _ => true | _ => false))
    if le.susp && !waits then
      { updLanes g le.mask (fun l => { l with st := .run, wait := .none, ldfeDone := false, pc := le.pc })
        with lease := some { le with susp := false, atHalt := g.halt } }
    else g

/-- The unserved LDFE of a lane tried again: when its granule is FULL it reads and, with `.clr`, clears in one step; that read is an access of
its own (13 R200). -/
def ldfeTry (s : State) (t : Team) (id l : Nat) : State :=
  match (teamAt s t.ref).bind (fun u => (groupOf u id).bind (fun g => mapGet g.lanes l)) with
  | none => s
  | some lane =>
    match lane.wait with
    | .ldfe a w clr dest tag part =>
      match sramPlace s t a with
      | none => s
      | some (c, o) =>
        if granuleFull s c o then
          let v : QWord := BitVec.ofNat 128 (bytesNat (sramRead s c o w))
          let s1 := if clr then granuleClear s c o else s
          updGroup s1 t.ref id (fun g =>
            ldfeResume { updLane g l (fun x => ldfeTake x v dest tag part) with
              sb := g.sb ++ [ldfeArrival l dest tag (s.clk + sliceDelay t.core c)]
              promos := g.promos ++ askPromo s t.core tag (granuleKeyOf c o)
              ctr := countAccess g.ctr (some (sramTag a)) false false s.clk (s.clk + sliceDelay t.core c) })
        else s
    | _ => s

/-- The suspended LDFEs of every group tried again, in ascending lane order within a group. Which group or team of several that wait takes a
fill is a DESIGN CHOICE (log 73): the first placed. -/
def ldfeRetry (s : State) : State :=
  s.teams.foldl (fun s t =>
    t.groups.foldl (fun s g =>
      match g.lease with
      | some le => if le.susp && !t.ended.isSome then g.lanes.foldl (fun s p => ldfeTry s t g.id p.1) s else s
      | none => s) s) s

/-- A granule set FULL, with the lanes that waited for it (12 R187). -/
def granuleFill (s : State) (c o : Nat) : State :=
  ldfeRetry (wakeWaiters s (updCore s c (fun k => { k with full := mapPut k.full (o / 16) true })))

/-! ## Promotion carried out (13 R199, R204) -/

/-- Every counted access to this device performed at DEVICE scope but the bytes of bulk operations not yet moved. -/
def promoteCounters (queue : List BulkOp) (c : Counters) : Counters :=
  { c with accs := c.accs.map (fun a =>
      if a.peer || queue.any (fun o => a.bulk == some o.num) then a else { a with perf := a.perf ||| scopesUpTo 4 }) }

/-- What the releases of a core's parties cover performed at DEVICE scope: every access those parties have counted. -/
def promoteCore (s : State) (core : Nat) : State :=
  { s with teams := s.teams.map (fun t =>
      if t.core = core then
        { t with
          groups := t.groups.map (fun g => { g with ctr := promoteCounters [] g.ctr })
          progs := t.progs.map (fun x => { x with ctr := promoteCounters x.queue x.ctr }) }
      else t) }

/-- A location promoted: its tag's core performs what its releases up to the epoch cover, and clears the tag. -/
def promoteTag (s : State) (core epoch : Nat) (key : Nat × Nat) : State :=
  let s1 := promoteCore s core
  { s1 with tags := s1.tags.filter (fun e => !(e.1 == key && e.2.1 == core && decide (e.2.2 ≤ epoch))) }

/-! ## The device fault queue (20 R314, R315; 19 R307) -/

/-- The 64 bytes of a fault record (19 R307). -/
def recordBytes (r : FaultRec) : List Byte :=
  natBytes (r.code.toNat * 2 ^ 56 + r.kind * 2 ^ 52 + r.ltag * 2 ^ 32 + r.team.toNat) 8
  ++ natBytes (r.lcore % 2 ^ 11 * 2 ^ 48 + r.part * 2 ^ 45 + r.group * 2 ^ 40 + (if r.xp.isSome then 2 ^ 39 else 0)
      + r.xp.getD 0 * 2 ^ 32 + r.lanes.toNat) 8
  ++ natBytes r.pc.toNat 8 ++ natBytes r.addr.toNat 8
  ++ natBytes (r.cmask.toNat * 2 ^ 32 + r.cause.toNat * 2 ^ 16 + r.nrec % 256 * 2 ^ 8 + r.ridx) 8
  ++ natBytes r.seq 8 ++ natBytes r.time 8 ++ natBytes 1 8

/-- Whether the place of the next record is free: the record 1,024 before it is resolved. -/
def faultPlaceFree (s : State) : Bool :=
  s.faultQ.all (fun r => !(r.seq + 1024 == s.faultNext) || r.resolved)

/-- The next record written at its place, with its sequence number and time, V last (20 R314). The ring lies in firmware-held HBM
once FAULTQ_BASE has been written. -/
def putRecord (s : State) (r : FaultRec) : State :=
  let r1 := { r with seq := s.faultNext, time := s.time }
  let s1 := { s with
    faultQ := s.faultQ.filter (fun q => !(q.seq + 1024 == s.faultNext)) ++ [r1]
    faultNext := s.faultNext + 1 }
  if s.faultBaseSet then
    hbmWrite s1 0 (s.faultBase.toNat * 0x10000 + 64 * (r1.seq % 1024)) (recordBytes r1)
  else s1

/-- A record with the owner and trap policy of its launch, by which a host session may resolve it, also once the launch has completed. -/
def ownRecord (s : State) (r : FaultRec) : FaultRec :=
  match mapGet s.launches r.ref.launch with
  | some l => { r with owner := l.owner, tpol := l.tpol }
  | none => r

/-- A record written, or kept waiting when its place is not free; records are written in the order they were made. -/
def postRecord (s : State) (r : FaultRec) : State :=
  if s.faultWait.isEmpty && faultPlaceFree s then putRecord s (ownRecord s r)
  else { s with faultWait := s.faultWait ++ [ownRecord s r] }

/-- Whether a record is a SYSCALL's: TRAP with bit 56 of ADDR set (20 R329). -/
def isSyscall (r : FaultRec) : Bool := r.code == cTrap && r.addr.getLsbD 56 && r.xp.isNone

/-! ## Ending a team (20 R319) -/

/-- The launch with the first record that ended a team noted (20 R319, 23 R360). -/
def noteFault (l : Launch) (seq : Nat) (c : Code) : Launch :=
  if l.fcode = 0#8 then { l with fseq := BitVec.ofNat 32 seq, fcode := c } else l

/-- A team that stops issuing in this clock: bulk units not started are dropped (20 R319). -/
def stopTeam (c : Code) (t : Team) : Team :=
  { t with ended := some (t.ended.getD c), progs := t.progs.map (fun p => { p with queue := [] }) }

/-- Whether a resident team is of a launch's cluster. -/
def inCluster (s : State) (r : TeamRef) (u : Team) : Bool :=
  u.ref == r || (u.ref.launch == r.launch && r.launch != 0
    && clusterKey (launchOf s u) u.ref.team == clusterKey (launchOf s u) r.team)

/-- A team ended with a code, and with it every team of its cluster, resident or vacated: queued engine operations are discarded, and a
running one stops after its step (20 R319). -/
def endTeam (s : State) (r : TeamRef) (c : Code) (seq : Nat) : State :=
  let hit := s.teams.filter (inCluster s r)
  let refs := hit.map Team.ref
  let s1 := { s with teams := s.teams.map (fun t => if refs.contains t.ref then stopTeam c t else t) }
  let s2 := hit.foldl (fun s t =>
    updCore s t.core (fun k =>
      { k with engine := (k.engine.filter (fun o => !(refs.contains o.ref) || o.running)).map (fun o =>
          if refs.contains o.ref then { o with stop := true } else o) })) s1
  updLaunch (updLaunch s2 r.launch (fun l => noteFault l seq c)) r.launch (fun l =>
    { l with clusters := l.clusters.map (fun q =>
        if q.key == clusterKey l r.team && decide (q.state = 1 ∨ q.state = 2 ∨ q.state = 6) then { q with state := 3, saved := [] }
        else q) })

/-! ## Taking an exception (20 R310 to R317) -/

/-- A fault of one lane of an issue: code, access kind (19 R393), page key (20 R315) and address. -/
structure LaneFault where
  lane : Nat
  code : Code
  kind : Nat
  page : Nat := 0
  addr : BitVec 57 := 0#57
  flags : BitVec 5 := 0#5
  deriving DecidableEq, Repr

/-- The records one issue writes: one for each distinct code and page, in the order of the lowest lane each names. -/
def groupFaults (fs : List LaneFault) : List (LaneFault × Mask) :=
  fs.foldl (fun a f =>
    if a.any (fun q => q.1.code == f.code && q.1.page == f.page) then
      a.map (fun q => if q.1.code == f.code && q.1.page == f.page then (q.1, q.2 ||| laneBit f.lane) else q)
    else a ++ [(f, laneBit f.lane)]) []

/-- Whether the lanes of a code resume at the held instruction (20 R316): all but TRAP, and BREAK without bit 55 of ADDR. -/
def resumesAgain (c : Code) (addr : BitVec 57) : Bool :=
  !(c == cTrap) && (!(c == cBreak) || addr.getLsbD 55)

/-- The host's mark in a BREAK record, n where ADDR is 2^55 + n: a breakpoint below 16, 0x40 a halt, 0x41 a step (25 R389, R390). -/
def breakpointOf (c : Code) (addr : BitVec 57) : Option Nat :=
  if c = cBreak ∧ addr.getLsbD 55 = true then some (addr.toNat % 2 ^ 55) else none

/-- Lanes joined to the FPX collection window of their launch on their core, opened when none is open (20 R317). -/
def joinFpx (s : State) (t : Team) (g : Group) (pc : Pc) (cm : Mask) (fs : List LaneFault) : State :=
  match fs with
  | [] => s
  | _ =>
    let k := coreAt s t.core
    let set := match k.windows.find? (fun w => w.launch == t.ref.launch) with | some w => w.set | none => s.holdSets
    let new := fs.map (fun f => (⟨t.ref, g.id, g.part, f.lane, f.flags, pc, cm⟩ : FpxLane))
    let ws := if k.windows.any (fun w => w.launch == t.ref.launch) then
        k.windows.map (fun w => if w.launch == t.ref.launch then { w with lanes := w.lanes ++ new } else w)
      else k.windows ++ [{ launch := t.ref.launch, opened := s.clk, set := set, lanes := new }]
    let s1 := updCore { s with holdSets := max s.holdSets (set + 1) } t.core (fun k => { k with windows := ws })
    updGroup s1 t.ref g.id (fun g =>
      updLanes g (maskOf (fs.map LaneFault.lane)) (fun l => { l with st := .hold, hold := some ⟨set, cFpx, true, none⟩ }))

/-- The sequence number the next record made will have: those that wait for a place come before it (20 R314). -/
def nextSeq (s : State) : Nat := s.faultNext + s.faultWait.length

/-- The partial-completion mask of an issue that holds lanes, noted in the lanes of its issue set (04 R65; 20 R311). -/
def noteMask (g : Group) (m cm : Mask) : Group :=
  { g with lanes := g.lanes.map (fun p =>
      if hasLane m p.1 then
        (p.1, { p.2 with
          completed := hasLane cm p.1
          wait := match p.2.wait with | .ldfe a w c d t _ => .ldfe a w c d t true | w => w })
      else p) }

/-- TAKING AN EXCEPTION in lanes of one issue (20 R310 to R317): every lane named enters HOLD with its code, one record is written for
each distinct page and code with the completion mask `cm` of the issue set `m`, the lanes of the XLATE records form one hold set, FPX lanes join
their window, and a code that ends the team ends it. -/
def takeFaults (s : State) (t : Team) (g : Group) (pc : Pc) (m cm : Mask) (fs : List LaneFault) : State :=
  let fpx := fs.filter (fun f => f.code == cFpx)
  let rest := fs.filter (fun f => !(f.code == cFpx))
  let gs := groupFaults rest
  let base := s.holdSets
  let setOf (n : Nat) (c : Code) : Nat := if c == cXlate then base else base + 1 + n
  let s1 := { s with holdSets := base + 1 + gs.length }
  let s2 := updGroup s1 t.ref g.id (fun g =>
    (gs.zipIdx).foldl (fun g q =>
      updLanes g q.1.2 (fun l =>
        { l with st := .hold, hold := some ⟨setOf q.2 q.1.1.code, q.1.1.code, resumesAgain q.1.1.code q.1.1.addr, breakpointOf q.1.1.code q.1.1.addr⟩ })) (noteMask g m cm))
  let recs := (gs.zipIdx).map (fun q =>
    ({ code := q.1.1.code, kind := q.1.1.kind, ltag := (launchOf s t).ltag, team := BitVec.ofNat 32 t.ref.team
       lcore := logicalOfPhys s t.epoch t.core, part := g.part, group := g.id, lanes := q.1.2
       pc := pc.extractLsb' 0 57, addr := q.1.1.addr, cmask := cm, nrec := gs.length, ridx := q.2
       ref := t.ref, core := t.core, set := setOf q.2 q.1.1.code } : FaultRec))
  let s3 := recs.foldl postRecord s2
  let s4 := joinFpx s3 t g pc cm fpx
  match gs.find? (fun q => endsTeam q.1.code) with
  | none => s4
  | some q => endTeam s4 t.ref q.1.code (nextSeq s + gs.findIdx (fun q => endsTeam q.1.code))

/-- An exception of the whole issue set: every lane enters HOLD with one code before any effect (07 R100). -/
def takeWhole (s : State) (t : Team) (g : Group) (pc : Pc) (m : Mask) (code : Code) (kind : Nat) (addr : BitVec 57) : State :=
  takeFaults s t g pc m 0#32
    ((lanesOf m).map (fun l => ⟨l, code, kind, if code = cXlate then addr.toNat / 0x10000 + 1 else 0, addr, 0#5⟩))

/-- A fault of a transfer program that ends its team: TX_FAULT with its cause, or BARRIER (16 R282). -/
def takeProgFault (s : State) (t : Team) (x : XProg) (xpc : Nat) (code cause : Code) (addr : BitVec 57) : State :=
  let s1 := postRecord { s with holdSets := s.holdSets + 1 }
    { code := code, kind := 6, ltag := (launchOf s t).ltag, team := BitVec.ofNat 32 t.ref.team,
      lcore := logicalOfPhys s t.epoch t.core, xp := some x.n, pc := BitVec.ofNat 57 xpc, addr := addr, cause := cause,
      ref := t.ref, core := t.core, set := s.holdSets }
  endTeam s1 t.ref code (nextSeq s)

/-- A transfer program held with a record that a later resolution releases: XLATE of its own access, or XTRAP (16 R281, R282). -/
def holdProg (s : State) (t : Team) (x : XProg) (code : Code) (addr : BitVec 57) : State :=
  let s1 := postRecord { s with holdSets := s.holdSets + 1 }
    { code := code, kind := 6, ltag := (launchOf s t).ltag, team := BitVec.ofNat 32 t.ref.team,
      lcore := logicalOfPhys s t.epoch t.core, xp := some x.n, pc := BitVec.ofNat 57 x.xpc, addr := addr,
      ref := t.ref, core := t.core, set := s.holdSets }
  updProg s1 t.ref x.n (fun p => { p with state := 3, holdSet := some s.holdSets })

/-! ## Returning from an exception (19 R308, R309; 20 R316) -/

/-- The breakpoints a released lane skips at its first issue: the one that held it, with those it skips already (25 R389). -/
def skipNext (l : Lane) (h : Hold) : List Nat :=
  match h.bp with
  | some n => n :: l.skipBreak
  | none => []

/-- Whether a halt or a step held a lane (25 R390). -/
def stoppedHold (h : Hold) : Bool := h.bp.any (fun n => decide (16 ≤ n))

/-- A lane of a hold set released: at the held instruction with its trap check skipped, or at the instruction after. The lane's PC
already stands at the place it resumes (20 R316). One that a halt or a step held may stand at a target not yet checked (03 R33): it counts as
standing inside its segment only when it did so before. -/
def releaseLane (l : Lane) : Lane :=
  match l.hold with
  | none => l
  | some h => { l with st := .run, hold := none, replay := l.replay || !stoppedHold h, skipTrap := h.code == cFpx, skipBreak := skipNext l h }

/-- Whether a lane is held in a hold set. -/
def heldIn (set : Nat) (l : Lane) : Bool := l.st == .hold && (match l.hold with | some h => h.set == set | none => false)

/-- The lanes of a hold set released in a group. One that a halt or a step held is halted no more (25 R390). -/
def releaseGroup (set : Nat) (g : Group) : Group :=
  { g with
    lanes := g.lanes.map (fun (p : Nat × Lane) => if heldIn set p.2 then (p.1, releaseLane p.2) else p)
    halt := g.halt && !g.lanes.any (fun p => heldIn set p.2 && p.2.hold.any stoppedHold) }

/-- Every lane, program and operation of a hold set released; lanes of an ended team stay. -/
def releaseSet (s : State) (set : Nat) : State :=
  let freeProg (x : XProg) : XProg :=
    { x with
      state := if x.holdSet == some set then 1 else x.state
      holdSet := if x.holdSet == some set then none else x.holdSet
      queue := x.queue.map (fun (o : BulkOp) => if o.waiting == some set then { o with waiting := none } else o) }
  let freeOp (o : EngineOp) : EngineOp := if o.holdSet == some set then { o with holdSet := none } else o
  let s1 := { s with
    teams := s.teams.map (fun (t : Team) =>
      if t.ended.isSome then t
      else { t with
        groups := t.groups.map (releaseGroup set)
        progs := t.progs.map freeProg
        engSaved := t.engSaved.map freeOp })
    launches := s.launches.map (fun (p : Nat × Launch) =>
      (p.1, { p.2 with clusters := p.2.clusters.map (fun (q : Cluster) =>
        { q with saved := q.saved.map (fun (t : Team) =>
            { t with
              groups := t.groups.map (releaseGroup set)
              progs := t.progs.map freeProg
              engSaved := t.engSaved.map freeOp }) }) })) }
  { s1 with cores := s1.cores.map (fun (p : Nat × Core) => (p.1, { p.2 with engine := p.2.engine.map freeOp })) }

/-- Whether a lane, transfer program or saved engine operation of a team waits in a hold set. -/
def teamInSet (set : Nat) (t : Team) : Bool :=
  t.groups.any (fun g => g.lanes.any (fun p => match p.2.hold with | some h => h.set == set | none => false))
    || t.progs.any (fun x => x.holdSet == some set || x.queue.any (fun o => o.waiting == some set))
    || t.engSaved.any (fun o => o.holdSet == some set)

/-- Every team that has not ended and has a party in a hold set, resident or vacated. A run that has ended has none: no later run of the
team takes its hold sets. -/
def teamsInSet (s : State) (set : Nat) : List TeamRef :=
  (s.teams.filter (fun t => t.ended.isNone
      && (teamInSet set t || (coreAt s t.core).engine.any (fun o => o.ref == t.ref && o.holdSet == some set)))).map Team.ref
    ++ ((s.launches.flatMap (fun p => p.2.clusters.flatMap Cluster.saved)).filter (teamInSet set)).map Team.ref

/-- RETURN FROM AN EXCEPTION: the outstanding record of a core with a sequence number resolved with resume or kill. A number that names
no outstanding record of that core is ignored (19 R308; 20 R316). A kill ends the run that the record was made for: every team with a party in
its hold set, which for all codes but FPX is the record's own. -/
def resolveRecord (s : State) (core : Nat) (seq : Nat) (kill : Bool) : State :=
  match s.faultQ.find? (fun r => r.seq == seq && r.core == core && !r.resolved) with
  | none => s
  | some r =>
    let s1 := { s with faultQ := s.faultQ.map (fun q => if q.seq == seq then { q with resolved := true } else q) }
    if kill then (teamsInSet s r.set).foldl (fun s t => endTeam s t r.code seq) s1
    else if s1.faultQ.any (fun q => q.set == r.set && !q.resolved) || s1.faultWait.any (fun q => q.set == r.set) then s1
    else releaseSet s1 r.set

end Sys2Proof.Machine
end

