-- ==== Sys2Proof/Machine/Operands.lean ====
section
/-! DEFINITION. Operand delivery: what an issue is, the guard, every selector of R90 and R92 in every position, forwarding from
pending entries (04 R63), indexed registers (04 R56), destinations, the checks made at operand read (04 R56, R59, R64), and
the overflow rows an issue touches (04 R50). -/
namespace Sys2Proof.Machine

/-! ## One issue -/

/-- One issue of a compute instruction: its team and group as they stand before it, its PC, its issue set, the lanes of the set whose
guard holds, the instruction, and the clocks its result takes beyond those of its class (12 R183, R185). -/
structure Issue where
  t : Team
  g : Group
  pc : Pc
  m : Mask
  on : Mask
  o : Op
  f : Form
  l16 : Bool
  nextPc : Pc
  late : Nat := 0
  deriving DecidableEq, Repr

/-- A predicate as a direct read finds it: p7 is 1, then the newest pending entry, then the register (04 R60, R63). -/
def predOf (l : Lane) (n : Nat) : Bool :=
  if n ≥ 7 then true
  else
    (l.win.findSome? (fun e => if e.pending && e.dest == .p n then some (e.val.getLsbD 0) else none)).getD (l.p.getLsbD n)

/-- Whether a lane's guard holds (06 R79; 04 R60). -/
def guardHolds (f : Form) (l : Lane) : Bool := predOf l f.pred.toNat != f.neg

/-- The RUN lanes of a group. -/
def runMask (g : Group) : Mask := maskOf ((g.lanes.filter (fun p => p.2.st == .run)).map Prod.fst)

/-- The lanes of a mask whose guard holds. -/
def guardMask (f : Form) (g : Group) (m : Mask) : Mask :=
  maskOf ((g.lanes.filter (fun p => hasLane m p.1 && guardHolds f p.2)).map Prod.fst)

/-- The PC after the instruction at a lease: PC + length (01 R7); inside an overlay the segment's start, and after its body the
original terminator (17 R289). -/
def leaseNext (le : Lease) (f : Form) : Pc :=
  match le.overlay with
  | none => le.pc + BitVec.ofNat 64 (formLength f)
  | some _ =>
    if le.overlayAt + 1 < le.body.length then le.pc
    else if le.overlayAt < le.body.length then le.term
    else le.pc + BitVec.ofNat 64 (formLength f)

/-- The issue the party of `cur` makes: its group holds a lease (03 R35). -/
def issueOf (s : State) (o : Op) (f : Form) : Option Issue :=
  match s.cur with
  | .group p =>
    match groupAt s p with
    | none => none
    | some (t, g) =>
      match g.lease with
      | none => none
      | some le =>
        let m := le.mask &&& runMask g
        some ⟨t, g, le.pc, m, guardMask f g m, o, f, launchL16 s (launchOf s t), leaseNext le f, 0⟩
  | _ => none

/-- The positions of the issue's instruction. -/
def Issue.shape (i : Issue) : Shape := Machine.shape i.o i.f

/-- A lane of the issue's group. -/
def Issue.lane (i : Issue) (l : Nat) : Option Lane := mapGet i.g.lanes l

/-- The lowest lane of a mask; 0 of an empty one. -/
def lowest (m : Mask) : Nat := ((lanesOf m).head?).getD 0

/-- Whether the group is diverged: its issue set is not every non-DONE present lane (04 R59). -/
def Issue.diverged (i : Issue) : Bool :=
  i.m != maskOf ((i.g.lanes.filter (fun p => p.2.st != .done)).map Prod.fst)

/-! ## Registers as a direct read finds them (04 R63) -/

/-- The newest pending word for a v register. -/
def pendingWord (l : Lane) (n : Nat) : Option (BitVec 32) :=
  l.win.findSome? (fun e =>
    if e.pending then
      match e.dest with
      | .v d w => if d ≤ n ∧ n < d + w then some ((e.val >>> (32 * (n - d))).extractLsb' 0 32) else none
      | _ => none
    else none)

/-- One v register of a lane. -/
def readReg (l : Lane) (n : Nat) : BitVec 32 := (pendingWord l n).getD (mapGetD l.v n 0#32)

/-- `k` v registers from `n` on, the lowest first. -/
def readRegs (l : Lane) (n : Nat) : Nat → QWord
  | 0 => 0#128
  | k + 1 => ((readReg l n).setWidth 128) ||| (readRegs l (n + 1) k <<< 32)

/-- The register reached through xn: none outside the window (04 R56). -/
def indexed (g : Group) (l : Lane) (n : Nat) (wide : Bool) : Option Nat :=
  let w := mapGetD g.aw n {}
  let x := (mapGetD l.x n 0#16).toNat
  let e := if wide then 2 * x else x
  if (if wide then e + 1 else e) ≥ w.len.toNat then none else some (w.base.toNat + e)

/-- Words a source position reads. -/
def posWords (p : SrcPos) : Nat :=
  match p with
  | .s64 | .base64 | .target | .range | .scalar | .scalarBase => 2
  | .s128 => 4
  | _ => 1

/-- What `laneid` delivers (21 R344). -/
def Issue.laneid (i : Issue) (l : Nat) : Nat := if i.l16 then l % 16 else l
/-- What `groupid` delivers (21 R344). -/
def Issue.groupid (i : Issue) (l : Nat) : Nat := if i.l16 then 2 * i.g.id + l / 16 else i.g.id

/-- The coordinates selectors teamx, teamy and teamz deliver (02 R12); the firmware team's are 0. -/
def teamCoord (la : Launch) (t : TeamRef) (n : Nat) : Nat :=
  let c := teamXyz la t.team
  match n with
  | 0 => c.1
  | 1 => c.2.1
  | _ => c.2.2

/-- What a selector delivers to a lane in a position of `w` words (07 R90). -/
def selVal (la : Launch) (i : Issue) (n : Nat) (l : Lane) (w : Nat) (sel : Sel) : QWord :=
  match sel with
  | .v r => readRegs l r.toNat w
  | .s k => let x := mapGetD i.g.s k 0#64; if w = 1 then (x.extractLsb' 0 32).setWidth 128 else x.setWidth 128
  | .latch k =>
    let x := match l.win[k - 1]? with | some e => e.val | none => 0#128
    if w = 1 then (x.extractLsb' 0 32).setWidth 128 else (x.extractLsb' 0 64).setWidth 128
  | .idx k => match indexed i.g l k (w == 2) with | some r => readRegs l r w | none => Config.unboundWord n k
  | .zero => 0#128
  | .laneid => BitVec.ofNat 128 (i.laneid n)
  | .groupid => BitVec.ofNat 128 (i.groupid n)
  | .team k => BitVec.ofNat 128 (teamCoord la i.t.ref k)
  | .lit32 => ((i.f.lit.getD 0#64).extractLsb' 0 32).setWidth 128
  | .lit64 => let x := i.f.lit.getD 0#64; if w = 1 then (x.extractLsb' 0 32).setWidth 128 else x.setWidth 128
  | .inline x => BitVec.ofNat 128 (wrap (32 * w) ((x.toNat : Int) - 8))
  | .reserved => 0#128

/-- The values of the three source positions in a lane. Number positions and unread positions give 0. -/
structure Srcs where
  a : QWord
  b : QWord
  c : QWord
  deriving DecidableEq, Repr

/-- One source position's value. -/
def posVal (la : Launch) (i : Issue) (n : Nat) (l : Lane) (p : SrcPos) (sel : Sel) : QWord :=
  match p with
  | .unread | .pred | .handle => 0#128
  | _ => selVal la i n l (posWords p) sel

/-- The three sources of a lane. -/
def Issue.srcs (i : Issue) (la : Launch) (n : Nat) (l : Lane) : Srcs :=
  ⟨posVal la i n l i.shape.a (selOf i.f.a i.f.ax), posVal la i n l i.shape.b (selOf i.f.b i.f.bx),
    posVal la i n l i.shape.c (selOfC i.f.c)⟩

/-- The source selectors that are read as selectors, with their positions. -/
def Issue.reads (i : Issue) : List (SrcPos × Sel) :=
  [(i.shape.a, selOf i.f.a i.f.ax), (i.shape.b, selOf i.f.b i.f.bx), (i.shape.c, selOfC i.f.c)].filter (fun p =>
    p.1 != .unread && !srcIsNumber p.1)

/-! ## Destinations (04 R61, R63; 07 R91) -/

/-- Words a destination position takes in v registers. -/
def dstWords (p : DstPos) : Nat := match p with | .v64 | .bcast => 2 | .v128 => 4 | _ => 1

/-- Whether the instruction pushes an empty entry (04 R61). -/
def Issue.pushesEmpty (i : Issue) : Bool := i.shape.d == .none || i.shape.d == .window

/-- The destination of a lane, an indexed one resolved; none also for `_`, for a scalar register and out of the window. -/
def Issue.dest (i : Issue) (l : Lane) : Dest :=
  match i.shape.d with
  | .pred => .p i.f.d.toNat
  | .v32 | .v64 | .v128 | .bcast =>
    if i.f.k then .none
    else match selOf i.f.d i.f.dx with
    | .v n => .v n.toNat (dstWords i.shape.d)
    | .idx n =>
      match indexed i.g l n (dstWords i.shape.d == 2) with
      | some r => .v r (dstWords i.shape.d)
      | none => .none
    | _ => .none
  | _ => .none

/-- The current value of a destination, for the entry of a guard-false lane (04 R61). -/
def destNow (l : Lane) (d : Dest) : QWord :=
  match d with
  | .none => 0#128
  | .v n w => readRegs l n w
  | .p n => if predOf l n then 1#128 else 0#128

/-! ## The checks at operand read -/

/-- The indexed selectors of an instruction with their widths, the destination's included. -/
def Issue.indexes (i : Issue) : List (Nat × Bool) :=
  let src := i.reads.filterMap (fun p => match p.2 with | .idx n => some (n, posWords p.1 == 2) | _ => none)
  match i.shape.d with
  | .v32 | .v64 =>
    match selOf i.f.d i.f.dx with
    | .idx n => if i.f.k then src else src ++ [(n, i.shape.d == .v64)]
    | _ => src
  | _ => src

/-- Whether some indexed selector in a 64-bit use names a window with an odd base (04 R56). -/
def Issue.oddWindow (i : Issue) : Bool :=
  i.indexes.any (fun p => p.2 && (mapGetD i.g.aw p.1 {}).base.toNat % 2 == 1)

/-- Operations that obey the convergence rule whatever their operands (04 R59; 09 R132; 20 R328, R329). -/
def convergedOp (o : Op) : Bool :=
  match o with
  | .sadd | .ssub | .smul | .sand | .sor | .sxor | .sshl | .sshr | .scmp | .smov | .sld | .bcast | .readlane | .csrr
  | .csrw | .reggrow | .regshrink | .syscall | .worknext | .pld => true
  | _ => false

/-- Whether the instruction is bound by the convergence rule (04 R59). -/
def Issue.needsConverged (i : Issue) : Bool :=
  convergedOp i.o || i.reads.any (fun p => match p.2 with | .s _ => true | _ => false)

/-- Whether a latch reference is out of scope or names an empty entry in a lane of the issue set (04 R64). -/
def Issue.latchBad (i : Issue) : Bool :=
  i.reads.any (fun p =>
    match p.2 with
    | .latch k => i.g.lanes.any (fun q => hasLane i.m q.1 && (match q.2.win[k - 1]? with | some e => e.empty | none => true))
    | _ => false)

/-- The fault of the whole issue set found at operand read, in the order of R312 (07 R100). -/
def Issue.wholeFault (i : Issue) : Option Code :=
  if i.oddWindow then some cIllegalOperand
  else if i.needsConverged && i.diverged then some cScalarDiverged
  else if i.latchBad then some cLatchScope
  else none

/-- Whether a guard-true lane fails the bound of some window (04 R56). -/
def Issue.indexBad (i : Issue) (l : Lane) : Bool := i.indexes.any (fun p => (indexed i.g l p.1 p.2).isNone)

/-! ## Overflow rows (04 R48, R50) -/

/-- The rows above the allotment that a position reads from the file in a lane: those no pending entry forwards. -/
def laneRows (g : Group) (l : Lane) (p : SrcPos) (sel : Sel) : List Nat :=
  let from' (n : Nat) : List Nat :=
    (List.range (posWords p)).filterMap (fun k =>
      if n + k ≥ g.alloc ∧ (pendingWord l (n + k)).isNone then some (n + k) else none)
  match sel with
  | .v r => from' r.toNat
  | .idx k => match indexed g l k (posWords p == 2) with | some r => from' r | none => []
  | _ => []

/-- The lane READLANE names: the low bits of its scalar source (09 R135). -/
def Issue.chosen (i : Issue) (la : Launch) : Nat := (i.srcs la (lowest i.m) { pc := 0#64 }).b.toNat % 32

/-- The overflow rows an issue reads: for each source position the distinct rows of its guard-true lanes, or of the lane READLANE names (04 R50).
That each position counts for itself, and a guard-false lane's old value for the window does not, are DESIGN CHOICES (log 72). -/
def Issue.rowsRead (i : Issue) (la : Launch) : List Nat :=
  i.reads.flatMap (fun p =>
    match p.1 with
    | .vreg => match i.lane (i.chosen la) with | some l => laneRows i.g l p.1 p.2 | none => []
    | _ => ((i.g.lanes.filter (fun q => hasLane i.on q.1)).flatMap (fun q => laneRows i.g q.2 p.1 p.2)).eraseDups)

/-- The rows above the allotment that entries of a lane are written back to, with the issue that made them. -/
def backRows (alloc : Nat) (es : List Latch) : List (Nat × Nat) :=
  es.flatMap (fun e =>
    if e.pending then
      match e.dest with
      | .v n w => (List.range w).filterMap (fun k => if n + k ≥ alloc then some (e.tag, n + k) else none)
      | _ => []
    else [])

/-- The overflow cache after a row is used: most recently used first, 32 rows. -/
def cacheUse (c : List (Nat × Nat)) (slot row : Nat) : List (Nat × Nat) :=
  (((slot, row) :: c.filter (fun p => p != (slot, row)))).take 32

/-- Overflow rows read: counted, with misses, and brought into the cache (04 R50, R51). The third value says whether one missed. -/
def overflowReads (p : Part) (g : Group) (rows : List Nat) : Part × Group × Bool :=
  rows.foldl (fun (a : Part × Group × Bool) r =>
    let hit := a.1.cache.contains (g.slot, r)
    ({ a.1 with cache := cacheUse a.1.cache g.slot r },
      { a.2.1 with ovfRd := a.2.1.ovfRd + 1, ovfMiss := if hit then a.2.1.ovfMiss else a.2.1.ovfMiss + 1 }, a.2.2 || !hit))
    (p, g, false)

/-- Overflow rows written: counted and allocated in the cache. -/
def overflowWrites (p : Part) (g : Group) (rows : List (Nat × Nat)) : Part × Group :=
  rows.foldl (fun (a : Part × Group) r =>
    ({ a.1 with cache := cacheUse a.1.cache g.slot r.2 }, { a.2 with ovfWr := a.2.ovfWr + 1 })) (p, g)

end Sys2Proof.Machine
end

