-- ==== Sys2Proof/Machine/Flags.lean ====
section
/-! DEFINITION. The sticky flags of a lane and their traps (08 R118 to R120; 10 R150, R168), and the flag CSRs. -/
namespace Sys2Proof.Machine

/-- The hash a lane's next rounding takes under SR, `k` roundings on (08 R117, R118). -/
def laneHash (i : Issue) (n : Nat) (l : Lane) (k : Nat) : BitVec 32 :=
  srHash (BitVec.ofNat 32 i.t.ref.team) i.g.id n (l.sr + BitVec.ofNat 32 k)

/-- The enabled flags that trap in a lane: none when its trap check is skipped (20 R316). -/
def trapped (en : BitVec 5) (l : Lane) (flags : BitVec 5) : BitVec 5 := if l.skipTrap then 0#5 else flags &&& en

/-- A lane with flags raised; a flag stays set until it is cleared (08 R119). -/
def raise (l : Lane) (flags : BitVec 5) : Lane := { l with flags := l.flags ||| flags }

/-- A lane with its counter advanced by the roundings made under SR (08 R118). -/
def advanceSr (f : Form) (l : Lane) (rounds : Nat) : Lane :=
  if f.rm = 5#3 then { l with sr := l.sr + BitVec.ofNat 32 rounds } else l

/-- The mask a flag CSR reads: bit l is lane l's sticky flag `n` (08 R119). -/
def flagCsr (g : Group) (n : Nat) : BitVec 64 :=
  (maskOf ((g.lanes.filter (fun p => p.2.flags.getLsbD n)).map Prod.fst)).setWidth 64

/-- A group with flag `n` cleared in the lanes whose bit is written as 1 (08 R119; 10 R168). -/
def clearFlag (g : Group) (n : Nat) (v : BitVec 64) : Group :=
  { g with lanes := g.lanes.map (fun p =>
      if v.getLsbD p.1 then (p.1, { p.2 with flags := p.2.flags &&& ~~~(BitVec.ofNat 5 (2 ^ n)) }) else p) }

/-- The instructions that can raise a flag, while their form does (10 R150; 09 R146; 15 R260). -/
def raisesFlags (o : Op) (f : Form) : Bool :=
  match o with
  | .fadd | .fsub | .fmul | .ffma | .fmin | .fmax | .fcmp | .frcp | .frsq | .fsqrt | .fexp2 | .flog2 | .fsin | .fcos
  | .ftanh | .dadd | .dmul | .dfma | .hadd2 | .hfma2 | .fcvt | .f2i | .i2f | .pack => true
  | .accrd => f.ty != 0x00#5 && f.ty != 0x0C#5
  | .qdot4 => f.ty != 0x0A#5
  | .redux | .scanx => f.sub.toNat / 128 == 1
  | _ => false

/-- The maybe-fault class (20 R310; 14 R220). -/
def maybeFault (en : BitVec 5) (o : Op) (f : Form) : Bool :=
  match o with
  | .barinit | .bararv | .barwait | .syncm | .ld | .st | .ldm | .stm | .ldfe | .stfe | .atom | .red | .ldnt | .stnt | .pld
  | .fenceR | .publish | .ldgen | .tdld | .tdst | .tdset | .sld | .park | .parkFull | .mxgo | .mxv | .xstart | .xsig
  | .xstat | .accrd | .accwr | .acczero | .trap | .brk | .syscall => true
  | .unpack => f.ty == 9#5
  | .pack => f.ty == 9#5 || en != 0#5
  | o => en != 0#5 && raisesFlags o f

end Sys2Proof.Machine
end

