-- ==== Sys2Proof/Machine/Issue.lean ====
section
/-! DEFINITION. What every issue of a compute instruction shares: the faults of the whole set, the lanes' results, latches and pending
entries, the lease and the end of a segment, the lane-cycle record, overflow rows and the scoreboard (03 R35 to R46; 04 R50, R60 to
R64; 07 R100; 20 R311, R312). -/
namespace Sys2Proof.Machine

/-- What an instruction answers in one guard-true lane: its result with flags and roundings, a fault with its code, access kind, page
key and address, FPX with the enabled flags it would have raised and writes none of (09 R146), or a wait for an awaited granule (14
R225). -/
inductive LaneOut where
  | done (r : FRes)
  | hold (code : Code) (kind page : Nat) (addr : BitVec 57)
  | fpx (flags : BitVec 5)
  | wait (w : Wait)
  deriving DecidableEq, Repr

/-! ## The lane-cycle record (03 R45, R46) -/

/-- The bin that holds a PC: the lowest-numbered enabled one. -/
def lcrBin (c : Lcr) (pc : Pc) : Option Nat :=
  (List.range 16).find? (fun n =>
    let b := mapGetD c.base n 0#64
    b.getLsbD 63 && decide (b.toNat % 2 ^ 57 ≤ pc.toNat) && decide (pc.toNat < (mapGetD c.lim n 0#64).toNat % 2 ^ 57))

/-- One bin counter increased. -/
def binAdd (m : List (Nat × BitVec 64)) (b : Option Nat) (n : Nat) : List (Nat × BitVec 64) :=
  match b with
  | none => m
  | some k => mapSet m k (mapGetD m k 0#64 + BitVec.ofNat 64 n) 0#64

/-- Lane-cycles of one issue: active, masked by divergence, predicated off, absent. -/
def laneClasses (g : Group) (m on : Mask) : Nat × Nat × Nat × Nat :=
  (List.range 32).foldl (fun (a : Nat × Nat × Nat × Nat) l =>
    if (mapGet g.lanes l).isNone then (a.1, a.2.1, a.2.2.1, a.2.2.2 + 1)
    else if !hasLane m l then (a.1, a.2.1 + 1, a.2.2.1, a.2.2.2)
    else if !hasLane on l then (a.1, a.2.1, a.2.2.1 + 1, a.2.2.2)
    else (a.1 + 1, a.2.1, a.2.2.1, a.2.2.2)) (0, 0, 0, 0)

/-- Whether an instruction runs on the FP64 unit, whose issue fills both positions of two clocks (03 R42, R45). -/
def isFp64 (o : Op) : Bool := o == .dadd || o == .dmul || o == .dfma

/-- The record with one issue counted. -/
def lcrCount (c : Lcr) (pc : Pc) (k : Nat) (n : Nat × Nat × Nat × Nat) : Lcr :=
  if !c.en then c
  else
    let b := lcrBin c pc
    { c with
      act := binAdd c.act b (k * n.1), div := binAdd c.div b (k * n.2.1)
      prd := binAdd c.prd b (k * n.2.2.1), abs := binAdd c.abs b (k * n.2.2.2)
      totAct := c.totAct + BitVec.ofNat 64 (k * n.1), totDiv := c.totDiv + BitVec.ofNat 64 (k * n.2.1)
      totPred := c.totPred + BitVec.ofNat 64 (k * n.2.2.1), totAbs := c.totAbs + BitVec.ofNat 64 (k * n.2.2.2) }

/-- The PC an issue counts at: its own, and the segment's start PC for every issue of a lease on an overlay, its terminator too (03 R45,
17 R289). -/
def binPc (i : Issue) : Pc :=
  match i.g.lease with
  | some le => if le.overlay.isSome then le.start else i.pc
  | none => i.pc

/-- The state with an issue's lane-cycles counted. -/
def accountIssue (s : State) (i : Issue) : State :=
  updCore s i.t.core (fun k =>
    { k with lcr := lcrCount k.lcr (binPc i) (if isFp64 i.o then 4 else 1) (laneClasses i.g i.m i.on) })

/-! ## Latencies and the scoreboard (03 R43; 10 R149; 20 R328) -/

/-- The class and latency of a scoreboarded result; none for a result present at the next issue. -/
def latency (o : Op) (f : Form) : Option (Nat × Nat) :=
  match o with
  | .imul | .imad | .qdot4 | .dadd | .dmul | .dfma | .shfl | .vote | .redux | .scanx | .matchLanes | .elect => some (0, 8)
  | .frcp | .frsq | .fsqrt | .fexp2 | .flog2 | .fsin | .fcos | .ftanh => some (0, 16)
  | .ld | .ldnt | .ldm | .ldfe | .atom | .sld | .pld | .ldgen | .xstart | .xstat => some (1, 20)
  | .accrd => some (1, 12)
  | .csrr => if 0x100 ≤ f.imm.toNat % 2 ^ 12 then some (0, 20) else none
  | _ => none

/-- The registers a destination takes. -/
def destRegs (d : Dest) : List Nat := match d with | .v n w => (List.range w).map (· + n) | _ => []

/-- The registers an issue writes in the lanes that complete it, as (lane, register). -/
def regsWritten (i : Issue) (done : List (Nat × Lane)) : List (Nat × Nat) :=
  done.flatMap (fun q => (destRegs (i.dest q.2)).map (fun r => (q.1, r)))

/-- The predicates an issue writes in the lanes that complete it, as (lane, predicate); p7 takes no write. -/
def predsWritten (i : Issue) (done : List (Nat × Lane)) : List (Nat × Nat) :=
  if i.shape.d == .pred && i.f.d != 7#7 then done.map (fun q => (q.1, i.f.d.toNat)) else []

/-- The scalar register an issue writes. -/
def scalarWritten (i : Issue) (done : List (Nat × Lane)) : List Nat :=
  if i.shape.d == .scalar && !done.isEmpty then [i.f.d.toNat - 0x40] else []

/-- Whether a lane's destination holds a result that has not arrived. -/
def destWaits (i : Issue) (b : Sb) (q : Nat × Lane) : Bool :=
  match i.dest q.2 with
  | .p n => b.ps.contains (q.1, n)
  | d => (destRegs d).any (fun r => b.vs.contains (q.1, r))

/-- A result not yet arrived after a later issue: of what that issue writes it is the newest value no more, and the entries of that issue's
guard-false lanes that take it hold it too (04 R61, R63). -/
def sbAfter (i : Issue) (done : List (Nat × Lane)) (b : Sb) : Sb :=
  { b with
    vs := b.vs.filter (fun p => !(regsWritten i done).contains p)
    ss := b.ss.filter (fun n => !(scalarWritten i done).contains n)
    ps := b.ps.filter (fun p => !(predsWritten i done).contains p)
    held := b.held ++ (i.g.lanes.filter (fun q => hasLane (i.m &&& ~~~i.on) q.1 && destWaits i b q)).map (fun q => (q.1, i.g.issues)) }

/-- The scoreboard entries an issue adds: its own result, and the wait for overflow rows. -/
def sbEntries (i : Issue) (clk : Nat) (done : List (Nat × Lane)) (rows miss : Bool) : List Sb :=
  (match latency i.o i.f with
    | none => []
    | some (c, n) =>
      [{ tag := i.g.issues, due := clk + n + i.late, cls := c, fp := raisesFlags i.o i.f
         vs := regsWritten i done, ss := scalarWritten i done, ps := predsWritten i done }])
  ++ (if rows then [{ tag := i.g.issues, due := clk + (if miss then 60 else 12), cls := 2 }] else [])

/-! ## Lanes after the issue -/

/-- A guard-true lane that completed: its result pushed and pending, its flags, counter and PC. -/
def doneLane (i : Issue) (l : Lane) (r : FRes) : Lane :=
  let d := i.dest l
  let e : Latch := ⟨if i.pushesEmpty then 0#128 else BitVec.ofNat 128 r.bits, i.pushesEmpty, d, d != .none, i.g.issues⟩
  { pushLatch (advanceSr i.f (raise l r.flags) r.rounds) e with
    pc := i.nextPc, skipTrap := false, skipBreak := [], replay := false }

/-- A guard-false lane: its entry holds the destination's current value, and nothing else changes but the PC (04 R60, R61). -/
def offLane (i : Issue) (l : Lane) : Lane :=
  let e : Latch := ⟨if i.pushesEmpty then 0#128 else destNow l (i.dest l), i.pushesEmpty, .none, false, i.g.issues⟩
  { pushLatch l e with pc := i.nextPc, skipTrap := false, skipBreak := [], replay := false }

/-- A lane of the group after the issue. A lane that faults keeps its window, its pending entries and its PC (04 R63); under an
enabled flag it keeps its flags raised (08 R120). -/
def issueLane (i : Issue) (outs : List (Nat × LaneOut)) (n : Nat) (l : Lane) : Lane :=
  if !hasLane i.m n then l
  else match mapGet outs n with
  | some (.done r) => if trapped i.t.fpxen l r.flags = 0#5 then doneLane i l r else raise l r.flags
  | some (.hold _ _ _ _) | some (.fpx _) => l
  | some (.wait w) => { l with wait := w, pc := i.nextPc, skipTrap := false, skipBreak := [], replay := false }
  | none => offLane i l

/-- The faults of an issue, FPX last (20 R312). -/
def outFaults (i : Issue) (outs : List (Nat × LaneOut)) : List LaneFault :=
  outs.filterMap (fun p =>
    match p.2 with
    | .hold c k pg a => some { lane := p.1, code := c, kind := k, page := pg, addr := a }
    | .fpx x => some { lane := p.1, code := cFpx, kind := 8, flags := x }
    | .wait _ => none
    | .done r =>
      match i.lane p.1 with
      | none => none
      | some l =>
        let x := trapped i.t.fpxen l r.flags
        if x = 0#5 then none else some { lane := p.1, code := cFpx, kind := 8, flags := x })

/-- The lanes of an issue that completed it. -/
def outDone (i : Issue) (outs : List (Nat × LaneOut)) : Mask :=
  let held := maskOf ((outFaults i outs).map LaneFault.lane)
  maskOf ((outs.filter (fun p => match p.2 with | .wait _ => false | _ => true)).map Prod.fst) &&& ~~~held

/-- The lease after an instruction that is no terminator: the held lanes have left it (03 R35). -/
def leaseAfter (i : Issue) (held : Mask) (le : Lease) : Option Lease :=
  let m := i.m &&& ~~~held
  if m = 0#32 then none else some { le with mask := m, pc := i.nextPc, count := le.count + 1, overlayAt := le.overlayAt + 1 }

/-- The entries that leave the windows of the completing lanes, with the rows they reach above the allotment. -/
def rowsLeaving (i : Issue) (held : Mask) : List (Nat × Nat) :=
  (i.g.lanes.flatMap (fun p =>
    if hasLane i.m p.1 && !hasLane held p.1 then backRows i.g.alloc (p.2.win.drop 7) else [])).eraseDups

/-- The rows above the allotment that a terminator writes back. -/
def rowsFlushed (i : Issue) (held : Mask) : List (Nat × Nat) :=
  (i.g.lanes.flatMap (fun p =>
    if hasLane i.m p.1 && !hasLane held p.1 then backRows i.g.alloc p.2.win.reverse else [])).eraseDups

/-- The state with the overflow rows of an issue counted and cached; the second value says whether a read missed. -/
def countOverflow (s : State) (i : Issue) (wr : List (Nat × Nat)) : State × Bool :=
  match i.rowsRead (launchOf s i.t), wr with
  | [], [] => (s, false)
  | rd, wr =>
    match groupAt s (placeOf i.t i.g) with
    | none => (s, false)
    | some (_, g) =>
      let r := overflowReads (partAt (coreAt s i.t.core) i.g.part) g rd
      let w := overflowWrites r.1 r.2.1 wr
      (updGroup (updPart s i.t.core i.g.part (fun _ => w.1)) i.t.ref i.g.id (fun g =>
        { g with ovfRd := w.2.ovfRd, ovfWr := w.2.ovfWr, ovfMiss := w.2.ovfMiss }), r.2.2)

/-- What every issue leaves in its group: the count, the clock, the check of the maybe-fault class, scoreboard entries. -/
def issued (s : State) (i : Issue) (done : List (Nat × Lane)) (miss : Bool) (g : Group) : Group :=
  { g with
    issues := g.issues + 1
    lastIssue := some s.clk
    checking := if maybeFault i.t.fpxen i.o i.f then some (s.clk + 4) else g.checking
    sb := g.sb.map (sbAfter i done) ++ sbEntries i s.clk done (!(i.rowsRead (launchOf s i.t)).isEmpty) miss }

/-- The guard-true lanes of an issue that no fault holds, as they stood: a lane whose LDFE waits owes its destination too (03 R43). -/
def doneLanes (i : Issue) (outs : List (Nat × LaneOut)) : List (Nat × Lane) :=
  let held := maskOf ((outFaults i outs).map LaneFault.lane)
  i.g.lanes.filter (fun p => hasLane (maskOf (outs.map Prod.fst) &&& ~~~held) p.1)

/-- THE END OF AN ISSUE that is no terminator, with what its guard-true lanes answered. -/
def finishIssue (s : State) (i : Issue) (outs : List (Nat × LaneOut)) : State :=
  let fs := outFaults i outs
  let held := maskOf (fs.map LaneFault.lane)
  let o := countOverflow s i (rowsLeaving i held)
  let s1 := updGroup o.1 i.t.ref i.g.id (fun g =>
    issued s i (doneLanes i outs) o.2
      { g with
        lanes := g.lanes.map (fun p => (p.1, issueLane i outs p.1 p.2))
        lease := g.lease.bind (leaseAfter i held) })
  let s2 := accountIssue s1 i
  match fs with
  | [] => s2
  | _ => takeFaults s2 i.t i.g i.pc i.m (outDone i outs) fs

/-- A fault of the whole issue set before any effect: no latch entry, no access, no backward branch (07 R100). -/
def holdWhole (s : State) (i : Issue) (m : Mask) (code : Code) (kind : Nat) (addr : BitVec 57) : State :=
  let s1 := updGroup s i.t.ref i.g.id (fun g =>
    { g with
      issues := g.issues + 1
      lastIssue := some s.clk
      lease := if i.m &&& ~~~m = 0#32 then none else g.lease })
  takeWhole (accountIssue s1 i) i.t i.g i.pc m code kind addr

/-- INDEX_BOUNDS of a guard-true lane (04 R56). -/
def boundsFault (i : Issue) (n : Nat) (l : Lane) : Option LaneFault :=
  if hasLane i.on n && i.indexBad l then some { lane := n, code := cIndexBounds, kind := 7 } else none

/-- A fault of the whole issue set found after operand read: a guard-true lane that fails an earlier check takes that one's fault
instead (20 R312). `first` are the checks after INDEX_BOUNDS and before it. -/
def holdSet (s : State) (i : Issue) (code : Code) (kind : Nat) (addr : BitVec 57)
    (first : Nat → Lane → Option LaneFault := fun _ _ => none) : State :=
  let s1 := updGroup s i.t.ref i.g.id (fun g => { g with issues := g.issues + 1, lastIssue := some s.clk, lease := none })
  takeFaults (accountIssue s1 i) i.t i.g i.pc i.m 0#32 ((lanesOf i.m).map (fun n =>
    (match i.lane n with
      | some l => (boundsFault i n l).or (if hasLane i.on n then first n l else none)
      | none => none).getD { lane := n, code := code, kind := kind, page := if code = cXlate then addr.toNat / 0x10000 + 1 else 0, addr := addr }))

/-- A group whose present lanes are all DONE has ended: its slot and rows return to the partition, and its cache rows are dropped (02
R20; 04 R50). -/
def endGroup (s : State) (i : Issue) : State :=
  match (teamAt s i.t.ref).bind (fun t => groupOf t i.g.id) with
  | none => s
  | some g =>
    if g.lanes.all (fun p => p.2.st == .done) then
      updPart (updGroup s i.t.ref i.g.id (fun g => { g with freed := true })) i.t.core i.g.part (fun p =>
        { p with cache := p.cache.filter (fun q => q.1 != i.g.slot) })
    else s

/-- A terminator's issue but for its faults: pending entries are written back in every lane that is not held, `next` moves each of them, the
lease ends, and an issue that took a backward branch counts (03 R38; 09 R137). -/
def segmentOver (s : State) (i : Issue) (held : Mask) (next : Nat → Lane → Lane) (back : Bool) : State :=
  let o := countOverflow s i (rowsFlushed i held)
  let s1 := updGroup o.1 i.t.ref i.g.id (fun g =>
    issued s i [] o.2
      { g with
        lanes := g.lanes.map (fun p =>
          if hasLane i.m p.1 && !hasLane held p.1 then
            (p.1, { next p.1 (flushWindow p.2) with
              skipTrap := false, skipBreak := [], replay := false })
          else p)
        lease := none
        spinCnt := if back then g.spinCnt + 1 else g.spinCnt
        spinPc := if back then i.pc.extractLsb' 0 57 else g.spinPc })
  accountIssue s1 i

/-- A terminator's faults. -/
def segmentFaults (s : State) (i : Issue) (fs : List LaneFault) : State :=
  match fs with
  | [] => s
  | _ => takeFaults s i.t i.g i.pc i.m (i.on &&& ~~~maskOf (fs.map LaneFault.lane)) fs

/-- THE END OF A SEGMENT: a terminator issues (09 R137), and lanes that fault are held. -/
def finishSegment (s : State) (i : Issue) (fs : List LaneFault) (next : Nat → Lane → Lane) (back : Bool) : State :=
  endGroup (segmentFaults (segmentOver s i (maskOf (fs.map LaneFault.lane)) next back) i fs) i

/-! ## Running an instruction -/

/-- An instruction run by the party of `cur`: the faults of the whole set first, then its effect. -/
def withIssue (o : Op) (f : Form) (s : State) (k : Issue → State) : Host.Outcome State Fault Refusal :=
  match issueOf s o f with
  | none => .fault .noIssuer
  | some i =>
    .next (match i.wholeFault with
      | some c => holdWhole s i i.m c 7 0#57
      | none => k i)

/-- The same where an operand's value may be illegal: that ILLEGAL_OPERAND is a decode fault, before those found at operand read (04 R59; 07
R100). -/
def withOperands (o : Op) (f : Form) (s : State) (bad : Issue → Bool) (k : Issue → State) : Host.Outcome State Fault Refusal :=
  match issueOf s o f with
  | none => .fault .noIssuer
  | some i => if bad i then .next (holdWhole s i i.m cIllegalOperand 4 0#57) else withIssue o f s k

/-- What a lane answers: INDEX_BOUNDS before anything else (20 R312), else the instruction's own result. -/
def laneOut (i : Issue) (l : Lane) (r : LaneOut) : LaneOut :=
  if i.indexBad l then .hold cIndexBounds 7 0 0#57 else r

/-- The guard-true lanes of an issue, ascending. -/
def Issue.active (i : Issue) : List (Nat × Lane) := i.g.lanes.filter (fun p => hasLane i.on p.1)

/-- The answers of an instruction that only computes. -/
def pureOuts (la : Launch) (i : Issue) (fn : Nat → Lane → Srcs → LaneOut) : List (Nat × LaneOut) :=
  i.active.map (fun p => (p.1, laneOut i p.2 (fn p.1 p.2 (i.srcs la p.1 p.2))))

/-- An instruction that only computes: per lane from its sources, or a fault. -/
def runLanes (o : Op) (f : Form) (s : State) (fn : Issue → Nat → Lane → Srcs → LaneOut) :
    Host.Outcome State Fault Refusal :=
  withIssue o f s (fun i => finishIssue s i (pureOuts (launchOf s i.t) i (fn i)))

/-- An instruction that computes a result in every guard-true lane. -/
def runAlu (o : Op) (f : Form) (s : State) (fn : Issue → Nat → Lane → Srcs → FRes) : Host.Outcome State Fault Refusal :=
  runLanes o f s (fun i n l x => .done (fn i n l x))

/-- The answers of an instruction whose lanes act on the state one after another, in ascending lane order (14 R221). -/
def actOuts (la : Launch) (i : Issue) (act : State → Nat → Lane → Srcs → State × LaneOut) (s : State) :
    List (Nat × Lane) → State × List (Nat × LaneOut)
  | [] => (s, [])
  | p :: r =>
    let x := if i.indexBad p.2 then (s, LaneOut.hold cIndexBounds 7 0 0#57) else act s p.1 p.2 (i.srcs la p.1 p.2)
    let y := actOuts la i act x.1 r
    (y.1, (p.1, x.2) :: y.2)

/-- An instruction whose lanes act on the state. -/
def runActs (o : Op) (f : Form) (s : State) (act : Issue → State → Nat → Lane → Srcs → State × LaneOut) :
    Host.Outcome State Fault Refusal :=
  withIssue o f s (fun i =>
    let r := actOuts (launchOf s i.t) i (act i) s i.active
    finishIssue r.1 i r.2)

/-- A value written to a scalar register of the issue's group. -/
def putScalar (s : State) (i : Issue) (n : Nat) (v : BitVec 64) : State :=
  updGroup s i.t.ref i.g.id (fun g => { g with s := mapSet g.s n v 0#64 })

/-- The sources of a scalar instruction, read for the lowest lane of the issue set; under L16 its half gives `groupid` (DESIGN CHOICE, log 69). -/
def scalarSrcs (s : State) (i : Issue) : Srcs :=
  i.srcs (launchOf s i.t) (lowest i.m) ((i.lane (lowest i.m)).getD { pc := 0#64 })

/-- An instruction that computes one result for the issue from scalar sources (04 R61; 09 R134, R135). -/
def runOnce (o : Op) (f : Form) (s : State) (fn : Issue → Srcs → FRes) : Host.Outcome State Fault Refusal :=
  runAlu o f s (fun i _ _ _ => fn i (scalarSrcs s i))

/-- The issue of a scalar instruction finished: one value in every lane's entry (04 R61). -/
def finishScalar (s : State) (i : Issue) (v : BitVec 64) : State :=
  finishIssue s i (i.active.map (fun p => (p.1, .done ⟨v.toNat, 0#5, 0⟩)))

/-- A scalar instruction that writes the s register at D (09 R132). -/
def runScalar (o : Op) (f : Form) (s : State) (fn : Issue → Srcs → BitVec 64) : Host.Outcome State Fault Refusal :=
  withIssue o f s (fun i =>
    let v := fn i (scalarSrcs s i)
    putScalar (finishScalar s i v) i (f.d.toNat - 0x40) v)

/-- The faults of a terminator's guard-true lanes: INDEX_BOUNDS, else what `ok` says holds the lane. -/
def endFaults (s : State) (i : Issue) (ok : Issue → Nat → Lane → Srcs → Option LaneFault) : List LaneFault :=
  i.active.filterMap (fun p =>
    if i.indexBad p.2 then some { lane := p.1, code := cIndexBounds, kind := 7 } else ok i p.1 p.2 (i.srcs (launchOf s i.t) p.1 p.2))

/-- How a terminator moves a lane that is not held: a guard-false one goes past it (03 R31). -/
def endNext (s : State) (i : Issue) (next : Issue → Nat → Lane → Srcs → Lane → Lane) (n : Nat) (l : Lane) : Lane :=
  if hasLane i.on n then
    match i.lane n with
    | some l0 => next i n l0 (i.srcs (launchOf s i.t) n l0) l
    | none => l
  else { l with pc := i.nextPc }

/-- A terminator whose lanes may fault and otherwise move. `ok` says what holds a lane; `next` moves a lane whose pending entries are
written back; `taken` says whether a lane took a backward branch. -/
def runEnd (o : Op) (f : Form) (s : State) (ok : Issue → Nat → Lane → Srcs → Option LaneFault)
    (next : Issue → Nat → Lane → Srcs → Lane → Lane) (taken : Issue → Nat → Lane → Srcs → Bool) :
    Host.Outcome State Fault Refusal :=
  withIssue o f s (fun i =>
    let fs := endFaults s i ok
    let held := maskOf (fs.map LaneFault.lane)
    finishSegment s i fs (endNext s i next)
      (i.active.any (fun p => !hasLane held p.1 && taken i p.1 p.2 (i.srcs (launchOf s i.t) p.1 p.2))))

end Sys2Proof.Machine
end

