-- ==== Sys2Proof/Machine/Int.lean ====
section
/-! DEFINITION. The vector integer and predicate instructions, AWSET and the allotment instructions (09 R123 to R131; 04 R52, R55). Each
function answers the result of one lane from its sources. -/
namespace Sys2Proof.Machine

/-! ## Integer sources and results (09 R124) -/

/-- A source as the integer its type reads. -/
def readInt (ty : BitVec 5) (x : QWord) : Int :=
  if intSigned ty then toSigned (intWidth ty) x.toNat else ((x.toNat % 2 ^ intWidth ty : Nat) : Int)

/-- The bits an exact integer is written as: modulo 2^W, and below 32 bits extended to 32. -/
def writeInt (ty : BitVec 5) (y : Int) : Nat :=
  let w := intWidth ty
  let u := wrap w y
  if w < 32 then (if intSigned ty then wrap 32 (toSigned w u) else u) else u

/-- An integer result. -/
def intRes (f : Form) (y : Int) : FRes := ⟨writeInt f.ty y, 0#5, 0⟩

/-- The range of an integer type. -/
def intMin (ty : BitVec 5) : Int := if intSigned ty then -((2 ^ (intWidth ty - 1) : Nat) : Int) else 0
/-- The greatest value of an integer type. -/
def intMax (ty : BitVec 5) : Int :=
  if intSigned ty then ((2 ^ (intWidth ty - 1) : Nat) : Int) - 1 else ((2 ^ intWidth ty : Nat) : Int) - 1

/-- An exact value limited to its type's range under `.sat` (09 R125). -/
def saturate (f : Form) (y : Int) : Int :=
  if !f.sat then y else if y < intMin f.ty then intMin f.ty else if intMax f.ty < y then intMax f.ty else y

/-- The unsigned W-bit pattern of a source. -/
def readBits (ty : BitVec 5) (x : QWord) : Nat := x.toNat % 2 ^ intWidth ty
/-- A source of a 32-bit position, unsigned. -/
def read32 (x : QWord) : Nat := x.toNat % 2 ^ 32

/-! ## Results of one lane -/

/-- IADD. -/
def fnIadd (f : Form) (x : Srcs) : FRes := intRes f (saturate f (readInt f.ty x.a + readInt f.ty x.b))
/-- ISUB. -/
def fnIsub (f : Form) (x : Srcs) : FRes := intRes f (saturate f (readInt f.ty x.a - readInt f.ty x.b))
/-- The half of an exact product that SUB names: floor division by 2^W for `.hi`. -/
def halfOf (f : Form) (p : Int) : Int := if f.sub = 1#8 then p / ((2 ^ intWidth f.ty : Nat) : Int) else p
/-- IMUL. -/
def fnImul (f : Form) (x : Srcs) : FRes := intRes f (halfOf f (readInt f.ty x.a * readInt f.ty x.b))
/-- IMAD. -/
def fnImad (f : Form) (x : Srcs) : FRes :=
  intRes f (halfOf f (readInt f.ty x.a * readInt f.ty x.b + readInt f.ty x.c))
/-- IMIN. -/
def fnImin (f : Form) (x : Srcs) : FRes := intRes f (min (readInt f.ty x.a) (readInt f.ty x.b))
/-- IMAX. -/
def fnImax (f : Form) (x : Srcs) : FRes := intRes f (max (readInt f.ty x.a) (readInt f.ty x.b))
/-- IABS. -/
def fnIabs (f : Form) (x : Srcs) : FRes := intRes f ((readInt f.ty x.a).natAbs : Int)
/-- INEG. -/
def fnIneg (f : Form) (x : Srcs) : FRes := intRes f (-(readInt f.ty x.a))
/-- AND. -/
def fnAnd (f : Form) (x : Srcs) : FRes := intRes f (readBits f.ty (x.a &&& x.b) : Nat)
/-- OR. -/
def fnOr (f : Form) (x : Srcs) : FRes := intRes f (readBits f.ty (x.a ||| x.b) : Nat)
/-- XOR. -/
def fnXor (f : Form) (x : Srcs) : FRes := intRes f (readBits f.ty (x.a ^^^ x.b) : Nat)
/-- ANDN. -/
def fnAndn (f : Form) (x : Srcs) : FRes := intRes f (readBits f.ty (x.a &&& ~~~x.b) : Nat)
/-- NOT. -/
def fnNot (f : Form) (x : Srcs) : FRes := intRes f (readBits f.ty (~~~x.a) : Nat)
/-- SHL. -/
def fnShl (f : Form) (x : Srcs) : FRes :=
  let n := read32 x.b
  intRes f (if intWidth f.ty ≤ n then 0 else ((readBits f.ty x.a * 2 ^ n : Nat) : Int))
/-- SHR. -/
def fnShr (f : Form) (x : Srcs) : FRes :=
  let n := read32 x.b
  intRes f (if intWidth f.ty ≤ n then 0 else ((readBits f.ty x.a / 2 ^ n : Nat) : Int))
/-- SAR. -/
def fnSar (f : Form) (x : Srcs) : FRes :=
  let n := min (read32 x.b) (intWidth f.ty)
  intRes f (toSigned (intWidth f.ty) x.a.toNat / ((2 ^ n : Nat) : Int))
/-- ROT. -/
def fnRot (f : Form) (x : Srcs) : FRes :=
  let w := intWidth f.ty
  let n := read32 x.b % w
  let u := readBits f.ty x.a
  intRes f ((u * 2 ^ n + u / 2 ^ (w - n) : Nat) : Int)
/-- The number of 1 bits among the low `k` bits. -/
def popCount (u : Nat) : Nat → Nat
  | 0 => 0
  | k + 1 => popCount u k + (if bit u k then 1 else 0)
/-- Leading zeros of a pattern of `k` bits. -/
def leadingZeros (u : Nat) : Nat → Nat
  | 0 => 0
  | k + 1 => if bit u k then 0 else leadingZeros u k + 1
/-- Trailing zeros of a pattern, of `k` bits left. -/
def trailingZeros (u : Nat) : Nat → Nat
  | 0 => 0
  | k + 1 => if u % 2 = 1 then 0 else trailingZeros (u / 2) k + 1
/-- The low `k` bits reversed. -/
def reverseBits (u : Nat) : Nat → Nat
  | 0 => 0
  | k + 1 => (u % 2) * 2 ^ k + reverseBits (u / 2) k
/-- POPC, always 32 bits wide. -/
def fnPopc (f : Form) (x : Srcs) : FRes := ⟨popCount (readBits f.ty x.a) (intWidth f.ty), 0#5, 0⟩
/-- CLZ. -/
def fnClz (f : Form) (x : Srcs) : FRes := ⟨leadingZeros (readBits f.ty x.a) (intWidth f.ty), 0#5, 0⟩
/-- CTZ. -/
def fnCtz (f : Form) (x : Srcs) : FRes := ⟨trailingZeros (readBits f.ty x.a) (intWidth f.ty), 0#5, 0⟩
/-- BREV. -/
def fnBrev (f : Form) (x : Srcs) : FRes := intRes f (reverseBits (readBits f.ty x.a) (intWidth f.ty) : Nat)
/-- BFX: the field at ctl[7:0] of min(ctl[15:8], W) bits. -/
def fnBfx (f : Form) (x : Srcs) : FRes :=
  let c := read32 x.b
  let len := min (bits c 15 8) (intWidth f.ty)
  let v := readBits f.ty x.a / 2 ^ bits c 7 0 % 2 ^ len
  intRes f (if len = 0 then 0 else if intSigned f.ty then toSigned len v else (v : Int))
/-- BFI. -/
def fnBfi (f : Form) (x : Srcs) : FRes :=
  let c := read32 x.c
  let w := intWidth f.ty
  let pos := bits c 7 0
  let len := min (bits c 15 8) w
  let mask : QWord := BitVec.ofNat 128 ((2 ^ len - 1) * 2 ^ pos % 2 ^ w)
  let field : QWord := BitVec.ofNat 128 (readBits f.ty x.b * 2 ^ pos % 2 ^ w)
  intRes f (readBits f.ty ((x.a &&& ~~~mask) ||| (field &&& mask)) : Nat)
/-- One byte of PERM. -/
def permByte (v sel k : Nat) : Nat :=
  let n := bits sel (4 * k + 3) (4 * k)
  let b := bits v (8 * (n % 8) + 7) (8 * (n % 8))
  if bit n 3 then (if bit b 7 then 0xFF else 0) else b
/-- PERM. -/
def fnPerm (_ : Form) (x : Srcs) : FRes :=
  let v := read32 x.a + 2 ^ 32 * read32 x.b
  let s := read32 x.c
  ⟨permByte v s 0 + 2 ^ 8 * permByte v s 1 + 2 ^ 16 * permByte v s 2 + 2 ^ 24 * permByte v s 3, 0#5, 0⟩
/-- SEL. -/
def fnSel (f : Form) (l : Lane) (x : Srcs) : FRes :=
  intRes f (if predOf l f.c.toNat then readInt f.ty x.a else readInt f.ty x.b)
/-- A comparison code on two integers (07 R96). -/
def compareInt (cc : Nat) (a b : Int) : Bool :=
  match cc with
  | 0 => decide (a = b)
  | 1 => decide (a ≠ b)
  | 2 => decide (a < b)
  | 3 => decide (a ≤ b)
  | 4 => decide (b < a)
  | _ => decide (b ≤ a)
/-- A predicate result. -/
def boolRes (b : Bool) : FRes := ⟨if b then 1 else 0, 0#5, 0⟩
/-- ICMP. -/
def fnIcmp (f : Form) (x : Srcs) : FRes := boolRes (compareInt f.sub.toNat (readInt f.ty x.a) (readInt f.ty x.b))
/-- LEA. -/
def fnLea (f : Form) (x : Srcs) : FRes :=
  ⟨(x.a.toNat % 2 ^ 64 + read32 x.b * 2 ^ immBits f 2 0) % 2 ^ 64, 0#5, 0⟩
/-- PAND. -/
def fnPand (f : Form) (l : Lane) : FRes := boolRes (predOf l f.a.toNat && predOf l f.b.toNat)
/-- POR. -/
def fnPor (f : Form) (l : Lane) : FRes := boolRes (predOf l f.a.toNat || predOf l f.b.toNat)
/-- PXOR. -/
def fnPxor (f : Form) (l : Lane) : FRes := boolRes (predOf l f.a.toNat != predOf l f.b.toNat)
/-- PNOT. -/
def fnPnot (f : Form) (l : Lane) : FRes := boolRes (!predOf l f.a.toNat)
/-- PMOV. -/
def fnPmov (f : Form) (l : Lane) : FRes := boolRes (predOf l f.a.toNat)

/-- The lane function of the instructions a Forage body may hold (18 R291); 0 for any other. -/
def bodyFn (o : Op) (f : Form) (l : Lane) (x : Srcs) : FRes :=
  match o with
  | .iadd => fnIadd f x | .isub => fnIsub f x | .imul => fnImul f x | .imad => fnImad f x | .imin => fnImin f x
  | .imax => fnImax f x | .iabs => fnIabs f x | .ineg => fnIneg f x | .and => fnAnd f x | .or => fnOr f x
  | .xor => fnXor f x | .andn => fnAndn f x | .not => fnNot f x | .shl => fnShl f x | .shr => fnShr f x
  | .sar => fnSar f x | .rot => fnRot f x | .popc => fnPopc f x | .clz => fnClz f x | .ctz => fnCtz f x
  | .brev => fnBrev f x | .bfx => fnBfx f x | .bfi => fnBfi f x | .perm => fnPerm f x | .sel => fnSel f l x
  | .icmp => fnIcmp f x | .lea => fnLea f x | .pand => fnPand f l | .por => fnPor f l | .pxor => fnPxor f l
  | .pnot => fnPnot f l | .pmov => fnPmov f l
  | _ => ⟨0, 0#5, 0⟩

/-! ## Meanings: vector integer (09 R125 to R128) -/

/-- IADD. -/
def execIadd (f : Form) (s : State) : Host.Outcome State Fault Refusal :=
  runAlu .iadd f s (fun i _ _ x => fnIadd i.f x)
/-- ISUB. -/
def execIsub (f : Form) (s : State) : Host.Outcome State Fault Refusal :=
  runAlu .isub f s (fun i _ _ x => fnIsub i.f x)
/-- IMUL. -/
def execImul (f : Form) (s : State) : Host.Outcome State Fault Refusal :=
  runAlu .imul f s (fun i _ _ x => fnImul i.f x)
/-- IMAD. -/
def execImad (f : Form) (s : State) : Host.Outcome State Fault Refusal :=
  runAlu .imad f s (fun i _ _ x => fnImad i.f x)
/-- IMIN. -/
def execImin (f : Form) (s : State) : Host.Outcome State Fault Refusal :=
  runAlu .imin f s (fun i _ _ x => fnImin i.f x)
/-- IMAX. -/
def execImax (f : Form) (s : State) : Host.Outcome State Fault Refusal :=
  runAlu .imax f s (fun i _ _ x => fnImax i.f x)
/-- IABS. -/
def execIabs (f : Form) (s : State) : Host.Outcome State Fault Refusal :=
  runAlu .iabs f s (fun i _ _ x => fnIabs i.f x)
/-- INEG. -/
def execIneg (f : Form) (s : State) : Host.Outcome State Fault Refusal :=
  runAlu .ineg f s (fun i _ _ x => fnIneg i.f x)
/-- AND. -/
def execAnd (f : Form) (s : State) : Host.Outcome State Fault Refusal :=
  runAlu .and f s (fun i _ _ x => fnAnd i.f x)
/-- OR. -/
def execOr (f : Form) (s : State) : Host.Outcome State Fault Refusal :=
  runAlu .or f s (fun i _ _ x => fnOr i.f x)
/-- XOR. -/
def execXor (f : Form) (s : State) : Host.Outcome State Fault Refusal :=
  runAlu .xor f s (fun i _ _ x => fnXor i.f x)
/-- ANDN. -/
def execAndn (f : Form) (s : State) : Host.Outcome State Fault Refusal :=
  runAlu .andn f s (fun i _ _ x => fnAndn i.f x)
/-- NOT. -/
def execNot (f : Form) (s : State) : Host.Outcome State Fault Refusal :=
  runAlu .not f s (fun i _ _ x => fnNot i.f x)
/-- SHL. -/
def execShl (f : Form) (s : State) : Host.Outcome State Fault Refusal :=
  runAlu .shl f s (fun i _ _ x => fnShl i.f x)
/-- SHR. -/
def execShr (f : Form) (s : State) : Host.Outcome State Fault Refusal :=
  runAlu .shr f s (fun i _ _ x => fnShr i.f x)
/-- SAR. -/
def execSar (f : Form) (s : State) : Host.Outcome State Fault Refusal :=
  runAlu .sar f s (fun i _ _ x => fnSar i.f x)
/-- ROT. -/
def execRot (f : Form) (s : State) : Host.Outcome State Fault Refusal :=
  runAlu .rot f s (fun i _ _ x => fnRot i.f x)
/-- POPC. -/
def execPopc (f : Form) (s : State) : Host.Outcome State Fault Refusal :=
  runAlu .popc f s (fun i _ _ x => fnPopc i.f x)
/-- CLZ. -/
def execClz (f : Form) (s : State) : Host.Outcome State Fault Refusal :=
  runAlu .clz f s (fun i _ _ x => fnClz i.f x)
/-- CTZ. -/
def execCtz (f : Form) (s : State) : Host.Outcome State Fault Refusal :=
  runAlu .ctz f s (fun i _ _ x => fnCtz i.f x)
/-- BREV. -/
def execBrev (f : Form) (s : State) : Host.Outcome State Fault Refusal :=
  runAlu .brev f s (fun i _ _ x => fnBrev i.f x)
/-- BFX. -/
def execBfx (f : Form) (s : State) : Host.Outcome State Fault Refusal :=
  runAlu .bfx f s (fun i _ _ x => fnBfx i.f x)
/-- BFI. -/
def execBfi (f : Form) (s : State) : Host.Outcome State Fault Refusal :=
  runAlu .bfi f s (fun i _ _ x => fnBfi i.f x)
/-- PERM. -/
def execPerm (f : Form) (s : State) : Host.Outcome State Fault Refusal :=
  runAlu .perm f s (fun i _ _ x => fnPerm i.f x)
/-- SEL. -/
def execSel (f : Form) (s : State) : Host.Outcome State Fault Refusal :=
  runAlu .sel f s (fun i _ l x => fnSel i.f l x)
/-- ICMP. -/
def execIcmp (f : Form) (s : State) : Host.Outcome State Fault Refusal :=
  runAlu .icmp f s (fun i _ _ x => fnIcmp i.f x)
/-- LEA. -/
def execLea (f : Form) (s : State) : Host.Outcome State Fault Refusal :=
  runAlu .lea f s (fun i _ _ x => fnLea i.f x)

/-! ## Meanings: predicates (09 R129) -/

/-- PAND. -/
def execPand (f : Form) (s : State) : Host.Outcome State Fault Refusal :=
  runAlu .pand f s (fun i _ l _ => fnPand i.f l)
/-- POR. -/
def execPor (f : Form) (s : State) : Host.Outcome State Fault Refusal :=
  runAlu .por f s (fun i _ l _ => fnPor i.f l)
/-- PXOR. -/
def execPxor (f : Form) (s : State) : Host.Outcome State Fault Refusal :=
  runAlu .pxor f s (fun i _ l _ => fnPxor i.f l)
/-- PNOT. -/
def execPnot (f : Form) (s : State) : Host.Outcome State Fault Refusal :=
  runAlu .pnot f s (fun i _ l _ => fnPnot i.f l)
/-- PMOV. -/
def execPmov (f : Form) (s : State) : Host.Outcome State Fault Refusal :=
  runAlu .pmov f s (fun i _ l _ => fnPmov i.f l)

/-! ## Array windows and the allotment (09 R130, R131; 04 R52, R55) -/

/-- AWSET: the window for the whole group when some guard holds, xN in each guard-true lane. -/
def execAwset (f : Form) (s : State) : Host.Outcome State Fault Refusal :=
  withIssue .awset f s (fun i =>
    let la := launchOf s i.t
    let n := f.d.toNat
    let outs := pureOuts la i (fun _ _ _ => .done ⟨0, 0#5, 0⟩)
    let held := maskOf ((outFaults i outs).map LaneFault.lane)
    let s1 := finishIssue s i outs
    if i.on = 0#32 then s1
    else updGroup s1 i.t.ref i.g.id (fun g =>
      { g with
        aw := mapSet g.aw n ⟨BitVec.ofNat 9 (immBits f 16 8), BitVec.ofNat 8 (immBits f 7 0)⟩ {}
        lanes := g.lanes.map (fun p =>
          if hasLane i.on p.1 && !hasLane held p.1 then
            match i.lane p.1 with
            | some l0 => (p.1, { p.2 with x := mapSet p.2.x n (((i.srcs la p.1 l0).a).extractLsb' 0 16) 0#16 })
            | none => p
          else p) }))

/-- Every pending entry of a group written back, its latches still readable (04 R52). -/
def settleGroup (g : Group) : Group := { g with lanes := g.lanes.map (fun p => (p.1, settleWindow p.2)) }

/-- The rows of a group's pending entries above its allotment. -/
def pendingRows (g : Group) : List (Nat × Nat) :=
  (g.lanes.flatMap (fun p => backRows g.alloc p.2.win.reverse)).eraseDups

/-- An allotment instruction finished: its empty entry pushed. -/
def finishAllot (s : State) (i : Issue) : State :=
  finishIssue s i (i.active.map (fun p => (p.1, .done ⟨0, 0#5, 0⟩)))

/-- REGGROW: REQ ← n when n is above ALLOC, and the group waits for its grant (04 R52, R53). -/
def execReggrow (f : Form) (s : State) : Host.Outcome State Fault Refusal :=
  withIssue .reggrow f s (fun i =>
    let n := immBits f 8 0
    if n ≤ i.g.alloc then finishAllot s i
    else
      let o := (countOverflow s { i with f := {} } (pendingRows i.g)).1
      let s1 := updGroup o i.t.ref i.g.id (fun g => { settleGroup g with req := n })
      finishAllot s1 { i with g := settleGroup i.g })

/-- REGSHRINK: rows n to ALLOC − 1 go to the backing store and are freed (04 R52). -/
def execRegshrink (f : Form) (s : State) : Host.Outcome State Fault Refusal :=
  withIssue .regshrink f s (fun i =>
    let n := immBits f 8 0
    if n ≥ i.g.alloc then finishAllot s i
    else
      let o := (countOverflow s { i with f := {} } (pendingRows i.g)).1
      let s1 := updGroup o i.t.ref i.g.id (fun g => { settleGroup g with alloc := n })
      finishAllot s1 { i with g := settleGroup i.g })

end Sys2Proof.Machine
end

