-- ==== Sys2Proof/Machine/Scalar.lean ====
section
/-! DEFINITION. The scalar pipe but for SLD and the CSR instructions (09 R132 to R135), and WORKNEXT (02 R26 to R29). -/
namespace Sys2Proof.Machine

/-! ## Scalar results (09 R132, R133) -/

/-- A value reduced to its type and extended to 64 bits. -/
def reduceScalar (ty : BitVec 5) (y : Int) : BitVec 64 :=
  let w := intWidth ty
  BitVec.ofNat 64 (if intSigned ty then wrap 64 (toSigned w (wrap w y)) else wrap w y)

/-- A 64-bit scalar source. -/
def s64 (x : QWord) : Nat := x.toNat % 2 ^ 64

/-- The value of a scalar arithmetic instruction before reduction (09 R133). -/
def scalarValue (o : Op) (ty : BitVec 5) (a b : Nat) : Int :=
  match o with
  | .sadd => (a : Int) + b
  | .ssub => (a : Int) - b
  | .smul => (a : Int) * b
  | .sand => (a &&& b : Nat)
  | .sor => (a ||| b : Nat)
  | .sxor => (a ^^^ b : Nat)
  | .sshl => if 64 ≤ b then 0 else ((a * 2 ^ b : Nat) : Int)
  | .sshr =>
    if intSigned ty then toSigned 64 a / ((2 ^ min b 64 : Nat) : Int) else if 64 ≤ b then 0 else ((a / 2 ^ b : Nat) : Int)
  | _ => (a : Int)

/-- A scalar arithmetic instruction. -/
def runScalarArith (o : Op) (f : Form) (s : State) : Host.Outcome State Fault Refusal :=
  runScalar o f s (fun i x => reduceScalar i.f.ty (scalarValue o i.f.ty (s64 x.a) (s64 x.b)))

/-- SADD. -/
def execSadd (f : Form) (s : State) : Host.Outcome State Fault Refusal := runScalarArith .sadd f s
/-- SSUB. -/
def execSsub (f : Form) (s : State) : Host.Outcome State Fault Refusal := runScalarArith .ssub f s
/-- SMUL. -/
def execSmul (f : Form) (s : State) : Host.Outcome State Fault Refusal := runScalarArith .smul f s
/-- SAND. -/
def execSand (f : Form) (s : State) : Host.Outcome State Fault Refusal := runScalarArith .sand f s
/-- SOR. -/
def execSor (f : Form) (s : State) : Host.Outcome State Fault Refusal := runScalarArith .sor f s
/-- SXOR. -/
def execSxor (f : Form) (s : State) : Host.Outcome State Fault Refusal := runScalarArith .sxor f s
/-- SSHL. -/
def execSshl (f : Form) (s : State) : Host.Outcome State Fault Refusal := runScalarArith .sshl f s
/-- SSHR. -/
def execSshr (f : Form) (s : State) : Host.Outcome State Fault Refusal := runScalarArith .sshr f s
/-- SMOV. -/
def execSmov (f : Form) (s : State) : Host.Outcome State Fault Refusal := runScalarArith .smov f s

/-- SCMP: the comparison of the two scalars, written to a predicate in every lane of the issue set (09 R134). -/
def execScmp (f : Form) (s : State) : Host.Outcome State Fault Refusal :=
  runOnce .scmp f s (fun i x =>
    boolRes (compareInt i.f.sub.toNat (readInt i.f.ty x.a) (readInt i.f.ty x.b)))

/-- BCAST: a 64-bit scalar to a register pair of every lane (09 R135). -/
def execBcast (f : Form) (s : State) : Host.Outcome State Fault Refusal :=
  runOnce .bcast f s (fun _ x => ⟨s64 x.a, 0#5, 0⟩)

/-- READLANE: one v register of a chosen lane, zero-extended; an absent lane delivers 0 (09 R135). -/
def execReadlane (f : Form) (s : State) : Host.Outcome State Fault Refusal :=
  runScalar .readlane f s (fun i x =>
    match selOf i.f.a i.f.ax, i.lane (s64 x.b % 32) with
    | .v n, some l => (readReg l n.toNat).setWidth 64
    | _, _ => 0#64)

/-! ## WORKNEXT (02 R26 to R29) -/

/-- The teams of a persistent launch that own iterations. -/
def workTeams (l : Launch) : Nat := min (l.gx * l.gy * l.gz) (max 1 (l.iter / l.tile))

/-- The first iteration of a team's range. -/
def rangeStart (l : Launch) (r : Nat) : Nat := r * l.iter / workTeams l

/-- One piece: first iteration, count, and its FIX marks. -/
structure Piece where
  first : Nat
  count : Nat
  early : Bool
  late : Bool
  deriving DecidableEq, Repr

/-- The pieces of [lo, hi): one for each tile it meets, ascending; `n` bounds their number. -/
def cutTiles (t hi : Nat) : Nat → Nat → List Piece
  | _, 0 => []
  | lo, n + 1 =>
    if lo < hi then
      let e := min hi ((lo / t + 1) * t)
      ⟨lo, e - lo, false, false⟩ :: cutTiles t hi e n
    else []

/-- Whether a range boundary cuts a tile in two. -/
def cutsTile (l : Launch) (x : Nat) : Bool := decide (0 < x) && decide (x < l.iter) && x % l.tile != 0

/-- The pieces of a team in the order they are handed out (02 R27): all but a shared head piece, ascending, then that one. -/
def teamPieces (l : Launch) (r : Nat) : List Piece :=
  let lo := rangeStart l r
  let hi := rangeStart l (r + 1)
  let ps := (cutTiles l.tile hi lo (l.iter / l.tile + 2)).map (fun p =>
    { p with
      late := decide (p.first = lo) && cutsTile l lo
      early := decide (p.first + p.count = hi) && cutsTile l hi })
  ps.filter (fun p => !p.late) ++ ps.filter Piece.late

/-- The core of a team of a launch, resident or placed before, as its logical index in the launch's map epoch. -/
def logicalCoreOf (s : State) (l : Launch) (n team : Nat) : Nat :=
  match teamAt s ⟨n, team⟩ with
  | some u => logicalOfPhys s u.epoch u.core
  | none =>
    match l.clusters.find? (fun q => q.key == clusterKey l team) with
    | some q => logicalOfPhys s l.epoch ((q.cores[teamRank l team]?).getD 0)
    | none => 0

/-- The SRAM address of a team's fix-up barrier: the top 16 bytes of its window, where it stood last while the team waits for a relaunch
(02 R28). -/
def fixupAddr (s : State) (l : Launch) (n team : Nat) : Nat :=
  let off :=
    match teamAt s ⟨n, team⟩ with
    | some u => u.winOff + u.winLen - 16
    | none =>
      match l.clusters.findSome? (fun q => q.saved.find? (fun u => u.ref.team == team)) with
      | some u => u.winOff + u.winLen - 16
      | none => (mapGet l.fixups team).getD 0
  logicalCoreOf s l n team * 2 ^ 21 + off

/-- The five scalars of a piece (02 R29); none is END, for which the spec gives the count 0 and the flags: the model writes 0 to the first
iteration and to the tile index too (DESIGN CHOICE, log 62). -/
def pieceWords (s : State) (l : Launch) (n team : Nat) (p : Option Piece) : List (BitVec 64) :=
  match p with
  | none => [0#64, BitVec.ofNat 64 (2 ^ 36), 0#64, 0#64, 0#64]
  | some p =>
    let flags := (if p.first % l.tile = 0 then 1 else 0)
      + (if (p.first + p.count) % l.tile = 0 ∨ p.first + p.count = l.iter then 2 else 0)
      + (if p.early then 4 else 0) + (if p.late then 8 else 0)
    let t := if p.early then team else team - 1
    let fix := p.early || p.late
    [BitVec.ofNat 64 p.first, BitVec.ofNat 64 (flags * 2 ^ 32 + p.count), BitVec.ofNat 64 (p.first / l.tile),
      if fix then l.fixBase + BitVec.ofNat 64 (t * l.fixStride) else 0#64,
      if fix then BitVec.ofNat 64 (fixupAddr s l n (t + 1)) else 0#64]

/-- WORKNEXT: the team's next piece for this group's request count (02 R29). Its window entry holds the first of the five values (DESIGN
CHOICE, log 62). -/
def execWorknext (f : Form) (s : State) : Host.Outcome State Fault Refusal :=
  withIssue .worknext f s (fun i =>
    let l := launchOf s i.t
    let r := i.t.ref.team
    let piece := if !l.persistent || decide (workTeams l ≤ r) then none else (teamPieces l r)[i.g.requests]?
    let ws := pieceWords s l i.t.ref.launch r piece
    let s1 := finishScalar s i (ws.headD 0#64)
    updGroup s1 i.t.ref i.g.id (fun g =>
      { g with
        requests := g.requests + 1
        s := (ws.zipIdx).foldl (fun m w => mapSet m (f.d.toNat - 0x40 + w.2) w.1 0#64) g.s }))

end Sys2Proof.Machine
end

