-- ==== Sys2Proof/Machine/Control.lean ====
section
/-! DEFINITION. The control transfers and terminators of 0x60 to 0x68, NOP and UDF (09 R137 to R142; 03 R38; 05 R67; 07 R101). -/
namespace Sys2Proof.Machine

/-! ## Targets (07 R89; 03 R38) -/

/-- A PC-relative target: PC + 4 × IMM23. -/
def directTarget (i : Issue) : Pc := i.pc + BitVec.ofInt 64 (4 * i.f.imm.toInt)

/-- A register target: the 64 bits of A, used as they stand (09 R139). -/
def registerTarget (x : Srcs) : Pc := x.a.extractLsb' 0 64

/-- Whether a target makes a taken branch backward: at or below the terminator's own PC (03 R38). -/
def isBackward (i : Issue) (t : Pc) : Bool := decide (t.toNat ≤ i.pc.toNat)

/-- No lane of a plain transfer faults. -/
def noFault (_ : Issue) (_ : Nat) (_ : Lane) (_ : Srcs) : Option LaneFault := none

/-- BR: guard-true lanes to the target, the others to the next instruction (09 R138). -/
def execBr (f : Form) (s : State) : Host.Outcome State Fault Refusal :=
  runEnd .br f s noFault (fun i _ _ _ l => { l with pc := directTarget i }) (fun i _ _ _ => isBackward i (directTarget i))

/-- JMP to a label, unguarded (09 R138). -/
def execJmpDirect (f : Form) (s : State) : Host.Outcome State Fault Refusal :=
  runEnd .jmpDirect f s noFault (fun i _ _ _ l => { l with pc := directTarget i })
    (fun i _ _ _ => isBackward i (directTarget i))

/-- JMP to the address each guard-true lane holds, checked on arrival (09 R138; 03 R33). -/
def execJmpRegister (f : Form) (s : State) : Host.Outcome State Fault Refusal :=
  runEnd .jmpRegister f s noFault (fun _ _ _ x l => { l with pc := registerTarget x })
    (fun i _ _ x => isBackward i (registerTarget x))

/-- DEPTH_OVERFLOW at depth 1,024 (09 R139). -/
def depthFault (_ : Issue) (n : Nat) (l : Lane) (_ : Srcs) : Option LaneFault :=
  if l.rstack.length ≥ 1024 then some { lane := n, code := cDepthOverflow, kind := 7 } else none

/-- A lane that calls: the return address pushed, the depth one more. -/
def callTo (i : Issue) (t : Pc) (l : Lane) : Lane := { l with rstack := i.nextPc :: l.rstack, pc := t }

/-- CALL (09 R139). -/
def execCall (f : Form) (s : State) : Host.Outcome State Fault Refusal :=
  runEnd .call f s depthFault (fun i _ _ _ l => callTo i (directTarget i) l)
    (fun i _ _ _ => isBackward i (directTarget i))

/-- CALLI (09 R139). -/
def execCalli (f : Form) (s : State) : Host.Outcome State Fault Refusal :=
  runEnd .calli f s depthFault (fun i _ _ x l => callTo i (registerTarget x) l)
    (fun i _ _ x => isBackward i (registerTarget x))

/-- A lane moved to DONE (02 R19). -/
def laneExit (l : Lane) : Lane := { l with st := .done, yield := false, wait := .none }

/-- A lane that returns: at depth 0 it exits (09 R140). -/
def laneReturn (l : Lane) : Lane :=
  match l.rstack with
  | [] => laneExit l
  | p :: r => { l with pc := p, rstack := r }

/-- No terminator but the four branches counts as backward (03 R38). -/
def neverBack (_ : Issue) (_ : Nat) (_ : Lane) (_ : Srcs) : Bool := false

/-- Whether every non-DONE present lane of a team waits at BARSYNC, at least one (14 R237). -/
def barsyncFull (t : Team) : Bool :=
  let ls := t.groups.flatMap (fun g => (g.lanes.map Prod.snd).filter (fun l => l.st != .done))
  !ls.isEmpty && ls.all (fun l => l.wait == .barsync)

/-- The team barrier completed when the last lane it waits for has arrived or gone: every waiting lane returns to RUN (14 R237). -/
def barsyncSettle (s : State) (r : TeamRef) : State :=
  match teamAt s r with
  | none => s
  | some t =>
    if barsyncFull t && !t.ended.isSome then
      updTeam s r (fun t => { t with groups := t.groups.map (fun g =>
        { g with lanes := g.lanes.map (fun p => if p.2.wait == .barsync then (p.1, laneRun p.2) else p) }) })
    else s

/-- A next state changed once more. -/
def thenDo (o : Host.Outcome State Fault Refusal) (k : State → State) : Host.Outcome State Fault Refusal :=
  match o with
  | .next s => .next (k s)
  | .fault r => .fault r
  | .refused r => .refused r

/-- The team of the party of `cur`. -/
def curTeam (s : State) : TeamRef :=
  match s.cur with
  | .group p => match groupAt s p with | some (t, _) => t.ref | none => ⟨0, 0⟩
  | .prog x => match progAt s x with | some (t, _) => t.ref | none => ⟨0, 0⟩
  | .none => ⟨0, 0⟩

/-- RET (09 R140). A lane that exits may complete the team barrier (14 R237). -/
def execRet (f : Form) (s : State) : Host.Outcome State Fault Refusal :=
  thenDo (runEnd .ret f s noFault (fun _ _ _ _ l => laneReturn l) neverBack) (fun t => barsyncSettle t (curTeam s))

/-- EXIT (09 R140). -/
def execExit (f : Form) (s : State) : Host.Outcome State Fault Refusal :=
  thenDo (runEnd .exit f s noFault (fun _ _ _ _ l => laneExit l) neverBack) (fun t => barsyncSettle t (curTeam s))

/-- NEXT: the segment ends, its lanes continue at the next instruction (09 R142). -/
def execNext (f : Form) (s : State) : Host.Outcome State Fault Refusal :=
  runEnd .next f s noFault (fun i _ _ _ l => { l with pc := i.nextPc }) neverBack

/-- YIELD: guard-true lanes are marked, all continue at the next instruction (09 R142; 03 R37). -/
def execYield (f : Form) (s : State) : Host.Outcome State Fault Refusal :=
  runEnd .yield f s noFault (fun i _ _ _ l => { l with pc := i.nextPc, yield := true }) neverBack

/-- NOP: an empty latch entry (09 R142). -/
def execNop (f : Form) (s : State) : Host.Outcome State Fault Refusal :=
  runAlu .nop f s (fun _ _ _ _ => ⟨0, 0#5, 0⟩)

/-- UDF: ILLEGAL_OP for the whole issue set (07 R97, R100, R101). -/
def execUdf (_ _ : BitVec 7) (_ : Bool) (_ : BitVec 7) (_ : BitVec 2) (s : State) : Host.Outcome State Fault Refusal :=
  match issueOf s .nop {} with
  | none => .fault .noIssuer
  | some i => .next (holdWhole s i i.m cIllegalOp 7 0#57)

/-! ## PARK (09 R141; 05 R67) -/

/-- An SRAM address: base + IMM23 modulo 2^32 (12 R179). -/
def sramAddr (f : Form) (x : Srcs) : BitVec 32 := x.a.extractLsb' 0 32 + BitVec.ofInt 32 f.imm.toInt

/-- An SRAM fault of a lane. -/
def sramFault (n : Nat) (c : Code) (a : BitVec 32) : LaneFault :=
  { lane := n, code := c, kind := 3, addr := a.setWidth 57 }

/-- The check of an SRAM access of `w` bytes by a lane. -/
def sramLaneFault (s : State) (i : Issue) (n : Nat) (x : Srcs) (w : Nat) (write : Bool) : Option LaneFault :=
  match sramCheck s i.t (sramAddr i.f x) w write with
  | .error c => some (sramFault n c (sramAddr i.f x))
  | .ok _ => none

/-- The word PARK reads. -/
def parkWord (s : State) (t : Team) (a : BitVec 32) : BitVec 32 :=
  match sramPlace s t a with
  | some (c, o) => BitVec.ofNat 32 (bytesNat (sramRead s c o 4))
  | none => 0#32

end Sys2Proof.Machine
end

