-- ==== Sys2Proof/Machine/CrossLane.lean ====
section
/-! DEFINITION. The cross-lane instructions (09 R143 to R147; 08 R121; 21 R344). Their participants are the guard-true lanes of the issue
set; under L16 each half of the group acts by itself. -/
namespace Sys2Proof.Machine

/-- The participants a lane sees: all, or those of its half under L16. -/
def Issue.peers (i : Issue) (n : Nat) : List (Nat × Lane) :=
  if i.l16 then i.active.filter (fun p => p.1 / 16 == n / 16) else i.active

/-- The lowest lane number of a lane's half, and the lanes it has. -/
def Issue.half (i : Issue) (n : Nat) : Nat × Nat := if i.l16 then (n / 16 * 16, 16) else (0, 32)

/-- A mask of lane numbers, counted from the first lane of the half. -/
def peerMask (i : Issue) (n : Nat) (ls : List Nat) : Nat := (maskOf (ls.map (fun l => l - (i.half n).1))).toNat

/-- The lane a SHFL takes its value from (09 R144). -/
def shflSource (mode : Nat) (l b : Nat) : Int :=
  match mode with
  | 0 => b
  | 1 => (l : Int) - b
  | 2 => (l : Int) + b
  | _ => (l ^^^ b : Nat)

/-- SHFL (09 R144). -/
def execShfl (f : Form) (s : State) : Host.Outcome State Fault Refusal :=
  runAlu .shfl f s (fun i n _ x =>
    let h := i.half n
    let src := shflSource i.f.sub.toNat (n - h.1) (read32 x.b)
    let own := readBits i.f.ty x.a
    if 0 ≤ src ∧ src < (h.2 : Int) ∧ hasLane i.on (h.1 + src.toNat) = true then
      match i.lane (h.1 + src.toNat) with
      | some p => ⟨readBits i.f.ty (i.srcs (launchOf s i.t) (h.1 + src.toNat) p).a, 0#5, 0⟩
      | none => ⟨own, 0#5, 0⟩
    else ⟨own, 0#5, 0⟩)

/-- VOTE (09 R145). -/
def execVote (f : Form) (s : State) : Host.Outcome State Fault Refusal :=
  runAlu .vote f s (fun i n _ _ =>
    let ps := i.peers n
    let t := ps.filter (fun p => predOf p.2 i.f.a.toNat)
    match i.f.sub.toNat with
    | 0 => boolRes (!t.isEmpty)
    | 1 => boolRes (t.length == ps.length)
    | _ => ⟨peerMask i n (t.map Prod.fst), 0#5, 0⟩)

/-- MATCH (09 R147). -/
def execMatchLanes (f : Form) (s : State) : Host.Outcome State Fault Refusal :=
  runAlu .matchLanes f s (fun i n _ x =>
    let v := readBits i.f.ty x.a
    ⟨peerMask i n (((i.peers n).filter (fun p => readBits i.f.ty (i.srcs (launchOf s i.t) p.1 p.2).a == v)).map Prod.fst),
      0#5, 0⟩)

/-- ELECT (09 R147). -/
def execElect (f : Form) (s : State) : Host.Outcome State Fault Refusal :=
  runAlu .elect f s (fun i n _ _ => boolRes (((i.peers n).head?).map Prod.fst == some n))

/-! ## Folds (09 R146; 08 R121) -/

/-- One step of an integer fold. -/
def foldInt (f : Form) (mode : Nat) (a b : Int) : Int :=
  match mode with
  | 0 => readInt f.ty (BitVec.ofNat 128 (wrap (intWidth f.ty) (a + b)))
  | 1 => min a b
  | _ => max a b

/-- One step of a float fold, each `.add` rounded under RNE. -/
def foldFloat (c mode : Nat) (a b : Nat) : FRes :=
  match mode with
  | 0 => fAdd c 0 false 0#32 (floatVal c a) (floatVal c b)
  | 1 => fMinMax c false a b
  | _ => fMinMax c true a b

/-- The bits a float source reads (10 R148). -/
def floatBits (c : Nat) (x : QWord) : Nat := x.toNat % 2 ^ formatBits c

/-- A source that is the whole fold: a NaN made canonical, with NV for a signalling one (08 R104). -/
def foldOne (c x : Nat) : FRes :=
  match floatVal c x with
  | .nan sig => nanRes c (if sig then flagNV else 0#5)
  | _ => ⟨x, 0#5, 0⟩

/-- The fold of a list of sources in order: the result, with the flags of every step. -/
def foldSources (f : Form) (xs : List QWord) : FRes :=
  let mode := f.sub.toNat % 8
  match xs with
  | [] => ⟨0, 0#5, 0⟩
  | [x] =>
    if f.sub.toNat / 128 = 1 then foldOne f.ty.toNat (floatBits f.ty.toNat x) else intRes f (readInt f.ty x)
  | x :: r =>
    if f.sub.toNat / 128 = 1 then
      let c := f.ty.toNat
      r.foldl (fun (a : FRes) y =>
        let z := foldFloat c mode a.bits (floatBits c y)
        ⟨z.bits, a.flags ||| z.flags, 0⟩) ⟨floatBits c x, 0#5, 0⟩
    else intRes f (r.foldl (fun a y => foldInt f mode a (readInt f.ty y)) (readInt f.ty x))

/-- The sources of the participants a lane sees, up to a lane. -/
def peerSources (s : State) (i : Issue) (n last : Nat) : List QWord :=
  ((i.peers n).filter (fun p => decide (p.1 ≤ last))).map (fun p =>
    (i.srcs (launchOf s i.t) p.1 p.2).a)

/-- Whether a lane's answer would raise an enabled flag there. -/
def foldTraps (i : Issue) (p : Nat × LaneOut) : Bool :=
  match p.2, i.lane p.1 with
  | .done r, some l => trapped i.t.fpxen l r.flags != 0#5
  | _, _ => false

/-- The answers of a fold: when some lane would raise an enabled flag, every participant of that fold holds with FPX, and none writes a
result or a flag (09 R146). -/
def foldOuts (i : Issue) (outs : List (Nat × LaneOut)) : List (Nat × LaneOut) :=
  outs.map (fun p =>
    if outs.any (fun q => (i.half q.1).1 == (i.half p.1).1 && foldTraps i q) then
      match p.2 with
      | .done r => (p.1, .fpx (r.flags &&& i.t.fpxen))
      | _ => p
    else p)

/-- A fold instruction: the fold of the participants up to `last` of each lane, of each half by itself under L16 (09 R143, R146). -/
def runFold (o : Op) (f : Form) (s : State) (last : Nat → Nat) : Host.Outcome State Fault Refusal :=
  withIssue o f s (fun i => finishIssue s i
    (foldOuts i (pureOuts (launchOf s i.t) i (fun n _ _ => .done (foldSources i.f (peerSources s i n (last n)))))))

/-- REDUX (09 R146). -/
def execRedux (f : Form) (s : State) : Host.Outcome State Fault Refusal := runFold .redux f s (fun _ => 31)
/-- SCANX (09 R146). -/
def execScanx (f : Form) (s : State) : Host.Outcome State Fault Refusal := runFold .scanx f s (fun n => n)

end Sys2Proof.Machine
end

