-- ==== Sys2Proof/Machine/Hash.lean ====
section
/-! DEFINITION. SHAKE256 with 64 bytes of output, the hash of object measurements and of the attestation chain (21 R339; 24 R381). The spec
names the function and not its steps: they are those of FIPS 202 (PRESUMED, log 23). -/
namespace Sys2Proof.Machine

/-- Round constants of Keccak-f[1600]. -/
def keccakRounds : List (BitVec 64) :=
  [0x0000000000000001#64, 0x0000000000008082#64, 0x800000000000808A#64, 0x8000000080008000#64, 0x000000000000808B#64,
   0x0000000080000001#64, 0x8000000080008081#64, 0x8000000000008009#64, 0x000000000000008A#64, 0x0000000000000088#64,
   0x0000000080008009#64, 0x000000008000000A#64, 0x000000008000808B#64, 0x800000000000008B#64, 0x8000000000008089#64,
   0x8000000000008003#64, 0x8000000000008002#64, 0x8000000000000080#64, 0x000000000000800A#64, 0x800000008000000A#64,
   0x8000000080008081#64, 0x8000000000008080#64, 0x0000000080000001#64, 0x8000000080008008#64]

/-- Rotations of the 25 words, word x + 5y. -/
def keccakTurns : List Nat :=
  [0, 1, 62, 28, 27, 36, 44, 6, 55, 20, 3, 10, 43, 25, 39, 41, 45, 15, 21, 8, 18, 2, 61, 56, 14]

/-- A word of the 25. -/
def keccakWord (a : List (BitVec 64)) (x y : Nat) : BitVec 64 := a.getD (x % 5 + 5 * (y % 5)) 0#64

/-- The 25 words of a function of their places. -/
def keccakTable (f : Nat → Nat → BitVec 64) : List (BitVec 64) := (List.range 25).map (fun n => f (n % 5) (n / 5))

/-- One round. -/
def keccakRound (a : List (BitVec 64)) (rc : BitVec 64) : List (BitVec 64) :=
  let c := (List.range 5).map (fun x =>
    keccakWord a x 0 ^^^ keccakWord a x 1 ^^^ keccakWord a x 2 ^^^ keccakWord a x 3 ^^^ keccakWord a x 4)
  let col (x : Nat) : BitVec 64 := c.getD (x % 5) 0#64
  let t := keccakTable (fun x y => keccakWord a x y ^^^ (col (x + 4) ^^^ (col (x + 1)).rotateLeft 1))
  let r := (t.zip keccakTurns).map (fun p => p.1.rotateLeft p.2)
  let b := keccakTable (fun x y => keccakWord r (x + 3 * y) x)
  let d := keccakTable (fun x y => keccakWord b x y ^^^ (~~~(keccakWord b (x + 1) y) &&& keccakWord b (x + 2) y))
  match d with
  | [] => []
  | w :: ws => (w ^^^ rc) :: ws

/-- Keccak-f[1600]. -/
def keccakF (a : List (BitVec 64)) : List (BitVec 64) := keccakRounds.foldl keccakRound a

/-- A block of 136 bytes absorbed. -/
def absorbBlock (a : List (BitVec 64)) (b : List Byte) : List (BitVec 64) :=
  keccakF (a.mapIdx (fun n w => if n < 17 then w ^^^ BitVec.ofNat 64 (bytesNat ((b.drop (8 * n)).take 8)) else w))

/-- A message absorbed in blocks, its last block closed by the suffix and the final bit. -/
def absorbAll : Nat → List (BitVec 64) → List Byte → List (BitVec 64)
  | 0, a, _ => a
  | n + 1, a, m =>
    if m.length < 136 then
      let body := m ++ [0x1F#8] ++ List.replicate (135 - m.length) 0#8
      absorbBlock a (body.mapIdx (fun k x => if k = 135 then x ||| 0x80#8 else x))
    else absorbAll n (absorbBlock a (m.take 136)) (m.drop 136)

/-- The first 64 bytes of SHAKE256 of a message. -/
def shake256 (m : List Byte) : List Byte :=
  ((absorbAll (m.length / 136 + 1) (List.replicate 25 0#64) m).take 8).flatMap (fun w => natBytes w.toNat 8)

/-- 64 bytes as a measurement. -/
def measureOf (bs : List Byte) : BitVec 512 := BitVec.ofNat 512 (bytesNat (bs.take 64))

/-- The bytes of a measurement. -/
def measureBytes (m : BitVec 512) : List Byte := natBytes m.toNat 64

end Sys2Proof.Machine
end

