-- ==== Sys2Proof/Machine/Sfu.lean ====
section
/-! DEFINITION. The error bounds of the SFU (10 R156). The spec bounds each function and fixes no table: a result is the free function
(DESIGN CHOICE, log 14) where that lies within the bound, else the value nearest the exact one. The exact value is taken to within 2^-60 of itself, or 2^-60 where
it is smaller than 1, in fixed point with 96 fraction bits. -/
namespace Sys2Proof.Machine

/-- One in fixed point. -/
def sfuOne : Nat := 2 ^ 96
/-- ln 2 in fixed point. -/
def sfuLn2 : Nat := 0xb17217f7d1cf79abc9e3b398
/-- π / 2 with 224 fraction bits. -/
def sfuHalfPi : Nat := 0x1921fb54442d18469898cc51701b839a252049c1114cf98e804177d4c

/-- The magnitude of a value in fixed point, rounded down. -/
def sfuFix (y : Dy) : Nat := if -96 ≤ y.e then y.m * 2 ^ (y.e + 96).toNat else y.m / 2 ^ (-96 - y.e).toNat

/-- The exponential series of t from a term on. -/
def sfuExpSum (t : Nat) : Nat → Nat → Nat → Nat
  | 0, _, _ => 0
  | n + 1, k, term => term + sfuExpSum t n (k + 1) (term * t / (sfuOne * k))

/-- 2^f for a fraction f. -/
def sfuExpFrac (f : Nat) : Nat := sfuExpSum (f * sfuLn2 / sfuOne) 40 1 sfuOne

/-- 2^y; an argument below −300 gives what −300 gives, far below every FP32 value. -/
def sfuExp2 (y : Dy) : Dy :=
  if y.neg && dyLt ⟨false, 300, 0⟩ ⟨false, y.m, y.e⟩ then ⟨false, 1, -300⟩
  else
    let v : Int := if y.neg then -(sfuFix y : Int) else sfuFix y
    ⟨false, sfuExpFrac (v % (sfuOne : Int)).toNat, v / (sfuOne : Int) - 96⟩

/-- The series of the inverse hyperbolic tangent from a term on; `u2` is the square of its argument. -/
def sfuAtanhSum (u2 : Nat) : Nat → Nat → Nat → Nat
  | 0, _, _ => 0
  | n + 1, k, term => term / k + sfuAtanhSum u2 n (k + 2) (term * u2 / sfuOne)

/-- log2 of a positive value: its exponent and, for the rest z, 2 atanh((z − 1) / (z + 1)) / ln 2. -/
def sfuLog2 (y : Dy) : Dy :=
  let k := Nat.log2 y.m
  let z := y.m * sfuOne / 2 ^ k
  let u := (z - sfuOne) * sfuOne / (z + sfuOne)
  dyOf (((k : Int) + y.e) * sfuOne + ((2 * sfuAtanhSum (u * u / sfuOne) 40 1 u * sfuOne / sfuLn2 : Nat) : Int)) (-96)

/-- The alternating series of the sine and the cosine from a term on; `t2` is the square of the argument. -/
def sfuTrigSum (t2 : Nat) : Nat → Nat → Int → Int
  | 0, _, _ => 0
  | n + 1, k, term => term - sfuTrigSum t2 n (k + 2) (term * t2 / ((sfuOne * ((k + 1) * (k + 2)) : Nat) : Int))

/-- The sine (0) or cosine (1) of a value, reduced by whole quarters of the circle. -/
def sfuTrig (which : Nat) (y : Dy) : Dy :=
  let x := if -160 ≤ y.e then y.m * 2 ^ (y.e + 224).toNat else 0
  let t := x % sfuHalfPi / 2 ^ 128
  let t2 := t * t / sfuOne
  let q := x / sfuHalfPi + which
  let v := if q % 2 = 0 then sfuTrigSum t2 30 1 t else sfuTrigSum t2 30 0 sfuOne
  let w := if q % 4 < 2 then v else -v
  dyOf (if which = 0 ∧ y.neg = true then -w else w) (-96)

/-- The hyperbolic tangent, from e^2|y|; ±1 from 32 on. -/
def sfuTanh (y : Dy) : Dy :=
  if dyLt ⟨false, 32, 0⟩ ⟨false, y.m, y.e⟩ then ⟨y.neg, 1, 0⟩
  else
    let g := 2 * sfuFix y * sfuOne / sfuLn2
    let x := sfuExpFrac (g % sfuOne) * 2 ^ (g / sfuOne)
    let v : Int := (x - sfuOne) * sfuOne / (x + sfuOne)
    dyOf (if y.neg then -v else v) (-96)

/-- The exact value of an operation (8 FRCP to 15 FTANH) on a finite source that is not 0, to within the file's error; the sine and the
hyperbolic tangent of a value below 2^-40 are the value. -/
def sfuReference (op : Nat) (y : Dy) : Dy :=
  match op with
  | 8 => ⟨y.neg, 2 ^ 128 / y.m, -128 - y.e⟩
  | 9 =>
    let odd := y.e % 2
    let m := y.m * 2 ^ odd.toNat
    ⟨false, isqrtFrom (2 ^ 256 / m) 129 0, -128 - (y.e - odd) / 2⟩
  | 11 => sfuExp2 y
  | 12 => sfuLog2 y
  | 14 => sfuTrig 1 y
  | _ => if dyLt ⟨false, y.m, y.e⟩ ⟨false, 1, -40⟩ then y else if op = 13 then sfuTrig 0 y else sfuTanh y

/-- The FP32 spacing at a value, in units of that many. -/
def sfuUlps (n : Nat) (x : Dy) : Dy := ⟨false, n, max (topExp x) (-126) - 23⟩

/-- The error bound of an operation at an exact value: the larger of two where R156 gives two. -/
def sfuBound (op : Nat) (x : Dy) : Dy :=
  let larger (a b : Dy) : Dy := if dyLt a b then b else a
  match op with
  | 8 => sfuUlps 1 x
  | 9 => sfuUlps 2 x
  | 11 => sfuUlps 2 x
  | 12 | 15 => larger (sfuUlps 2 x) ⟨false, 1, -22⟩
  | _ => ⟨false, 1, -21⟩

/-- Whether FP32 bits lie within the bound of an operation at a source. FLOG2's absolute bound holds for sources in [0.5, 2]. -/
def sfuNear (op : Nat) (y : Dy) (bits : Nat) : Bool :=
  match floatVal 0 bits with
  | .num r =>
    let x := sfuReference op y
    let top : Dy := { x with m := x.m + x.m / 2 ^ 60 + 1 }
    let wide := op != 12 || (!dyLt y ⟨false, 1, -1⟩ && !dyLt ⟨false, 2, 0⟩ y)
    let slack : Dy := ⟨false, 1, (if op ≤ 11 then topExp x else max (topExp x) 0) - 60⟩
    let d := dyAdd r (dyNeg x)
    !dyLt (dyAdd (if wide then sfuBound op top else sfuUlps 2 top) slack) ⟨false, d.m, d.e⟩
  | _ => false

/-- The FP32 result of an operation whose result is not exact: the free function of the source bits within the bound. -/
def sfuValue (op w : Nat) (y : Dy) : Nat :=
  let free := (Config.sfuResult op (BitVec.ofNat 32 w)).toNat
  if sfuNear op y free then free else (roundFloat 0 0 false 0#32 (sfuReference op y)).bits

end Sys2Proof.Machine
end

