-- ==== Sys2Proof/Machine/Memory.lean ====
section
/-! DEFINITION. Loads and stores, atomics and reductions, prefetch, cache control, the pool, and full/empty accesses (14 R218 to R230;
09 R136; 12 R176 to R187; 13 R199, R200; 24 R375). -/
namespace Sys2Proof.Machine

/-! ## Counting, releases and promotion -/

/-- An access of the issue's group counted from now (13 R200). -/
def countOn (s : State) (i : Issue) (tag : Option RangeTag) (store peer : Bool) (due : Nat) (exact : Bool := false) : State :=
  let hbm := store && !peer && (match tag with | some g => g.space == 0 | none => false)
  let s1 := if hbm then updCore s i.t.core (fun k => { k with dirty := true }) else s
  updGroup s1 i.t.ref i.g.id (fun g => { g with ctr := countAccess g.ctr tag store peer s.clk (s.clk + due) exact })

/-- A read that meets another core's tag asks for a promotion, and its group waits for the reply (13 R199). -/
def readTagged (s : State) (i : Issue) (key : Nat × Nat) : State :=
  match askPromo s i.t.core i.g.issues key with
  | [] => s
  | ps => updGroup s i.t.ref i.g.id (fun g => { g with promos := g.promos ++ ps })

/-- A store, STFE or ATOM that follows a completed CORE or CLUSTER fence of its group is a release at that scope (13 R196, R199). -/
def storeTag (s : State) (i : Issue) (key : Nat × Nat) : State :=
  if i.g.fenced.contains 2 || i.g.fenced.contains 3 then tagRelease s i.t.core key else s

/-- An arrival in the slice of its own core is a release at CORE scope (13 R197, R199). -/
def arrivalTag (s : State) (i : Issue) (c o : Nat) : State :=
  if c = i.t.core then tagRelease s i.t.core (granuleKeyOf c o) else s

/-- STFE is a release at its arrival's scope, and at the scope of a fence of its group (13 R196, R197). -/
def stfeTag (s : State) (i : Issue) (c o : Nat) : State :=
  if c = i.t.core then arrivalTag s i c o else storeTag s i (granuleKeyOf c o)

/-! ## Global accesses -/

/-- The effective address of a lane's global operand (14 R220). -/
def globalAddr (f : Form) (base : QWord) : Nat := vaOf (base.extractLsb' 0 64) f.imm.toInt

/-- The checks of a global access of `n` bytes in the order of R312: alignment, then translation. -/
def globalCheck (s : State) (t : Team) (va n : Nat) (k : AccKind) : Except Code Xl :=
  if va % n ≠ 0 then .error cAlign
  else match teamTranslate s t va k with
  | .fault c => .error c
  | x => .ok x

/-- A lane's fault at a global address. -/
def globalHold (s : State) (t : Team) (c : Code) (kind va : Nat) : LaneOut :=
  .hold c kind (pageKey s t c va) (BitVec.ofNat 57 va)

/-- The bytes at a translated place. A peer device's memory gives free values (25 R387, DESIGN CHOICE, log 3). -/
def readPlace (s : State) (owner : Nat) (x : Xl) (n : Nat) : Nat × State :=
  match x with
  | .hbm pa => (bytesNat (hbmRead s owner pa n), s)
  | _ => let a := freeWords (ceilDiv n 8) s; (a.1 % 2 ^ (8 * n), a.2)

/-- Where a queue's signal word stands in HBM, when it lies in a doorbell page of its owner (23 R353). -/
def signalPlace (s : State) (r : Queue) : Option Nat :=
  if (findPage s r.owner r.sigva).any PageMap.doorbell then
    match translate s r.owner (some r.secure) r.sigva .read with
    | .hbm pa => some pa
    | _ => none
  else none

/-- A store of bytes of HBM forwarded to the queue unit where it reaches a signal word (23 R353). -/
def ringStore (s : State) (pa n : Nat) : State :=
  { s with rung := s.rung ++ (s.queues.filter (fun q =>
      match signalPlace s q.2 with | some a => decide (pa < a + 8) && decide (a < pa + n) | none => false)).map Prod.fst }

/-- Bytes stored at a translated place. A peer device's memory is not part of this device. -/
def writePlace (s : State) (owner : Nat) (x : Xl) (n v : Nat) : State :=
  match x with
  | .hbm pa => ringStore (hbmWrite s owner pa (natBytes v n)) pa n
  | _ => s

/-- Whether a place is a peer device's. -/
def isPeer (x : Xl) : Bool := match x with | .peer _ _ _ => true | _ => false

/-- The tag key of a place, if it is in HBM. -/
def placeKey (x : Xl) : Option (Nat × Nat) := match x with | .hbm pa => some (lineKeyOf pa) | _ => none

/-- A read at a place promoted when it is tagged. -/
def readTaggedPlace (s : State) (i : Issue) (x : Xl) : State :=
  match placeKey x with | some k => readTagged s i k | none => s

/-- A store at a place tagged when it releases. -/
def storeTagPlace (s : State) (i : Issue) (x : Xl) : State :=
  match placeKey x with | some k => storeTag s i k | none => s

/-- The least clocks until an access is performed. -/
def accessDue (x : Xl) : Nat := if isPeer x then 400 else 20

/-- A loaded value extended to its register under its type (14 R219). -/
def loadBits (f : Form) (w v : Nat) : Nat :=
  if w = 16 then v else writeInt f.ty (readInt f.ty (BitVec.ofNat 128 v))

/-- LD and LDNT in one lane (14 R222, R223). -/
def loadGlobal (i : Issue) (s : State) (x : Srcs) : State × LaneOut :=
  let w := widthBytes i.f.sub
  let va := globalAddr i.f x.a
  match globalCheck s i.t va w .read with
  | .error c => (s, globalHold s i.t c 0 va)
  | .ok p =>
    let r := readPlace s (teamWorld s i.t).1 p w
    (readTaggedPlace (countOn r.2 i (some (globalTag va)) false (isPeer p) (accessDue p)) i p,
      .done ⟨loadBits i.f w r.1, 0#5, 0⟩)

/-- LD. -/
def execLd (f : Form) (s : State) : Host.Outcome State Fault Refusal :=
  runActs .ld f s (fun i s _ _ x => loadGlobal i s x)
/-- LDNT. -/
def execLdnt (f : Form) (s : State) : Host.Outcome State Fault Refusal :=
  runActs .ldnt f s (fun i s _ _ x => loadGlobal i s x)

/-- ST in one lane (14 R222). -/
def storeGlobal (i : Issue) (s : State) (x : Srcs) : State × LaneOut :=
  let w := widthBytes i.f.sub
  let va := globalAddr i.f x.a
  match globalCheck s i.t va w .write with
  | .error c => (s, globalHold s i.t c 1 va)
  | .ok p =>
    let s1 := writePlace s (teamWorld s i.t).1 p w x.b.toNat
    (storeTagPlace (countOn s1 i (some (globalTag va)) true (isPeer p) (accessDue p)) i p, .done ⟨0, 0#5, 0⟩)

/-- ST. -/
def execSt (f : Form) (s : State) : Host.Outcome State Fault Refusal :=
  runActs .st f s (fun i s _ _ x => storeGlobal i s x)

/-- Whether a write that is no plain store is kept from a place: a peer device's under DETERMINISTIC (25 R387). ST, XST and TDST, which is ordered
like ST (14 R243), are plain; STNT and bulk writes are not (DEDUCED, log 74). -/
def detPeer (s : State) (t : Team) (p : Xl) : Bool := (launchOf s t).det && isPeer p

/-- STNT in one lane: on no counter until an NTDRAIN gathers it in (14 R223; 13 R200). Its entry keeps its 64 KiB block. -/
def storeNt (i : Issue) (s : State) (x : Srcs) : State × LaneOut :=
  let w := widthBytes i.f.sub
  let va := globalAddr i.f x.a
  match globalCheck s i.t va w .write with
  | .error c => (s, globalHold s i.t c 1 va)
  | .ok p =>
    if detPeer s i.t p then (s, globalHold s i.t cDetAtomic 1 va)
    else
      let s1 := writePlace s (teamWorld s i.t).1 p w x.b.toNat
      (updGroup s1 i.t.ref i.g.id (fun g =>
        { g with ctr := { g.ctr with
            nt := g.ctr.nt ++ [{ ctr := va / 0x10000, store := true, peer := isPeer p, due := s.clk + accessDue p }] } }),
        .done ⟨0, 0#5, 0⟩)

/-- STNT. -/
def execStnt (f : Form) (s : State) : Host.Outcome State Fault Refusal :=
  runActs .stnt f s (fun i s _ _ x => storeNt i s x)

/-! ## SRAM accesses -/

/-- Passes beyond the first of lane-port accesses to one slice: the most distinct words one bank supplies, less one (12 R185). -/
def passesBeyond (ws : List Nat) : Nat :=
  let per := (List.range 32).map (fun b => ((ws.filter (fun w => w % 32 == b)).eraseDups).length)
  per.foldl max 0 - 1

/-- The words an access touches. -/
def wordsOf (o n : Nat) : List Nat := (List.range (max 1 (n / 4))).map (fun k => o / 4 + k)

/-- The passes beyond the first that an instruction's accesses make at one slice. -/
def slicePasses (as : List (Nat × Nat × Nat)) (c : Nat) : Nat :=
  passesBeyond ((as.filter (fun a => a.1 == c)).flatMap (fun a => wordsOf a.2.1 a.2.2))

/-- The lane-port passes of an instruction counted at each slice it reached: accesses as (core, offset, bytes) (12 R185, R186). LCR_CTL.EN
freezes the lane-cycle counters of 03 R46 and neither this one nor Forage's (DESIGN CHOICE, log 65). -/
def countPasses (s : State) (as : List (Nat × Nat × Nat)) : State :=
  ((as.map Prod.fst).eraseDups).foldl (fun s c =>
    if slicePasses as c = 0 then s
    else updCore s c (fun k => { k with lcr := { k.lcr with pass := k.lcr.pass + BitVec.ofNat 64 (slicePasses as c) } })) s

/-- The SRAM accesses of an instruction's lanes that pass their checks, of `w` bytes each; `chk` is the check of an address. -/
def sramAccesses (s : State) (i : Issue) (w : Nat) (chk : BitVec 32 → Except Code (Nat × Nat)) : List (Nat × Nat × Nat) :=
  i.active.filterMap (fun p =>
    if i.indexBad p.2 then none
    else match chk (sramAddr i.f (i.srcs (launchOf s i.t) p.1 p.2)) with
    | .ok (c, o) => some (c, o, w)
    | .error _ => none)

/-- A lane's SRAM fault as its answer. -/
def sramHold (c : Code) (a : BitVec 32) : LaneOut := .hold c 3 0 (a.setWidth 57)

/-- The clocks by which an instruction's SRAM result comes later than from its own slice in one pass: the farthest slice, and one clock
for each pass beyond the first (12 R183, R185). -/
def sramLate (core : Nat) (as : List (Nat × Nat × Nat)) : Nat :=
  (((as.map Prod.fst).eraseDups).map (fun c => sliceDelay core c - 20 + slicePasses as c)).foldl max 0

/-- An SRAM instruction whose addresses pass `chk`: its lane-port passes counted, then its lanes in ascending order. -/
def runSramWith (o : Op) (f : Form) (s : State) (w : Nat) (chk : Team → BitVec 32 → Except Code (Nat × Nat))
    (act : Issue → State → Nat → Lane → Srcs → State × LaneOut) : Host.Outcome State Fault Refusal :=
  withIssue o f s (fun i =>
    let as := sramAccesses s i w (chk i.t)
    let j := { i with late := sramLate i.t.core as }
    let r := actOuts (launchOf s i.t) j (act j) (countPasses s as) i.active
    finishIssue r.1 j r.2)

/-- An SRAM instruction with the checks of a plain access. -/
def runSram (o : Op) (f : Form) (s : State) (w : Nat) (write : Bool)
    (act : Issue → State → Nat → Lane → Srcs → State × LaneOut) : Host.Outcome State Fault Refusal :=
  runSramWith o f s w (fun t a => sramCheck s t a w write) act

/-- LDM (14 R224). -/
def execLdm (f : Form) (s : State) : Host.Outcome State Fault Refusal :=
  runSram .ldm f s (widthBytes f.sub) false (fun i s _ _ x =>
    let w := widthBytes i.f.sub
    let a := sramAddr i.f x
    match sramCheck s i.t a w false with
    | .error c => (s, sramHold c a)
    | .ok (c, o) =>
      (readTagged (countOn s i (some (sramTag a)) false false (sliceDelay i.t.core c)) i (granuleKeyOf c o),
        .done ⟨loadBits i.f w (bytesNat (sramRead s c o w)), 0#5, 0⟩))

/-- STM (14 R224): the store wakes the waiters of what it changes. -/
def execStm (f : Form) (s : State) : Host.Outcome State Fault Refusal :=
  runSram .stm f s (widthBytes f.sub) true (fun i s _ _ x =>
    let w := widthBytes i.f.sub
    let a := sramAddr i.f x
    match sramCheck s i.t a w true with
    | .error c => (s, sramHold c a)
    | .ok (c, o) =>
      (countOn (sramStore (storeTag s i (granuleKeyOf c o)) c o (natBytes x.b.toNat w)) i (some (sramTag a)) true false
        (sliceDelay i.t.core c), .done ⟨0, 0#5, 0⟩))

/-- STFE: the data and the bit in one step, as a release (14 R226). -/
def execStfe (f : Form) (s : State) : Host.Outcome State Fault Refusal :=
  runSram .stfe f s (widthBytes f.sub) true (fun i s _ _ x =>
    let w := widthBytes i.f.sub
    let a := sramAddr i.f x
    match sramCheck s i.t a w true with
    | .error c => (s, sramHold c a)
    | .ok (c, o) =>
      (countOn (granuleFill (sramStore (stfeTag s i c o) c o (natBytes x.b.toNat w)) c o) i (some (sramTag a)) true false
        (sliceDelay i.t.core c), .done ⟨0, 0#5, 0⟩))

/-- Every lane of a suspended lease parked, and the lease suspended: some guard-true lane waits (14 R225). -/
def suspendLease (g : Group) : Group :=
  match g.lease with
  | none => g
  | some le =>
    let waits := g.lanes.any (fun p => hasLane le.mask p.1 && (match p.2.wait with | .ldfe _ _ _ _ _ _ => true | _ => false))
    if waits then
      { updLanes g le.mask (fun l => { l with st := .park, ldfeDone := l.wait == .none }) with
        lease := some { le with susp := true } }
    else g

/-- LDFE: each lane whose granule is FULL reads and, with `.clr`, clears in one step; when some lane finds it EMPTY, the issue set parks
and the lease is suspended (14 R225). -/
def execLdfe (f : Form) (s : State) : Host.Outcome State Fault Refusal :=
  let clr := f.sub.getLsbD 3
  thenDo
    (runSram .ldfe f s (widthBytes f.sub) clr (fun i s _ l x =>
      let w := widthBytes i.f.sub
      let a := sramAddr i.f x
      match sramCheck s i.t a w clr with
      | .error c => (s, sramHold c a)
      | .ok (c, o) =>
        let s1 := countOn s i (some (sramTag a)) false false (sliceDelay i.t.core c)
        if granuleFull s c o then
          let s2 := readTagged s1 i (granuleKeyOf c o)
          (if clr then granuleClear s2 c o else s2, .done ⟨bytesNat (sramRead s c o w), 0#5, 0⟩)
        else (s1, .wait (.ldfe a w clr (i.dest l) i.g.issues false))))
    (fun t =>
      match t.cur with
      | .group p =>
        match groupAt t p with
        | some (u, g) => updGroup t u.ref g.id suspendLease
        | none => t
      | _ => t)

/-! ## Atomics and reductions (14 R227, R228) -/

/-- The new value of an atomic's location. -/
def atomNew (f : Form) (old b c : Nat) : Nat :=
  let w := intWidth f.ty
  let q (x : Nat) : QWord := BitVec.ofNat 128 x
  match f.sub.toNat with
  | 0 => (old + b) % 2 ^ w
  | 1 => wrap w (min (readInt f.ty (q old)) (readInt f.ty (q b)))
  | 2 => wrap w (max (readInt f.ty (q old)) (readInt f.ty (q b)))
  | 3 => old &&& b
  | 4 => old ||| b
  | 5 => old ^^^ b
  | 6 => b
  | 7 => if old = b then c else old
  | _ => (fAdd 0 0 false 0#32 (floatVal 0 old) (floatVal 0 b)).bits

/-- A source at the width of an atomic's type. -/
def atomSrc (f : Form) (x : QWord) : Nat := x.toNat % 2 ^ intWidth f.ty

/-- One lane's atomic on global memory, with the old value. A RED `.fadd` of a DETERMINISTIC launch is buffered; every other atomic
there faults DET_ATOMIC (24 R375). -/
def atomGlobal (red : Bool) (i : Issue) (s : State) (n : Nat) (x : Srcs) : State × LaneOut :=
  let w := intWidth i.f.ty / 8
  let va := globalAddr i.f x.a
  let l := launchOf s i.t
  match globalCheck s i.t va w .atomic with
  | .error c => (s, globalHold s i.t c 2 va)
  | .ok p =>
    if l.det then
      match red && i.f.sub == 8#8, p with
      | true, .hbm pa =>
        if 2 ^ 20 ≤ l.detCount then (s, globalHold s i.t cDetAtomic 2 va)
        else
          (updLaunch s i.t.ref.launch (fun l =>
            { l with
              detBuf := l.detBuf ++ [⟨i.t.ref.team, i.g.id, i.g.issues, n, pa, x.b.extractLsb' 0 32⟩]
              detCount := l.detCount + 1 }), .done ⟨0, 0#5, 0⟩)
      | _, _ => (s, globalHold s i.t cDetAtomic 2 va)
    else
      let r := readPlace s (teamWorld s i.t).1 p w
      let s1 := writePlace r.2 (teamWorld s i.t).1 p w (atomNew i.f r.1 (atomSrc i.f x.b) (atomSrc i.f x.c))
      let s2 := countOn s1 i (some (globalTag va)) true (isPeer p) (accessDue p)
      (storeTagPlace (if red then s2 else readTaggedPlace s2 i p) i p, .done ⟨r.1, 0#5, 0⟩)

/-- The place of an atomic on SRAM: under DETERMINISTIC none is let out of the own window, a fix-up barrier no more than any other (14 R228). -/
def atomCheck (s : State) (t : Team) (a : BitVec 32) (w : Nat) : Except Code (Nat × Nat) :=
  match sramCheck s t a w true with
  | .error c => .error c
  | .ok (c, o) =>
    if (launchOf s t).det && sramRegion s t c o w true != some 0 then .error cDetAtomic else .ok (c, o)

/-- One lane's atomic on SRAM. Like a store, one that reaches a vacated team's fix-up barrier word acts on the slice as it stands: R28 keeps
arrivals alone for the saved window (DESIGN CHOICE, log 73). -/
def atomSram (red : Bool) (i : Issue) (s : State) (x : Srcs) : State × LaneOut :=
  let w := intWidth i.f.ty / 8
  let a := sramAddr i.f x
  match atomCheck s i.t a w with
  | .error c => (s, sramHold c a)
  | .ok (c, o) =>
    let old := bytesNat (sramRead s c o w)
    let s1 := if red then s else readTagged s i (granuleKeyOf c o)
    let s2 := sramStore (storeTag s1 i (granuleKeyOf c o)) c o
      (natBytes (atomNew i.f old (atomSrc i.f x.b) (atomSrc i.f x.c)) w)
    (countOn s2 i (some (sramTag a)) true false (sliceDelay i.t.core c), .done ⟨old, 0#5, 0⟩)

/-- An atomic instruction in the space HINT names. -/
def runAtomic (red : Bool) (o : Op) (f : Form) (s : State) : Host.Outcome State Fault Refusal :=
  let w := intWidth f.ty / 8
  if f.hint = 1#2 then runSramWith o f s w (fun t a => atomCheck s t a w) (fun i s _ _ x => atomSram red i s x)
  else runActs o f s (fun i s n _ x => atomGlobal red i s n x)

/-- ATOM. -/
def execAtom (f : Form) (s : State) : Host.Outcome State Fault Refusal := runAtomic false .atom f s
/-- RED. -/
def execRed (f : Form) (s : State) : Host.Outcome State Fault Refusal := runAtomic true .red f s

/-! ## Prefetch, cache control, SLD and the pool (14 R229, R230; 09 R136) -/

/-- The place a team's address is mapped to, whatever the page allows: a missing mapping or one of the other world alone is ignored (14 R229). -/
def mappedAt (s : State) (t : Team) (va : Nat) : Xl :=
  match findPage s (teamWorld s t).1 va with
  | none => .fault cXlate
  | some p =>
    if (teamWorld s t).2.isSome && (teamWorld s t).2 != some p.secure then .fault cWorld else pagePlace s p .read va

/-- PREFETCH and CCTL change no value and never fault; each access is counted on the untagged counter. -/
def touchLine (i : Issue) (s : State) (x : Srcs) : State × LaneOut :=
  match mappedAt s i.t (globalAddr i.f x.a) with
  | .fault _ => (s, .done ⟨0, 0#5, 0⟩)
  | p => (countOn s i none false (isPeer p) (accessDue p), .done ⟨0, 0#5, 0⟩)

/-- PREFETCH: the line of the lowest guard-true lane. -/
def execPrefetch (f : Form) (s : State) : Host.Outcome State Fault Refusal :=
  runActs .prefetch f s (fun i s n _ x => if n = lowest i.on then touchLine i s x else (s, .done ⟨0, 0#5, 0⟩))
/-- A line dropped from the die cache: a tagged one is promoted first (13 R199). -/
def evictLine (i : Issue) (s : State) (x : Srcs) : State :=
  match mappedAt s i.t (globalAddr i.f x.a) with
  | .hbm pa =>
    match s.tags.find? (fun p => p.1 == lineKeyOf pa) with
    | some p => promoteTag s p.2.1 p.2.2 p.1
    | none => s
  | _ => s

/-- CCTL: each guard-true lane's line; `.evict` drops it from the die cache. -/
def execCctl (f : Form) (s : State) : Host.Outcome State Fault Refusal :=
  runActs .cctl f s (fun i s _ _ x => touchLine i (if i.f.hint = 2#2 then evictLine i s x else s) x)

/-- A scalar load of `w` bytes for the group at a VA: one access on the untagged counter, or a fault of the whole issue set with one
record. -/
def scalarLoad (s : State) (i : Issue) (va w kind : Nat) (ext : Nat → BitVec 64) (n : Nat) : State :=
  match globalCheck s i.t va w .read with
  | .error c => holdWhole s i i.m c kind (BitVec.ofNat 57 va)
  | .ok p =>
    let r := readPlace s (teamWorld s i.t).1 p w
    let v := ext r.1
    let s1 := readTaggedPlace (countOn r.2 i none false (isPeer p) (accessDue p)) i p
    putScalar (finishScalar s1 i v) i n v

/-- SLD (09 R136). -/
def execSld (f : Form) (s : State) : Host.Outcome State Fault Refusal :=
  withIssue .sld f s (fun i =>
    scalarLoad s i (globalAddr f (scalarSrcs s i).a) (widthBytes f.sub) 0
      (fun v => reduceScalar f.ty (v : Int)) (f.d.toNat - 0x40))

/-- The buffer-record pool of a launch: its VA and record count (16 R171; 21 R333). -/
def poolOf (s : State) (l : Launch) : Nat × Nat :=
  match mapGet s.objects l.obj with
  | some o => (o.poolVa, o.poolCount)
  | none => (0, 0)

/-- PLD: the base VA of a pool record (14 R230). -/
def execPld (f : Form) (s : State) : Host.Outcome State Fault Refusal :=
  withOperands .pld f s (fun i => decide ((poolOf s (launchOf s i.t)).2 ≤ s64 (scalarSrcs s i).a)) (fun i =>
    let n := s64 (scalarSrcs s i).a
    let p := poolOf s (launchOf s i.t)
    scalarLoad s i ((p.1 + 16 * n) % 2 ^ 57) 8 4 (fun v => BitVec.ofNat 64 v) (f.d.toNat - 0x40))

end Sys2Proof.Machine
end

