-- ==== Sys2Proof/Machine/Sync.lean ====
section
/-! DEFINITION. Fences, drains and PUBLISH, the barriers, and the tensor-handle instructions (14 R231 to R244; 11 R170, R174; 12 R188 to
R191; 13 R196 to R204). -/
namespace Sys2Proof.Machine

/-! ## Counted barriers (11 R170) -/

/-- The test after an arrival or a credit: a full word with no bytes pending flips its phase. -/
def barTest (w : Nat) : Nat :=
  if bits w 47 33 = bits w 62 48 ∧ bits w 32 0 = 0 then
    (1 - bits w 63 63) * 2 ^ 63 + bits w 62 48 * 2 ^ 48
  else w

/-- One arrival with bytes that become pending; none when it exceeds the expected count or the pending field (14 R239; 16 R279). -/
def barArrive (w n : Nat) : Option Nat :=
  if bits w 62 48 ≤ bits w 47 33 ∨ 2 ^ 33 ≤ bits w 32 0 + n then none else some (barTest (w + 2 ^ 33 + n))

/-- One byte credited; none when no byte is pending. -/
def barCredit (w : Nat) : Option Nat := if bits w 32 0 = 0 then none else some (barTest (w - 1))

/-- `n` bytes credited one after another, with whether some credit found nothing pending. -/
def barCredits (w : Nat) : Nat → Nat × Bool
  | 0 => (w, true)
  | n + 1 =>
    match barCredit w with
    | none => (w, false)
    | some v => barCredits v n

/-- The vacated team whose fix-up barrier an access of a team of its launch reaches through an export entry, with its cluster key: its
arrivals are applied to its saved window (02 R28). A team's own window and its cluster's are where they stand. -/
def vacatedAt (s : State) (t : Team) (c o : Nat) : Option (Nat × TeamRef) :=
  let l := launchOf s t
  if l.persistent && sramRegion s t c o 8 true == some 2 then
    l.clusters.findSome? (fun (q : Cluster) =>
      q.saved.findSome? (fun (u : Team) => if u.core = c ∧ u.winOff + u.winLen = o + 16 then some (q.key, u.ref) else none))
  else none

/-- The 64-bit barrier word a team's access at a place of a slice finds. -/
def barWord (s : State) (t : Team) (c o : Nat) : Nat :=
  match vacatedAt s t c o with
  | some (k, r) =>
    match ((launchOf s t).clusters.find? (fun q => q.key == k)).bind (fun q => q.saved.find? (fun u => u.ref == r)) with
    | some u => bytesNat (readBytes u.win (u.winLen - 16) 8)
    | none => 0
  | none => bytesNat (sramRead s c o 8)

/-- A vacated team with its fix-up barrier word replaced: a flip ends its lanes' and programs' waits, before it resumes. -/
def fixupStore (s : State) (w : Nat) (u : Team) : Team :=
  let o := u.winLen - 16
  let waited (a : BitVec 32) : Bool :=
    bit (bytesNat (readBytes u.win o 8)) 63 != bit w 63 && sramPlace s u a == some (u.core, u.winOff + o)
  { u with
    win := writeBytes u.win o (natBytes w 8)
    groups := u.groups.map (fun g =>
      { g with lanes := g.lanes.map (fun p => match p.2.wait with | .barwait a _ => if waited a then (p.1, laneRun p.2) else p | _ => p) })
    progs := u.progs.map (fun x =>
      match x.wait with | .barrier a _ => if waited a then { x with state := 1, wait := .none } else x | _ => x) }

/-- A barrier word replaced by a team's access, with the waiters a flip wakes. -/
def barStore (s : State) (t : Team) (c o w : Nat) : State :=
  match vacatedAt s t c o with
  | some (k, r) =>
    updLaunch s t.ref.launch (fun l =>
      { l with clusters := l.clusters.map (fun (q : Cluster) =>
          if q.key = k then { q with saved := q.saved.map (fun (u : Team) => if u.ref = r then fixupStore s w u else u) } else q) })
  | none => sramStore s c o (natBytes w 8)

/-- BARINIT: expected ← e, arrived and pending ← 0, phase unchanged (14 R238). -/
def execBarinit (f : Form) (s : State) : Host.Outcome State Fault Refusal :=
  runSram .barinit f s 8 true (fun i s _ _ x =>
    let a := sramAddr i.f x
    match sramCheck s i.t a 8 true with
    | .error c => (s, sramHold c a)
    | .ok (c, o) =>
      let e := read32 x.b
      if e < 1 ∨ 32767 < e then (s, sramHold cBarrier a)
      else
        (countOn (barStore s i.t c o (bits (barWord s i.t c o) 63 63 * 2 ^ 63 + e * 2 ^ 48)) i (some (sramTag a)) true false
          (sliceDelay i.t.core c), .done ⟨0, 0#5, 0⟩))

/-- BARARV: one arrival per guard-true lane (14 R239). -/
def execBararv (f : Form) (s : State) : Host.Outcome State Fault Refusal :=
  runSram .bararv f s 8 true (fun i s _ _ x =>
    let a := sramAddr i.f x
    match sramCheck s i.t a 8 true with
    | .error c => (s, sramHold c a)
    | .ok (c, o) =>
      match barArrive (barWord s i.t c o) 0 with
      | none => (s, sramHold cBarrier a)
      | some w =>
        (countOn (barStore (arrivalTag s i c o) i.t c o w) i (some (sramTag a)) true false (sliceDelay i.t.core c),
          .done ⟨0, 0#5, 0⟩))

/-- The reads of a waiting terminator's lanes counted, with the promotions they ask for. -/
def countWaits (s0 : State) (o : Op) (f : Form) (w : Nat) (s : State) : State :=
  match issueOf s0 o f with
  | none => s
  | some i =>
    match i.wholeFault with
    | some _ => s
    | none =>
      i.active.foldl (fun s p =>
        let a := sramAddr f (i.srcs (launchOf s0 i.t) p.1 p.2)
        match sramCheck s0 i.t a w false with
        | .ok (c, k) => readTagged (countOn s i (some (sramTag a)) false false (sliceDelay i.t.core c)) i (granuleKeyOf c k)
        | .error _ => s) (countPasses s (sramAccesses s0 i w (fun a => sramCheck s0 i.t a w false)))

/-- BARWAIT: a lane whose barrier's phase differs from its operand continues, another waits for the next flip (14 R240). -/
def execBarwait (f : Form) (s : State) : Host.Outcome State Fault Refusal :=
  thenDo
    (runEnd .barwait f s (fun i n _ x => sramLaneFault s i n x 8 false)
      (fun i _ _ x l =>
        let a := sramAddr i.f x
        let ph := x.b.getLsbD 0
        let w := match sramPlace s i.t a with | some (c, o) => barWord s i.t c o | none => 0
        if bit w 63 != ph then { l with pc := i.nextPc }
        else { l with pc := i.nextPc, st := .waitb, wait := .barwait a ph })
      neverBack)
    (countWaits s .barwait f 8)

/-- PARK on a word: lanes whose word still equals the comparand enter PARK, the others continue. -/
def execPark (f : Form) (s : State) : Host.Outcome State Fault Refusal :=
  thenDo (runEnd .park f s (fun i n _ x => sramLaneFault s i n x 4 false)
    (fun i _ _ x l =>
      let a := sramAddr i.f x
      let cmp := x.b.extractLsb' 0 32
      if parkWord s i.t a = cmp then { l with pc := i.nextPc, st := .park, wait := .parkWord a cmp }
      else { l with pc := i.nextPc })
    neverBack)
    (countWaits s .park f 4)

/-- PARK on a granule: lanes whose granule is EMPTY enter PARK. -/
def execParkFull (f : Form) (s : State) : Host.Outcome State Fault Refusal :=
  thenDo (runEnd .parkFull f s (fun i n _ x => sramLaneFault s i n x 1 false)
    (fun i _ _ x l =>
      let a := sramAddr i.f x
      let full := match sramPlace s i.t a with | some (c, o) => granuleFull s c o | none => true
      if full then { l with pc := i.nextPc } else { l with pc := i.nextPc, st := .park, wait := .parkFull a })
    neverBack)
    (countWaits s .parkFull f 1)

/-- BARSYNC: every lane of the issue set waits at the team barrier (14 R237). -/
def execBarsync (f : Form) (s : State) : Host.Outcome State Fault Refusal :=
  thenDo
    (runEnd .barsync f s noFault (fun i _ _ _ l => { l with pc := i.nextPc, st := .waitb, wait := .barsync }) neverBack)
    (fun t => barsyncSettle t (curTeam s))

/-! ## SYNCM (14 R241) -/

/-- The mask a lane waits with at a SYNCM. -/
def syncMask (l : Lane) : Option Mask := match l.wait with | .syncm m _ => some m | _ => none

/-- The closure of a set under the masks of its waiting lanes; 32 rounds reach it. -/
def syncClosure (g : Group) (c : Mask) : Nat → Mask
  | 0 => c
  | k + 1 =>
    syncClosure g ((g.lanes.foldl (fun m p =>
      if hasLane c p.1 then m ||| (syncMask p.2).getD 0#32 else m) c)) k

/-- What one arrival does: the whole closed set resumes, holds, or still waits. -/
inductive SyncEnd where
  | wait | run (c : Mask) | mismatch (c : Mask)
  deriving DecidableEq, Repr

/-- The outcome of a lane's arrival. -/
def syncTest (g : Group) (l : Nat) : SyncEnd :=
  let c := syncClosure g (laneBit l) 32
  let ms := (lanesOf c).map (fun n => (mapGet g.lanes n).bind syncMask)
  if ms.any Option.isNone then .wait
  else if ms.all (fun m => m == some c) then .run c
  else .mismatch c

/-- The arrivals of an issue's lanes, all of which arrive before any is tested, tested in ascending order: what its group becomes, and the lanes that
hold (DESIGN CHOICE, log 75). -/
def syncSettle (i : Issue) (g : Group) : Group × Mask :=
  (lanesOf i.on).foldl (fun (a : Group × Mask) n =>
    match (mapGet a.1.lanes n).bind syncMask with
    | none => a
    | some _ =>
      match syncTest a.1 n with
      | .wait => a
      | .run c => (updLanes a.1 c laneRun, a.2)
      | .mismatch c => (updLanes a.1 c (fun l => { l with wait := .none }), a.2 ||| c)) (g, 0#32)

/-- The lane faults of MASK_MISMATCH. -/
def mismatch (n : Nat) : LaneFault := { lane := n, code := cMaskMismatch, kind := 7 }

/-- What holds a lane at its SYNCM: a mask without itself, with an absent lane, or under L16 with a lane of the other half. -/
def syncFault (i : Issue) (n : Nat) (_ : Lane) (x : Srcs) : Option LaneFault :=
  let m := x.b.extractLsb' 0 32
  let absent := (lanesOf m).any (fun k => (i.lane k).isNone)
  let other := i.l16 && (lanesOf m).any (fun k => k / 16 != n / 16)
  if !hasLane m n || absent || other then some (mismatch n) else none

/-- A lane that arrives at its SYNCM. -/
def syncArrive (i : Issue) (_ : Nat) (_ : Lane) (x : Srcs) (l : Lane) : Lane :=
  { l with pc := i.nextPc, st := .waitb, wait := .syncm (x.b.extractLsb' 0 32) i.f.scope.toNat }

/-- SYNCM: lanes that name each other wait until their masks close and agree. The lanes that do not pass and those that mismatch are one record
for each code of one issue, at its PC, in the order of their lanes (19 R307, 20 R315; the PC DEDUCED, log 75). -/
def execSyncm (f : Form) (s : State) : Host.Outcome State Fault Refusal :=
  withIssue .syncm f s (fun i =>
    let fs := endFaults s i syncFault
    let s1 := segmentOver s i (maskOf (fs.map LaneFault.lane)) (endNext s i syncArrive) false
    let late := match (teamAt s1 i.t.ref).bind (fun t => groupOf t i.g.id) with | some g => (syncSettle i g).2 | none => 0#32
    let s2 := updGroup s1 i.t.ref i.g.id (fun g => (syncSettle i g).1)
    endGroup (segmentFaults s2 i (listSort (fun a b => decide (a.lane ≤ b.lane)) (fs ++ (lanesOf late).map mismatch))) i)

/-! ## Handles (11 R174; 12 R188 to R190; 14 R242) -/

/-- A handle's fields from the 64 bytes of its record (11 R174). -/
def handleOf (b : Nat) : Handle :=
  { base := BitVec.ofNat 64 (bits b 63 0)
    fmt := bits b 71 64
    rank := bits b 79 72
    spn := bits b 87 80
    scblk := bits b 95 88
    pub := bit b 96
    size := (List.range 5).map (fun k => bits b (32 * k + 159) (32 * k + 128))
    stride := (List.range 5).map (fun k => bits b (32 * k + 319) (32 * k + 288))
    scale := BitVec.ofNat 64 (bits b 511 448) }

/-- Whether a format takes block scales (08 R112). -/
def takesScale (c : Nat) : Bool := decide (3 ≤ c) && decide (c ≤ 9)

/-- The checks of TDLD and TDSET on a handle; a record's reserved bits are checked beside them (14 R242). -/
def handleOk (h : Handle) : Bool :=
  decide (h.fmt ≤ 0x0E) && decide (1 ≤ h.rank) && decide (h.rank ≤ 5)
    && ((h.size.zipIdx).all (fun p => if p.2 < h.rank then p.1 != 0 else p.1 == 0))
    && ((h.stride.zipIdx).all (fun p => decide (p.2 < h.rank) || p.1 == 0))
    && (h.spn == 0 || h.spn == 8 || h.spn == 16 || h.spn == 32)
    && (h.scblk == 0 || (h.scblk == 32 && takesScale h.fmt)) && (h.scale == 0#64 || h.scblk == 32)

/-- The element count of a handle. -/
def handleCount (h : Handle) : Nat := (h.size.take h.rank).foldl (· * ·) 1

/-- The element offset of an index, dimension 0 fastest. -/
def handleOffset : List Nat → List Nat → Nat → Nat
  | n :: ns, d :: ds, i => i % n * d + handleOffset ns ds (i / n)
  | _, _, _ => 0

/-- The offset in elements of index `i`. -/
def elementOffset (h : Handle) (i : Nat) : Nat := handleOffset (h.size.take h.rank) (h.stride.take h.rank) i

/-- Bytes the elements up to an offset take, rounded up (13 R200; 08 R111). -/
def spanBytes (fmt e : Nat) : Nat := if fmt = 9 then ceilDiv (e + 1) 5 else ceilDiv ((e + 1) * formatBits fmt) 8

/-- The offset of the last element. -/
def lastOffset (h : Handle) : Nat :=
  (((h.size.take h.rank).zip h.stride).map (fun p => (p.1 - 1) * p.2)).foldl (· + ·) 0

/-- The range of a handle: [BASE, BASE + span) (13 R200). -/
def handleTag (h : Handle) : RangeTag := ⟨0, h.base.toNat % 2 ^ 57, spanBytes h.fmt (lastOffset h), 0⟩

/-- A handle of the issue's team. -/
def Issue.handle (i : Issue) (n : Nat) : Option Handle := mapGet i.t.handles n

/-- The published-buffer entry of a handle: PUB set and its BASE page in a published buffer (14 R235, R236). -/
def publishedOf (s : State) (t : Team) (h : Handle) : Option Nat :=
  if !h.pub then none
  else match findPage s (teamWorld s t).1 (h.base.toNat % 2 ^ 57) with
  | none => none
  | some p =>
    match p.target with
    | .published e _ => if (mapGet s.published e).isSome then some e else none
    | _ => none

/-- An issue that does nothing in its lanes but push their entries; a lane out of its window is held. -/
def finishPlain (s : State) (i : Issue) : State :=
  finishIssue s i (i.active.map (fun p => (p.1, laneOut i p.2 (.done ⟨0, 0#5, 0⟩))))

/-- The sources of the lowest guard-true lane, on whose behalf the instruction acts (05 R68). -/
def electSrcs (s : State) (i : Issue) : Srcs :=
  i.srcs (launchOf s i.t) (lowest i.on) ((i.lane (lowest i.on)).getD { pc := 0#64 })

/-- Whether an instruction that acts once, for the lowest guard-true lane, has no effect: no guard holds, or that lane's operand lies
outside its window (04 R56; 05 R68). -/
def Issue.noElect (i : Issue) : Bool :=
  match i.active.head? with
  | some p => i.indexBad p.2
  | none => true

/-- A handle of a team replaced. -/
def putHandle (s : State) (t : TeamRef) (n : Nat) (h : Handle) : State :=
  updTeam s t (fun t => { t with handles := mapPut t.handles n h })

/-- TDLD: a descriptor record read once, checked, and copied to the handle (14 R242). -/
def execTdld (f : Form) (s : State) : Host.Outcome State Fault Refusal :=
  withIssue .tdld f s (fun i =>
    if i.noElect then finishPlain s i
    else
      let va := globalAddr f (electSrcs s i).b
      match globalCheck s i.t va 64 .read with
      | .error c => holdSet s i c 4 (BitVec.ofNat 57 va)
      | .ok p =>
        let r := readPlace s (teamWorld s i.t).1 p 64
        let s1 := readTaggedPlace (countOn r.2 i none false (isPeer p) (accessDue p)) i p
        let h := handleOf r.1
        if bits r.1 127 97 = 0 ∧ handleOk h = true then putHandle (finishPlain s1 i) i.t.ref f.a.toNat h
        else holdSet s1 i cHandle 4 (BitVec.ofNat 57 va))

/-- A handle with one field changed (14 R244). -/
def setField (h : Handle) (k v : Nat) : Handle :=
  if k = 0 then { h with base := BitVec.ofNat 64 v }
  else if k ≤ 5 then { h with size := listSet h.size (k - 1) (v % 2 ^ 32) }
  else if k ≤ 10 then { h with stride := listSet h.stride (k - 6) (v % 2 ^ 32) }
  else { h with scale := BitVec.ofNat 64 v }

/-- TDSET: one field of a valid handle changed; a change that R242 refuses faults HANDLE (14 R244). -/
def execTdset (f : Form) (s : State) : Host.Outcome State Fault Refusal :=
  withIssue .tdset f s (fun i =>
    if i.noElect then finishPlain s i
    else match i.handle f.a.toNat with
    | none => holdSet s i cHandle 4 0#57
    | some h =>
      let h1 := setField h (immBits f 4 0) ((electSrcs s i).b.toNat)
      if handleOk h1 then putHandle (finishPlain s i) i.t.ref f.a.toNat h1 else holdSet s i cHandle 4 0#57)

/-- The address TDST gives a lane: the element of its index (11 R174; 14 R243). -/
def tdstAddr (h : Handle) (w : Nat) (x : Srcs) : Nat := vaOf h.base ((elementOffset h (read32 x.b) * w : Nat) : Int)

/-- TDST in one lane: the checks of the address, then the index against the element count (20 R312), then the store. -/
def tdstLane (i : Issue) (h : Handle) (w : Nat) (s : State) (x : Srcs) : State × LaneOut :=
  let va := tdstAddr h w x
  match globalCheck s i.t va w (if h.pub then .back else .write) with
  | .error c => (s, globalHold s i.t c 1 va)
  | .ok p =>
    if handleCount h ≤ read32 x.b then (s, .hold cHandle 4 0 0#57)
    else
      let s1 := writePlace s (teamWorld s i.t).1 p w x.c.toNat
      (storeTagPlace (countOn s1 i (some (handleTag h)) true (isPeer p) (accessDue p) true) i p, .done ⟨0, 0#5, 0⟩)

/-- TDST: one element per lane stored through a handle (14 R243). An invalid handle or another format faults HANDLE for the issue set, after
the checks of each lane's address. -/
def execTdst (f : Form) (s : State) : Host.Outcome State Fault Refusal :=
  withIssue .tdst f s (fun i =>
    if i.on = 0#32 then finishPlain s i
    else
      let w := formatBits f.ty.toNat / 8
      match i.handle f.a.toNat with
      | none => holdSet s i cHandle 4 0#57
      | some h =>
        if h.fmt ≠ f.ty.toNat then
          holdSet s i cHandle 4 0#57 (fun n l =>
            let va := tdstAddr h w (i.srcs (launchOf s i.t) n l)
            match globalCheck s i.t va w (if h.pub then .back else .write) with
            | .error c => some { lane := n, code := c, kind := 1, page := pageKey s i.t c va, addr := BitVec.ofNat 57 va }
            | .ok _ => none)
        else
          let r := actOuts (launchOf s i.t) i (fun s _ _ x => tdstLane i h w s x) s i.active
          finishIssue r.1 i r.2)

/-- LDGEN: the generation of a handle's published buffer, read once (14 R236). -/
def execLdgen (f : Form) (s : State) : Host.Outcome State Fault Refusal :=
  withIssue .ldgen f s (fun i =>
    if i.on = 0#32 then finishPlain s i
    else match (i.handle f.a.toNat).bind (publishedOf s i.t) with
    | none => holdSet s i cHandle 4 0#57
    | some e =>
      let g := match mapGet s.published e with | some q => q.gen.toNat % 2 ^ 32 | none => 0
      finishIssue (countOn s i none false false 20) i (i.active.map (fun p => (p.1, laneOut i p.2 (.done ⟨g, 0#5, 0⟩)))))

/-! ## Fences (14 R231 to R235) -/

/-- A fence put in flight for the issue's group, when the guard holds somewhere. -/
def startFence (s : State) (i : Issue) (k : FenceKind) : State :=
  let s1 := finishPlain s i
  if i.on = 0#32 then s1
  else updGroup s1 i.t.ref i.g.id (fun g => { g with fences := g.fences ++ [⟨k, i.f.scope.toNat⟩] })

/-- FENCE (14 R232). -/
def execFence (f : Form) (s : State) : Host.Outcome State Fault Refusal :=
  withIssue .fence f s (fun i => startFence s i .plain)
/-- NTDRAIN (14 R234). -/
def execNtdrain (f : Form) (s : State) : Host.Outcome State Fault Refusal :=
  withIssue .ntdrain f s (fun i => startFence s i .drain)

/-- A range value (14 R233): none when it is not legal. -/
def rangeOf (v : Nat) : Option RangeTag :=
  if 57 < bits v 63 58 ∨ (bit v 57 = true ∧ bits v 56 32 ≠ 0) then none
  else some ⟨if bit v 57 then 1 else 0, bits v 56 0, 2 ^ bits v 63 58, 0⟩

/-- The items of FENCE.R in order: kind, field number, and the values of a range item over the guard-true lanes inside their
windows. -/
def fenceItems (s : State) (i : Issue) : List (Nat × Nat × List Nat) :=
  let vals (pick : Srcs → QWord) : List Nat :=
    (i.active.filter (fun p => !i.indexBad p.2)).map (fun p => s64 (pick (i.srcs (launchOf s i.t) p.1 p.2)))
  [(immBits i.f 1 0, i.f.a.toNat, vals Srcs.a), (immBits i.f 3 2, i.f.b.toNat, vals Srcs.b),
    (immBits i.f 5 4, i.f.c.toNat, vals Srcs.c), (immBits i.f 7 6, immBits i.f 13 8, [])]

/-- The range values of FENCE.R. -/
def fenceRanges (s : State) (i : Issue) : List Nat := ((fenceItems s i).filter (fun q => q.1 == 2)).flatMap (fun q => q.2.2)

/-- FENCE.R (14 R233): an illegal range value is ILLEGAL_OPERAND before any other fault. -/
def execFenceR (f : Form) (s : State) : Host.Outcome State Fault Refusal :=
  withOperands .fenceR f s (fun i => (fenceRanges s i).any (fun v => (rangeOf v).isNone)) (fun i =>
    let names := ((fenceItems s i).filter (fun q => q.1 == 1)).map (fun q => q.2.1)
    if i.on = 0#32 then finishPlain s i
    else if names.any (fun n => (i.handle n).isNone) then holdSet s i cHandle 4 0#57
    else startFence s i (.ranged (somes ((fenceRanges s i).map rangeOf) ++ somes (names.map (fun n => (i.handle n).map handleTag)))))

/-- PUBLISH: waits as a fence, then swaps once (14 R235; 12 R191). -/
def execPublish (f : Form) (s : State) : Host.Outcome State Fault Refusal :=
  withIssue .publish f s (fun i =>
    if i.on = 0#32 then finishPlain s i
    else match (i.handle f.a.toNat).bind (publishedOf s i.t) with
    | none => holdSet s i cHandle 4 0#57
    | some e => startFence s i (.publish e))

end Sys2Proof.Machine
end

