-- ==== Sys2Proof/Machine/Float.lean ====
section
/-! DEFINITION. Floating point, special functions, conversions, and the packed narrow codes (10 R148 to R167; 08 R108). -/
namespace Sys2Proof.Machine

/-! ## Basic arithmetic (10 R151 to R155, R158, R159) -/

/-- The format of a float instruction. -/
def fmtCode (f : Form) : Nat := f.ty.toNat
/-- A source read in a format (10 R148). -/
def fsrc (c : Nat) (x : QWord) : FVal := floatVal c (floatBits c x)

/-- FADD and FSUB of one lane. -/
def fnFadd (f : Form) (sub : Bool) (h : BitVec 32) (x : Srcs) : FRes :=
  let c := fmtCode f
  fAdd c f.rm.toNat f.sat h (fsrc c x.a) (if sub then fNeg (fsrc c x.b) else fsrc c x.b)
/-- FMUL of one lane. -/
def fnFmul (f : Form) (h : BitVec 32) (x : Srcs) : FRes :=
  let c := fmtCode f
  fMul c f.rm.toNat f.sat h (fsrc c x.a) (fsrc c x.b)
/-- FFMA of one lane. -/
def fnFfma (f : Form) (h : BitVec 32) (x : Srcs) : FRes :=
  let c := fmtCode f
  fFma c f.rm.toNat f.sat h (fsrc c x.a) (fsrc c x.b) (fsrc c x.c)

/-- FADD. -/
def execFadd (f : Form) (s : State) : Host.Outcome State Fault Refusal :=
  runAlu .fadd f s (fun i n l x => fnFadd i.f false (laneHash i n l 0) x)
/-- FSUB. -/
def execFsub (f : Form) (s : State) : Host.Outcome State Fault Refusal :=
  runAlu .fsub f s (fun i n l x => fnFadd i.f true (laneHash i n l 0) x)
/-- FMUL. -/
def execFmul (f : Form) (s : State) : Host.Outcome State Fault Refusal :=
  runAlu .fmul f s (fun i n l x => fnFmul i.f (laneHash i n l 0) x)
/-- FFMA. -/
def execFfma (f : Form) (s : State) : Host.Outcome State Fault Refusal :=
  runAlu .ffma f s (fun i n l x => fnFfma i.f (laneHash i n l 0) x)
/-- FMIN. -/
def execFmin (f : Form) (s : State) : Host.Outcome State Fault Refusal :=
  runAlu .fmin f s (fun i _ _ x => fMinMax (fmtCode i.f) false (floatBits (fmtCode i.f) x.a) (floatBits (fmtCode i.f) x.b))
/-- FMAX. -/
def execFmax (f : Form) (s : State) : Host.Outcome State Fault Refusal :=
  runAlu .fmax f s (fun i _ _ x => fMinMax (fmtCode i.f) true (floatBits (fmtCode i.f) x.a) (floatBits (fmtCode i.f) x.b))
/-- FCMP. -/
def execFcmp (f : Form) (s : State) : Host.Outcome State Fault Refusal :=
  runAlu .fcmp f s (fun i _ _ x =>
    let r := fCmp i.f.sub.toNat (fsrc (fmtCode i.f) x.a) (fsrc (fmtCode i.f) x.b)
    ⟨if r.1 then 1 else 0, r.2, 0⟩)
/-- FCLASS: the class mask, or its test against a selector (10 R155). -/
def execFclass (f : Form) (s : State) : Host.Outcome State Fault Refusal :=
  runAlu .fclass f s (fun i _ _ x =>
    let m := fClass (fmtCode i.f) (floatBits (fmtCode i.f) x.a)
    if i.f.imm = 0#23 then ⟨m, 0#5, 0⟩ else boolRes ((m &&& immBits i.f 9 0) != 0))
/-- DADD. -/
def execDadd (f : Form) (s : State) : Host.Outcome State Fault Refusal :=
  runAlu .dadd f s (fun i n l x => fnFadd i.f false (laneHash i n l 0) x)
/-- DMUL. -/
def execDmul (f : Form) (s : State) : Host.Outcome State Fault Refusal :=
  runAlu .dmul f s (fun i n l x => fnFmul i.f (laneHash i n l 0) x)
/-- DFMA. -/
def execDfma (f : Form) (s : State) : Host.Outcome State Fault Refusal :=
  runAlu .dfma f s (fun i n l x => fnFfma i.f (laneHash i n l 0) x)

/-- The high halves of the sources. -/
def highHalf (x : Srcs) : Srcs := ⟨x.a >>> 16, x.b >>> 16, x.c >>> 16⟩

/-- Two element results of one lane joined, element 0 first (10 R159). -/
def joinPair (r0 r1 : FRes) : FRes :=
  ⟨r1.bits * 2 ^ 16 + r0.bits, r0.flags ||| r1.flags, r0.rounds + r1.rounds⟩

/-- HADD2. -/
def execHadd2 (f : Form) (s : State) : Host.Outcome State Fault Refusal :=
  runAlu .hadd2 f s (fun i n l x =>
    let r0 := fnFadd i.f false (laneHash i n l 0) x
    joinPair r0 (fnFadd i.f false (laneHash i n l r0.rounds) (highHalf x)))
/-- HFMA2. -/
def execHfma2 (f : Form) (s : State) : Host.Outcome State Fault Refusal :=
  runAlu .hfma2 f s (fun i n l x =>
    let r0 := fnFfma i.f (laneHash i n l 0) x
    joinPair r0 (fnFfma i.f (laneHash i n l r0.rounds) (highHalf x)))

/-! ## Special functions (10 R156, R157) -/

/-- The FP32 bits a value has in the SFU: a source widened exactly. -/
def widen (c x : Nat) : Nat :=
  match floatVal c x with
  | .nan _ => 0x7FC00000
  | .inf n => if n then 0xFF800000 else 0x7F800000
  | .num y => if y.m = 0 then (if y.neg then 0x80000000 else 0) else (roundFloat 0 0 false 0#32 y).bits

/-- A power of two as an exact value. -/
def dyPow (n : Int) : Dy := ⟨false, 1, n⟩

/-- The logarithm of a positive exact value that is a power of two; none otherwise. -/
def exactLog (y : Dy) : Option Int := if y.m = 2 ^ Nat.log2 y.m then some (topExp y) else none

/-- The integer a value is; none otherwise. -/
def exactInt (y : Dy) : Option Int :=
  if 0 ≤ y.e then some (y.at 0)
  else if y.m % 2 ^ (-y.e).toNat = 0 then some ((if y.neg then -1 else 1) * ((y.m / 2 ^ (-y.e).toNat : Nat) : Int))
  else none

/-- An SFU result that R156 makes exact, from the operation (8 FRCP to 15 FTANH) and a finite source that is not 0. -/
def sfuExact (op : Nat) (y : Dy) : Option Dy :=
  match op with
  | 8 => match exactLog ⟨false, y.m, y.e⟩ with | some k => some ⟨y.neg, 1, -k⟩ | none => none
  | 11 => match exactInt y with | some k => if -149 ≤ k ∧ k ≤ 127 then some (dyPow k) else none | none => none
  | 12 => if y.neg then none else match exactLog y with | some k => some (dyOf k 0) | none => none
  | _ => none

/-- A tiny or overflowing FEXP2, by its argument: past the largest finite, or below the normal numbers. -/
def exp2Range (y : Dy) : BitVec 5 :=
  if y.neg then (if dyLt y ⟨true, 126, 0⟩ then flagUF ||| flagNX else flagNX)
  else if dyLt y ⟨false, 128, 0⟩ then flagNX else flagOF ||| flagNX

/-- An FP32 result of the SFU rounded to the format under RNE, with the flags of the evaluation: overflow and underflow by the exact result's
range (10 R156, R157). An inexact result that is delivered tiny, or as 0, underflows though the last rounding is exact (08 R105); that tininess is judged on the value
delivered and not on the exact one is DESIGN CHOICE, log 14. -/
def sfuFinish (c : Nat) (bits : Nat) (fl : BitVec 5) : FRes :=
  match floatVal 0 bits with
  | .nan _ => ⟨canonicalNan c, fl, 0⟩
  | .inf n => ⟨(infRes c n).bits, fl, 0⟩
  | .num y =>
    let r := roundFloat c 0 false 0#32 y
    let tiny := r.flags = 0#5 ∧ fl &&& flagNX ≠ 0#5 ∧ (y.m = 0 ∨ topExp y < 2 - (2 ^ ((fmtOf c).eb - 1) : Nat))
    ⟨r.bits, r.flags ||| fl ||| (if tiny then flagUF else 0#5), 0⟩

/-- Whether the exact reciprocal of a value is tiny: the value exceeds 2^126. -/
def rcpTiny (y : Dy) : Bool := dyLt (dyPow 126) ⟨false, y.m, y.e⟩
/-- Whether a reciprocal passes the largest finite FP32 value: the value is at most 2^-128. -/
def rcpBig (y : Dy) : Bool := !dyLt (dyPow (-128)) ⟨false, y.m, y.e⟩

/-- The flags of an inexact SFU result of a finite source that is not 0. -/
def sfuFlags (op : Nat) (y : Dy) : BitVec 5 :=
  match op with
  | 8 => if rcpBig y then flagOF ||| flagNX else if rcpTiny y then flagUF ||| flagNX else flagNX
  | 11 => exp2Range y
  | 13 => if topExp y < -126 then flagUF ||| flagNX else flagNX
  | 15 => if topExp y < -126 then flagUF ||| flagNX else flagNX
  | _ => flagNX

/-- Any inexact SFU result: past the largest finite it is an infinity; every other value is the free function (DESIGN CHOICE, log 14) within the error
bound of R156. -/
def sfuInexact (op : Nat) (w : Nat) (y : Dy) : Nat :=
  match op with
  | 8 => if rcpBig y then (if y.neg then 0xFF800000 else 0x7F800000) else sfuValue op w y
  | 11 => if !y.neg && !dyLt y ⟨false, 128, 0⟩ then 0x7F800000 else sfuValue op w y
  | _ => sfuValue op w y

/-- The special operands of R157 but NaN: the FP32 result and flags; none for an ordinary operand. -/
def sfuSpecial (op : Nat) (v : FVal) : Option (Nat × BitVec 5) :=
  let nan : Nat × BitVec 5 := (0x7FC00000, flagNV)
  let inf (n : Bool) : Nat := if n then 0xFF800000 else 0x7F800000
  let zero (n : Bool) : Nat := if n then 0x80000000 else 0
  let one (n : Bool) : Nat := if n then 0xBF800000 else 0x3F800000
  match op, v with
  | 8, .inf n => some (zero n, 0#5)
  | 8, .num y => if y.m = 0 then some (inf y.neg, flagDZ) else none
  | 9, .inf n => some (if n then nan else (0, 0#5))
  | 9, .num y => if y.m = 0 then some (inf y.neg, flagDZ) else if y.neg then some nan else none
  | 11, .inf n => some (if n then 0 else inf false, 0#5)
  | 11, .num y => if y.m = 0 then some (one false, 0#5) else none
  | 12, .inf n => some (if n then nan else (inf false, 0#5))
  | 12, .num y => if y.m = 0 then some (inf true, flagDZ) else if y.neg then some nan else none
  | 13, .inf _ => some nan
  | 13, .num y => if y.m = 0 then some (zero y.neg, 0#5) else none
  | 14, .inf _ => some nan
  | 14, .num y => if y.m = 0 then some (one false, 0#5) else none
  | 15, .inf n => some (one n, 0#5)
  | 15, .num y => if y.m = 0 then some (zero y.neg, 0#5) else none
  | _, _ => none

/-- An SFU function of one lane. -/
def fnSfu (op : Nat) (f : Form) (x : Srcs) : FRes :=
  let c := fmtCode f
  let v := fsrc c x.a
  match v with
  | .nan sg => nanRes c (flagIf sg flagNV)
  | _ =>
    match sfuSpecial op v with
    | some r => sfuFinish c r.1 r.2
    | none =>
      match v with
      | .num y =>
        match sfuExact op y with
        | some z =>
          let r := roundFloat 0 0 false 0#32 z
          if r.flags = 0#5 then sfuFinish c r.bits 0#5
          else sfuFinish c (sfuInexact op (widen c (floatBits c x.a)) y) (sfuFlags op y)
        | none => sfuFinish c (sfuInexact op (widen c (floatBits c x.a)) y) (sfuFlags op y)
      | _ => nanRes c flagNV

/-- FRCP. -/
def execFrcp (f : Form) (s : State) : Host.Outcome State Fault Refusal := runAlu .frcp f s (fun i _ _ x => fnSfu 8 i.f x)
/-- FRSQ. -/
def execFrsq (f : Form) (s : State) : Host.Outcome State Fault Refusal := runAlu .frsq f s (fun i _ _ x => fnSfu 9 i.f x)
/-- FSQRT. -/
def execFsqrt (f : Form) (s : State) : Host.Outcome State Fault Refusal :=
  runAlu .fsqrt f s (fun i n l x =>
    fSqrt (fmtCode i.f) i.f.rm.toNat (laneHash i n l 0) (floatBits (fmtCode i.f) x.a))
/-- FEXP2. -/
def execFexp2 (f : Form) (s : State) : Host.Outcome State Fault Refusal := runAlu .fexp2 f s (fun i _ _ x => fnSfu 11 i.f x)
/-- FLOG2. -/
def execFlog2 (f : Form) (s : State) : Host.Outcome State Fault Refusal := runAlu .flog2 f s (fun i _ _ x => fnSfu 12 i.f x)
/-- FSIN. -/
def execFsin (f : Form) (s : State) : Host.Outcome State Fault Refusal := runAlu .fsin f s (fun i _ _ x => fnSfu 13 i.f x)
/-- FCOS. -/
def execFcos (f : Form) (s : State) : Host.Outcome State Fault Refusal := runAlu .fcos f s (fun i _ _ x => fnSfu 14 i.f x)
/-- FTANH. -/
def execFtanh (f : Form) (s : State) : Host.Outcome State Fault Refusal := runAlu .ftanh f s (fun i _ _ x => fnSfu 15 i.f x)

/-! ## Conversions (10 R160 to R163) -/

/-- FCVT. -/
def execFcvt (f : Form) (s : State) : Host.Outcome State Fault Refusal :=
  runAlu .fcvt f s (fun i n l x =>
    let ts := immBits i.f 4 0
    fCvt i.f.ty.toNat ts i.f.rm.toNat i.f.sat (laneHash i n l 0) (codeVal ts (floatBits ts x.a)))
/-- F2I. -/
def execF2i (f : Form) (s : State) : Host.Outcome State Fault Refusal :=
  runAlu .f2i f s (fun i n l x =>
    let ts := immBits i.f 4 0
    let r := fToInt (intWidth i.f.ty) (intSigned i.f.ty) i.f.rm.toNat (laneHash i n l 0) (codeVal ts (floatBits ts x.a))
    ⟨writeInt i.f.ty r.1, r.2.1, r.2.2⟩)
/-- I2F. -/
def execI2f (f : Form) (s : State) : Host.Outcome State Fault Refusal :=
  runAlu .i2f f s (fun i n l x =>
    intToF i.f.ty.toNat i.f.rm.toNat i.f.sat (laneHash i n l 0) (readInt (BitVec.ofNat 5 (immBits i.f 4 0)) x.a))

/-! ## QDOT4 (10 R164) -/

/-- Element `k` of a packed word with elements of `b` bits. -/
def packedElem (x : Nat) (b k : Nat) : Nat := bits x (b * k + b - 1) (b * k)

/-- The four pairs of elements of two packed words. -/
def packedPairs (b : Nat) (x : Srcs) : List (Nat × Nat) :=
  (List.range 4).map (fun k => (packedElem (read32 x.a) b k, packedElem (read32 x.b) b k))

/-- The sum of a QDOT4 and its addend rounded once (10 R164): a NaN sum or addend, and infinities of opposite signs, are invalid. -/
def qdotAdd (f : Form) (h : BitVec 32) (sum add : FVal) : FRes :=
  if isNan sum || isNan add then nanRes 0 flagNV else fAdd 0 f.rm.toNat f.sat h add sum

/-- QDOT4 of one lane. -/
def fnQdot4 (f : Form) (h : BitVec 32) (x : Srcs) : FRes :=
  let c := f.ty.toNat
  let ps := packedPairs (formatBits c) x
  if c = 0x0A then
    ⟨wrap 32 (ps.foldl (fun a p => a + toSigned 8 p.1 * toSigned 8 p.2) (toSigned 32 x.c.toNat)), 0#5, 0⟩
  else if c = 0x08 then qdotAdd f h (sumLns ps) (fsrc 0 x.c)
  else qdotAdd f h (sumProducts (ps.map (fun p => (floatVal c p.1, floatVal c p.2)))) (fsrc 0 x.c)

/-- QDOT4. -/
def execQdot4 (f : Form) (s : State) : Host.Outcome State Fault Refusal :=
  runAlu .qdot4 f s (fun i n l x => fnQdot4 i.f (laneHash i n l 0) x)

/-! ## PACK and UNPACK (10 R165 to R167) -/

/-- The TRI5 digit of an element of a packed word (08 R108). -/
def triDigit (w e : Nat) : Nat := bits w (8 * (e / 5) + 7) (8 * (e / 5)) / 3 ^ (e % 5) % 3
/-- Whether the byte of an element is reserved. -/
def triBad (w e : Nat) : Bool := decide (242 < bits w (8 * (e / 5) + 7) (8 * (e / 5)))
/-- A packed word with the digit of an element replaced. -/
def triPut (w e d : Nat) : Nat := w - triDigit w e * 3 ^ (e % 5) * 2 ^ (8 * (e / 5)) + d * 3 ^ (e % 5) * 2 ^ (8 * (e / 5))

/-- The conversion of PACK to a TRI5 digit: rounded to an integer and limited to −1, 0 or +1 (10 R166). A zero or an infinity counts no SR
rounding (DESIGN CHOICE, log 70). -/
def triConv (rm : Nat) (h : BitVec 32) (v : FVal) : FRes :=
  match v with
  | .nan _ => ⟨0, flagNV, 0⟩
  | .inf n => ⟨if n then 2 else 1, flagOF ||| flagNX, 0⟩
  | .num x =>
    let r := roundQuantum rm h x 0
    let k := if x.m = 0 then 0 else 1
    if 1 < r.1 then ⟨if x.neg then 2 else 1, flagOF ||| flagNX, k⟩
    else ⟨if r.1 = 0 then 0 else if x.neg then 2 else 1, flagIf r.2 flagNX, k⟩

/-- The conversion of PACK to a format. -/
def packConv (f : Form) (h : BitVec 32) (x : QWord) : FRes :=
  let v := fsrc 0 x
  if f.ty = 9#5 then triConv f.rm.toNat h v else fCvt f.ty.toNat 0 f.rm.toNat f.sat h v

/-- A packed word with an element replaced. -/
def packPut (c w e v : Nat) : Nat :=
  if c = 9 then triPut w e v
  else let b := formatBits c; w - packedElem w b e * 2 ^ (b * e) + v * 2 ^ (b * e)

/-- PACK. -/
def execPack (f : Form) (s : State) : Host.Outcome State Fault Refusal :=
  runLanes .pack f s (fun i n l x =>
    let c := i.f.ty.toNat
    let j := immBits i.f 4 0
    let w := read32 x.c
    if c = 9 ∧ (triBad w (2 * j) || triBad w (2 * j + 1)) = true then .hold cMxFormat 7 0 0#57
    else
      let r0 := packConv i.f (laneHash i n l 0) x.a
      let r1 := packConv i.f (laneHash i n l r0.rounds) x.b
      .done ⟨packPut c (packPut c w (2 * j) r0.bits) (2 * j + 1) r1.bits, r0.flags ||| r1.flags, r0.rounds + r1.rounds⟩)

/-- The FP32 bits of an element of a packed word (10 R167). -/
def unpackElem (c w e : Nat) : Nat :=
  if c = 9 then
    match triDigit w e with
    | 0 => 0
    | 1 => 0x3F800000
    | _ => 0xBF800000
  else
    match codeVal c (packedElem w (formatBits c) e) with
    | .nan _ => 0x7FC00000
    | .inf n => if n then 0xFF800000 else 0x7F800000
    | .num y => if y.m = 0 then (if y.neg then 0x80000000 else 0) else (roundFloat 0 0 false 0#32 y).bits

/-- UNPACK. -/
def execUnpack (f : Form) (s : State) : Host.Outcome State Fault Refusal :=
  runLanes .unpack f s (fun i _ _ x =>
    let c := i.f.ty.toNat
    let j := immBits i.f 4 0
    let w := read32 x.a
    if c = 9 ∧ (triBad w (2 * j) || triBad w (2 * j + 1)) = true then .hold cMxFormat 7 0 0#57
    else .done ⟨unpackElem c w (2 * j) + 2 ^ 32 * unpackElem c w (2 * j + 1), 0#5, 0⟩)

end Sys2Proof.Machine
end

