-- ==== Sys2Proof/Machine/Csr.lean ====
section
/-! DEFINITION. The control and status registers of R327: what each reads, what a write does, who may write it; the scan state of a core
(22 R346 to R349), halting and stepping (25 R388 to R390), clearing counters (03 R46) and dropping overlays (18 R304). -/
namespace Sys2Proof.Machine

/-! ## The scan state of a core (22 R346 to R348) -/

/-- The slice offset of the firmware area, whose first word is the status word (22 R345, R347). -/
def firmwareArea : Nat := 0x1F4000

/-- SCAN_STAT as a number. -/
def scanStat (c : Scan) : Nat :=
  c.time.toNat * 2 ^ 32 + c.faildom.toNat * 2 ^ 8 + (if c.badcmd then 128 else 0) + c.state

/-- The scan CSRs of a core changed: each change of SCAN_STAT is stored to the status word, and wakes its waiters (22 R347). -/
def putScan (s : State) (c : Nat) (f : Scan → Scan) : State :=
  let old := (coreAt s c).scan
  let s1 := updCore s c (fun k => { k with scan := f k.scan })
  if scanStat (f old) = scanStat old then s1 else sramStore s1 c firmwareArea (natBytes (scanStat (f old)) 8)

/-- Whether a core is open to dispatch: OPEN or ABORTED (22 R347), on a die that is not closed for heat (25 R392). -/
def coreOpen (s : State) (c : Nat) : Bool :=
  let st := (coreAt s c).scan.state
  (st == 0 || st == 6) && !s.hotDies.contains (c / Config.coresPerDie)

/-- Whether a saved context is bound to a core: its cluster has several teams, or its launch is PERSISTENT (20 R325). -/
def boundTo (s : State) (c : Nat) : Bool :=
  s.launches.any (fun p => p.2.clusters.any (fun (q : Cluster) =>
    (p.2.persistent || decide (1 < q.cores.length)) && q.saved.any (fun (u : Team) => u.core == c)))

/-- The firmware slot's team of a core. -/
def firmwareTeam (s : State) (c : Nat) : Option Team := s.teams.find? (fun t => t.ref.launch == 0 && t.core == c)

/-- Whether a core meets every drain condition but the write-back of dirty lines (22 R348). -/
def coreDrained (s : State) (c : Nat) : Bool :=
  !(s.teams.any (fun t => t.core == c && t.ref.launch != 0)) && !boundTo s c && (coreAt s c).engine.isEmpty
    && (match firmwareTeam s c with
        | some t => t.groups.all (fun g => g.ctr.accs.isEmpty)
        | none => true)

/-- Every overlay of a core dropped without a record, and the search stopped (18 R304; 22 R348). -/
def dropOverlays (k : Core) : Core :=
  { k with
    overlays := []
    searching := none
    hot := k.hot.map (fun p => (p.1, if p.2.progress = 2 ∨ p.2.progress = 3 then { p.2 with progress := 4 } else p.2)) }

/-- A core DRAINED, its overlays dropped, with `f` what a command writes. -/
def scanDrain (s : State) (c : Nat) (f : Scan → Scan) : State :=
  putScan (updCore s c (fun k => { dropOverlays k with dirty := false })) c (fun n => { f n with state := 2, faildom := 0#8 })

/-- A command that its state does not allow: BADCMD, and nothing else (22 R347). -/
def scanBad (s : State) (c : Nat) : State := putScan s c (fun n => { n with badcmd := true })

/-- PRIO and PAT written; REF becomes the pattern's expected signature (22 R346). -/
def scanPattern (c : Nat) (prio pat : BitVec 8) (n : Scan) : Scan :=
  { n with prio := prio, pat := pat, ref := Config.scanSignature pat.toNat c }

/-- PRIO and PAT of a SCAN_CTL write. -/
def scanFields (c v : Nat) : Scan → Scan := scanPattern c (BitVec.ofNat 8 (bits v 31 24)) (BitVec.ofNat 8 (bits v 23 16))

/-- CLOSE: DRAINED at once from PASSED or on a drained core, else DRAINING (22 R347). -/
def scanClose (s : State) (c v : Nat) : State :=
  let k := coreAt s c
  if k.scan.state = 4 ∨ ((k.scan.state = 0 ∨ k.scan.state = 6) ∧ coreDrained s c = true ∧ k.dirty = false) then
    scanDrain s c (fun n => { scanFields c v n with badcmd := false })
  else if k.scan.state = 0 ∨ k.scan.state = 6 then
    putScan s c (fun n => { scanFields c v n with state := 1, badcmd := false })
  else scanBad s c

/-- START: RUNNING from DRAINED; a pattern above 15 is BADCMD (22 R346, R349). -/
def scanStart (s : State) (c v : Nat) : State :=
  if (coreAt s c).scan.state = 2 ∧ bits v 23 16 ≤ 15 then
    putScan s c (fun n => { scanFields c v n with state := 3, time := 0#16, badcmd := false, started := s.clk })
  else scanBad s c

/-- OPEN: from DRAINED or PASSED (22 R347). -/
def scanOpen (s : State) (c v : Nat) : State :=
  let st := (coreAt s c).scan.state
  if st = 2 ∨ st = 4 then putScan s c (fun n => { scanFields c v n with state := 0, badcmd := false }) else scanBad s c

/-! ## Error records (24 R370, R371) -/

/-- The bytes of an error record. -/
def errorBytes (e : ErrorRec) : List Byte :=
  natBytes (e.cls * 2 ^ 56 + e.unit * 2 ^ 48 + e.part * 2 ^ 40 + e.die * 2 ^ 32 + e.core * 2 ^ 16 + e.ltag) 8
  ++ natBytes (e.row.toNat * 2 ^ 32 + e.col.toNat * 2 ^ 16 + e.idx.toNat) 8
  ++ natBytes e.det1.toNat 8 ++ natBytes e.det2.toNat 8
  ++ natBytes (e.lost * 2 ^ 32 + e.outcome * 2 ^ 8 + e.pat) 8
  ++ natBytes e.seq 8 ++ natBytes e.time 8 ++ natBytes 1 8

/-- Whether the place of the next error record is free. -/
def errorPlaceFree (s : State) : Bool := (mapGet s.errQ (s.errNext % 4096)).isNone

/-- An error record written at its place with its sequence number, time and LOST. -/
def putError (s : State) (e : ErrorRec) : State :=
  { s with
    errQ := mapPut s.errQ (s.errNext % 4096) { e with seq := s.errNext, time := s.time, lost := s.errLost % 2 ^ 32 }
    errNext := s.errNext + 1
    errLost := 0 }

/-- An error record posted: a CE or PREDICT record without a place is counted in LOST, any other waits (24 R371). -/
def postError (s : State) (e : ErrorRec) : State :=
  if s.errWait.isEmpty && errorPlaceFree s then putError s e
  else if e.cls = 1 ∨ e.cls = 6 then { s with errLost := s.errLost + 1 }
  else { s with errWait := s.errWait ++ [e] }

/-! ## Removing a core (22 R351; 24 R374) -/

/-- The core out of the logical map from the next epoch on; launches dispatched before keep the map of theirs (22 R351). -/
def removeCore (s : State) (c : Nat) : State :=
  let r := (s.removed.filter (fun x => decide (x < c))) ++ [c] ++ (s.removed.filter (fun x => decide (c < x)))
  if s.removed.contains c then s
  else
    { s with
      removed := r
      epoch := s.epoch + 1
      epochs := mapPut s.epochs (s.epoch + 1) r
      launches := s.launches.map (fun p => (p.1, if p.2.dispatched = 0 then { p.2 with epoch := s.epoch + 1 } else p.2)) }

/-- REMOVE from FAILED: a new epoch without the core, one SCAN record, and the state REMOVED (22 R351). -/
def scanRemove (s : State) (c v : Nat) : State :=
  let n := (coreAt s c).scan
  if n.state = 5 then
    let s1 := putScan (removeCore s c) c (fun n => { scanFields c v n with state := 7, badcmd := false })
    postError s1
      { cls := 3, unit := n.faildom.toNat % 32, part := n.faildom.toNat / 32, die := c / Config.coresPerDie, core := c,
        ltag := 0, row := 0xFFFFFFFF#32, col := 0xFFFF#16, idx := 0#16, det1 := n.sig,
        det2 := n.ref, pat := n.pat.toNat }
  else scanBad s c

/-! ## Self-tests (24 R372) -/

/-- Whether a record's self-test is the scan of a datapath: an EMISS, or a unit that is no array. -/
def isDatapath (e : ErrorRec) : Bool := e.cls == 4 || (decide (e.unit ≤ 7) && e.unit != 5) || e.unit == 12

/-- CLOSE written by the core's agent for a self-test, with pattern 0; the spec states no PRIO, which is free (DESIGN CHOICE, log 26). -/
def selftestClose (s : State) (c : Nat) : State :=
  let st := (coreAt s c).scan.state
  if decide (c < Config.coreCount) && (st == 0 || st == 4 || st == 6) then
    let f := takeFree s
    scanClose f.2 c (f.1.toNat % 256 * 2 ^ 24 + 1)
  else s

/-- A self-test started. For a datapath the core's agent writes CLOSE at once. -/
def startSelftest (s : State) (e : ErrorRec) : State :=
  let s1 := { s with selftests := s.selftests ++ [{ e with testing := false }] }
  if isDatapath e then selftestClose s1 e.core else s1

/-- The first pending test of a core's datapath marked. -/
def markTesting (c : Nat) (b : Bool) : List ErrorRec → List ErrorRec
  | [] => []
  | e :: r => if isDatapath e && e.core == c then { e with testing := b } :: r else e :: markTesting c b r

/-- A core's pending self-test carried on by its agent while no scan program runs there: pattern 0 started on the drained core, CLOSE
written again after an abort has opened it (24 R372; 22 R350). -/
def carrySelftest (s : State) (c : Nat) : State :=
  match s.selftests.find? (fun e => isDatapath e && e.core == c) with
  | none => s
  | some e =>
    let n := (coreAt s c).scan
    if (coreAt s c).scanJob.isSome then s
    else if n.state = 2 then scanStart { s with selftests := markTesting c true s.selftests } c (n.prio.toNat * 2 ^ 24 + 2)
    else if n.state = 0 ∨ n.state = 6 ∨ (n.state = 4 ∧ e.testing = false) then
      selftestClose { s with selftests := markTesting c false s.selftests } c
    else s

/-- A write of SCAN_CTL (22 R347). -/
def scanWrite (s : State) (c v : Nat) : State :=
  match bits v 3 0 with
  | 1 => scanClose s c v
  | 2 => scanStart s c v
  | 3 => scanOpen s c v
  | 4 => scanRemove s c v
  | _ => putScan s c (scanFields c v)

/-! ## Counters and Forage control (03 R46; 18 R304, R305) -/

/-- Every counter of a core zero; the enables and ranges stay. -/
def lcrClear (k : Core) : Core :=
  { k with lcr := { en := k.lcr.en, base := k.lcr.base, lim := k.lcr.lim } }

/-- LCR_CTL written. -/
def lcrWrite (k : Core) (v : Nat) : Core :=
  let k1 := if bit v 1 then lcrClear k else k
  { k1 with lcr := { k1.lcr with en := bit v 0 } }

/-- Every blacklist mark of a core cleared. -/
def clearBlacklist (k : Core) : Core := { k with hot := k.hot.map (fun p => (p.1, { p.2 with black := 0 })) }

/-- FORAGE_CTL written. -/
def forageWrite (k : Core) (v : Nat) : Core :=
  let k1 := if bit v 1 then clearBlacklist k else k
  if bit v 0 then { k1 with forageEn := true } else { dropOverlays k1 with forageEn := false }

/-- Whether an enabled breakpoint of a launch's code lies in a segment of `n` bytes on a core (18 R302; 25 R388). -/
def bpInSegment (k : Core) (ltag : Nat) (pc : Pc) (n : Nat) : Bool :=
  k.dbgLtag.toNat == ltag && ltag != 0
    && k.bps.any (fun b => b.2.getLsbD 63 && decide (pc.toNat ≤ b.2.toNat % 2 ^ 57) && decide (b.2.toNat % 2 ^ 57 < pc.toNat + n))

/-- Bytes of the segment that starts at a PC, as its object's segment list has it; its last instruction's end is the next start. -/
def segmentBytes (s : State) (l : Launch) (pc : Pc) : Nat :=
  match mapGet s.objects l.obj with
  | none => 0
  | some o =>
    ((listMin (fun a b => decide (a < b))
      ((o.segments.map Prod.fst).filter (fun v => decide (pc.toNat < v)))).getD (o.textVa + o.textLen)) - pc.toNat

/-- Whether an overlay is suspended: a breakpoint lies in its segment on some core (18 R302). -/
def overlaySuspended (s : State) (o : Overlay) : Bool :=
  match mapGet s.launches o.launch with
  | none => false
  | some l => s.cores.any (fun k => bpInSegment k.2 l.ltag o.pc (segmentBytes s l o.pc))

/-- FORAGE_OVLn (18 R305). -/
def overlayCsr (s : State) (k : Core) (n : Nat) : Nat :=
  match mapGet k.overlays n with
  | none => 0
  | some o =>
    2 ^ 63 + (if o.classS then 2 ^ 62 else 0)
      + (if overlaySuspended s o then 2 else if o.promoted then 1 else 0) * 2 ^ 60
      + (if o.promoted then 0 else o.agree % 8) * 2 ^ 57 + o.pc.toNat % 2 ^ 57

/-! ## Halting and stepping (25 R390) -/

/-- DBG_HALT: each group of the named team on this core stops at its next pre-emption point. -/
def dbgHalt (s : State) (c : Nat) (team : Nat) : State :=
  let lt := (coreAt s c).dbgLtag.toNat
  if lt = 0 then s
  else { s with teams := s.teams.map (fun t =>
    if t.core == c && t.ref.launch != 0 && t.ref.team == team && (launchOf s t).ltag == lt then
      { t with groups := t.groups.map (fun g => { g with halt := true }) }
    else t) }

/-- DBG_STEP: a BREAK record resolved so that its lanes issue one instruction and hold again; a halted group stays halted. Those of a vacated
team do so once it is restored. -/
def dbgStep (s : State) (c seq : Nat) : State :=
  match s.faultQ.find? (fun r => r.seq == seq && r.core == c && !r.resolved && r.code == cBreak) with
  | none => s
  | some r =>
    let halted := (((teamAt s r.ref).or (savedTeam s r.ref)).bind (fun t => groupOf t r.group)).any Group.halt
    let mark (t : Team) : Team := teamUpdGroup t r.group (fun g => { g with step := g.step ||| r.lanes, stepped := g.stepped &&& ~~~r.lanes, halt := halted })
    updSaved (updTeam (resolveRecord s c seq false) r.ref mark) r.ref mark

/-! ## The selected group of HGRP_SEL (20 R329) -/

/-- Whether a lane of a group is held on an unresolved record. -/
def heldOnRecord (s : State) (g : Group) : Bool :=
  g.lanes.any (fun p =>
    match p.2.hold with
    | some h => p.2.st == .hold && (s.faultQ.any (fun r => r.set == h.set && !r.resolved) || s.faultWait.any (fun r => r.set == h.set))
    | none => false)

/-- The group HGRP_SEL names, while a lane of it is held on an unresolved record. -/
def selectedGroup (s : State) (c : Nat) : Option (Team × Group) :=
  let v := (coreAt s c).hgrpSel.toNat
  if bit v 15 then
    match groupAt s ⟨c, bits v 6 4, bits v 3 0⟩ with
    | some (t, g) => if heldOnRecord s g then some (t, g) else none
    | none => none
  else none

/-! ## Reading (20 R327, R328) -/

/-- The core CSRs of 0x100 to 0x325, which every group of the core reads. -/
def coreCsr (s : State) (k : Core) (n : Nat) : Option Nat :=
  let lo := n % 16
  match n / 16 with
  | 0x10 => if lo = 0 then some (if k.lcr.en then 1 else 0) else none
  | 0x11 => some (mapGetD k.lcr.base lo 0#64).toNat
  | 0x12 => some (mapGetD k.lcr.lim lo 0#64).toNat
  | 0x13 => some (mapGetD k.lcr.act lo 0#64).toNat
  | 0x14 => some (mapGetD k.lcr.div lo 0#64).toNat
  | 0x15 => some (mapGetD k.lcr.prd lo 0#64).toNat
  | 0x16 => some (mapGetD k.lcr.abs lo 0#64).toNat
  | 0x17 =>
    match lo with
    | 0 => some k.lcr.totAct.toNat
    | 1 => some k.lcr.totDiv.toNat
    | 2 => some k.lcr.totPred.toNat
    | 3 => some k.lcr.totAbs.toNat
    | 4 => some k.lcr.idle.toNat
    | 5 => some k.lcr.forage.toNat
    | 6 => some k.lcr.pass.toNat
    | _ => none
  | 0x20 | 0x21 =>
    let e := mapGetD k.expTable ((n - 0x200) / 2) {}
    some (if n % 2 = 0 then e.range.toNat else e.ctl.toNat)
  | 0x30 => if lo = 0 then some (if k.forageEn then 1 else 0) else none
  | 0x31 => some (overlayCsr s k lo)
  | 0x32 =>
    match lo with
    | 0 => some k.lcr.hot.toNat
    | 1 => some k.lcr.inst.toNat
    | 2 => some k.lcr.promo.toNat
    | 3 => some k.lcr.disc.toNat
    | 4 => some k.lcr.wdraw.toNat
    | 5 => some k.lcr.emiss.toNat
    | _ => none
  | _ => none

/-- DEV_SCHED, DEV_PRED, DEV_PTP and DEV_POWER (23 R365; 24 R373; 25 R386, R392). -/
def devCsr (s : State) (n : Nat) : Option Nat :=
  match n with
  | 0x510 => some (s.qidle.toNat * 2 ^ 32 + s.age.toNat)
  | 0x511 => some (s.linkLim.toNat * 2 ^ 48 + s.bankLim.toNat * 2 ^ 32 + s.rowLim.toNat * 2 ^ 16 + s.logInt.toNat)
  | 0x512 => some (s.ptpPort.toNat * 2 ^ 32 + s.ptpState % 4 * 2 ^ 8 + s.ptpSteps.toNat)
  | 0x513 => some (s.cap.toNat * 2 ^ 32 + (if s.throttled then 2 ^ 16 else 0) + s.meas.toNat)
  | _ => none

/-- The CSRs at 0x500 and above as the firmware slot reads them. -/
def firmCsr (s : State) (c : Nat) (n : Nat) : Option Nat :=
  let k := coreAt s c
  match n with
  | 0x500 => some (k.scan.prio.toNat * 2 ^ 24 + k.scan.pat.toNat * 2 ^ 16)
  | 0x501 => some (scanStat k.scan)
  | 0x502 => some k.scan.sig.toNat
  | 0x503 => some k.scan.ref.toNat
  | 0x530 => some k.dbgLtag.toNat
  | 0x531 | 0x532 => some 0
  | _ => if 0x520 ≤ n ∧ n < 0x530 then some (mapGetD k.bps (n - 0x520) 0#64).toNat else devCsr s n

/-- CLUSTER_INFO (02 R13). -/
def clusterInfo (s : State) (t : Team) : Nat :=
  let l := launchOf s t
  logicalHerd s t.epoch t.core * 2 ^ 32 + logicalOfPhys s t.epoch t.core * 2 ^ 16
    + (if t.ref.launch = 0 then 0 else teamRank l t.ref.team) * 2 ^ 4 + l.cx * l.cy * l.cz

/-- CLUSTER_MAP0 and CLUSTER_MAP1: the logical cores of four ranks (12 R181). -/
def clusterMap (s : State) (t : Team) (first : Nat) : Nat :=
  let l := launchOf s t
  let ts := clusterTeams l (clusterKey l t.ref.team)
  ((List.range 4).map (fun k =>
    match ts[first + k]? with
    | some u => (if u = t.ref.team then logicalOfPhys s t.epoch t.core else logicalCoreOf s l t.ref.launch u) * 2 ^ (16 * k)
    | none => 0)).foldl (· + ·) 0

/-- The team and group CSRs of 0x000 to 0x020. -/
def ownCsr (s : State) (t : Team) (g : Group) (n : Nat) : Option Nat :=
  let l := launchOf s t
  match n with
  | 0x000 => some t.ref.team
  | 0x001 => some (teamLanes l)
  | 0x002 => some l.gx
  | 0x003 => some l.gy
  | 0x004 => some l.gz
  | 0x005 => some g.role
  | 0x006 => some (clusterInfo s t)
  | 0x007 => some (clusterMap s t 0)
  | 0x008 => some (clusterMap s t 4)
  | 0x009 => some (0x7FF * 2 ^ 21 + t.winOff)
  | 0x00A => some t.winLen
  | 0x00B => some (t.tiles.length * 2 ^ 16 + t.units.length)
  | 0x00C => some t.fpxen.toNat
  | 0x00D => some ((if t.usedE then 2 else 0) + (if t.usedS then 1 else 0))
  | 0x010 => some (g.req * 2 ^ 32 + g.base * 2 ^ 16 + g.alloc)
  | 0x011 => some g.ovfRd.toNat
  | 0x012 => some g.ovfWr.toNat
  | 0x013 => some g.ovfMiss.toNat
  | 0x014 | 0x015 | 0x016 | 0x017 =>
    let w := mapGetD g.aw (n - 0x014) {}
    some (w.len.toNat * 2 ^ 16 + w.base.toNat)
  | 0x018 => some g.spinCnt.toNat
  | 0x019 => some g.spinLim.toNat
  | 0x01A => some g.spinRot.toNat
  | 0x01B => some g.spinPc.toNat
  | 0x01C | 0x01D | 0x01E | 0x01F | 0x020 => some (flagCsr g (n - 0x01C)).toNat
  | _ => none

/-- A CSR read by a group: its value, ILLEGAL_OPERAND for a reserved number, or PRIV for an HGRP CSR outside the firmware slot. -/
def csrRead (s : State) (t : Team) (g : Group) (n : Nat) : Except Code Nat :=
  let fw := isFirmwareSlot g.part g.slot
  let k := coreAt s t.core
  let r : Option Nat :=
    if n < 0x100 then ownCsr s t g n
    else if n < 0x400 then coreCsr s k n
    else if n = 0x400 ∨ n = 0x401 then some 0
    else if n = 0x402 then some (s.faultBase.toNat * 2 ^ 16)
    else if n = 0x403 then some s.faultNext
    else if n = 0x404 then some (k.hgrpSel.toNat)
    else if 0x420 ≤ n ∧ n < 0x438 then
      some (match selectedGroup s t.core with | some (_, h) => (mapGetD h.s (n - 0x420) 0#64).toNat | none => 0)
    else if 0x500 ≤ n ∧ fw = true then firmCsr s t.core n
    else none
  match r with
  | none => .error cIllegalOperand
  | some v => if (n = 0x404 ∨ (0x420 ≤ n ∧ n < 0x438)) ∧ fw = false then .error cPriv else .ok v

/-! ## Host sessions (25 R384) -/

/-- Whether a debug credential is firmware's or an owner's own. -/
def credOwns (c : Cred) (owner : Nat) : Bool :=
  match c with
  | .firmware => true
  | .owner n => n == owner

/-- Whether a credential covers the launch a tag names; tag 0 names none (DESIGN CHOICE, log 61). -/
def credTag (s : State) (c : Cred) (tag : Nat) : Bool :=
  c == .firmware || tag == 0 || s.launches.any (fun p => p.2.ltag == tag && credOwns c p.2.owner)

/-- Whether a host session may resolve a record: one of a launch under trap policy 1, or of the firmware slot (DEDUCED, log 30), whose owner its
credential covers, and no SYSCALL's, which an agent always serves (20 R316; 25 R384). A number that names no record is
ignored. -/
def hostResolves (s : State) (c : Cred) (core seq : Nat) : Bool :=
  match s.faultQ.find? (fun r => r.seq == seq && r.core == core && !r.resolved) with
  | none => true
  | some r => (r.tpol == 1 || r.ref.launch == 0) && credOwns c r.owner && !isSyscall r

/-- Whether a host session's credential covers a write of a CSR: a resolution, and a step, which is one, belong to the record's launch, the
other debug registers to DBG_LTAG's, the rest to none (DESIGN CHOICE, log 61). -/
def hostGrants (s : State) (cred : Cred) (c n v : Nat) : Bool :=
  if n = 0x400 ∨ n = 0x401 ∨ n = 0x532 then hostResolves s cred c v
  else if 0x520 ≤ n ∧ n ≤ 0x532 then
    credTag s cred (coreAt s c).dbgLtag.toNat && (n != 0x530 || credTag s cred (v % 0x10000))
  else true

/-- The LCR counters of a core, as one read returns them: the four counters of the 16 bins in CSR order, then the totals (03 R46; 25
R391). -/
def lcrCounters (s : State) (k : Core) : List Nat :=
  ((List.range 0x40).map (0x130 + ·) ++ (List.range 7).map (0x170 + ·)).map (fun n => (coreCsr s k n).getD 0)

/-! ## Writing -/

/-- THROT as CAP and the measured power leave it (25 R392). -/
def settleCap (s : State) : State := { s with throttled := decide (s.cap.toNat < s.meas.toNat) }

/-- A write that the firmware slot of a core or the host debug endpoint may make: LCR, export, Forage, fault and debug CSRs and the device
registers. Writes of read-only fields are ignored. -/
def corePut (s : State) (c : Nat) (n v : Nat) : State :=
  let up (f : Core → Core) : State := updCore s c f
  let low57 := v % 2 ^ 57
  if n = 0x100 then up (fun k => lcrWrite k v)
  else if 0x110 ≤ n ∧ n < 0x120 then
    up (fun k => { k with lcr := { k.lcr with
      base := mapSet k.lcr.base (n - 0x110) (BitVec.ofNat 64 ((if bit v 63 then 2 ^ 63 else 0) + low57)) 0#64 } })
  else if 0x120 ≤ n ∧ n < 0x130 then
    up (fun k => { k with lcr := { k.lcr with lim := mapSet k.lcr.lim (n - 0x120) (BitVec.ofNat 64 low57) 0#64 } })
  else if 0x200 ≤ n ∧ n < 0x220 then
    up (fun k =>
      let e := mapGetD k.expTable ((n - 0x200) / 2) {}
      let e1 : ExpEntry :=
        if n % 2 = 0 then { e with range := BitVec.ofNat 64 ((if bit v 63 then 2 ^ 63 else 0) + bits v 41 0) }
        else { e with ctl := BitVec.ofNat 64 (bits v 63 16 * 2 ^ 16 + bits v 1 0) }
      { k with expTable := mapSet k.expTable ((n - 0x200) / 2) e1 {} })
  else if n = 0x300 then up (fun k => forageWrite k v)
  else if n = 0x400 then resolveRecord s c v false
  else if n = 0x401 then resolveRecord s c v true
  else if n = 0x510 then
    { s with qidle := BitVec.ofNat 16 (max 1 (bits v 47 32)), age := BitVec.ofNat 16 (max 1 (bits v 15 0)) }
  else if n = 0x511 then
    { s with linkLim := BitVec.ofNat 16 (bits v 63 48), bankLim := BitVec.ofNat 16 (bits v 47 32)
             rowLim := BitVec.ofNat 16 (bits v 31 16), logInt := BitVec.ofNat 6 (max 24 (bits v 5 0)) }
  else if n = 0x513 then settleCap { s with cap := BitVec.ofNat 16 (max 400 (bits v 47 32)) }
  else s

/-- A write the host debug endpoint makes (25 R384): what `corePut` holds, and the debug registers; any other is not granted. -/
def hostPut (s : State) (c n v : Nat) : State :=
  if 0x520 ≤ n ∧ n < 0x530 then
    updCore s c (fun k =>
      { k with bps := mapSet k.bps (n - 0x520) (BitVec.ofNat 64 ((if bit v 63 then 2 ^ 63 else 0) + v % 2 ^ 57)) 0#64 })
  else if n = 0x530 then updCore s c (fun k => { k with dbgLtag := BitVec.ofNat 16 v })
  else if n = 0x531 then dbgHalt s c v
  else if n = 0x532 then dbgStep s c v
  else corePut s c n v

/-- A write by the firmware slot of a core to a CSR that is not its own team's or group's. FAULTQ_BASE is written once (20 R316). -/
def firmPut (s : State) (c n v : Nat) : Except Code State :=
  if n = 0x402 then
    if s.faultBaseSet then .error cPriv else .ok { s with faultBase := BitVec.ofNat 32 (bits v 47 16), faultBaseSet := true }
  else if n = 0x404 then
    .ok (updCore s c (fun k => { k with hgrpSel := BitVec.ofNat 64 (bits v 15 15 * 2 ^ 15 + bits v 6 0) }))
  else if 0x420 ≤ n ∧ n < 0x438 then
    .ok (match selectedGroup s c with
      | some (t, g) => updGroup s t.ref g.id (fun g => { g with s := mapSet g.s (n - 0x420) (BitVec.ofNat 64 v) 0#64 })
      | none => s)
  else if n = 0x500 then .ok (scanWrite s c v)
  else if 0x520 ≤ n ∧ n ≤ 0x532 then .error cIllegalOperand
  else .ok (corePut s c n v)

/-- A write to a team or group CSR; TEAM_FPXEN acts from the following clock (10 R168). -/
def ownPut (s : State) (t : Team) (g : Group) (n v : Nat) : State :=
  if n = 0x00C then updTeam s t.ref (fun t => { t with fpxenNext := some (BitVec.ofNat 5 v) })
  else if n = 0x019 then
    updGroup s t.ref g.id (fun g => { g with spinLim := BitVec.ofNat 16 (max 16 (bits v 15 0)) })
  else if 0x01C ≤ n ∧ n ≤ 0x020 then updGroup s t.ref g.id (fun g => clearFlag g (n - 0x01C) (BitVec.ofNat 64 v))
  else s

/-- Whether a write from outside the firmware slot faults PRIV: every register of 0x100 to 0x4FF but FAULTQ_NEXT (03 R46; 12 R182;
18, 19 R308; 20 R316, R329). CORE_SRAM_PASS is read-only, its writes are ignored. -/
def privWrite (n : Nat) : Bool := decide (0x100 ≤ n) && n != 0x403 && n != 0x176

/-- Whether an access of a group to a CSR is ILLEGAL_OPERAND: a reserved number, and a write of a debug register, which the host alone makes (20
R328; 25 R388). -/
def csrIllegal (s : State) (t : Team) (g : Group) (write : Bool) (n : Nat) : Bool :=
  (match csrRead s t g n with | .error c => c == cIllegalOperand | .ok _ => false) || (write && decide (0x520 ≤ n) && decide (n ≤ 0x532))

/-- A CSR written by a group: a reserved number is ILLEGAL_OPERAND, a privileged one, TEAM_FORAGE among them (18 R306), outside the
firmware slot PRIV (20 R328). -/
def csrWrite (s : State) (t : Team) (g : Group) (n v : Nat) : Except Code State :=
  let fw := isFirmwareSlot g.part g.slot
  match csrRead s t g n with
  | .error c => .error c
  | .ok _ =>
    if n = 0x00D then (if fw then .ok s else .error cPriv)
    else if n < 0x100 then .ok (ownPut s t g n v)
    else if fw then firmPut s t.core n v
    else if privWrite n then .error cPriv
    else .ok s

end Sys2Proof.Machine
end

