-- ==== Sys2Proof/Machine/System.lean ====
section
/-! DEFINITION. The system instructions (20 R327 to R331): CSRR, CSRW, SYSCALL, ERET, TRAP and BRK. -/
namespace Sys2Proof.Machine

/-- The CSR number of a form. -/
def csrNumber (f : Form) : Nat := immBits f 11 0

/-- An issue of a CSR instruction: ILLEGAL_OPERAND for its number comes before the faults found at operand read (04 R59; 07 R99; 20 R328). -/
def withCsr (o : Op) (f : Form) (s : State) (k : Issue → State) : Host.Outcome State Fault Refusal :=
  match issueOf s o f with
  | none => .fault .noIssuer
  | some i =>
    if csrIllegal s i.t i.g (o == .csrw) (csrNumber f) then .next (holdWhole s i i.m cIllegalOperand 7 0#57) else withIssue o f s k

/-- CSRR: a CSR to a scalar register. -/
def execCsrr (f : Form) (s : State) : Host.Outcome State Fault Refusal :=
  withCsr .csrr f s (fun i =>
    match csrRead s i.t i.g (csrNumber f) with
    | .error c => holdWhole s i i.m c 7 0#57
    | .ok v => putScalar (finishScalar s i (BitVec.ofNat 64 v)) i (f.d.toNat - 0x40) (BitVec.ofNat 64 v))

/-- CSRW: a 64-bit source to a CSR, field by field. -/
def execCsrw (f : Form) (s : State) : Host.Outcome State Fault Refusal :=
  withCsr .csrw f s (fun i =>
    match csrWrite s i.t i.g (csrNumber f) (s64 (scalarSrcs s i).a) with
    | .error c => holdWhole s i i.m c 7 0#57
    | .ok s1 => finishPlain s1 i)

/-- Lanes of a completed instruction that enter HOLD after it with one record: TRAP, BRK and SYSCALL (20 R316, R331). -/
def stopAfter (s : State) (i : Issue) (code : Code) (kind : Nat) (addr : BitVec 57) : State :=
  let s1 := finishPlain s i
  if i.on = 0#32 then s1
  else
    let s2 := updGroup s1 i.t.ref i.g.id (fun g =>
      { g with lease := g.lease.bind (fun le =>
          if le.mask &&& ~~~i.on = 0#32 then none else some { le with mask := le.mask &&& ~~~i.on }) })
    takeFaults s2 i.t i.g i.pc i.m 0#32 ((lanesOf i.on).map (fun l => { lane := l, code := code, kind := kind, addr := addr }))

/-- SYSCALL: the issue set holds with one TRAP record whose ADDR is 2^56 + n (20 R329). -/
def execSyscall (f : Form) (s : State) : Host.Outcome State Fault Refusal :=
  withIssue .syscall f s (fun i => stopAfter s i cTrap 9 (BitVec.ofNat 57 (2 ^ 56 + immBits f 15 0)))

/-- TRAP: guard-true lanes hold with one record (20 R331). -/
def execTrap (f : Form) (s : State) : Host.Outcome State Fault Refusal :=
  withIssue .trap f s (fun i => stopAfter s i cTrap 7 (BitVec.ofNat 57 (immBits f 15 0)))

/-- BRK (20 R331). -/
def execBrk (f : Form) (s : State) : Host.Outcome State Fault Refusal :=
  withIssue .brk f s (fun i => stopAfter s i cBreak 7 0#57)

/-- ERET: a record resolved from the firmware slot with resume or kill (20 R330). -/
def execEret (f : Form) (s : State) : Host.Outcome State Fault Refusal :=
  withIssue .eret f s (fun i =>
    if isFirmwareSlot i.g.part i.g.slot then
      resolveRecord (finishPlain s i) i.t.core (s64 (scalarSrcs s i).a) (immBits f 0 0 == 1)
    else holdWhole s i i.m cPriv 7 0#57)

end Sys2Proof.Machine
end

