-- ==== Sys2Proof/Machine/Matrix.lean ====
section
/-! DEFINITION. The matrix engine (15 R245 to R264; 11 R172, R173; 08 R110 to R113, R122): MXGO and MXV with their checks, the engine
queue, one K-step at a time, and ACCRD, ACCWR and ACCZERO. -/
namespace Sys2Proof.Machine

/-! ## Formats and extents (15 R245, R246, R249) -/

/-- Whether the accumulator of an A format is INT32. -/
def intAcc (a : Nat) : Bool := a == 0x0A || a == 0x0B

/-- The format pairs of R246. -/
def pairOk (a b : Nat) : Bool :=
  match a with
  | 0x01 => b == 0x01
  | 0x02 => b == 0x02
  | 0x03 | 0x04 | 0x05 | 0x06 | 0x07 => decide (3 ≤ b) && decide (b ≤ 7) || b == 9
  | 0x08 => b == 0x08
  | 0x0A | 0x0B => b == 0x0A || b == 0x0B || b == 9
  | _ => false

/-- Whether scale bits are allowed beside a pair. -/
def scalesOk (a b : Nat) (sa sb : Bool) : Bool :=
  (!sa || (takesScale a && !intAcc a)) && (!sb || (takesScale b && !intAcc a))

/-- Bytes of `n` packed elements (08 R111). -/
def packedBytes (fmt n : Nat) : Nat := if fmt = 9 then ceilDiv n 5 else ceilDiv (n * formatBits fmt) 8

/-- Bytes of one record of a sparse B. -/
def sparseBytes (fmt n : Nat) : Nat := 8 + 8 * ceilDiv (packedBytes fmt n) 8

/-- Bytes B takes for K rows of 64 columns. -/
def bExtent (fmt spn k : Nat) : Nat := if spn = 0 then k * packedBytes fmt 64 else k * sparseBytes fmt spn

/-- Clocks of one pass of up to 64 rows (15 R245). -/
def passClocks (a b spn : Nat) : Nat :=
  let small (c : Nat) : Bool := c == 5 || c == 6 || c == 7 || c == 8 || c == 9 || c == 0x0B
  let dense := if a = 1 ∨ a = 2 then 32 else if small a && small b then 8 else 16
  if spn = 0 then dense else dense / 2

/-- Element `i` of packed bytes read as a number; a TRI5 element is its digit. -/
def packedAt (fmt : Nat) (bs : List Byte) (i : Nat) : Nat :=
  if fmt = 9 then (bs[i / 5]?.getD 0#8).toNat / 3 ^ (i % 5) % 3
  else bytesNat bs / 2 ^ (i * formatBits fmt) % 2 ^ formatBits fmt

/-! ## The weight buffer and the accumulator of a team (15 R247, R248) -/

/-- The physical weight-buffer byte of a relative offset. -/
def wbPhys (t : Team) (o : Nat) : Nat := (t.units[o / Config.wbUnitBytes]?.getD 0) * Config.wbUnitBytes + o % Config.wbUnitBytes

/-- Bytes of the weight buffer from a relative offset. -/
def wbRead (s : State) (t : Team) (o n : Nat) : List Byte :=
  (List.range n).map (fun k => readByte (coreAt s t.core).wb (wbPhys t (o + k)))

/-- The sparsity tag of the page of a relative offset. -/
def wbTagAt (s : State) (t : Team) (o : Nat) : Nat := mapGetD (coreAt s t.core).wbTag (wbPhys t o / 4096) 0

/-- Bytes of a team's grant. -/
def wbGrant (t : Team) : Nat := t.units.length * Config.wbUnitBytes

/-- The place of an accumulator element of a team's relative tile. -/
def accKey (t : Team) (tile row col : Nat) : Nat := (t.tiles[tile]?.getD 0) * 4096 + row * 64 + col

/-- An accumulator element. -/
def accGet (s : State) (t : Team) (tile row col : Nat) : BitVec 32 := mapGetD (coreAt s t.core).acc (accKey t tile row col) 0#32

/-- An accumulator element written. -/
def accPut (s : State) (t : Team) (tile row col : Nat) (x : BitVec 32) : State :=
  updCore s t.core (fun k => { k with acc := mapSet k.acc (accKey t tile row col) x 0#32 })

/-! ## The checks at issue (15 R251, R258) -/

/-- A failed check: code, access kind (19 R393) and address. -/
structure MxFault where
  code : Code
  kind : Nat
  addr : BitVec 57 := 0#57
  deriving DecidableEq, Repr

/-- An SRAM operand of an engine operation: in the issuing core's slice, aligned, within one region. Its slice offset. -/
def engineSram (s : State) (t : Team) (a : BitVec 32) (n align : Nat) (write : Bool) : Except MxFault Nat :=
  let no (c : Code) : Except MxFault Nat := .error ⟨c, 3, a.setWidth 57⟩
  if a.toNat % align ≠ 0 then no cAlign
  else match sramPlace s t a with
  | none => no cSramProt
  | some (c, o) =>
    if c ≠ t.core then no cSramProt
    else match sramRegion s t c o n write with
    | none => no cSramProt
    | some r => if (launchOf s t).det && r != 0 && !isFixup s t c o n then no cDetAtomic else .ok o

/-- A check that fails with MX_FORMAT. -/
def mxFormat (ok : Bool) : Except MxFault Unit := if ok then .ok () else .error ⟨cMxFormat, 4, 0#57⟩
/-- A check that fails with MX_BOUNDS. -/
def mxBounds (ok : Bool) : Except MxFault Unit := if ok then .ok () else .error ⟨cMxBounds, 4, 0#57⟩

/-- The pages B covers carry one tag. -/
def oneTag (s : State) (t : Team) (o n : Nat) : Bool :=
  (List.range ((o + n - 1) / 4096 + 1 - o / 4096)).all (fun k => wbTagAt s t ((o / 4096 + k) * 4096) == wbTagAt s t o)

/-- The group table: rows and B offset of each entry, and whether its reserved field is 0 (15 R254). -/
def groupTable (s : State) (core o n : Nat) : List (Nat × Nat × Bool) :=
  (List.range n).map (fun g =>
    let w := bytesNat (sramRead s core (o + 8 * g) 8)
    (bits w 15 0, bits w 63 32, bits w 31 16 == 0))

/-- The handle of an AH block (15 R251, order 3). -/
def aHandleOf (t : Team) (ah : Bool) (a afmt k m : Nat) : Except MxFault (Option Handle) :=
  if !ah then .ok none
  else match mapGet t.handles (a % 64) with
  | none => .error ⟨cHandle, 4, 0#57⟩
  | some h =>
    if 64 ≤ a ∨ h.fmt ≠ afmt ∨ h.rank ≠ 2 ∨ (h.size[0]?.getD 0) < k ∨ (h.size[1]?.getD 0) < m then .error ⟨cHandle, 4, 0#57⟩
    else .ok (some h)

/-- The SRAM operands of order 4: A unless a handle holds it, its scales, the barrier and the group table (its offset), each with all of its checks
before the next (DESIGN CHOICE, log 71). -/
def engineOperands (s : State) (t : Team) (b : Nat) (ah sa : Bool) (m k afmt gcnt : Nat) : Except MxFault (Nat × Nat × Nat) := do
  let a ← if ah then .ok 0 else engineSram s t (BitVec.ofNat 32 (bits b 159 128)) (m * packedBytes afmt k) 16 false
  let sc ← if sa then engineSram s t (BitVec.ofNat 32 (bits b 287 256)) (m * (k / 32)) 1 false else .ok 0
  let _ ← engineSram s t (BitVec.ofNat 32 (bits b 351 320)) 8 8 true
  let g ← if gcnt = 0 then .ok 0 else engineSram s t (BitVec.ofNat 32 (bits b 415 384)) (gcnt * 8) 8 false
  pure (a, sc, g)

/-- The fields of an MXGO block that stand alone (15 R251, order 2; 11 R172). -/
def mxgoFields (b : Nat) : Bool :=
  bits b 63 56 == 0 && bits b 47 41 == 0 && bits b 31 28 == 0 && bits b 23 21 == 0 && bits b 15 13 == 0
    && bits b 127 96 == 0 && bits b 191 160 == 0 && bits b 255 224 == 0 && bits b 383 352 == 0 && bits b 447 432 == 0
    && bits b 511 448 == 0 && decide (bits b 3 0 ≤ 1) && bits b 55 48 == 64
    && decide (1 ≤ bits b 40 32) && decide (bits b 40 32 ≤ 256) && bits b 95 64 != 0 && bits b 95 64 % 64 == 0
    && pairOk (bits b 12 8) (bits b 20 16) && scalesOk (bits b 12 8) (bits b 20 16) (bit b 6) (bit b 7)
    && (bit b 6 || bits b 287 256 == 0) && (bit b 7 || bits b 319 288 == 0)
    && (if bits b 3 0 = 0 then bits b 431 416 == 0 && bits b 415 384 == 0
        else bits b 223 192 == 0 && decide (1 ≤ bits b 431 416) && decide (bits b 431 416 ≤ 1024))

/-- The checks of MXGO on its block in the order of R251, and the operation they accept. -/
def mxgoCheck (s : State) (t : Team) (addr : BitVec 32) (who : Nat × Nat × Nat × Pc) : Except MxFault EngineOp := do
  let p ← match sramCheck s t addr 64 false with
    | .ok p => .ok p
    | .error c => .error (⟨c, 3, addr.setWidth 57⟩ : MxFault)
  let b := bytesNat (sramRead s p.1 p.2 64)
  mxFormat (mxgoFields b)
  let m := bits b 40 32
  let k := bits b 95 64
  let afmt := bits b 12 8
  let bfmt := bits b 20 16
  let gcnt := bits b 431 416
  let dtile := bits b 27 24
  let h ← aHandleOf t (bit b 5) (bits b 159 128) afmt k m
  let q ← engineOperands s t b (bit b 5) (bit b 6) m k afmt gcnt
  let table := if bits b 3 0 = 0 then [(m, bits b 223 192, true)] else groupTable s t.core q.2.2 gcnt
  mxFormat (table.all (fun e => e.2.2))
  let rows := table.map (fun e => (e.1, e.2.1, if e.1 = 0 then 0 else wbTagAt s t e.2.1))
  let live := rows.filter (fun r => r.1 != 0)
  mxBounds (decide (dtile + ceilDiv m 64 ≤ t.tiles.length)
    && live.all (fun r => decide (r.2.1 < wbGrant t) && decide (r.2.1 + bExtent bfmt r.2.2 k ≤ wbGrant t))
    && (!bit b 7 || decide (bits b 319 288 + 64 * (k / 32) ≤ wbGrant t))
    && decide ((rows.map (fun r => r.1)).foldl (· + ·) 0 ≤ m))
  mxFormat (live.all (fun r => oneTag s t r.2.1 (bExtent bfmt r.2.2 k)))
  pure { ref := t.ref, mxv := false, part := who.1, gid := who.2.1, lane := who.2.2.1, pc := who.2.2.2, block := addr, acc := bit b 4,
         afmt := afmt, bfmt := bfmt, sa := bit b 6, sb := bit b 7, dtile := dtile, k := k, a := q.1, aHandle := h,
         ascl := q.2.1, bscl := bits b 319 288, bar := BitVec.ofNat 32 (bits b 351 320), rows := rows, bHandle := none }

/-- The fields of an MXV block that stand alone (15 R257, R258). -/
def mxvFields (b : Nat) : Bool :=
  bits b 63 48 == 0 && bits b 31 28 == 0 && bits b 23 13 == 0 && !bit b 7 && !bit b 5
    && bits b 127 96 == 0 && bits b 191 160 == 0 && bits b 255 198 == 0 && bits b 319 288 == 0 && bits b 383 352 == 0
    && bits b 511 384 == 0 && decide (1 ≤ bits b 3 0) && decide (bits b 3 0 ≤ 8)
    && bits b 47 32 % 64 == 0 && decide (64 ≤ bits b 47 32) && decide (bits b 47 32 ≤ 1024)
    && bits b 95 64 != 0 && bits b 95 64 % 64 == 0 && pairOk (bits b 12 8) (bits b 12 8)
    && scalesOk (bits b 12 8) (bits b 12 8) (bit b 6) false && (bit b 6 || bits b 287 256 == 0)

/-- The checks of MXV in the order of R251 with the additions of R258; the handle's SCBLK 32 counts as a scale bit of B (DESIGN CHOICE, log 71). -/
def mxvCheck (s : State) (t : Team) (addr : BitVec 32) (who : Nat × Nat × Nat × Pc) : Except MxFault EngineOp := do
  let p ← match sramCheck s t addr 64 false with
    | .ok p => .ok p
    | .error c => .error (⟨c, 3, addr.setWidth 57⟩ : MxFault)
  let b := bytesNat (sramRead s p.1 p.2 64)
  mxFormat (mxvFields b)
  let k := bits b 95 64
  let fmt := bits b 12 8
  let batch := bits b 3 0
  let panels := bits b 47 32 / 64
  let dtile := bits b 27 24
  let h ← match mapGet t.handles (bits b 197 192) with
    | some h => .ok h
    | none => .error (⟨cHandle, 4, 0#57⟩ : MxFault)
  mxFormat (pairOk fmt h.fmt && scalesOk fmt h.fmt (bit b 6) (h.scblk == 32))
  let q ← engineOperands s t b false (bit b 6) batch k fmt 0
  mxBounds (decide (dtile + panels ≤ t.tiles.length))
  let size := bExtent h.fmt h.spn k
  pure { ref := t.ref, mxv := true, part := who.1, gid := who.2.1, lane := who.2.2.1, pc := who.2.2.2, block := addr, acc := bit b 4,
         afmt := fmt, bfmt := h.fmt, sa := bit b 6, sb := h.scblk == 32, dtile := dtile, k := k, a := q.1, aHandle := none,
         ascl := q.2.1, bscl := 0, bar := BitVec.ofNat 32 (bits b 351 320),
         rows := (List.range panels).map (fun p => (batch, p * size, h.spn)), bHandle := some h }

/-- MXGO or MXV: once per issue for the lowest guard-true lane; while the queue holds 8 operations the group waits (15 R252). -/
def runEngine (mxv : Bool) (o : Op) (f : Form) (s : State) : Host.Outcome State Fault Refusal :=
  match issueOf s o f with
  | none => .fault .noIssuer
  | some i =>
    if 8 ≤ (coreAt s i.t.core).engine.length then .next s
    else withIssue o f s (fun i =>
      if i.noElect then finishPlain s i
      else
        let a := sramAddr f (electSrcs s i)
        let who := (i.g.part, i.g.id, lowest i.on, i.pc)
        match (if mxv then mxvCheck s i.t a who else mxgoCheck s i.t a who) with
        | .error e => holdSet s i e.code e.kind e.addr
        | .ok op => updCore (finishPlain s i) i.t.core (fun k => { k with engine := k.engine ++ [op] }))

/-- MXGO. -/
def execMxgo (f : Form) (s : State) : Host.Outcome State Fault Refusal := runEngine false .mxgo f s
/-- MXV. -/
def execMxv (f : Form) (s : State) : Host.Outcome State Fault Refusal := runEngine true .mxv f s

/-! ## One K-step (15 R249, R250, R253, R256) -/

/-- A fault found while a step is fetched: its code and address. -/
abbrev Fetch (α : Type) := Except (Code × BitVec 57) α

/-- One byte of global memory read by an engine operation for its team. -/
def engineByte (s : State) (t : Team) (va : Nat) : Fetch Byte :=
  match teamTranslate s t va .read with
  | .fault c => .error (c, BitVec.ofNat 57 va)
  | .hbm pa => .ok (hbmByte s (teamWorld s t).1 pa)
  | .peer d pl a => .ok (peerByteAt s d pl a)

/-- Bytes of global memory read by an engine operation, each translated by its own page (12 R176). -/
def engineGlobal (s : State) (t : Team) (va n : Nat) : Fetch (List Byte) :=
  (List.range n).mapM (fun k => engineByte s t ((va + k) % 2 ^ 57))

/-- The 64 elements of A's row `m` in K-step `step`. Through a handle element e stands e times the format's bits after BASE, also where a row begins inside
a packing group (DESIGN CHOICE, log 71: 08 R111 packs whole groups). -/
def aRow (s : State) (t : Team) (op : EngineOp) (m step : Nat) : Fetch (List Nat) :=
  match op.aHandle with
  | none =>
    let n := packedBytes op.afmt 64
    let bs := sramRead s t.core (op.a + m * packedBytes op.afmt op.k + step * n) n
    .ok ((List.range 64).map (packedAt op.afmt bs))
  | some h =>
    (List.range 64).mapM (fun j =>
      let e := (64 * step + j) * (h.stride[0]?.getD 0) + m * (h.stride[1]?.getD 0)
      let at' := e * formatBits op.afmt
      let n := (at' % 8 + formatBits op.afmt + 7) / 8
      match engineGlobal s t (vaOf h.base ((at' / 8 : Nat) : Int)) n with
      | .error x => .error x
      | .ok bs => .ok (bytesNat bs / 2 ^ (at' % 8) % 2 ^ formatBits op.afmt))

/-- Bytes of B: of the weight buffer, or of the stream of MXV. -/
def bBytes (s : State) (t : Team) (op : EngineOp) (o n : Nat) : Fetch (List Byte) :=
  match op.bHandle with
  | none => .ok (wbRead s t o n)
  | some h => engineGlobal s t (vaOf h.base ((o : Nat) : Int)) n

/-- MX_FORMAT while a step is fetched. -/
def badFormat {α : Type} : Fetch α := .error (cMxFormat, 0#57)

/-- Whether packed bytes hold a reserved TRI5 byte. -/
def triReserved (fmt : Nat) (bs : List Byte) : Bool := fmt == 9 && bs.any (fun b => decide (242 < b.toNat))

/-- Row `j` of a dense B in a step: its 64 columns. -/
def denseRow (s : State) (t : Team) (op : EngineOp) (boff step j : Nat) : Fetch (List Nat) :=
  let n := packedBytes op.bfmt 64
  match bBytes s t op (boff + (64 * step + j) * n) n with
  | .error x => .error x
  | .ok bs => if triReserved op.bfmt bs then badFormat else .ok ((List.range 64).map (packedAt op.bfmt bs))

/-- The expansion of a sparse record; an absent position is none, and its product is exactly zero whatever A holds (08 R113, R122). -/
def expandSparse (fmt mask : Nat) (bs : List Byte) : List (Option Nat) :=
  (List.range 64).map (fun k =>
    if bit mask k then some (packedAt fmt bs ((List.range k).filter (bit mask)).length) else none)

/-- Column `n` of a sparse B in a step: its 64 positions. -/
def sparseColumn (s : State) (t : Team) (op : EngineOp) (boff spn step n : Nat) : Fetch (List (Option Nat)) :=
  let size := sparseBytes op.bfmt spn
  match bBytes s t op (boff + (64 * step + n) * size) size with
  | .error x => .error x
  | .ok bs =>
    let mask := bytesNat (bs.take 8)
    let v := packedBytes op.bfmt spn
    let vals := (bs.drop 8).take v
    if ((List.range 64).filter (bit mask)).length ≠ spn ∨ ((bs.drop (8 + v)).any (fun b => b != 0#8)) = true
        ∨ triReserved op.bfmt vals = true then badFormat
    else .ok (expandSparse op.bfmt mask vals)

/-- B of a step as columns of 64 positions. -/
def bColumns (s : State) (t : Team) (op : EngineOp) (boff spn step : Nat) : Fetch (List (List (Option Nat))) :=
  if spn = 0 then
    match (List.range 64).mapM (denseRow s t op boff step) with
    | .error x => .error x
    | .ok rows => .ok ((List.range 64).map (fun n => rows.map (fun r => some (r[n]?.getD 0))))
  else (List.range 64).mapM (sparseColumn s t op boff spn step)

/-- The two scales of A's row `m` in a step; 0x7F without scales (08 R112). -/
def aScales (s : State) (t : Team) (op : EngineOp) (m step : Nat) : List Nat :=
  if op.sa then (sramRead s t.core (op.ascl + m * (op.k / 32) + 2 * step) 2).map BitVec.toNat else [0x7F, 0x7F]

/-- The scales of B in a step: two blocks of 64 columns. An MXV handle with SCBLK 32 and SCALE 0 has its scales at VA 0 (DESIGN CHOICE, log 71). -/
def bScales (s : State) (t : Team) (op : EngineOp) (panel step : Nat) : Fetch (List (List Nat)) :=
  if !op.sb then .ok [List.replicate 64 0x7F, List.replicate 64 0x7F]
  else [0, 1].mapM (fun j =>
    let o := 64 * (2 * step + j)
    let r : Fetch (List Byte) := match op.bHandle with
      | none => .ok (wbRead s t (op.bscl + o) 64)
      | some h => engineGlobal s t (vaOf h.scale ((panel * (64 * (op.k / 32)) + o : Nat) : Int)) 64
    match r with
    | .error x => .error x
    | .ok bs => .ok (bs.map BitVec.toNat))

/-- The value of a TRI5 digit (08 R108). -/
def triVal (d : Nat) : FVal := .num ⟨d == 2, if d = 0 then 0 else 1, 0⟩
/-- The value of a matrix element. -/
def elemVal (fmt x : Nat) : FVal := if fmt = 9 then triVal x else codeVal fmt x
/-- The integer of a matrix element. -/
def elemInt (fmt x : Nat) : Int :=
  if fmt = 9 then (if x = 2 then -1 else (x : Int)) else toSigned (formatBits fmt) x

/-- A group sum times two scales, exactly; a NaN scale makes it NaN. -/
def scaleSum (v : FVal) (sa sb : Nat) : FVal :=
  match codeVal 0x0D sa, codeVal 0x0D sb with
  | .num x, .num y =>
    match v with
    | .num z => .num (dyMul z (dyMul x y))
    | w => w
  | _, _ => .nan false

/-- One group of four K positions added to an accumulator element (08 R122). -/
def mxGroup (afmt bfmt : Nat) (acc : BitVec 32) (ps : List (Nat × Nat)) (sa sb : Nat) : BitVec 32 :=
  if intAcc afmt then
    acc + BitVec.ofInt 32 (ps.foldl (fun (x : Int) p => x + elemInt afmt p.1 * elemInt bfmt p.2) 0)
  else
    let sum := if afmt = 8 then sumLns ps else sumProducts (ps.map (fun p => (elemVal afmt p.1, elemVal bfmt p.2)))
    BitVec.ofNat 32 (fAdd 0 0 false 0#32 (floatVal 0 acc.toNat) (scaleSum sum sa sb)).bits

/-- The 16 groups of a step applied to one element; an absent position of a sparse column adds nothing to its group's sum. -/
def mxElement (afmt bfmt : Nat) (acc : BitVec 32) (row : List Nat) (col : List (Option Nat)) (sas sbs : List Nat) : BitVec 32 :=
  (List.range 16).foldl (fun a g =>
    let ps := (List.range 4).filterMap (fun j => (col[4 * g + j]?.getD none).map (fun b => (row[4 * g + j]?.getD 0, b)))
    mxGroup afmt bfmt a ps (sas[g / 8]?.getD 0x7F) (sbs[g / 8]?.getD 0x7F)) acc

/-- The rows before a group. -/
def firstRow (op : EngineOp) (g : Nat) : Nat := ((op.rows.take g).map (fun r => r.1)).foldl (· + ·) 0

/-- The tile and row of row `m` of group `g`: consecutive rows for MXGO, rows of tile DTILE + panel for MXV. -/
def outputRow (op : EngineOp) (g m : Nat) : Nat × Nat :=
  if op.mxv then (op.dtile + g, m) else (op.dtile + (firstRow op g + m) / 64, (firstRow op g + m) % 64)

/-- The elements a step commits: tile, row, column and value. Of several faults of its fetch the first is taken: A's rows, then B's rows or columns
ascending, then B's scales (DESIGN CHOICE, log 71). -/
def stepValues (s : State) (t : Team) (op : EngineOp) : Fetch (List (Nat × Nat × Nat × BitVec 32)) := do
  let r := op.rows[op.atGroup]?.getD (0, 0, 0)
  let first := if op.mxv then 0 else firstRow op op.atGroup
  let as ← (List.range r.1).mapM (fun m => aRow s t op (first + m) op.atStep)
  let bs ← bColumns s t op r.2.1 r.2.2 op.atStep
  let sc ← bScales s t op op.atGroup op.atStep
  pure ((as.zipIdx).flatMap (fun a =>
    let p := outputRow op op.atGroup a.2
    let sas := aScales s t op (first + a.2) op.atStep
    (bs.zipIdx).map (fun b =>
      let old := if op.atStep = 0 ∧ op.acc = false then 0#32 else accGet s t p.1 p.2 b.2
      (p.1, p.2, b.2, mxElement op.afmt op.bfmt old a.1 b.1 sas (sc.map (fun q => q[b.2]?.getD 0x7F))))))

/-- The next group at or after `g` that has rows; none when the operation has ended. -/
def nextGroup (op : EngineOp) (g : Nat) : Option Nat :=
  (List.range op.rows.length).find? (fun k => decide (g ≤ k) && (op.rows[k]?.getD (0, 0, 0)).1 != 0)

/-- Clocks of a step of the operation's present group. -/
def stepClocks (op : EngineOp) : Nat :=
  let r := op.rows[op.atGroup]?.getD (0, 0, 0)
  ceilDiv r.1 64 * passClocks op.afmt op.bfmt r.2.2

/-! ## The engine queue (15 R252 to R256, R264) -/

/-- The engine record of a fault (15 R256; 19 R307). -/
def engineRecord (s : State) (t : Team) (op : EngineOp) (code : Code) (addr : BitVec 57) : FaultRec :=
  { code := code, kind := 5, ltag := (launchOf s t).ltag, team := BitVec.ofNat 32 t.ref.team,
    lcore := logicalOfPhys s t.epoch t.core, part := ((groupOf t op.gid).map Group.part).getD op.part, group := op.gid, lanes := laneBit op.lane,
    pc := op.pc.extractLsb' 0 57, addr := addr, ref := t.ref, core := t.core, set := s.holdSets }

/-- A fault of an engine operation that ends its team. -/
def engineEnd (s : State) (t : Team) (op : EngineOp) (code : Code) (addr : BitVec 57) : State :=
  endTeam (postRecord { s with holdSets := s.holdSets + 1 } (engineRecord s t op code addr)) t.ref code (nextSeq s)

/-- The running operation of a core replaced, or removed. -/
def putRunning (s : State) (c : Nat) (op : Option EngineOp) : State :=
  updCore s c (fun k => { k with engine := k.engine.flatMap (fun o => if o.running then (op.map (fun x => [x])).getD [] else [o]) })

/-- The arrival of an operation on its barrier; one that breaks the barrier's rules ends the team with BARRIER (15 R253; 11 R170). -/
def engineArrive (s : State) (t : Team) (op : EngineOp) : State :=
  match sramPlace s t op.bar with
  | none => s
  | some (c, o) =>
    match barArrive (barWord s t c o) 0 with
    | none => engineEnd s t op cBarrier (op.bar.setWidth 57)
    | some w => barStore (tagRelease s t.core (granuleKeyOf c o)) t c o w

/-- PROG of an operation's block written (15 R255). -/
def putProg (s : State) (t : Team) (op : EngineOp) (v : Nat) : State :=
  match sramPlace s t op.block with
  | some (c, o) => sramStore s c (o + 0x38) (natBytes v 8)
  | none => s

/-- PROG of an interrupted operation: its group and next step. -/
def progWord (op : EngineOp) : Nat :=
  2 ^ 63 + (if op.mxv then op.atGroup * (op.k / 64) + op.atStep else op.atGroup * 2 ^ 32 + op.atStep)

/-- A running operation interrupted at a step boundary for a context save: PROG written, the operation kept with its team. -/
def engineInterrupt (s : State) (t : Team) (op : EngineOp) : State :=
  let s1 := putRunning (putProg s t op (progWord op)) t.core none
  updTeam s1 t.ref (fun t => { t with engSaved := { op with running := false, interrupted := true } :: t.engSaved })

/-- Whether a group stands at a pre-emption point with its results and accesses done (03 R35; 20 R323). -/
def groupStopped (g : Group) : Bool :=
  (g.freed || ((match g.lease with | none => true | some le => le.susp || g.req != 0)
    && g.sb.isEmpty && g.checking.isNone && g.promos.isEmpty)) && g.fences.isEmpty && g.ctr.accs.isEmpty && g.ctr.nt.isEmpty

/-- Whether a team's engine and bulk operations stop for its context save: its groups have stopped (15 R264; 16 R283; 20 R323). -/
def teamStops (t : Team) : Bool := t.vacating && t.groups.all groupStopped

/-- ENGINE_OP_START: the engine takes the next operation in acceptance order; one that resumes has PROG cleared, and one whose
groups are all empty arrives at once (15 R252, R254, R255). -/
def execEngineOpStart (core : Nat) (s : State) : Host.Outcome State Fault Refusal :=
  .next (match (coreAt s core).engine with
  | [] => s
  | op :: r =>
    if op.running then s
    else match teamAt s op.ref with
    | none => updCore s core (fun k => { k with engine := r })
    | some t =>
      if teamStops t then s
      else
      let s1 := if op.interrupted then putProg s t op 0 else s
      match nextGroup op op.atGroup with
      | none => engineArrive (updCore s1 core (fun k => { k with engine := r })) t op
      | some g =>
        let op1 := { op with running := true, interrupted := false, atGroup := g }
        updCore s1 core (fun k => { k with engine := { op1 with due := s.clk + stepClocks op1 } :: r }))

/-- The operation after a committed step. -/
def stepNext (op : EngineOp) : Option EngineOp :=
  if op.atStep + 1 < op.k / 64 then some { op with atStep := op.atStep + 1 }
  else (nextGroup op (op.atGroup + 1)).map (fun g => { op with atGroup := g, atStep := 0 })

/-- A committed step: the operation goes on, is interrupted, stops with its team, or arrives. -/
def stepDone (s : State) (t : Team) (op : EngineOp) : State :=
  let s0 := updTeam s t.ref (fun t => { t with moved := true })
  if op.stop then putRunning s0 t.core none
  else match stepNext op with
  | none => engineArrive (putRunning s0 t.core none) t op
  | some op1 =>
    if teamStops t then engineInterrupt s0 t op1
    else putRunning s0 t.core (some { op1 with due := s.clk + stepClocks op1 })

/-- ENGINE_STEP_COMMIT: every operand of the step is fetched and checked, then all its elements are committed at once. XLATE leaves the
operation waiting for its record; every other fault ends the team with nothing of the step written (15 R253, R256). -/
def execEngineStepCommit (core : Nat) (s : State) : Host.Outcome State Fault Refusal :=
  .next (match (coreAt s core).engine.find? EngineOp.running with
  | none => s
  | some op =>
    if op.stop && op.holdSet.isSome then putRunning s core none
    else if op.holdSet.isSome ∨ s.clk < op.due then s
    else match teamAt s op.ref with
    | none => putRunning s core none
    | some t =>
      match stepValues s t op with
      | .ok vs => stepDone (vs.foldl (fun s v => accPut s t v.1 v.2.1 v.2.2.1 v.2.2.2) s) t op
      | .error (c, a) =>
        if op.stop then putRunning s core none
        else if c = cXlate then
          let s1 := postRecord { s with holdSets := s.holdSets + 1 } (engineRecord s t op c a)
          putRunning s1 core (some { op with holdSet := some s.holdSets })
        else engineEnd (putRunning s core none) t op c a)

/-! ## The accumulator (15 R259 to R262) -/

/-- A lane's accumulator element by its index, or MX_BOUNDS. -/
def accAt (t : Team) (x : QWord) : Option (Nat × Nat × Nat) :=
  let n := read32 x
  if t.tiles.length * 4096 ≤ n then none else some (n / 4096, n / 64 % 64, n % 64)

/-- An accumulator access counted on the untagged counter, so that later fences cover it (15 R259; DESIGN CHOICE, log 63). -/
def countAcc (s : State) (i : Issue) (store : Bool) : State := countOn s i none store false 4

/-- ACCRD (15 R260). -/
def execAccrd (f : Form) (s : State) : Host.Outcome State Fault Refusal :=
  runActs .accrd f s (fun i s n l x =>
    match accAt i.t x.a with
    | none => (s, .hold cMxBounds 7 0 0#57)
    | some (t, r, c) =>
      let v := (accGet s i.t t r c).toNat
      (countAcc s i false, .done (if i.f.ty = 0x00#5 ∨ i.f.ty = 0x0C#5 then ⟨v, 0#5, 0⟩
        else fCvt i.f.ty.toNat 0 i.f.rm.toNat i.f.sat (laneHash i n l 0) (codeVal 0 v))))

/-- The 32 bits ACCWR writes (15 R261). -/
def accData (f : Form) (x : QWord) : BitVec 32 :=
  if f.ty = 0x01#5 ∨ f.ty = 0x02#5 then BitVec.ofNat 32 (widen f.ty.toNat (floatBits f.ty.toNat x)) else x.extractLsb' 0 32

/-- ACCWR. -/
def execAccwr (f : Form) (s : State) : Host.Outcome State Fault Refusal :=
  runActs .accwr f s (fun i s _ _ x =>
    match accAt i.t x.a with
    | none => (s, .hold cMxBounds 7 0 0#57)
    | some (t, r, c) => (countAcc (accPut s i.t t r c (accData i.f x.b)) i true, .done ⟨0, 0#5, 0⟩))

/-- The elements of a physical tile removed, so that they read 0. -/
def zeroTile (k : Core) (tile : Nat) : Core := { k with acc := k.acc.filter (fun p => p.1 / 4096 != tile) }

/-- ACCZERO (15 R262). -/
def execAcczero (f : Form) (s : State) : Host.Outcome State Fault Refusal :=
  withIssue .acczero f s (fun i =>
    let ts := (List.range 16).filter (fun n => bit (immBits f 15 0) n)
    if i.on = 0#32 then finishPlain s i
    else if ts.any (fun n => decide (i.t.tiles.length ≤ n)) then holdSet s i cMxBounds 7 0#57
    else updCore (finishPlain (countAcc s i true) i) i.t.core (fun k => ts.foldl (fun k n => zeroTile k (i.t.tiles[n]?.getD 0)) k))

end Sys2Proof.Machine
end

