-- ==== Sys2Proof/Machine/Transfer.lean ====
section
/-! DEFINITION. Transfer programs (16 R265 to R285): the processor, arithmetic and loops, memory access, bulk operations, arrivals, waits,
fences and publication, their faults, and starting and signalling from compute groups. -/
namespace Sys2Proof.Machine

/-! ## The processor (16 R265 to R267, R282) -/

/-- The slice offset of a processor's program window. -/
def programWindow (proc : Nat) : Nat := 0x1F0000 + proc * 0x1000

/-- A general register. -/
def cReg (x : XProg) (n : BitVec 4) : BitVec 64 := mapGetD x.c n.toNat 0#64
/-- A program with a general register written. -/
def putC (n : BitVec 4) (v : BitVec 64) (x : XProg) : XProg := { x with c := mapSet x.c n.toNat v 0#64 }
/-- A loop counter. -/
def kReg (x : XProg) (n : BitVec 2) : BitVec 32 := mapGetD x.k n.toNat 0#32
/-- A program with a loop counter written. -/
def putK (n : BitVec 2) (v : BitVec 32) (x : XProg) : XProg := { x with k := mapSet x.k n.toNat v 0#32 }

/-- An instruction run by the transfer program of `cur`. -/
def withProg (s : State) (k : Team → XProg → State) : Host.Outcome State Fault Refusal :=
  match s.cur with
  | .prog p => match progAt s p with | some (t, x) => .next (k t x) | none => .fault .noIssuer
  | _ => .fault .noIssuer

/-- A fault that ends the team of a program: TX_FAULT with its cause, or DET_ATOMIC (16 R282; 24 R375). -/
def xEnd (s : State) (t : Team) (x : XProg) (cause : Code) (addr : Nat) : State :=
  if cause = cDetAtomic then takeProgFault s t x x.xpc cDetAtomic 0#8 (BitVec.ofNat 57 addr)
  else takeProgFault s t x x.xpc cTxFault cause (BitVec.ofNat 57 addr)

/-- An access fault of a program's own instruction: XLATE holds it at the instruction, another ends the team (16 R282). -/
def xFault (s : State) (t : Team) (x : XProg) (c : Code) (addr : Nat) : State :=
  if c = cXlate then holdProg s t x cXlate (BitVec.ofNat 57 addr) else xEnd s t x c addr

/-- A program moved to a word: outside 0 to 1,023 its team ends with ILLEGAL_FORM (16 R270). -/
def xGo (s : State) (t : Team) (x : XProg) (at' : Int) (f : XProg → XProg) : State :=
  if 0 ≤ at' ∧ at' ≤ 1023 then updProg s t.ref x.n (fun p => { f p with xpc := at'.toNat, lastIssue := some s.clk })
  else xEnd (updProg s t.ref x.n (fun p => { f p with lastIssue := some s.clk })) t x cIllegalForm 0

/-- A program moved past its instruction of `n` words. -/
def xNext (s : State) (t : Team) (x : XProg) (n : Nat) (f : XProg → XProg) : State := xGo s t x (x.xpc + n) f

/-! ## Arithmetic, constants, counters, branches (16 R271 to R273) -/

/-- The second operand of format A. -/
def aOperand (x : XProg) (f : AForm) : BitVec 64 :=
  if f.i then f.m.signExtend 64 else cReg x (f.m.extractLsb' 13 4)

/-- A format-A instruction. -/
def runA (f : AForm) (s : State) (fn : BitVec 64 → BitVec 64 → BitVec 64) : Host.Outcome State Fault Refusal :=
  withProg s (fun t x => xNext s t x 1 (putC f.d (fn (cReg x f.a) (aOperand x f))))

/-- XADD. -/
def execXadd (f : AForm) (s : State) : Host.Outcome State Fault Refusal := runA f s (fun a b => a + b)
/-- XSUB. -/
def execXsub (f : AForm) (s : State) : Host.Outcome State Fault Refusal := runA f s (fun a b => a - b)
/-- XMUL. -/
def execXmul (f : AForm) (s : State) : Host.Outcome State Fault Refusal := runA f s (fun a b => a * b)
/-- XAND. -/
def execXand (f : AForm) (s : State) : Host.Outcome State Fault Refusal := runA f s (fun a b => a &&& b)
/-- XIOR. -/
def execXior (f : AForm) (s : State) : Host.Outcome State Fault Refusal := runA f s (fun a b => a ||| b)
/-- XXOR. -/
def execXxor (f : AForm) (s : State) : Host.Outcome State Fault Refusal := runA f s (fun a b => a ^^^ b)
/-- XSHL: 0 from 64 on. -/
def execXshl (f : AForm) (s : State) : Host.Outcome State Fault Refusal :=
  runA f s (fun a b => if 64 ≤ b.toNat then 0#64 else a <<< b.toNat)
/-- XSHR: 0 from 64 on. -/
def execXshr (f : AForm) (s : State) : Host.Outcome State Fault Refusal :=
  runA f s (fun a b => if 64 ≤ b.toNat then 0#64 else a >>> b.toNat)
/-- XSAR: bit 63 everywhere from 64 on. -/
def execXsar (f : AForm) (s : State) : Host.Outcome State Fault Refusal := runA f s (fun a b => a.sshiftRight (min b.toNat 64))

/-- XMOV: a 16-bit field, every other bit 0. -/
def execXmov (d : BitVec 4) (h : BitVec 2) (v : BitVec 16) (s : State) : Host.Outcome State Fault Refusal :=
  withProg s (fun t x => xNext s t x 1 (putC d (v.setWidth 64 <<< (16 * h.toNat))))
/-- XMOVK: a 16-bit field, the others kept. -/
def execXmovk (d : BitVec 4) (h : BitVec 2) (v : BitVec 16) (s : State) : Host.Outcome State Fault Refusal :=
  withProg s (fun t x =>
    xNext s t x 1 (putC d ((cReg x d &&& ~~~((0xFFFF#64) <<< (16 * h.toNat))) ||| (v.setWidth 64 <<< (16 * h.toNat)))))
/-- XSETK: a counter from a constant or a register. -/
def execXsetk (n : BitVec 2) (i : Bool) (m : BitVec 23) (s : State) : Host.Outcome State Fault Refusal :=
  withProg s (fun t x =>
    xNext s t x 1 (putK n (if i then (cReg x (m.extractLsb' 0 4)).extractLsb' 0 32 else m.setWidth 32)))
/-- XRDK: a counter zero-extended to a register. -/
def execXrdk (d : BitVec 4) (n : BitVec 2) (s : State) : Host.Outcome State Fault Refusal :=
  withProg s (fun t x => xNext s t x 1 (putC d ((kReg x n).setWidth 64)))

/-- Whether a condition of XB holds. -/
def xCond (cond : BitVec 3) (a b : BitVec 64) : Bool :=
  match cond.toNat with
  | 0 => true
  | 1 => a == b
  | 2 => a != b
  | 3 => a.slt b
  | 4 => !a.slt b
  | 5 => a.ult b
  | _ => !a.ult b

/-- XB. -/
def execXb (a b : BitVec 4) (cond : BitVec 3) (o : BitVec 11) (s : State) : Host.Outcome State Fault Refusal :=
  withProg s (fun t x => xGo s t x (if xCond cond (cReg x a) (cReg x b) then x.xpc + o.toInt else x.xpc + 1) id)
/-- XLOOP: the counter less one unless it is 0; branches while it is not 0. -/
def execXloop (n : BitVec 2) (o : BitVec 11) (s : State) : Host.Outcome State Fault Refusal :=
  withProg s (fun t x =>
    let k := if kReg x n = 0#32 then 0#32 else kReg x n - 1
    xGo s t x (if k = 0#32 then (x.xpc : Int) + 1 else x.xpc + o.toInt) (putK n k))
/-- XNOP. -/
def execXnop (s : State) : Host.Outcome State Fault Refusal := withProg s (fun t x => xNext s t x 1 id)

/-! ## Memory access (16 R274; 13 R199, R200) -/

/-- An access of a program counted from now; `plain` for XLD and XST. -/
def countX (s : State) (t : Team) (x : XProg) (tag : Option RangeTag) (store peer plain : Bool) (due : Nat) : State :=
  updProg s t.ref x.n (fun p =>
    let c := countAccess p.ctr tag store peer s.clk (s.clk + due)
    { p with ctr := { c with accs := c.accs.mapIdx (fun k a => if k = p.ctr.accs.length then { a with plain := plain } else a) } })

/-- A read of a program that meets another core's tag asks for a promotion (13 R199); `tag` is 0, or one more than the number of the bulk
operation whose index it reads. -/
def xReadTagged (s : State) (t : Team) (x : XProg) (key : Nat × Nat) (tag : Nat := 0) : State :=
  updProg s t.ref x.n (fun q => { q with promos := q.promos ++ askPromo s t.core tag key })

/-- A store of a program after a completed XFENCE at CORE or CLUSTER scope is a release at that scope (13 R196). -/
def xStoreTag (s : State) (t : Team) (x : XProg) (key : Nat × Nat) : State :=
  if x.fenced.contains 2 || x.fenced.contains 3 then tagRelease s t.core key else s

/-- An arrival or fill in the slice of its own core releases at CORE scope (13 R197). -/
def xArrivalTag (s : State) (t : Team) (c o : Nat) : State := if c = t.core then tagRelease s t.core (granuleKeyOf c o) else s

/-- The address of XLD and XST: base and signed offset in the space SP names. -/
def xAddr (x : XProg) (f : MForm) : Nat :=
  if f.sp then ((cReg x f.b).extractLsb' 0 32 + BitVec.ofInt 32 f.o.toInt).toNat else vaOf (cReg x f.b) f.o.toInt

/-- Bytes of a W code. -/
def xWidth (w : BitVec 2) : Nat := 2 ^ w.toNat

/-- A global source of a bulk operation translated; published buffers resolve to the fronts at its start (12 R191). -/
def bulkSource (s : State) (t : Team) (fronts : List (Nat × Nat)) (va : Nat) : Xl :=
  match teamTranslate s t va .read with
  | .fault c => .fault c
  | x =>
    match findPage s (teamWorld s t).1 va with
    | some p =>
      match p.target with
      | .published e pg =>
        match mapGet fronts e with
        | some fr => .hbm (fr + pg * 0x10000 + (va - p.va))
        | none => x
      | _ => x
    | none => x

/-- The fronts an operation reads published buffers through: those at its start, or those of now. -/
def opFronts (s : State) (op : BulkOp) : List (Nat × Nat) := op.fronts.getD (s.published.map (fun p => (p.1, p.2.front)))

/-- The 16-byte unit a translated address lies in. -/
def xlUnit (x : Xl) : Option (Nat × Nat × Nat) :=
  match x with
  | .fault _ => none
  | .hbm pa => some (0, 0, pa / 16)
  | .peer d _ a => some (1, d, a / 16)

/-- The 16-byte unit of a slice. -/
def sliceUnit (c o : Nat) : Option (Nat × Nat × Nat) := some (2, c, o / 16)

/-- The 16-byte unit a source address of an operation names: two addresses of one byte name one unit (12 R176, R179). -/
def sourceUnit (s : State) (t : Team) (op : BulkOp) (a : Nat) : Option (Nat × Nat × Nat) :=
  if op.srcSpace = 0 then xlUnit (bulkSource s t (opFronts s op) a) else (sramPlace s t (BitVec.ofNat 32 a)).bind (fun q => sliceUnit q.1 q.2)

/-- The 16-byte unit a destination address of an operation names. -/
def destUnit (s : State) (t : Team) (op : BulkOp) (a : Nat) : Option (Nat × Nat × Nat) :=
  match op.dstSpace with
  | 0 => xlUnit (teamTranslate s t a .write)
  | 1 => (sramPlace s t (BitVec.ofNat 32 a)).bind (fun q => sliceUnit q.1 q.2)
  | _ => some (3, t.core, wbPhys t a / 16)

/-- Whether a queued operation of the program still has to write a unit. -/
def queueWrites (s : State) (t : Team) (x : XProg) (p : Option (Nat × Nat × Nat)) : Bool :=
  p.isSome && x.queue.any (fun o => o.units.any (fun u => destUnit s t o u.2 == p))
/-- Whether a queued operation of the program still has to read a unit. -/
def queueReads (s : State) (t : Team) (x : XProg) (p : Option (Nat × Nat × Nat)) : Bool :=
  p.isSome && x.queue.any (fun o => o.units.any (fun u => sourceUnit s t o u.1 == p))

/-- A load of a program to a register: its value, zero-extended, arrives after 20 clk or more. It waits for an earlier bulk operation
that writes its location (13 R194). -/
def xLoad (s : State) (t : Team) (x : XProg) (sp : Bool) (a w : Nat) (d : BitVec 4) : State :=
  let done (s : State) (v due : Nat) : State :=
    xNext s t x 1 (fun p =>
      { putC d (BitVec.ofNat 64 v) p with loads := p.loads.filter (fun q => q.1 != d.toNat) ++ [(d.toNat, s.clk + due)] })
  if sp then
    match sramCheck s t (BitVec.ofNat 32 a) w false with
    | .error c => xFault s t x c a
    | .ok (c, o) =>
      if queueWrites s t x (sliceUnit c o) then s
      else
        let due := sliceDelay t.core c
        let s1 := xReadTagged (countX s t x (some (sramTag (BitVec.ofNat 32 a))) false false true due) t x (granuleKeyOf c o)
        done s1 (bytesNat (sramRead s c o w)) due
  else
    match globalCheck s t a w .read with
    | .error c => xFault s t x c a
    | .ok p =>
      if queueWrites s t x (xlUnit p) then s
      else
        let r := readPlace s (teamWorld s t).1 p w
        let s1 := countX r.2 t x (some (globalTag a)) false (isPeer p) true (accessDue p)
        done (match placeKey p with | some k => xReadTagged s1 t x k | none => s1) r.1 20

/-- XLD. -/
def execXld (f : MForm) (s : State) : Host.Outcome State Fault Refusal :=
  withProg s (fun t x => xLoad s t x f.sp (xAddr x f) (xWidth f.w) f.c)

/-- XLDX: the element of a list at base + index × width. -/
def execXldx (c b : BitVec 4) (w : BitVec 2) (sp : Bool) (ix : BitVec 4) (s : State) : Host.Outcome State Fault Refusal :=
  withProg s (fun t x =>
    let a := cReg x b + cReg x ix * BitVec.ofNat 64 (xWidth w)
    xLoad s t x sp (if sp then a.toNat % 2 ^ 32 else a.toNat % 2 ^ 57) (xWidth w) c)

/-- XST: the low bits of a register stored. A granule's bit stays (12 R187). It waits for an earlier bulk operation that reads or writes
its location (13 R194). -/
def execXst (f : MForm) (s : State) : Host.Outcome State Fault Refusal :=
  withProg s (fun t x =>
    let a := xAddr x f
    let w := xWidth f.w
    let v := (cReg x f.c).toNat
    if f.sp then
      match sramCheck s t (BitVec.ofNat 32 a) w true with
      | .error c => xFault s t x c a
      | .ok (c, o) =>
        if queueWrites s t x (sliceUnit c o) || queueReads s t x (sliceUnit c o) then s
        else
          let s1 := sramStore (xStoreTag s t x (granuleKeyOf c o)) c o (natBytes v w)
          xNext (countX s1 t x (some (sramTag (BitVec.ofNat 32 a))) true false true (sliceDelay t.core c)) t x 1 id
    else
      match globalCheck s t a w .write with
      | .error c => xFault s t x c a
      | .ok p =>
        if queueWrites s t x (xlUnit p) || queueReads s t x (xlUnit p) then s
        else
          let s1 := match placeKey p with | some k => xStoreTag s t x k | none => s
          let s2 := writePlace s1 (teamWorld s t).1 p w v
          xNext (countX s2 t x (some (globalTag a)) true (isPeer p) true (accessDue p)) t x 1 id)

/-! ## XADDR (16 R275) -/

/-- Elements of a packing group whose first byte an address names. -/
def packGroup (fmt : Nat) : Nat :=
  match fmt with
  | 5 | 6 | 8 => 4
  | 7 | 0x0B => 2
  | 9 => 5
  | _ => 1

/-- The byte of element `e`. -/
def byteOf (fmt e : Nat) : Nat := if fmt = 9 then e / 5 else e * formatBits fmt / 8

/-- XADDR: the address of a tensor element. -/
def execXaddr (d : BitVec 4) (h : BitVec 6) (i : BitVec 4) (n : BitVec 3) (s : State) : Host.Outcome State Fault Refusal :=
  withProg s (fun t x =>
    match mapGet t.handles h.toNat with
    | none => xEnd s t x cHandle 0
    | some hd =>
      let ix := (List.range n.toNat).map (fun j => (cReg x (i + BitVec.ofNat 4 j)).toNat)
      if (ix.zipIdx).any (fun p => decide ((hd.size[p.2]?.getD 0) ≤ p.1)) then xEnd s t x cHandle 0
      else
        let e := ((ix.zipIdx).map (fun p => p.1 * (hd.stride[p.2]?.getD 0))).foldl (· + ·) 0
        if e % packGroup hd.fmt ≠ 0 then xEnd s t x cAlign 0
        else xNext s t x 1 (putC d (BitVec.ofNat 64 ((hd.base.toNat + byteOf hd.fmt e) % 2 ^ 57))))

/-! ## Bulk operations (16 R276 to R278; 15 R248) -/

/-- The source and destination spaces of a MODE. -/
def modeSpaces (m : BitVec 3) : Nat × Nat :=
  match m.toNat with
  | 0 => (0, 1)
  | 1 => (0, 2)
  | 2 => (1, 1)
  | _ => (1, 0)

/-- An address reduced to its space. -/
def spaceAddr (space : Nat) (a : Int) : Nat := if space = 0 then wrap 57 a else wrap 32 a

/-- The tag of a destination byte of a bulk operation (13 R200). -/
def destTag (space a : Nat) : RangeTag :=
  if space = 0 then globalTag a else if space = 1 then sramTag (BitVec.ofNat 32 a) else ⟨2, a / 4096 * 4096, 4096, 0⟩

/-- Whether a destination address of a bulk operation lies on a peer device's page. -/
def bulkPeer (s : State) (t : Team) (op : BulkOp) (a : Nat) : Bool := op.dstSpace == 0 && isPeer (teamTranslate s t a .write)

/-- The destination writes of a bulk operation counted, one for each block they reach, until they are performed at SYSTEM scope; those to a
peer device apart (25 R387). -/
def countBulk (s : State) (t : Team) (p : XProg) (op : BulkOp) : XProg :=
  let tags := (op.units.map (fun u => (destTag op.dstSpace u.2, bulkPeer s t op u.2))).eraseDups
  tags.foldl (fun p g =>
    let c := countAccess p.ctr (some g.1) true g.2 s.clk (s.clk + (if g.2 then 400 else 20))
    { p with ctr := { c with accs := c.accs.mapIdx (fun k a =>
        if k = p.ctr.accs.length then { a with bulk := some op.num } else a) } }) p

/-- A bulk operation put in the queue; one of no bytes moves and credits nothing. -/
def queueBulk (s : State) (t : Team) (x : XProg) (op : BulkOp) : State :=
  xNext s t x 2 (fun p =>
    if op.units.isEmpty then p
    else { countBulk s t p op with queue := p.queue ++ [op], bulkNext := p.bulkNext + 1 })

/-- The barrier address of format X, or its fault: 8-byte aligned and reachable with the W bit. -/
def bulkBarrier (s : State) (t : Team) (x : XProg) (f : XForm) : Except Code (BitVec 32) :=
  let a := (cReg x f.bar).extractLsb' 0 32 + BitVec.ofNat 32 (8 * f.off.toNat)
  match sramCheck s t a 8 true with
  | .error c => .error c
  | .ok _ => .ok a

/-- The 16-byte units of `n` bytes. -/
def unitsOf (srcSpace dstSpace src dst n : Nat) : List (Nat × Nat) :=
  (List.range (n / 16)).map (fun k =>
    (spaceAddr srcSpace ((src + 16 * k : Nat) : Int), spaceAddr dstSpace ((dst + 16 * k : Nat) : Int)))

/-- XCOPY: its checks at issue, then the operation in the queue. -/
def execXcopy (f : XForm) (g : CopyWord) (s : State) : Host.Outcome State Fault Refusal :=
  withProg s (fun t x =>
    if 1023 ≤ x.xpc then xEnd s t x cIllegalForm 0
    else if 8 ≤ x.queue.length then s
    else
      let m := modeSpaces f.mode
      let len := if g.lr then (cReg x (g.len.extractLsb' 0 4)).toNat else 64 * g.len.toNat
      let handle := mapGet t.handles (g.soff.extractLsb' 0 6).toNat
      if g.sh && handle.isNone then xEnd s t x cHandle 0
      else
        let dst : Int := (if g.dz then 0 else ((cReg x f.dst).toNat : Int)) + 16 * g.doff.toInt
        let src : Int :=
          if g.sh then (((match handle with | some h => h.base.toNat | none => 0) + (cReg x f.src).toNat : Nat) : Int)
          else ((cReg x f.src).toNat : Int) + 16 * g.soff.toInt
        let d := spaceAddr m.2 dst
        let sa := spaceAddr m.1 src
        if sa % 16 ≠ 0 then xEnd s t x cAlign sa
        else if d % 16 ≠ 0 then xEnd s t x cAlign d
        else if len % 16 ≠ 0 then xEnd s t x cAlign 0
        else match bulkBarrier s t x f with
        | .error c => xEnd s t x c (((cReg x f.bar).toNat + 8 * f.off.toNat) % 2 ^ 32)
        | .ok bar =>
          if m.2 = 2 ∧ (dst < 0 ∨ (wbGrant t : Int) < dst + (len : Int)) then xEnd s t x cMxBounds d
          else
            queueBulk s t x
              { num := x.bulkNext, srcSpace := m.1, dstSpace := m.2, xpc := x.xpc, bar := bar,
                units := unitsOf m.1 m.2 sa d len,
                tag := if g.sh then (match handle with | some h => h.spn | none => 0) else 0 })

/-- The rows of a gather or scatter: the indices read in ascending order, or the first fault. -/
def readIndices (s : State) (t : Team) (a : BitVec 64) (n : Nat) : Except (Code × Nat) (List Nat) :=
  (List.range n).mapM (fun i =>
    let p := (a + BitVec.ofNat 64 (4 * i)).extractLsb' 0 32
    match sramCheck s t p 4 false with
    | .error c => .error (c, p.toNat)
    | .ok (c, o) => .ok (bytesNat (sramRead s c o 4)))

/-- Whether an earlier bulk operation of the program still has to write an index (13 R194). -/
def indexWaits (s : State) (t : Team) (x : XProg) (a : BitVec 64) (n : Nat) : Bool :=
  (List.range n).any (fun i =>
    match sramPlace s t ((a + BitVec.ofNat 64 (4 * i)).extractLsb' 0 32) with
    | some (c, o) => queueWrites s t x (sliceUnit c o)
    | none => false)

/-- The index reads of a gather or scatter counted, with the promotions they ask for. -/
def countIndices (s : State) (t : Team) (x : XProg) (a : BitVec 64) (n : Nat) : State :=
  (List.range n).foldl (fun s i =>
    let p := (a + BitVec.ofNat 64 (4 * i)).extractLsb' 0 32
    match sramPlace s t p with
    | some (c, o) => xReadTagged (countX s t x (some (sramTag p)) false false false (sliceDelay t.core c)) t x (granuleKeyOf c o) (x.bulkNext + 1)
    | none => s) s

/-- The clocks after which the index reads have been delivered, 20 at least (16 R267). -/
def indexDelay (s : State) (t : Team) (a : BitVec 64) (n : Nat) : Nat :=
  (List.range n).foldl (fun m i =>
    match sramPlace s t ((a + BitVec.ofNat 64 (4 * i)).extractLsb' 0 32) with
    | some (c, _) => max m (sliceDelay t.core c)
    | none => m) 20

/-- XGATH and XSCAT: `gather` says whether the index chooses the source. The indices are read after what earlier bulk operations write there,
and rows move once they are delivered. -/
def runRows (gather : Bool) (f : XForm) (g : RowWord) (s : State) : Host.Outcome State Fault Refusal :=
  withProg s (fun t x =>
    if 1023 ≤ x.xpc then xEnd s t x cIllegalForm 0
    else if 8 ≤ x.queue.length then s
    else
      let m := modeSpaces f.mode
      let row := 16 * g.row.toNat
      let src := (cReg x f.src).toNat
      let dst := (cReg x f.dst).toNat
      if src % 16 ≠ 0 then xEnd s t x cAlign (spaceAddr m.1 src)
      else if dst % 16 ≠ 0 then xEnd s t x cAlign (spaceAddr m.2 dst)
      else match bulkBarrier s t x f with
      | .error c => xEnd s t x c (((cReg x f.bar).toNat + 8 * f.off.toNat) % 2 ^ 32)
      | .ok bar =>
        match readIndices s t (cReg x g.idx) (cReg x g.cnt).toNat with
        | .error (c, a) => xFault s t x c a
        | .ok is =>
          if indexWaits s t x (cReg x g.idx) is.length then s
          else queueBulk (countIndices s t x (cReg x g.idx) is.length) t x
            { num := x.bulkNext, srcSpace := m.1, dstSpace := m.2, xpc := x.xpc, bar := bar
              units := (is.zipIdx).flatMap (fun p =>
                if gather then unitsOf m.1 m.2 (src + p.1 * row) (dst + p.2 * row) row
                else unitsOf m.1 m.2 (src + p.2 * row) (dst + p.1 * row) row)
              start := s.clk + indexDelay s t (cReg x g.idx) is.length })

/-- XGATH. -/
def execXgath (f : XForm) (g : RowWord) (s : State) : Host.Outcome State Fault Refusal := runRows true f g s
/-- XSCAT. -/
def execXscat (f : XForm) (g : RowWord) (s : State) : Host.Outcome State Fault Refusal := runRows false f g s

/-- The 16 bytes of a unit's source, or its fault. -/
def unitRead (s : State) (t : Team) (op : BulkOp) (fronts : List (Nat × Nat)) (a : Nat) : Except Code (Nat × State) :=
  if op.srcSpace = 0 then
    match bulkSource s t fronts a with
    | .fault c => .error c
    | p => .ok (readPlace s (teamWorld s t).1 p 16)
  else
    match sramCheck s t (BitVec.ofNat 32 a) 16 false with
    | .error c => .error c
    | .ok (c, o) => .ok (bytesNat (sramRead s c o 16), s)

/-- The 16 bytes written at a unit's destination: its granule FULL in SRAM, its page tagged in the weight buffer. -/
def unitWrite (s : State) (t : Team) (op : BulkOp) (a v : Nat) : Except Code State :=
  if op.dstSpace = 0 then
    match teamTranslate s t a .write with
    | .fault c => .error c
    | p => if detPeer s t p then .error cDetAtomic else .ok (writePlace s (teamWorld s t).1 p 16 v)
  else if op.dstSpace = 1 then
    match sramCheck s t (BitVec.ofNat 32 a) 16 true with
    | .error c => .error c
    | .ok (c, o) => .ok (granuleFill (sramStore s c o (natBytes v 16)) c o)
  else
    .ok (updCore s t.core (fun k =>
      { k with
        wb := writeBytes k.wb (wbPhys t a) (natBytes v 16)
        wbTag := mapSet k.wbTag (wbPhys t a / 4096) op.tag 0 }))

/-- A program's queued operation replaced; one with no unit left leaves the queue. -/
def putBulk (s : State) (t : Team) (x : XProg) (num : Nat) (f : BulkOp → BulkOp) : State :=
  updProg s t.ref x.n (fun p =>
    { p with queue := (p.queue.map (fun o => if o.num = num then f o else o)).filter (fun o => !o.units.isEmpty) })

/-- A unit's fault: XLATE leaves the operation waiting for its record, another ends the team (16 R282). -/
def bulkFault (s : State) (t : Team) (x : XProg) (op : BulkOp) (c : Code) (a : Nat) : State :=
  if c = cXlate then
    let s1 := holdProg s t { x with xpc := op.xpc } cXlate (BitVec.ofNat 57 a)
    putBulk (updProg s1 t.ref x.n (fun p => { p with state := x.state, holdSet := x.holdSet })) t x op.num
      (fun o => { o with waiting := some s.holdSets })
  else xEnd s t { x with xpc := op.xpc } c a

/-- Whether an earlier unit of the program still has to land at the same destination (16 R277). -/
def earlierUnit (s : State) (t : Team) (x : XProg) (op : BulkOp) (k : Nat) (a : Nat) : Bool :=
  let p := destUnit s t op a
  p.isSome
    && ((x.queue.takeWhile (fun o => o.num != op.num)).any (fun o => o.units.any (fun u => destUnit s t o u.2 == p))
      || (op.units.take k).any (fun u => destUnit s t op u.2 == p))

/-- Whether every XST before an operation is performed at the scope that covers a source: CORE for the own slice, DEVICE otherwise
(16 R277). -/
def sourceReady (s : State) (t : Team) (x : XProg) (op : BulkOp) (a : Nat) : Bool :=
  let own := op.srcSpace != 0 && (sramPlace s t (BitVec.ofNat 32 a)).any (fun q => q.1 == t.core)
  (x.ctr.accs.takeWhile (fun b => b.bulk != some op.num)).all (fun b =>
    !(b.plain && b.store) || b.perf.getLsbD (if own then 3 else 4))

/-- Whether a bulk operation starts a unit now: not while a record keeps it, before its start, while a promotion it asked for is open, or once its
team has ended or stops for a context save (16 R283). -/
def bulkStarts (s : State) (t : Team) (x : XProg) (op : BulkOp) : Bool :=
  op.waiting.isNone && t.ended.isNone && !teamStops t && decide (op.start ≤ s.clk) && !x.promos.any (fun q => q.tag == op.num + 1)

/-- BULK_BYTE_CREDIT: a unit of a bulk operation is read, written, and its 16 bytes credited to the barrier (16 R277; 11 R170). -/
def execBulkByteCredit (xr : ProgRef) (num unit : Nat) (s : State) : Host.Outcome State Fault Refusal :=
  .next (match progAt s xr with
  | none => s
  | some (t, x) =>
    match x.queue.find? (fun o => o.num == num) with
    | none => s
    | some op =>
      match op.units[unit]? with
      | none => s
      | some (a, d) =>
        if !bulkStarts s t x op || !sourceReady s t x op a || earlierUnit s t x op unit d then s
        else
          let fronts := opFronts s op
          match unitRead s t op fronts a with
          | .error c => bulkFault s t x op c a
          | .ok (v, s1) =>
            match unitWrite s1 t op d v with
            | .error c => bulkFault s t x op c d
            | .ok s2 =>
              let s3 := updTeam (putBulk s2 t x num (fun o =>
                { o with units := listDrop o.units unit, fronts := some fronts })) t.ref (fun t => { t with moved := true })
              match sramPlace s3 t op.bar with
              | none => s3
              | some (c, o) =>
                let w := barCredits (barWord s3 t c o) 16
                let s4 := barStore (xArrivalTag s3 t c o) t c o w.1
                if w.2 then s4 else takeProgFault s4 t x op.xpc cBarrier 0#8 (op.bar.setWidth 57))

/-- TRANSFER_LOAD_RETURN: a load's register becomes readable (16 R267). -/
def execTransferLoadReturn (xr : ProgRef) (c : Nat) (s : State) : Host.Outcome State Fault Refusal :=
  .next (match progAt s xr with
  | none => s
  | some (t, x) =>
    if x.loads.any (fun q => q.1 == c && decide (q.2 ≤ s.clk)) then
      updProg s t.ref x.n (fun p => { p with loads := p.loads.filter (fun q => q.1 != c) })
    else s)

/-! ## Arrivals and waits (16 R279 to R281) -/

/-- Whether every XLD and XST of a program so far is performed at a scope; `stores` takes XST alone. -/
def xPerformed (x : XProg) (scope : Nat) (stores : Bool) : Bool :=
  x.ctr.accs.all (fun a => !a.plain || (stores && !a.store) || a.perf.getLsbD scope)

/-- The scope of an arrival in a slice (13 R197). -/
def arrivalScope (t : Team) (c : Nat) : Nat := if c = t.core then 3 else 4

/-- The address of format V. -/
def vAddr (x : XProg) (f : VForm) : BitVec 32 := (cReg x f.b).extractLsb' 0 32 + BitVec.ofNat 32 (8 * f.o.toNat)

/-- The operand of format V. -/
def vOperand (x : XProg) (f : VForm) : BitVec 64 := if f.i then cReg x (f.m.extractLsb' 0 4) else f.m.setWidth 64

/-- An XARV applied and counted: one arrival and its bytes, or BARRIER (16 R268). -/
def arvApply (s : State) (t : Team) (x : XProg) (xpc : Nat) (a : BitVec 32) (n : Nat) : State :=
  match sramPlace s t a with
  | none => s
  | some (c, o) =>
    let s1 := countX s t x (some (sramTag a)) true false false (sliceDelay t.core c)
    match barArrive (barWord s t c o) n with
    | none => takeProgFault s1 t x xpc cBarrier 0#8 (a.setWidth 57)
    | some w => barStore (xArrivalTag s1 t c o) t c o w

/-- Whether an XARV may be applied: every earlier XLD and XST is performed at the barrier's scope (16 R279), and no earlier bulk operation still
has to read or write the word (13 R194). -/
def arvReady (s : State) (t : Team) (x : XProg) (c o : Nat) : Bool :=
  xPerformed x (arrivalScope t c) false && !queueWrites s t x (sliceUnit c o) && !queueReads s t x (sliceUnit c o)

/-- XARV: applied once it may be, until then the program waits. -/
def execXarv (f : VForm) (s : State) : Host.Outcome State Fault Refusal :=
  withProg s (fun t x =>
    let a := vAddr x f
    match sramCheck s t a 8 true with
    | .error c => xFault s t x c a.toNat
    | .ok (c, o) =>
      let n := if f.i then vOperand x f else BitVec.ofNat 64 (64 * f.m.toNat)
      if arvReady s t x c o then xNext (arvApply s t x x.xpc a n.toNat) t x 1 id
      else xNext s t x 1 (fun p => { p with state := 2, wait := .arrive a n }))

/-- XARV_APPLY: a waiting XARV whose earlier accesses are performed is applied as a release. -/
def execXarvApply (xr : ProgRef) (s : State) : Host.Outcome State Fault Refusal :=
  .next (match progAt s xr with
  | none => s
  | some (t, x) =>
    match x.wait with
    | .arrive a n =>
      match sramPlace s t a with
      | none => s
      | some (c, o) =>
        if arvReady s t x c o && !t.ended.isSome then
          arvApply (updProg s t.ref x.n (fun p => { p with state := 1, wait := .none })) t x (x.xpc - 1) a n.toNat
        else s
    | _ => s)

/-- XWAIT: goes on when PHASE differs from the operand, else waits for the next flip. It reads the word after what earlier bulk operations write
there (13 R194). -/
def execXwait (f : VForm) (s : State) : Host.Outcome State Fault Refusal :=
  withProg s (fun t x =>
    let a := vAddr x f
    match sramCheck s t a 8 false with
    | .error c => xFault s t x c a.toNat
    | .ok (c, o) =>
      let ph := (vOperand x f).getLsbD 0
      if queueWrites s t x (sliceUnit c o) then s
      else
        let s1 := xReadTagged (countX s t x (some (sramTag a)) false false false (sliceDelay t.core c)) t x (granuleKeyOf c o)
        if bit (barWord s t c o) 63 != ph then xNext s1 t x 1 id
        else xNext s1 t x 1 (fun p => { p with state := 2, wait := .barrier a ph }))

/-- A fill of a program released: in the slice of its own core at CORE scope, elsewhere at the scope of an earlier XFENCE, as STFE is (13 R196, R197;
16 R280). -/
def xFillTag (s : State) (t : Team) (x : XProg) (c o : Nat) : State :=
  if c = t.core then xArrivalTag s t c o else xStoreTag s t x (granuleKeyOf c o)

/-- XFE: after every earlier XST is performed at the arrival's scope, consecutive granules are set FULL one after another. -/
def execXfe (b : BitVec 4) (o : BitVec 13) (g : BitVec 9) (s : State) : Host.Outcome State Fault Refusal :=
  withProg s (fun t x =>
    let a := (cReg x b).extractLsb' 0 32 + BitVec.ofInt 32 (16 * o.toInt)
    let at' (k : Nat) : BitVec 32 := a + BitVec.ofNat 32 (16 * k)
    let ps := (List.range g.toNat).map (fun k => (at' k, sramCheck s t (at' k) 16 true))
    match ps.findSome? (fun p => match p.2 with | .error c => some (c, p.1) | .ok _ => none) with
    | some (c, p) => xFault s t x c p.toNat
    | none =>
      let places := ps.filterMap (fun p => match p.2 with | .ok q => some (p.1, q) | .error _ => none)
      if places.all (fun q => xPerformed x (arrivalScope t q.2.1) true) then
        xNext (places.foldl (fun s q =>
          granuleFill (xFillTag (countX s t x (some (sramTag q.1)) true false false (sliceDelay t.core q.2.1)) t x q.2.1 q.2.2) q.2.1 q.2.2)
          s) t x 1 id
      else s)

/-- XPUB: PUBLISH of a handle for the program (14 R235). -/
def execXpub (h : BitVec 6) (scope : BitVec 3) (s : State) : Host.Outcome State Fault Refusal :=
  withProg s (fun t x =>
    match (mapGet t.handles h.toNat).bind (publishedOf s t) with
    | none => xEnd s t x cHandle 0
    | some e => xNext s t x 1 (fun p => { p with fences := p.fences ++ [⟨.publish e, scope.toNat⟩] }))

/-- XFENCE: over every counter, or over the ranges of at most two handles and one register (16 R280; 14 R233). -/
def execXfence (f : FenceForm) (s : State) : Host.Outcome State Fault Refusal :=
  withProg s (fun t x =>
    let hs := (if f.v0 then [f.h0] else []) ++ (if f.v1 then [f.h1] else [])
    let tags := hs.map (fun h => (mapGet t.handles h.toNat).map handleTag)
    let range := if f.vr then [rangeOf (cReg x f.rr).toNat] else []
    let put (k : FenceKind) : State := xNext s t x 1 (fun p => { p with fences := p.fences ++ [⟨k, f.scope.toNat⟩] })
    if !f.r then put .plain
    else if range.any Option.isNone then xEnd s t x cIllegalOperand 0
    else if tags.any Option.isNone then xEnd s t x cHandle 0
    else put (.ranged (somes tags ++ somes range)))

/-- The signals a mask takes. -/
def signalTake (d : BitVec 4) (m : BitVec 16) (x : XProg) : XProg :=
  { putC d ((x.signal &&& m).setWidth 64) x with signal := x.signal &&& ~~~m, state := 1, wait := .none }

/-- XSWAIT: takes the signals of its mask, or waits for one. -/
def execXswait (d : BitVec 4) (m : BitVec 16) (s : State) : Host.Outcome State Fault Refusal :=
  withProg s (fun t x =>
    if x.signal &&& m = 0#16 then xNext s t x 1 (fun p => { p with state := 2, wait := .signal d.toNat m })
    else xNext s t x 1 (signalTake d m))

/-- XPOST: POST from a register once every earlier XLD and XST is performed at TEAM scope. -/
def execXpost (a : BitVec 4) (s : State) : Host.Outcome State Fault Refusal :=
  withProg s (fun t x =>
    if xPerformed x 1 false then xNext s t x 1 (fun p => { p with post := (cReg x a).extractLsb' 0 32 }) else s)

/-- XEND: the program has ended; its queued operations go on. -/
def execXend (s : State) : Host.Outcome State Fault Refusal :=
  withProg s (fun t x => updProg s t.ref x.n (fun p => { p with state := 4, lastIssue := some s.clk }))

/-- XTRAP: the program holds with a TRAP record naming its word and code, and goes on at the next word. -/
def execXtrap (code : BitVec 16) (s : State) : Host.Outcome State Fault Refusal :=
  withProg s (fun t x => xNext (holdProg s t x cTrap (code.setWidth 57)) t x 1 id)

/-- The word at an index of a program's window. -/
def windowWord (s : State) (t : Team) (x : XProg) (n : Nat) : Word :=
  BitVec.ofNat 32 (bytesNat (sramRead s t.core (programWindow x.proc + 4 * n) 4))

/-- The instruction at XPC: a two-word instruction at word 1,023 is ILLEGAL_FORM (16 R270). -/
def fetchX (s : State) (t : Team) (x : XProg) : Decoded :=
  let w := windowWord s t x x.xpc
  if 1023 < x.xpc ∨ (x.xpc = 1023 ∧ xHasOperandWord w = true) then .bad .illegalForm
  else decodeXWord w (windowWord s t x (x.xpc + 1))

/-- TRANSFER_ILLEGAL_WORD: a running program at a word that decodes to nothing ends its team with TX_FAULT (16 R270). -/
def execTransferIllegalWord (xr : ProgRef) (s : State) : Host.Outcome State Fault Refusal :=
  .next (match progAt s xr with
  | none => s
  | some (t, x) =>
    if x.state ≠ 1 ∨ t.ended.isSome = true then s
    else match fetchX s t x with
    | .bad .illegalOp => xEnd s t x cIllegalOp 0
    | .bad .illegalForm | .bad .truncated => xEnd s t x cIllegalForm 0
    | .bad .illegalOperand => xEnd s t x cIllegalOperand 0
    | .instr _ => s)

/-- The c registers an instruction reads (16 R271 to R281). -/
def xReads (i : Instr) : List (BitVec 4) :=
  match i with
  | .xadd f | .xsub f | .xmul f | .xand f | .xior f | .xxor f | .xshl f | .xshr f | .xsar f =>
    f.a :: (if f.i then [] else [f.m.extractLsb' 13 4])
  | .xmovk d _ _ => [d]
  | .xsetk _ i m => if i then [m.extractLsb' 0 4] else []
  | .xld f => [f.b]
  | .xldx _ b _ _ ix => [b, ix]
  | .xst f => [f.b, f.c]
  | .xb a b c _ => if c = 0#3 then [] else [a, b]
  | .xpost a => [a]
  | .xaddr _ _ i n => (List.range n.toNat).map (fun j => i + BitVec.ofNat 4 j)
  | .xcopy f g =>
    f.src :: f.bar :: (if g.dz then [] else [f.dst]) ++ (if g.lr then [g.len.extractLsb' 0 4] else [])
  | .xgath f g | .xscat f g => [f.dst, f.src, f.bar, g.idx, g.cnt]
  | .xarv f | .xwait f => f.b :: (if f.i then [f.m.extractLsb' 0 4] else [])
  | .xfe b _ _ => [b]
  | .xfence f => if f.vr then [f.rr] else []
  | _ => []

/-! ## From compute groups (16 R284, R285) -/

/-- A transfer-control instruction: without program p the whole issue set holds with ILLEGAL_OPERAND. -/
def withProgram (o : Op) (f : Form) (s : State) (k : Issue → XProg → State) : Host.Outcome State Fault Refusal :=
  match issueOf s o f with
  | none => .fault .noIssuer
  | some i =>
    match i.t.progs.find? (fun p => p.n == immBits f 1 0) with
    | none => .next (holdWhole s i i.m cIllegalOperand 7 0#57)
    | some _ =>
      withIssue o f s (fun i =>
        match i.t.progs.find? (fun p => p.n == immBits f 1 0) with
        | none => s
        | some x => k i x)

/-- The registers a program starts with (11 R171). -/
def startRegs (s : State) (t : Team) : List (Nat × BitVec 64) :=
  mapSet (mapSet [] 0 (BitVec.ofNat 64 (0x7FF * 2 ^ 21 + t.winOff)) 0#64) 1
    (BitVec.ofNat 64 (poolOf s (launchOf s t)).1) 0#64

/-- A program restarted at word 0. -/
def restartProg (s : State) (t : Team) (a : BitVec 64) (x : XProg) : XProg :=
  { x with
    c := mapSet (startRegs s t) 2 a 0#64, k := [], xpc := 0, state := 1, signal := 0#16, post := 0#32, wait := .none, loads := [] }

/-- XSTART: an ENDED program restarts with the argument of the lowest guard-true lane, unless that lane is held (04 R56; 05 R68). -/
def execXstart (f : Form) (s : State) : Host.Outcome State Fault Refusal :=
  withProgram .xstart f s (fun i x =>
    let go := !i.noElect && x.state == 4
    let s1 := finishIssue s i (i.active.map (fun p => (p.1, laneOut i p.2 (.done ⟨if go then 1 else 0, 0#5, 0⟩))))
    if go then updProg s1 i.t.ref x.n (restartProg s i.t (BitVec.ofNat 64 (s64 (electSrcs s i).a))) else s1)

/-- A waiting XSWAIT served by a signal of its mask. -/
def signalServe (x : XProg) : XProg :=
  match x.wait with
  | .signal d m => if x.signal &&& m = 0#16 then x else signalTake (BitVec.ofNat 4 d) m x
  | _ => x

/-- XSIG: the masks of the guard-true lanes joined to SIGNAL. -/
def execXsig (f : Form) (s : State) : Host.Outcome State Fault Refusal :=
  withProgram .xsig f s (fun i x =>
    let la := launchOf s i.t
    let m := (i.active.filter (fun p => !i.indexBad p.2)).foldl (fun (m : BitVec 16) p =>
      m ||| (i.srcs la p.1 p.2).b.extractLsb' 0 16) 0#16
    updProg (finishPlain s i) i.t.ref x.n (fun p => signalServe { p with signal := p.signal ||| m }))

/-- The status word (16 R285). -/
def xStatus (x : XProg) : Nat := x.signal.toNat * 2 ^ 16 + x.queue.length * 2 ^ 8 + x.state

/-- XSTAT: the status word and POST to a register pair. -/
def execXstat (f : Form) (s : State) : Host.Outcome State Fault Refusal :=
  withProgram .xstat f s (fun i x =>
    finishIssue s i (i.active.map (fun p => (p.1, laneOut i p.2 (.done ⟨x.post.toNat * 2 ^ 32 + xStatus x, 0#5, 0⟩)))))

end Sys2Proof.Machine
end

