-- ==== Sys2Proof/Machine/Order.lean ====
section
/-! DEFINITION. What happens between issues: results arriving (03 R43; 04 R50), accesses performed, fences, drains, publications and
promotions completing (13 R193 to R204; 14 R231 to R235), checks and records finishing (20 R311, R314, R317), and register rows granted
and reclaimed (04 R53, R54). -/
namespace Sys2Proof.Machine

/-- The next state of an event. -/
abbrev Ev := Host.Outcome State Fault Refusal

/-! ## Results (03 R43; 04 R50; 14 R221) -/

/-- The scoreboard entries of an issue and class that are due leave the group. -/
def arrive (s : State) (p : GroupRef) (tag cls : Nat) : State :=
  match groupAt s p with
  | none => s
  | some (t, g) =>
    updGroup s t.ref g.id (fun g => { g with sb := g.sb.filter (fun b => !(b.tag == tag && b.cls == cls && decide (b.due ≤ s.clk))) })

/-- SCOREBOARD_RESULT_ARRIVAL. -/
def execScoreboardResultArrival (p : GroupRef) (tag : Nat) (s : State) : Ev := .next (arrive s p tag 0)
/-- LOAD_RESULT_RETURN. -/
def execLoadResultReturn (p : GroupRef) (tag : Nat) (s : State) : Ev := .next (arrive s p tag 1)
/-- OVERFLOW_READ_FILL. -/
def execOverflowReadFill (p : GroupRef) (tag : Nat) (s : State) : Ev := .next (arrive s p tag 2)

/-- Whether a record that waits for a place names a group (20 R314). -/
def recordWaits (s : State) (t : TeamRef) (g : Nat) : Bool := s.faultWait.any (fun r => r.ref == t && r.group == g && r.xp.isNone)

/-- MAYBE_FAULT_CHECK_DONE: the checks of the last maybe-fault issue are over and its records written (20 R311). -/
def execMaybeFaultCheckDone (p : GroupRef) (s : State) : Ev :=
  .next (match groupAt s p with
  | none => s
  | some (t, g) =>
    match g.checking with
    | some d => if d ≤ s.clk ∧ recordWaits s t.ref g.id = false then updGroup s t.ref g.id (fun g => { g with checking := none }) else s
    | none => s)

/-- FAULT_RECORD_DEFERRED: the first waiting record takes its place when that is free. -/
def execFaultRecordDeferred (s : State) : Ev :=
  .next (match s.faultWait with
  | [] => s
  | r :: rest => if faultPlaceFree s then putRecord { s with faultWait := rest } r else s)

/-! ## Counted accesses and fences -/

/-- The groups of a place: the one that holds its slot, then those that have ended and whose accesses may still be outstanding (02 R20,
R21). -/
def placeGroups (s : State) (p : GroupRef) : List (Team × Group) :=
  let all := s.teams.flatMap (fun t =>
    if t.core = p.core then (t.groups.filter (fun g => g.part == p.part && g.slot == p.slot)).map (fun g => (t, g)) else [])
  all.filter (fun q => !q.2.freed) ++ all.filter (fun q => q.2.freed)

/-- The n-th counted access of groups, with its group and its number there. -/
def nthAccess : List (Team × Group) → Nat → Option (Team × Group × Nat)
  | [], _ => none
  | q :: r, n =>
    let k := q.2.ctr.accs.length + q.2.ctr.nt.length
    if n < k then some (q.1, q.2, n) else nthAccess r (n - k)

/-- A party changed. -/
def updParty (s : State) (p : PartyRef) (fg : Group → Group) (fx : XProg → XProg) : State :=
  match p with
  | .group g => match groupAt s g with | some (t, h) => updGroup s t.ref h.id fg | none => s
  | .prog x => match progAt s x with | some (t, y) => updProg s t.ref y.n fx | none => s

/-- Whether the bytes a counted access stands for have all landed. Once a team stops for its context save, what an operation has not moved is no
access of it any more, and is counted again when the team is restored (13 R201; 16 R283). -/
def bulkLanded (s : State) (p : PartyRef) (a : Access) : Bool :=
  match a.bulk, p with
  | some n, .prog x => match progAt s x with | some (t, y) => teamStops t || !y.queue.any (fun o => o.num == n) | none => true
  | _, _ => true

/-- The n-th access of a party performed at a scope: those of its counters first, then its STNTs. -/
def performNth (c : Counters) (n sc : Nat) : Counters :=
  if n < c.accs.length then performAccess c n sc
  else { c with nt := c.nt.mapIdx (fun k a =>
    if k = n - c.accs.length then { a with perf := a.perf ||| (if a.peer && decide (sc < 5) then 0#6 else scopesUpTo sc) } else a) }

/-- Whether the n-th access of counters is due. -/
def accessDueNow (c : Counters) (n clk : Nat) : Option Access :=
  match (c.accs ++ c.nt)[n]? with
  | some a => if a.due ≤ clk then some a else none
  | none => none

/-- ACCESS_PERFORMED: a counted access is performed at a scope, not before it is due. -/
def execAccessPerformed (p : PartyRef) (n scope : Nat) (s : State) : Ev :=
  .next (match p with
  | .group r =>
    match nthAccess (placeGroups s r) n with
    | none => s
    | some (t, g, k) =>
      if (accessDueNow g.ctr k s.clk).isSome then updGroup s t.ref g.id (fun g => { g with ctr := performNth g.ctr k scope }) else s
  | .prog x =>
    match progAt s x with
    | none => s
    | some (t, y) =>
      match accessDueNow y.ctr n s.clk with
      | some a =>
        if bulkLanded s p a then updProg s t.ref y.n (fun y => { y with ctr := performNth y.ctr n scope }) else s
      | none => s)

/-- The group of a place with a fence in flight. -/
def fenceGroup (s : State) (r : GroupRef) : Option (Team × Group) := (placeGroups s r).find? (fun q => !q.2.fences.isEmpty)

/-- Whether a program's fences stay in flight for its context save: they order what the save leaves in the bulk queue (13 R201; 16 R283). -/
def fencesKept (t : Team) (x : XProg) : Bool := teamStops t && !x.queue.isEmpty

/-- The oldest fence in flight of a party with its counters. -/
def headFence (s : State) (p : PartyRef) : Option (Fence × Counters) :=
  match p with
  | .group g => (fenceGroup s g).bind (fun q => q.2.fences.head?.map (fun f => (f, q.2.ctr)))
  | .prog x => (progAt s x).bind (fun q => if fencesKept q.1 q.2 then none else q.2.fences.head?.map (fun f => (f, q.2.ctr)))

/-- The party of `headFence` changed. -/
def updFencer (s : State) (p : PartyRef) (fg : Group → Group) (fx : XProg → XProg) : State :=
  match p with
  | .group g => match fenceGroup s g with | some (t, h) => updGroup s t.ref h.id fg | none => s
  | .prog x => match progAt s x with | some (t, y) => updProg s t.ref y.n fx | none => s

/-- The oldest fence of a party completed: later stores of the party release at its scope, as at those of its earlier fences. -/
def popFence (s : State) (p : PartyRef) (sc : Nat) : State :=
  let add (l : List Nat) : List Nat := if l.contains sc then l else sc :: l
  updFencer s p (fun g => { g with fences := g.fences.drop 1, fenced := add g.fenced })
    (fun x => { x with fences := x.fences.drop 1, fenced := add x.fenced })

/-- FENCE_COMPLETE. -/
def execFenceComplete (p : PartyRef) (s : State) : Ev :=
  .next (match headFence s p with
  | some (⟨.plain, sc⟩, c) => if fenceMet c ⟨.plain, sc⟩ then popFence s p sc else s
  | some (⟨.ranged rs, sc⟩, c) => if fenceMet c ⟨.ranged rs, sc⟩ then popFence s p sc else s
  | _ => s)

/-- Drained STNTs counted like any other access of their 64 KiB block, performed as far as they are (13 R203). -/
def gatherNt (c : Counters) (clk : Nat) : Counters :=
  c.nt.foldl (fun c a =>
    if a.perf.getLsbD 5 then c
    else
      let r := pickCounter c (globalTag (a.ctr * 0x10000)) clk
      { c with tags := r.2, accs := c.accs ++ [{ a with ctr := r.1 }] }) { c with nt := [] }

/-- NTDRAIN_COMPLETE. -/
def execNtdrainComplete (p : PartyRef) (s : State) : Ev :=
  .next (match headFence s p with
  | some (⟨.drain, sc⟩, c) =>
    if fenceMet c ⟨.drain, sc⟩ then
      updFencer s p (fun g => { g with fences := g.fences.drop 1, ctr := gatherNt g.ctr s.clk })
        (fun x => { x with fences := x.fences.drop 1, ctr := gatherNt x.ctr s.clk })
    else s
  | _ => s)

/-- A published buffer with FRONT and BACK exchanged and GEN increased (12 R191). -/
def swapPublished (q : Published) : Published := { q with front := q.back, back := q.front, gen := q.gen + 1 }

/-- The core a party runs on. -/
def partyCore (p : PartyRef) : Nat := match p with | .group g => g.core | .prog x => x.core

/-- PUBLISH_SWAP: after the wait of a PUBLISH or XPUB, what it has acquired at CORE or CLUSTER scope promoted, then the swap in one step (13
R204). -/
def execPublishSwap (p : PartyRef) (s : State) : Ev :=
  .next (match headFence s p with
  | some (⟨.publish e, sc⟩, c) =>
    if fenceMet c ⟨.publish e, sc⟩ then
      let s1 := updFencer (promoteCore s (partyCore p)) p (fun g => { g with fences := g.fences.drop 1 })
        (fun x => { x with fences := x.fences.drop 1 })
      match mapGet s1.published e with
      | some q => { s1 with published := mapPut s1.published e (swapPublished q) }
      | none => s1
    else s
  | _ => s)

/-! ## Promotion (13 R199) -/

/-- The promotions a party waits for. -/
def partyPromos (s : State) (p : PartyRef) : List Promo :=
  match p with
  | .group g => match groupAt s g with | some q => q.2.promos | none => []
  | .prog x => match progAt s x with | some q => q.2.promos | none => []

/-- PROMOTE_REQUEST: the tag's core performs what its releases cover at DEVICE scope and clears the tag. -/
def execPromoteRequest (p : PartyRef) (n : Nat) (s : State) : Ev :=
  .next (match (partyPromos s p)[n]? with
  | none => s
  | some q =>
    if q.served then s
    else
      let s1 := promoteTag s q.core q.epoch q.key
      let mark (l : List Promo) : List Promo := l.mapIdx (fun k e => if k = n then { e with served := true } else e)
      updParty s1 p (fun g => { g with promos := mark g.promos }) (fun x => { x with promos := mark x.promos }))

/-- PROMOTE_REPLY: the waiting access completes. -/
def execPromoteReply (p : PartyRef) (n : Nat) (s : State) : Ev :=
  .next (match (partyPromos s p)[n]? with
  | some q =>
    if q.served then
      updParty s p (fun g => { g with promos := listDrop g.promos n }) (fun x => { x with promos := listDrop x.promos n })
    else s
  | none => s)

/-! ## The FP exception window (20 R317) -/

/-- The global thread number of a held lane. -/
def fpxThread (s : State) (l : FpxLane) : Nat :=
  threadNumber ((mapGet s.launches l.ref.launch).getD firmwareLaunch) l.ref.team l.group l.lane

/-- FPX_WINDOW_CLOSE: after 64 clk one record names the lowest thread that raised a flag; its hold set is every lane of the window. -/
def execFpxWindowClose (core launch : Nat) (s : State) : Ev :=
  .next (match (coreAt s core).windows.find? (fun w => w.launch == launch) with
  | none => s
  | some w =>
    if s.clk < w.opened + 64 then s
    else
      let s1 := updCore s core (fun k => { k with windows := k.windows.filter (fun w => w.launch != launch) })
      let raised := w.lanes.filter (fun l => l.flags != 0#5)
      match listMin (fun a b => decide (fpxThread s a < fpxThread s b)) (if raised.isEmpty then w.lanes else raised) with
      | none => s1
      | some l =>
        let t := teamAt s l.ref
        let la := (mapGet s.launches l.ref.launch).getD firmwareLaunch
        postRecord s1
          { code := cFpx, kind := 8, ltag := la.ltag, team := BitVec.ofNat 32 l.ref.team
            lcore := logicalOfPhys s (match t with | some t => t.epoch | none => la.epoch) core
            part := l.part
            group := l.group, lanes := laneBit l.lane, pc := l.pc.extractLsb' 0 57
            addr := BitVec.ofNat 57 (l.flags.toNat * 2 ^ 32 + (w.lanes.length - 1))
            cmask := l.cmask, ref := l.ref, core := core, set := w.set })

/-! ## Register rows (04 R48, R53, R54; 02 R17) -/

/-- Register rows of a partition for teams: 8 of partition 5 are the firmware agent's. -/
def partRows (p : Nat) : Nat := if p = 5 then 2040 else 2048

/-- The groups of launches that hold rows of a partition. The firmware slot's group is none of them: its 8 rows are no partition's to grant or reclaim, and
a REGGROW of it is never granted (DESIGN CHOICE, log 72: 04 R53 does not name it). -/
def partGroups (s : State) (c p : Nat) : List (Team × Group) :=
  s.teams.flatMap (fun t =>
    if t.core = c ∧ t.ref.launch ≠ 0 then
      (t.groups.filter (fun g => g.part == p && !g.freed)).map (fun g => (t, g)) else [])

/-- The rows of a partition no group holds. -/
def freeRows (s : State) (c p : Nat) : Nat := partRows p - ((partGroups s c p).map (fun q => q.2.alloc)).foldl (· + ·) 0

/-- The order of grants: priority descending, the oldest launch, team, group. -/
def grantBefore (s : State) (a b : Team × Group) : Bool :=
  let k (q : Team × Group) : List Nat :=
    let l := launchOf s q.1
    [7 - l.prio, l.order, q.1.ref.team, q.2.id]
  decide (k a < k b)

/-- The first group of a partition that waits in REGGROW. -/
def requester (s : State) (c p : Nat) : Option (Team × Group) :=
  listMin (grantBefore s) ((partGroups s c p).filter (fun q => q.2.req != 0))

/-- The bases of a partition packed in ascending order of base, with one group's rows at a new count; the rows that move. A group without rows takes
no place, but for the one that gets them. -/
def packRows (gs : List (Team × Group)) (who : TeamRef × Nat) (n : Nat) : List ((TeamRef × Nat) × Nat) × Nat :=
  let sorted := listSort (fun a b => decide (a.2.base ≤ b.2.base)) (gs.filter (fun q => q.2.alloc != 0 || (q.1.ref, q.2.id) == who))
  let r := sorted.foldl (fun (a : List ((TeamRef × Nat) × Nat) × Nat × Nat) q =>
    let key := (q.1.ref, q.2.id)
    let size := if key = who then n else q.2.alloc
    (a.1 ++ [(key, a.2.1)], a.2.1 + size, a.2.2 + (if q.2.base = a.2.1 then 0 else q.2.alloc))) ([], 0, 0)
  (r.1, r.2.2)

/-- A group at a new base; while it has rows that move, it is not ready (04 R53). -/
def moveBase (h : Group) (base till : Nat) : Group :=
  if base = h.base then h else { h with base := base, movingTill := if h.alloc = 0 then h.movingTill else till }

/-- A partition whose allotments stand at the bases of a packing. -/
def moveRows (s : State) (c p : Nat) (pk : List ((TeamRef × Nat) × Nat) × Nat) : State :=
  { s with teams := s.teams.map (fun u =>
      { u with groups := u.groups.map (fun h =>
          match pk.1.find? (fun e => e.1 == (u.ref, h.id)) with
          | some e => if u.core = c ∧ h.part = p ∧ h.freed = false then moveBase h e.2 (s.clk + ceilDiv pk.2 8) else h
          | none => h) }) }

/-- Rows granted to a group whose request fits: in place when the rows above it are free, else the partition packs its allotments and
the groups whose rows move are not ready meanwhile. -/
def grantRows (s : State) (c p : Nat) (t : Team) (g : Group) : State :=
  let gs := partGroups s c p
  let inPlace := decide (g.base + g.req ≤ partRows p) && gs.all (fun q =>
    (q.1.ref == t.ref && q.2.id == g.id) || q.2.alloc == 0 || decide (q.2.base + q.2.alloc ≤ g.base) || decide (g.base + g.req ≤ q.2.base))
  let s1 := if inPlace then s else moveRows s c p (packRows gs (t.ref, g.id) g.req)
  let s2 := updGroup s1 t.ref g.id (fun h => { h with alloc := g.req, req := 0 })
  updPart s2 c p (fun q => { q with cache := q.cache.filter (fun e => !(e.1 == g.slot && decide (e.2 < g.req))) })

/-- REGGROW_GRANT: the first waiting requester of a partition is granted when it fits. -/
def execReggrowGrant (core part : Nat) (s : State) : Ev :=
  .next (match requester s core part with
  | some (t, g) => if g.req ≤ g.alloc + freeRows s core part then grantRows s core part t g else s
  | none => s)

/-- A group spilled: its rows go to its backing store (04 R54). Its BASE reads what it was until rows are granted again (DESIGN CHOICE, log 72). -/
def spill (s : State) (q : Team × Group) : State := updGroup s q.1.ref q.2.id (fun g => { g with alloc := 0 })

/-- Whether the requester fits now. -/
def requestFits (s : State) (c p : Nat) (r : Team × Group) : Bool :=
  match (teamAt s r.1.ref).bind (fun t => groupOf t r.2.id) with
  | some g => decide (g.req ≤ g.alloc + freeRows s c p)
  | none => true

/-- The victims of a reclaim in order: the groups of other teams, priority ascending, newest launch, highest team first, team by
team; then the requester's own team in descending group id. -/
def victims (s : State) (c p : Nat) (r : Team × Group) : List (List (Team × Group)) :=
  let gs := partGroups s c p
  let key (t : Team) : List Nat := let l := launchOf s t; [7 - l.prio, l.order, t.ref.team]
  let others := listSort (fun a b => decide (key b ≤ key a))
    (s.teams.filter (fun t => t.ref != r.1.ref && gs.any (fun q => q.1.ref == t.ref)))
  others.map (fun t => gs.filter (fun q => q.1.ref == t.ref))
    ++ ((listSort (fun a b => decide (b.2.id ≤ a.2.id)) (gs.filter (fun q => q.1.ref == r.1.ref && q.2.id != r.2.id))).map (fun q => [q]))

/-- REGISTER_RECLAIM: when every group of the partition waits in REGGROW or has no lane in RUN, victims are spilled until the first
requester fits, and it is granted. -/
def execRegisterReclaim (core part : Nat) (s : State) : Ev :=
  .next (match requester s core part with
  | none => s
  | some r =>
    if requestFits s core part r
        || !(partGroups s core part).all (fun q => q.2.req != 0 || q.2.lanes.all (fun l => l.2.st != .run)) then s
    else
      let s1 := (victims s core part r).foldl (fun s v => if requestFits s core part r then s else v.foldl spill s) s
      match (teamAt s1 r.1.ref).bind (fun t => (groupOf t r.2.id).map (fun g => (t, g))) with
      | some (t, g) => if requestFits s1 core part r then grantRows s1 core part t g else s1
      | none => s1)

end Sys2Proof.Machine
end

