-- ==== Sys2Proof/Machine/Forage.lean ====
section
/-! DEFINITION. Forage (17 R286 to R289; 18 R290 to R306): the hot-segment table, samples, the search's acceptance and proof, overlays,
tether, audit and withdrawal, and the idle issue positions it works in (03 R44, R45). -/
namespace Sys2Proof.Machine

/-! ## Code (21 R333 to R343) -/

/-- The object a launch runs; object 0 is the firmware's (DESIGN CHOICE, log 20). -/
def objOf (s : State) (l : Launch) : Option Obj := mapGet s.objects l.obj

/-- Bytes of an object's text from an address on. -/
def codeBytes (s : State) (o : Obj) (pc n : Nat) : List Byte := hbmRead s o.owner (o.textPa + (pc - o.textVa)) n

/-- The instruction at an address of an object's text, at most 20 bytes long (07 R85). -/
def instrAt (s : State) (o : Obj) (pc : Nat) : Decoded := decodeBytes (codeBytes s o pc 20)

/-- Whether an operation ends a segment (03 R31). -/
def isTerminator (o : Op) : Bool :=
  (decide (0x60 ≤ (opCode o).toNat) && decide ((opCode o).toNat ≤ 0x68)) || o == .barwait || o == .barsync || o == .syncm

/-- The instructions of a segment before its terminator, and the terminator's address, from an address on. -/
def bodyFrom (s : State) (o : Obj) : Nat → Nat → Option (List (Op × Form) × Nat)
  | 0, _ => none
  | k + 1, pc =>
    match instrAt s o pc with
    | .bad _ => none
    | .instr i =>
      match i.opForm with
      | none => none
      | some q =>
        if isTerminator q.1 then some ([], pc)
        else (bodyFrom s o k (pc + formLength q.2)).map (fun r => (q :: r.1, r.2))

/-- The body of the segment at a start PC and its terminator's address. -/
def segmentBody (s : State) (l : Launch) (pc : Pc) : Option (List (Op × Form) × Nat) :=
  (objOf s l).bind (fun o => bodyFrom s o 64 pc.toNat)

/-! ## Live-ins and live-outs (17 R287) -/

/-- A place whose value enters or leaves a body: a v register, a predicate, a per-lane selector (0 `laneid`, 1 `groupid`, 2 to 4
`teamx` to `teamz`), or an index register, which no eligible body names (18 R291). -/
inductive Loc where
  | v (n : Nat)
  | p (n : Nat)
  | sel (k : Nat)
  | x (n : Nat)
  deriving DecidableEq, Repr

/-- The positions of an instruction's sources with their selectors. -/
def sourcesOf (q : Op × Form) : List (SrcPos × Sel) :=
  let sh := shape q.1 q.2
  [(sh.a, selOf q.2.a q.2.ax), (sh.b, selOf q.2.b q.2.bx), (sh.c, selOfC q.2.c)].filter (fun p =>
    p.1 != .unread && !srcIsNumber p.1)

/-- The predicates an instruction reads as operands; p7 is a constant. -/
def predsOf (q : Op × Form) : List Nat :=
  let sh := shape q.1 q.2
  ((if sh.a == .pred then [q.2.a.toNat] else []) ++ (if sh.b == .pred then [q.2.b.toNat] else [])
    ++ (if sh.c == .pred then [q.2.c.toNat] else [])).filter (fun n => n != 7)

/-- Whether an instruction is guarded: any guard but unnegated p7. -/
def isGuarded (f : Form) : Bool := f.pred != 7#3 || f.neg

/-- The places an instruction writes. -/
def writesOf (q : Op × Form) : List Loc :=
  match (shape q.1 q.2).d with
  | .pred => if q.2.d.toNat < 7 then [.p q.2.d.toNat] else []
  | .v32 | .v64 =>
    if q.2.k then []
    else match selOf q.2.d q.2.dx with
    | .v n => (List.range (dstWords (shape q.1 q.2).d)).map (fun k => .v (n.toNat + k))
    | _ => []
  | _ => []

/-- The places an instruction reads, the destination of a guarded one among them. -/
def readsOf (q : Op × Form) : List Loc :=
  (sourcesOf q).flatMap (fun p =>
    match p.2 with
    | .v n => (List.range (posWords p.1)).map (fun k => Loc.v (n.toNat + k))
    | .laneid => [.sel 0]
    | .groupid => [.sel 1]
    | .team k => [.sel (2 + k)]
    | .idx k => [.x k]
    | _ => [])
  ++ (match (shape q.1 q.2).d, selOf q.2.d q.2.dx with | .v32, .idx k | .v64, .idx k | .v128, .idx k => [.x k] | _, _ => [])
  ++ (predsOf q).map Loc.p
  ++ (if isGuarded q.2 && q.2.pred != 7#3 then [.p q.2.pred.toNat] else [])
  ++ (if isGuarded q.2 then writesOf q else [])

/-- The order of R292: v registers, then selectors; predicates apart. -/
def locKey (l : Loc) : Nat := match l with | .v n => n | .sel k => 256 + k | .x n => 384 + n | .p n => 512 + n

/-- Places in ascending order without repeats. -/
def sortLocs (ls : List Loc) : List Loc := (listSort (fun a b => decide (locKey a ≤ locKey b)) ls).eraseDups

/-- The live-ins of a body. -/
def liveIns (body : List (Op × Form)) : List Loc :=
  sortLocs (body.foldl (fun (a : List Loc × List Loc) q =>
    (a.1 ++ (readsOf q).filter (fun l => !a.2.contains l), a.2 ++ writesOf q)) ([], [])).1

/-- The live-outs of a body. -/
def liveOuts (body : List (Op × Form)) : List Loc := sortLocs (body.flatMap writesOf)

/-- Places that are no predicates. -/
def slotLocs (ls : List Loc) : List Loc := ls.filter (fun l => match l with | .p _ => false | _ => true)

/-! ## Eligibility (18 R291) -/

/-- Whether a body may hold an instruction. -/
def bodyInstrOk (q : Op × Form) : Bool :=
  (decide ((opCode q.1).toNat ≤ 0x1A) || (decide (0x20 ≤ (opCode q.1).toNat) && decide ((opCode q.1).toNat ≤ 0x24)))
  && !q.2.sat
  && (sourcesOf q).all (fun p => match p.2 with | .s _ | .idx _ => false | _ => true)
  && (match (shape q.1 q.2).d with
      | .v32 | .v64 => q.2.k || (match selOf q.2.d q.2.dx with | .idx _ => false | _ => true)
      | _ => true)

/-- Whether a segment with a body is eligible. -/
def eligible (l : Launch) (body : List (Op × Form)) : Bool :=
  decide (1 ≤ body.length) && decide (body.length ≤ 63) && body.all bodyInstrOk
    && decide ((slotLocs (liveIns body)).length + (slotLocs (liveOuts body)).length ≤ 12) && !l.forageOff

/-! ## Running a body apart from the group's registers (17 R288, R289) -/

/-- An issue that stands for one lane of a body's run: the team, the group id, and the instruction. -/
def bodyIssue (t : TeamRef) (gid : Nat) (l16 : Bool) (q : Op × Form) : Issue :=
  { t := { ref := t, core := 0, winOff := 0, winLen := 0 }
    g := { id := gid, role := 0, part := 0, slot := 0, lanes := [], alloc := 256, base := 0 }
    pc := 0#64, m := 0#32, on := 0#32, o := q.1, f := q.2, l16 := l16, nextPc := 0#64 }

/-- One instruction of a body in one lane. -/
def bodyStep (la : Launch) (t : TeamRef) (gid : Nat) (l16 : Bool) (n : Nat) (l : Lane) (q : Op × Form) : Lane :=
  let i := bodyIssue t gid l16 q
  if guardHolds q.2 l then doneLane i l (bodyFn q.1 q.2 l (i.srcs la n l)) else offLane i l

/-- A lane after a body and the write-back of its terminator. -/
def bodyRun (la : Launch) (t : TeamRef) (gid : Nat) (l16 : Bool) (n : Nat) (l : Lane) (body : List (Op × Form)) : Lane :=
  flushWindow (body.foldl (bodyStep la t gid l16 n) { l with win := [] })

/-- The value of a place in a lane. -/
def locVal (l : Lane) (c : Loc) : Nat :=
  match c with
  | .v n => (mapGetD l.v n 0#32).toNat
  | .p n => if predOf { l with win := [] } n then 1 else 0
  | .x n => (mapGetD l.x n 0#16).toNat
  | .sel _ => 0

/-- A body's live-outs from values of its live-ins: each selector delivers its value. -/
def evalBody (body : List (Op × Form)) (ins : List (Loc × Nat)) (outs : List Loc) : List Nat :=
  let at' (c : Loc) : Nat := ((ins.find? (fun p => p.1 == c)).map Prod.snd).getD 0
  let l : Lane :=
    { pc := 0#64
      v := ins.foldl (fun m p => match p.1 with | .v n => mapSet m n (BitVec.ofNat 32 p.2) 0#32 | _ => m) []
      p := ins.foldl (fun b p => match p.1 with | .p n => putPred b n (p.2 != 0) | _ => b) 0#7 }
  let la : Launch := { obj := 0, kernel := 0, ltag := 0, gx := 2 ^ 32, gy := 2 ^ 32 }
  let t : TeamRef := ⟨0, at' (.sel 2) + 2 ^ 32 * (at' (.sel 3) + 2 ^ 32 * at' (.sel 4))⟩
  let r := bodyRun la t (at' (.sel 1)) false (at' (.sel 0)) l body
  outs.map (locVal r)

/-! ## Samples (18 R292) -/

/-- The slice offset of sample j of an entry. -/
def sampleAt (e j : Nat) : Nat := 0x1E0000 + 384 * e + 64 * j

/-- The predicates p0 to p6 of a lane. -/
def predBits (l : Lane) : Nat := ({ l with win := [] } : Lane).p.toNat

/-- The value of a live-in at lease start. -/
def liveInVal (la : Launch) (l16 : Bool) (t : TeamRef) (gid n : Nat) (l : Lane) (c : Loc) : Nat :=
  let i := bodyIssue t gid l16 (.nop, {})
  match c with
  | .sel 0 => i.laneid n
  | .sel 1 => i.groupid n
  | .sel k => teamCoord la t (k - 2)
  | _ => locVal l c

/-- The bytes of a sample record. -/
def sampleBytes (j : Nat) (pc : Pc) (team lane : Nat) (pin pout : Nat) (ins outs : List Nat) : List Byte :=
  let slots := ins ++ outs
  natBytes (j * 2 ^ 57 + pc.toNat % 2 ^ 57) 8
  ++ natBytes (team * 2 ^ 32 + outs.length * 2 ^ 28 + ins.length * 2 ^ 24 + pout * 2 ^ 16 + pin * 2 ^ 8 + lane) 8
  ++ ((List.range 12).flatMap (fun k => natBytes (slots.getD k 0) 4))

/-- A sample read back: values of the live-ins, predicates included, and of the live-outs. -/
def readSample (k : Core) (e j : Nat) (body : List (Op × Form)) : List (Loc × Nat) × List (Loc × Nat) :=
  let w (o n : Nat) : Nat := bytesNat (readBytes k.sram (sampleAt e j + o) n)
  let h := w 8 8
  let preds (lo : Nat) : List (Loc × Nat) := (List.range 7).map (fun n => (Loc.p n, bits h (lo + n) (lo + n)))
  let ins := slotLocs (liveIns body)
  let outs := slotLocs (liveOuts body)
  ((ins.zipIdx).map (fun p => (p.1, w (0x10 + 4 * p.2) 4)) ++ preds 8,
    (outs.zipIdx).map (fun p => (p.1, w (0x10 + 4 * (ins.length + p.2)) 4)) ++ preds 16)

/-! ## Acceptance and proof (18 R294, R295) -/

/-- Whether a source is a constant: an inline code, a literal or the zero code. -/
def isConst (x : Sel) : Bool := match x with | .zero | .lit32 | .lit64 | .inline _ => true | _ => false

/-- A word that a body computes: a live-in; a constant; a word of n times the value whose words are x, wrapped to a type; a word of an
instruction's result from the words it reads; one word where a predicate is true and another where it is false. -/
inductive Val where
  | inp (c : Loc)
  | const (n : Nat)
  | mul (ty : BitVec 5) (x : List Nat) (n word : Nat)
  | op (o : Op) (f : Form) (args : List Nat) (word : Nat)
  | sel (guard yes no : Nat)
  deriving DecidableEq, Repr

/-- The words computed so far, each numbered once; the numbers that places hold, by `locKey`; the words of the latch entries, newest first. Number 0 is the
constant 0 and number 1 the constant 1. -/
structure Nums where
  vals : List Val := [.const 0, .const 1]
  env : List (Nat × Nat) := []
  win : List (List Nat) := []
  deriving DecidableEq, Repr

/-- The number of a word, given now if it has none. -/
def Nums.num (s : Nums) (v : Val) : Nums × Nat :=
  match s.vals.findIdx? (· == v) with
  | some n => (s, n)
  | none => ({ s with vals := s.vals ++ [v] }, s.vals.length)

/-- The numbers of several words. -/
def Nums.nums (s : Nums) (vs : List Val) : Nums × List Nat :=
  vs.foldl (fun a v => let r := a.1.num v; (r.1, a.2 ++ [r.2])) (s, [])

/-- The word of a number. -/
def Nums.val (s : Nums) (n : Nat) : Val := s.vals.getD n (.const 0)

/-- The constant whose words have some numbers. -/
def Nums.const? (s : Nums) (ws : List Nat) : Option Nat :=
  ws.foldr (fun n a => match s.val n, a with | .const c, some hi => some (c + 2 ^ 32 * hi) | _, _ => none) (some 0)

/-- The number that a place holds; predicate 7 is true. -/
def Nums.at (s : Nums) (c : Loc) : Nat := if c = .p 7 then 1 else mapGetD s.env (locKey c) 0

/-- The numbers at lease start of the places a body reads or writes: itself, and a live-in a sampled constant that it always held (18 R293). -/
def Nums.start (ins outs : List Loc) (consts : List (Nat × Nat)) : Nums :=
  (ins ++ outs.filter (fun c => !ins.contains c)).foldl (fun s c =>
    let r := s.num (match (if ins.contains c then mapGet consts (locKey c) else none) with | some n => .const n | none => .inp c)
    { r.1 with env := mapPut r.1.env (locKey c) r.2 }) {}

/-- The word that is one number where a predicate's number is true and another where it is false. -/
def Nums.choose (s : Nums) (g yes no : Nat) : Nums × Nat :=
  let a := match s.val yes with | .sel h x _ => if h == g then x else yes | _ => yes
  let b := match s.val no with | .sel h _ y => if h == g then y else no | _ => no
  if g = 1 ∨ a = b then (s, a) else if g = 0 then (s, b) else s.num (.sel g a b)

/-- The numbers a source position delivers, one a word. -/
def Nums.source (s : Nums) (q : Op × Form) (p : SrcPos × Sel) : Nums × List Nat :=
  let ofSel (k : Nat) : List Nat := (s.at (.sel k) :: List.replicate 3 0).take (posWords p.1)
  if p.1 == .unread || srcIsNumber p.1 then (s, [])
  else match p.2 with
  | .v n => (s, (List.range (posWords p.1)).map (fun k => s.at (.v (n.toNat + k))))
  | .latch k => (s, (List.range (posWords p.1)).map (fun j => (s.win.getD (k - 1) []).getD j 0))
  | .laneid => (s, ofSel 0)
  | .groupid => (s, ofSel 1)
  | .team k => (s, ofSel (2 + k))
  | x =>
    let v := (posVal { obj := 0, kernel := 0, ltag := 0, gx := 1, gy := 1 } (bodyIssue ⟨0, 0⟩ 0 false q) 0 { pc := 0#64 } p.1 x).toNat
    s.nums ((List.range (posWords p.1)).map (fun k => .const (v / 2 ^ (32 * k) % 2 ^ 32)))

/-- The numbers that positions A, B and C deliver, a predicate position's one too. Under a guard, a word chosen by that guard is the one the
guard selects. -/
def Nums.operands (s : Nums) (q : Op × Form) : Nums × List (List Nat) :=
  let sh := shape q.1 q.2
  let under (n : Nat) : Nat :=
    match s.val n with
    | .sel g yes no => if isGuarded q.2 && g == s.at (.p q.2.pred.toNat) then (if q.2.neg then no else yes) else n
    | _ => n
  [(sh.a, selOf q.2.a q.2.ax, q.2.a.toNat), (sh.b, selOf q.2.b q.2.bx, q.2.b.toNat), (sh.c, selOfC q.2.c, q.2.c.toNat)].foldl
    (fun a p =>
      if p.1 == .pred then (a.1, a.2 ++ [[under (a.1.at (.p p.2.2))]])
      else let r := a.1.source q (p.1, p.2.1); (r.1, a.2 ++ [r.2.map under])) (s, [])

/-- An integer type as far as a low result goes: a signed type gives what the unsigned one gives, but for the extension of a narrow result
(09 R124). -/
def lowType (ty : BitVec 5) : BitVec 5 := if ty.toNat % 4 < 2 then BitVec.ofNat 5 (ty.toNat % 4) else ty

/-- Whether a type's results are whole register words (09 R124): 32 or 64 bits. -/
def wholeType (ty : BitVec 5) : Bool := decide (ty.toNat % 4 < 2)

/-- The numbers of the words of a value. -/
def Nums.words (s : Nums) (n : Nat) (f : Nat → Val) : Nums × List Nat := s.nums ((List.range n).map f)

/-- A value of a type as a factor times another. -/
def Nums.factor (s : Nums) (ty : BitVec 5) (ws : List Nat) : List Nat × Nat :=
  match ws.head?.map s.val with
  | some (.mul t x k 0) => if t == ty && ws.zipIdx.all (fun p => s.val p.1 == .mul t x k p.2) then (x, k) else (ws, 1)
  | _ => (ws, 1)

/-- k times a value, wrapped to the type: IMUL.lo by a constant and SHL by a constant are one value (18 R293, strength reduction). -/
def Nums.scale (s : Nums) (ty : BitVec 5) (ws : List Nat) (k : Nat) : Nums × List Nat :=
  let r := s.factor ty ws
  let m := r.2 * k % 2 ^ intWidth ty
  if m = 0 then (s, ws.map (fun _ => 0))
  else if m = 1 ∧ wholeType ty then (s, r.1)
  else s.words ws.length (.mul ty r.1 m)

/-- Two values in an order of their own, for an operation that commutes. -/
def pairUp (a b : List Nat) : List Nat := if a.headD 0 ≤ b.headD 0 then a ++ b else b ++ a

/-- The product of two values, wrapped to the type. -/
def Nums.product (s : Nums) (ty : BitVec 5) (a b : List Nat) : Nums × List Nat :=
  match s.const? a, s.const? b with
  | some c, _ => s.scale ty b c
  | _, some c => s.scale ty a c
  | none, none => s.words a.length (.op .imul { ty := ty } (pairUp a b))

/-- The sum or difference of two values, wrapped to the type: the other one when one is 0, a multiple of the value that both are multiples of. -/
def Nums.sum (s : Nums) (ty : BitVec 5) (sub : Bool) (a b : List Nat) : Nums × List Nat :=
  let fa := s.factor ty a
  let fb := s.factor ty b
  if wholeType ty ∧ s.const? b = some 0 then (s, a)
  else if wholeType ty ∧ s.const? a = some 0 ∧ !sub then (s, b)
  else if (s.const? a).isNone && fa.1 == fb.1 && !(sub && fa.2 == fb.2) then
    s.scale ty fa.1 (if sub then fa.2 + 2 ^ 64 - fb.2 else fa.2 + fb.2)
  else s.words a.length (if sub then .op .isub { ty := ty } (a ++ b) else .op .iadd { ty := ty } (pairUp a b))

/-- What an instruction is apart from the words it reads and where it writes. -/
def bareForm (f : Form) : Form := { ty := f.ty, sub := f.sub, imm := f.imm, rm := f.rm, scope := f.scope, hint := f.hint }

/-- What the result of an instruction is, from the values it reads: a constant when all are constants, another value by an identity, a multiple or
a sum of its own, else its own (18 R293). -/
def Nums.result (s : Nums) (q : Op × Form) (xs : List (List Nat)) : Nums × List Nat :=
  let n := dstWords (shape q.1 q.2).d
  let own := s.words n (.op q.1 (bareForm q.2) xs.flatten)
  let a := xs.getD 0 []
  let b := xs.getD 1 []
  let ty := lowType q.2.ty
  let zero (ws : List Nat) : Bool := s.const? ws == some 0
  let qword (ws : List Nat) : BitVec 128 := BitVec.ofNat 128 ((s.const? ws).getD 0)
  let sh := shape q.1 q.2
  let preds : BitVec 7 := ([(sh.a, q.2.a.toNat), (sh.b, q.2.b.toNat), (sh.c, q.2.c.toNat)].zip xs).foldl (fun p r =>
    if r.1.1 == .pred then putPred p r.1.2 (!zero r.2) else p) 0#7
  if (s.const? xs.flatten).isSome then
    let r := bodyFn q.1 q.2 { pc := 0#64, p := preds } ⟨qword a, qword b, qword (xs.getD 2 [])⟩
    s.words n (fun k => .const (r.bits / 2 ^ (32 * k) % 2 ^ 32))
  else match q.1 with
  | .iadd => s.sum ty false a b
  | .isub => s.sum ty true a b
  | .imul => if q.2.sub = 0#8 then s.product ty a b else own
  | .imad => if q.2.sub = 0#8 then let p := s.product ty a b; p.1.sum ty false p.2 (xs.getD 2 []) else own
  | .and => if zero a || zero b then (s, a.map (fun _ => 0)) else own
  | .or | .xor => if wholeType ty && zero a then (s, b) else if wholeType ty && zero b then (s, a) else own
  | .shl =>
    match s.const? b with
    | some k => if k < intWidth ty then s.scale ty a (2 ^ k) else own
    | none => own
  | .shr | .sar | .rot => if wholeType ty && zero b then (s, a) else own
  | _ => own

/-- An instruction of a body with the words it reads, its guard's number, and the words of its result. -/
structure BodyRead where
  q : Op × Form
  xs : List (List Nat)
  guard : Nat
  new : List Nat
  deriving DecidableEq, Repr

/-- An instruction read. -/
def Nums.step (s : Nums) (q : Op × Form) : Nums × BodyRead :=
  let r := s.operands q
  let t := r.1.result q r.2
  (t.1, ⟨q, r.2, s.at (.p q.2.pred.toNat), t.2⟩)

/-- An instruction whose result has been read goes on: what a guard-false lane keeps, the latch entry, the places written (04 R60, R61). -/
def Nums.commit (s : Nums) (p : BodyRead) : Nums :=
  let ws := writesOf p.q
  let r : Nums × List Nat :=
    if !isGuarded p.q.2 then (s, p.new)
    else p.new.zipIdx.foldl (fun a w =>
      let old := match ws[w.2]? with | some c => s.at c | none => 0
      let r := if p.q.2.neg then a.1.choose p.guard old w.1 else a.1.choose p.guard w.1 old
      (r.1, a.2 ++ [r.2])) (s, [])
  { r.1 with
    win := (r.2 :: r.1.win).take 8
    env := (ws.zip r.2).foldl (fun m w => mapPut m (locKey w.1) w.2) r.1.env }

/-- A body read from its first instruction. -/
def Nums.run (s : Nums) (body : List (Op × Form)) : Nums × List BodyRead :=
  body.foldl (fun a q => let r := a.1.step q; (r.1.commit r.2, a.2 ++ [r.2])) (s, [])

/-- Whether an instruction is IMUL.lo. -/
def isMulLo (q : Op × Form) : Bool := q.1 == .imul && q.2.sub == 0#8

/-- Whether an instruction is SHL by a constant. -/
def isShl (q : Op × Form) : Bool := q.1 == .shl && isConst (selOf q.2.b q.2.bx)

/-- Whether an instruction may stand in an original one's place: its guard, and the original's destination unless it drops its write-back
(18 R293, R294). -/
def samePlace (b p : BodyRead) : Bool :=
  p.q.2.pred == b.q.2.pred && p.q.2.neg == b.q.2.neg && (!isGuarded b.q.2 || p.guard == b.guard)
    && (p.q.2.k || (p.q.2.d == b.q.2.d && p.q.2.dx == b.q.2.dx && (shape p.q.1 p.q.2).d == (shape b.q.1 b.q.2).d))

/-- Whether a LEA is a 64-bit addition fused with a shift, by 0 to 7, that gave one of its sources (18 R293): a 32-bit shift, or a 64-bit one of
a 32-bit value. -/
def leaFuses (s : Nums) (b p : BodyRead) : Bool :=
  let x := p.xs.getD 1 []
  let k := 2 ^ (p.q.2.imm.toNat % 8)
  let shifted (ws : List Nat) : Bool := ws == (s.scale 0#5 x k).2 ++ [0] || ws == (s.scale 1#5 (x ++ [0]) k).2
  b.q.1 == .iadd && lowType b.q.2.ty == 1#5 && p.q.1 == .lea
    && ((b.xs.getD 0 [] == p.xs.getD 0 [] && shifted (b.xs.getD 1 [])) || (b.xs.getD 1 [] == p.xs.getD 0 [] && shifted (b.xs.getD 0 [])))

/-- Whether an instruction may be what the rewrites make of an original one, going by what the two are: the same on rewritten sources; an IMUL.lo
as SHL, or as IADD or ISUB of shifts; a self-addition as SHL; a folded value moved; an IADD fused with an IMUL.lo (18 R293). -/
def rewrites (b p : BodyRead) : Bool :=
  (p.q.1 == b.q.1 && p.q.2.ty == b.q.2.ty && p.q.2.sub == b.q.2.sub && p.q.2.imm == b.q.2.imm)
    || (isShl p.q && (isMulLo b.q || (b.q.1 == .iadd && b.xs.getD 0 [] == b.xs.getD 1 [])))
    || ((p.q.1 == .iadd || p.q.1 == .isub) && isMulLo b.q)
    || (p.q.1 == .iadd && isConst (selOf p.q.2.b p.q.2.bx))
    || ((p.q.1 == .pmov || p.q.1 == .pnot) && p.q.2.a == 7#7)
    || (p.q.1 == .imad && b.q.1 == .iadd)

/-- Whether a candidate comes from what is left of a body by the five rewrites, alone or combined, in the body's order: each original becomes
nothing (folded, fused into a later one, or a dead write), one instruction with its result, or for a multiplication by a constant up to two SHL
and that one (18 R293). At the end every live-out is what the body gives, so a write that is still needed is not lost. -/
def derivesFrom (done : Nums → Bool) : List BodyRead → List (Op × Form) → Nums → Bool
  | [], cand, s => cand.isEmpty && done s
  | b :: bs, cand, s =>
    let partialShl (p : BodyRead) : Bool := isMulLo b.q && isShl p.q && samePlace b p
    let final (s : Nums) (p : BodyRead) : Option Nums :=
      if !samePlace b p then none
      else if rewrites b p && p.new == b.new then some (s.commit p)
      else if leaFuses s b p then some (s.commit { p with new := b.new })
      else none
    let one (s : Nums) (q : Op × Form) (rest : List (Op × Form)) : Bool :=
      let r := s.step q
      match final r.1 r.2 with | some s1 => derivesFrom done bs rest s1 | none => false
    derivesFrom done bs cand s
      || (match cand with
        | [] => false
        | q :: rest =>
          let r := s.step q
          one s q rest
            || (partialShl r.2 && (match rest with
              | [] => false
              | q2 :: rest2 =>
                let s2 := r.1.commit r.2
                let r2 := s2.step q2
                one s2 q2 rest2
                  || (partialShl r2.2 && (match rest2 with
                    | [] => false
                    | q3 :: rest3 => one (r2.1.commit r2.2) q3 rest3)))))

/-- Whether a candidate comes from a body by the rewrites of R293, with constants that live-ins are taken for (log 34). -/
def derives (consts : List (Nat × Nat)) (body cand : List (Op × Form)) : Bool :=
  let s := Nums.start (liveIns body) (liveOuts body) consts
  let r := s.run body
  derivesFrom (fun s1 => (liveOuts body).all (fun c => s1.at c == r.1.at c)) r.2 cand { s with vals := r.1.vals }

/-- The sampled constants of an entry: the places, predicates among them, that held one value in all six samples (17 R287; 18 R293). -/
def sampledConsts (k : Core) (e : Nat) (body : List (Op × Form)) : List (Nat × Nat) :=
  let rest := (List.range 6).map (fun j => (readSample k e j body).1)
  ((rest.getD 0 []).filter (fun p => rest.all (fun r => r.contains p))).map (fun p => (locKey p.1, p.2))

/-- Whether every latch reference of a body names an entry the body has pushed before it (04 R64). -/
def latchesOk (body : List (Op × Form)) : Bool :=
  (body.zipIdx).all (fun p => (sourcesOf p.1).all (fun q => match q.2 with | .latch k => decide (k ≤ p.2) | _ => true))

/-- Bytes of a body. -/
def bodyBytes (body : List (Op × Form)) : Nat := (body.map (fun q => formLength q.2)).foldl (· + ·) 0

/-- Multiplications of a body. -/
def bodyMuls (body : List (Op × Form)) : Nat := (body.filter (fun q => q.1 == .imul || q.1 == .imad)).length

/-- Whether a candidate gives a sample's live-outs. -/
def sampleAgrees (k : Core) (e : Nat) (body cand : List (Op × Form)) (j : Nat) : Bool :=
  let r := readSample k e j body
  evalBody cand r.1 (r.2.map Prod.fst) == r.2.map Prod.snd

/-- Whether a candidate is acceptable for an entry's body. -/
def acceptable (k : Core) (e : Nat) (body cand : List (Op × Form)) : Bool :=
  cand.all (fun q => bodyInstrOk q && checksOk q.1 q.2) && derives (sampledConsts k e body) body cand
  && (liveIns cand).all (fun l => (liveIns body).contains l)
  && (liveOuts cand).all (fun l => (liveOuts body).contains l)
  && latchesOk cand
  && decide (bodyBytes cand ≤ bodyBytes body) && decide (cand.length < body.length)
  && decide (bodyMuls cand ≤ bodyMuls body)
  && (List.range 6).all (sampleAgrees k e body cand)

/-- Whether an instruction is unguarded with TYPE 0x00 or 0x04. -/
def plainInstr (q : Op × Form) : Bool := !isGuarded q.2 && (q.2.ty == 0#5 || q.2.ty == 4#5)

/-- Whether an instruction is of the Z/2^32-affine set. -/
def inZset (q : Op × Form) : Bool :=
  let ca := isConst (selOf q.2.a q.2.ax)
  let cb := isConst (selOf q.2.b q.2.bx)
  plainInstr q && (match q.1 with
    | .iadd | .isub | .ineg | .lea => true
    | .shl => cb
    | .imul => q.2.sub == 0#8 && (ca || cb)
    | _ => false)

/-- Whether an instruction is of the GF(2)-affine set. -/
def inGset (q : Op × Form) : Bool :=
  let ca := isConst (selOf q.2.a q.2.ax)
  let cb := isConst (selOf q.2.b q.2.bx)
  plainInstr q && (match q.1 with
    | .xor | .not => true
    | .and | .or => ca || cb
    | .shl | .shr | .rot => cb
    | _ => false)

/-- What the high halves of LEA results reach: v registers, and the latches' low and high words, newest first; none when one reaches a
64-bit read. -/
def leaReach (body : List (Op × Form)) : Option (List Nat × List (Bool × Bool)) :=
  body.foldl (fun a q =>
    match a with
    | none => none
    | some (tv, tl) =>
      let hit (p : SrcPos × Sel) (wide : Bool) : Bool :=
        match p.2 with
        | .v r => tv.contains r.toNat || (wide && tv.contains (r.toNat + 1))
        | .latch k => match tl[k - 1]? with | some t => t.1 || (wide && t.2) | none => false
        | _ => false
      if (sourcesOf q).any (fun p => posWords p.1 == 2 && hit p true) then none
      else
        let low := (sourcesOf q).any (fun p => hit p false)
        let ws := (writesOf q).filterMap (fun l => match l with | .v n => some n | _ => none)
        let tv1 := tv.filter (fun n => !ws.contains n)
        some ((if low then ws.take 1 else []) ++ (if q.1 == .lea then ws.drop 1 else []) ++ tv1, (low, q.1 == .lea) :: tl))
    (some ([], []))

/-- Whether no high half of a LEA result reaches a live-out or a 64-bit read. -/
def leaOk (body : List (Op × Form)) : Bool := match leaReach body with | some (tv, _) => tv.isEmpty | none => false

/-- Whether two bodies agree at an input. -/
def agreeAt (body cand : List (Op × Form)) (ins : List (Loc × Nat)) : Bool :=
  evalBody body ins (liveOuts body) == evalBody cand ins (liveOuts body)

/-- The inputs where one live-in has a value and the others are 0. -/
def unitInputs (ins : List Loc) (vals : List Nat) : List (List (Loc × Nat)) :=
  [] :: ins.flatMap (fun c => vals.map (fun x => [(c, x)]))

/-- Whether a candidate is proven equal to a body on every input (17 R288). -/
def proven (body cand : List (Op × Form)) : Bool :=
  let noPreds (b : List (Op × Form)) : Bool := (liveIns b ++ liveOuts b).all (fun l => match l with | .p _ => false | _ => true)
  noPreds body && noPreds cand
    && ((body.all inZset && cand.all inZset && leaOk body && leaOk cand
          && (unitInputs (liveIns body) [1]).all (agreeAt body cand))
        || (body.all inGset && cand.all inGset
          && (unitInputs (liveIns body) ((List.range 32).map (fun k => 2 ^ k))).all (agreeAt body cand)))

/-! ## The hot-segment table (17 R286; 18 R290) -/

/-- The table place of a launch's start PC. -/
def hotPlace (k : Core) (launch : Nat) (pc : Pc) : Option Nat :=
  (k.hot.find? (fun p => p.2.launch == launch && p.2.pc == pc)).map Prod.fst

/-- The place a new start PC takes: a free one, else that of the counting entry without a mark whose epoch began earliest. -/
def hotRoom (k : Core) : Option Nat :=
  match (List.range 64).find? (fun n => (mapGet k.hot n).isNone) with
  | some n => some n
  | none =>
    (listMin (fun (a b : Nat × Hot) => decide (a.2.began < b.2.began))
      (k.hot.filter (fun p => p.2.progress == 0 && p.2.black == 0))).map Prod.fst

/-- An entry whose epoch has ended, counting or done: it counts again from 0, and its next execution begins an epoch. -/
def epochOver (clk : Nat) (h : Hot) : Hot :=
  match h.epoch with
  | none => h
  | some e =>
    if e + 2 ^ 20 ≤ clk ∧ (h.progress = 0 ∨ h.progress = 4) then
      { h with count := 0, epoch := none, progress := 0, samples := 0, black := if h.black = 1 then 0 else h.black }
    else h

/-- An entry with one more execution, hot at 4,096 within its epoch: then sampling, or done when its segment is not eligible; one that
carries a mark is hot and no more. -/
def countHot (s : State) (la : Launch) (h0 : Hot) : Hot × Bool :=
  let h := epochOver s.clk h0
  let h1 := { h with count := h.count + 1, epoch := some (h.epoch.getD s.clk), began := h.epoch.getD s.clk }
  if h1.progress = 0 ∧ h1.count = 4096 then
    let ok := match segmentBody s la h.pc with | some b => eligible la b.1 | none => false
    (if h1.black = 0 then { h1 with progress := if ok then 1 else 4, samples := 0 } else h1, true)
  else (h1, false)

/-- One segment execution counted on a core. -/
def countExecution (s : State) (core launch : Nat) (la : Launch) (pc : Pc) : State :=
  let k := coreAt s core
  match hotPlace k launch pc with
  | some n =>
    let r := countHot s la (mapGetD k.hot n { launch := launch, pc := pc, epoch := none })
    updCore s core (fun k => { k with hot := mapPut k.hot n r.1, lcr := if r.2 then { k.lcr with hot := k.lcr.hot + 1 } else k.lcr })
  | none =>
    match hotRoom k with
    | some n => updCore s core (fun k => { k with hot := mapPut k.hot n { launch := launch, pc := pc, count := 1, epoch := some s.clk, began := s.clk } })
    | none => s

/-- HOT_EPOCH_END: an epoch over, its entry counting or done. -/
def execHotEpochEnd (core entry : Nat) (s : State) : Ev :=
  .next (match mapGet (coreAt s core).hot entry with
  | none => s
  | some h =>
    if epochOver s.clk h = h then s else updCore s core (fun k => { k with hot := mapPut k.hot entry (epochOver s.clk h) }))

/-- The entry a core searches next: the one whose sixth sample completed first (18 R293). -/
def nextSearch (k : Core) : Core :=
  match k.searching, k.forageEn with
  | some _, _ | none, false => k
  | none, true =>
    match listMin (fun (a b : Nat × Hot) => decide (a.2.order < b.2.order)) (k.hot.filter (fun p => p.2.progress == 2)) with
    | some p => { k with searching := some p.1, searchDone := 0 }
    | none => k

/-- Whether a lane of an issue set went through the terminator: no breakpoint took it from the lease, and it is not held. -/
def wentThrough (g : Group) (le : Lease) (n : Nat) : Bool :=
  hasLane le.mask n && (match mapGet g.lanes n with | some l => l.st != .hold | none => false)

/-- A sampled execution completed in its lowest lane: its record written, the search after the sixth. -/
def takeSample (s : State) (t : Team) (g : Group) (le : Lease) (e : Nat) : State :=
  let k := coreAt s t.core
  let la := launchOf s t
  match mapGet k.hot e, le.entryLanes.head?, segmentBody s la le.start with
  | some h, some (n, l0), some (body, _) =>
    if h.launch = t.ref.launch ∧ h.pc = le.start ∧ h.progress = 1 ∧ h.samples < 6 ∧ k.forageEn = true ∧ wentThrough g le n = true then
      match mapGet g.lanes n with
      | none => s
      | some l1 =>
        let ins := (slotLocs (liveIns body)).map (liveInVal la (launchL16 s la) t.ref g.id n l0)
        let outs := (slotLocs (liveOuts body)).map (locVal l1)
        let bs := sampleBytes h.samples le.start t.ref.team n (predBits l0) (predBits l1) ins outs
        let last := (k.hot.map (fun p => p.2.order)).foldl max 0
        let h1 := { h with samples := h.samples + 1, progress := if h.samples = 5 then 2 else 1
                           order := if h.samples = 5 then last + 1 else h.order }
        updCore s t.core (fun k =>
          nextSearch { k with sram := writeBytes k.sram (sampleAt e h.samples) bs, hot := mapPut k.hot e h1 })
    else s
  | _, _, _ => s

/-! ## Installing (18 R296) -/

/-- An entry of a core with a new progress and mark. -/
def putHot (k : Core) (e progress black : Nat) : Core :=
  match mapGet k.hot e with
  | none => k
  | some h => { k with hot := mapPut k.hot e { h with progress := progress, black := max h.black black } }

/-- The place a new overlay takes: a free one, else that of the promoted overlay executed least recently. -/
def overlayRoom (s : State) (k : Core) : Option Nat :=
  match (List.range 16).find? (fun n => (mapGet k.overlays n).isNone) with
  | some n => some n
  | none =>
    (listMin (fun (a b : Nat × Overlay) => decide (a.2.used < b.2.used))
      (k.overlays.filter (fun p => p.2.promoted && !overlaySuspended s p.2))).map Prod.fst

/-- The slice offset of an overlay's candidate words (18 R292). -/
def overlayWords (n : Nat) : Nat := 0x1E6000 + 0x500 * n

/-- A candidate installed for an entry, or its entry done. -/
def installOverlay (s : State) (core e : Nat) (h : Hot) (la : Launch) (c : Candidate) (classE : Bool) : State :=
  let k := coreAt s core
  let k0 := { k with searching := none }
  if !classE && (!la.forageSpec || la.det) then setCore s core (nextSearch (putHot k0 e 4 0))
  else match overlayRoom s k with
  | none => setCore s core (nextSearch (putHot k0 e 4 0))
  | some n =>
    let k1 := match mapGet k0.overlays n with | some o => putHot k0 o.entry 4 0 | none => k0
    let ws := (c.body.flatMap (fun q => encodeForm (opCode q.1) q.2)).flatMap wordBytes
    let k2 := putHot { k1 with
      overlays := mapPut k1.overlays n { entry := e, launch := h.launch, pc := h.pc, body := c.body, classS := !classE }
      sram := writeBytes k1.sram (overlayWords n) ws
      lcr := { k1.lcr with inst := k1.lcr.inst + 1 } } e 3 0
    setCore s core (nextSearch k2)

/-- FORAGE_SEARCH_DONE: the search of an entry ends with an acceptable candidate, which is installed or not, or without one after 2^16
Forage issues. -/
def execForageSearchDone (core entry : Nat) (cand : Option Candidate) (s : State) : Ev :=
  .next (
    let k := coreAt s core
    if k.searching ≠ some entry ∨ k.forageEn = false then s
    else match cand, mapGet k.hot entry with
    | none, some _ => if 2 ^ 16 ≤ k.searchDone then setCore s core (nextSearch (putHot { k with searching := none } entry 4 0)) else s
    | some c, some h =>
      match mapGet s.launches h.launch with
      | none => s
      | some la =>
        match segmentBody s la h.pc with
        | some (body, _) =>
          if acceptable k entry body c.body then installOverlay s core entry h la c (proven body c.body && derives [] body c.body && !c.sampled) else s
        | none => s
    | _, none => setCore s core (nextSearch { k with searching := none }))

/-! ## Leases (17 R289; 18 R297, R298, R302) -/

/-- Whether a comparison of a place goes on: its original has ended, or some lease on the core is still the one compared. -/
def checkBusy (s : State) (core place : Nat) (o : Overlay) : Bool :=
  match o.check with
  | none => false
  | some c => c.ended || s.teams.any (fun t => t.core == core && !t.ended.isSome && t.groups.any (fun g =>
      match g.lease with | some le => le.checkAt == some place | none => false))

/-- A comparison that begins. -/
def beginCheck (t : Team) (g : Group) (m : Mask) (audit : Bool) (n : Nat) : Check :=
  { team := t.ref, gid := g.id, part := g.part, before := g.lanes.filter (fun p => hasLane m p.1), mask := m, audit := audit, count := n }

/-- What the start of a lease does to an overlay of its segment: run the original, run it compared, or run the overlay. -/
inductive OverlayUse where
  | original
  | compare (o : Overlay)
  | overlay (o : Overlay)
  deriving DecidableEq, Repr

/-- The use of an overlay by an execution. -/
def overlayUse (s : State) (t : Team) (g : Group) (m : Mask) (place : Nat) (o : Overlay) : OverlayUse :=
  if overlaySuspended s o || g.step != 0#32 || (o.classS && t.barredS) || t.barred.contains o.pc.toNat then .original
  else if !o.promoted then
    if checkBusy s t.core place o then .original else .compare { o with check := some (beginCheck t g m false 0) }
  else
    let n := o.execs + 1
    let due := o.audit || n % (if o.classS then 2 ^ 10 else 2 ^ 16) == 0
    if due && !checkBusy s t.core place o then
      .compare { o with execs := n, audit := false, used := s.clk, check := some (beginCheck t g m true n) }
    else .overlay { o with execs := n, audit := due, used := s.clk }

/-- The lease of an issue set about to begin, with what Forage does at its start. -/
def forageLease (s : State) (t : Team) (g : Group) (le : Lease) : State × Lease :=
  let la := launchOf s t
  let k := coreAt s t.core
  if t.ref.launch = 0 ∨ le.replay = true ∨ k.forageEn = false ∨ la.forageOff = true then (s, le)
  else
    let sampling := match hotPlace k t.ref.launch le.start with
      | some e =>
        (match mapGet k.hot e with | some h => h.progress == 1 | none => false)
          && !(s.teams.any (fun u => u.core == t.core && u.groups.any (fun h =>
            match h.lease with | some l => l.sample == some e | none => false)))
      | none => false
    let e := if sampling then hotPlace k t.ref.launch le.start else none
    let lanes := g.lanes.filter (fun p => hasLane le.mask p.1)
    let le1 := { le with sample := e, entryLanes := if sampling then lanes else [] }
    let s1 := countExecution s t.core t.ref.launch la le.start
    match (coreAt s1 t.core).overlays.find? (fun p => p.2.launch == t.ref.launch && p.2.pc == le.start) with
    | none => (s1, le1)
    | some (n, o) =>
      let put (o : Overlay) : State := updCore s1 t.core (fun k => { k with overlays := mapPut k.overlays n o })
      match overlayUse s1 t g le.mask n o with
      | .original => (s1, le1)
      | .compare o1 => (put o1, { le1 with checkAt := some n })
      | .overlay o1 =>
        let term : Pc := match segmentBody s la le.start with | some b => BitVec.ofNat 64 b.2 | none => le.start
        let s2 := updTeam (put o1) t.ref (fun t => { t with usedS := t.usedS || o.classS, usedE := t.usedE || !o.classS })
        (s2, { le1 with overlay := some n, body := o.body, term := term, pc := if o.body.isEmpty then term else le.pc })

/-- Whether a comparison is of the execution of a group: an overlay replaced while a lease still runs may have another's comparison (18 R296,
R297). -/
def checkOf (c : Check) (t : TeamRef) (gid : Nat) : Bool := c.team == t && c.gid == gid

/-- The end of a lease through its terminator: a sample, or the original's side of a comparison. An execution that some lane did not go
through is not compared (18 R297). -/
def forageEnd (s : State) (t : Team) (g : Group) (le : Lease) : State :=
  let s1 := match le.sample with | some e => takeSample s t g le e | none => s
  match le.checkAt with
  | none => s1
  | some n =>
    updCore s1 t.core (fun k =>
      match mapGet k.overlays n with
      | some o =>
        match o.check with
        | some c =>
          if c.ended || !checkOf c t.ref g.id then k
          else if (lanesOf c.mask).any (fun n => !wentThrough g le n) then
            { k with overlays := mapPut k.overlays n { o with check := none, audit := o.audit || c.audit } }
          else
            { k with overlays := mapPut k.overlays n { o with check := some { c with
                after := g.lanes.filter (fun p => hasLane c.mask p.1), ended := true, todo := o.body.length } } }
        | none => k
      | none => k)

/-- A lease that ends without its terminator is not compared; an audit moves to the next execution. -/
def forageDrop (s : State) (t : Team) (gid : Nat) (le : Lease) : State :=
  match le.checkAt with
  | none => s
  | some n =>
    updCore s t.core (fun k =>
      match mapGet k.overlays n with
      | some o =>
        match o.check with
        | some c =>
          if c.ended || !checkOf c t.ref gid then k
          else { k with overlays := mapPut k.overlays n { o with check := none, audit := o.audit || c.audit } }
        | none => k
      | none => k)

/-! ## Comparisons (17 R289; 18 R297 to R301) -/

/-- Whether every compared lane's live-outs are those of the candidate. -/
def checkAgrees (s : State) (la : Launch) (o : Overlay) (c : Check) : Bool :=
  match segmentBody s la o.pc with
  | none => false
  | some (body, _) =>
    c.before.all (fun p =>
      match mapGet c.after p.1 with
      | none => false
      | some l1 =>
        let r := bodyRun la c.team c.gid (launchL16 s la) p.1 p.2 o.body
        (liveOuts body).all (fun x => locVal r x == locVal l1 x))

/-- A core without an overlay, its segment marked. -/
def withdrawOverlay (k : Core) (n : Nat) (o : Overlay) (black : Nat) : Core :=
  putHot { k with overlays := mapDel k.overlays n } o.entry 4 black

/-- A class E mismatch: the overlay withdrawn for the rest of the launch, the error record written, its self-test started (24 R372), and in
an IDEMPOTENT launch the teams with USED_E relaunched after the launch's end (18 R301). -/
def classEMismatch (s : State) (core n : Nat) (o : Overlay) (c : Check) (la : Launch) : State :=
  let s1 := updCore s core (fun k =>
    let k1 := withdrawOverlay k n o 2
    { k1 with lcr := { k1.lcr with emiss := k1.lcr.emiss + 1, disc := if c.audit then k1.lcr.disc else k1.lcr.disc + 1 } })
  let e : ErrorRec :=
    { cls := 4, unit := 0, part := c.part, die := core / Config.coresPerDie, core := core, ltag := la.ltag, row := 0xFFFFFFFF#32
      col := 0xFFFF#16, idx := 0#16, det1 := o.pc, det2 := BitVec.ofNat 64 c.part }
  updLaunch (startSelftest (postError s1 e) e) o.launch (fun l =>
    { l with withdrawnE := l.withdrawnE ++ [o.pc.toNat] })

/-- The core and partition of the group an audit names: where it stands now, or where the audit began when it is gone. -/
def checkPlace (s : State) (core : Nat) (c : Check) : Nat × Nat :=
  match teamAt s c.team with
  | none => (core, c.part)
  | some t => match groupOf t c.gid with | some g => (t.core, g.part) | none => (core, c.part)

/-- A class S overlay withdrawn at an audit: the ESCAPED record, at the place of the group named, and the launch's status bit (18 R299, R300). -/
def classSWithdraw (s : State) (core n : Nat) (o : Overlay) (c : Check) (la : Launch) : State :=
  let s1 := updCore s core (fun k =>
    let k1 := withdrawOverlay k n o 2
    { k1 with lcr := { k1.lcr with wdraw := k1.lcr.wdraw + 1 } })
  let s2 := updLaunch s1 o.launch (fun l => { l with escaped := true, withdrawnS := true })
  let at' := checkPlace s core c
  postRecord { s2 with holdSets := s2.holdSets + 1 }
    { code := cEscaped, kind := 9, ltag := la.ltag, team := BitVec.ofNat 32 c.team.team
      lcore := logicalOfPhys s la.epoch at'.1, part := at'.2, group := c.gid, lanes := c.mask, pc := o.pc.extractLsb' 0 57
      addr := BitVec.ofNat 57 c.count, ref := c.team, core := at'.1, set := s2.holdSets }

/-- A finished comparison of a place: its original has ended and the candidate's issues are done. -/
def readyCheck (s : State) (core place : Nat) (audit : Bool) : Option (Overlay × Check × Launch) :=
  match mapGet (coreAt s core).overlays place with
  | none => none
  | some o =>
    match o.check, mapGet s.launches o.launch with
    | some c, some la => if c.ended && c.todo == 0 && c.audit == audit then some (o, c, la) else none
    | _, _ => none

/-- TETHER_COMPARE: an agreement, the eighth of which promotes, or a disagreement, which discards. -/
def execTetherCompare (core place : Nat) (s : State) : Ev :=
  .next (match readyCheck s core place false with
  | none => s
  | some (o, c, la) =>
    if checkAgrees s la o c then
      let up := decide (7 ≤ o.agree)
      updCore s core (fun k =>
        { k with
          overlays := mapPut k.overlays place { o with agree := o.agree + 1, promoted := up, execs := 0, check := none }
          lcr := if up then { k.lcr with promo := k.lcr.promo + 1 } else k.lcr })
    else if o.classS then
      updCore s core (fun k =>
        let k1 := withdrawOverlay k place o 1
        { k1 with lcr := { k1.lcr with disc := k1.lcr.disc + 1 } })
    else classEMismatch s core place o c la)

/-- FORAGE_AUDIT_COMPARE: an audit that agrees changes nothing; one that does not withdraws the overlay. -/
def execForageAuditCompare (core place : Nat) (s : State) : Ev :=
  .next (match readyCheck s core place true with
  | none => s
  | some (o, c, la) =>
    if checkAgrees s la o c then
      updCore s core (fun k => { k with overlays := mapPut k.overlays place { o with check := none } })
    else if o.classS then classSWithdraw s core place o c la
    else classEMismatch s core place o c la)

/-! ## Idle issue positions and Forage issues (03 R44, R45) -/

/-- The comparison a partition's Forage slot issues for. -/
def forageCheck (k : Core) (part : Nat) : Option (Nat × Overlay × Check) :=
  k.overlays.findSome? (fun p =>
    match p.2.check with
    | some c => if c.ended && decide (0 < c.todo) && c.part == part then some (p.1, p.2, c) else none
    | none => none)

/-- Whether a partition's Forage slot has an instruction to issue, not within four clocks of its last. -/
def forageReady (s : State) (core part : Nat) : Bool :=
  let k := coreAt s core
  k.forageEn && ((forageCheck k part).isSome || (k.searching.isSome && decide (k.searchDone < 2 ^ 16)))
    && (match (partAt k part).forageAt with | some c => decide (c + 4 ≤ s.clk) | none => true)

/-- One issue of a Forage slot: of a comparison's candidate before the search. -/
def forageIssue (k : Core) (part : Nat) : Core :=
  match forageCheck k part with
  | some (n, o, c) => { k with overlays := mapPut k.overlays n { o with check := some { c with todo := c.todo - 1 } } }
  | none => { k with searchDone := k.searchDone + 1 }

/-- IDLE_ISSUE_POSITION: a position that no group fills is 32 idle lane-cycles, or 32 forage ones when the Forage slot takes it. The counters of
a core whose scan runs do not count, nor does Forage work (22 R349). -/
def execIdleIssuePosition (core part : Nat) (forage : Bool) (s : State) : Ev :=
  .next (if (coreAt s core).scan.state = 3 then s else if forage then
      if forageReady s core part then
        updPart (updCore s core (fun k =>
          let k1 := forageIssue k part
          if k1.lcr.en then { k1 with lcr := { k1.lcr with forage := k1.lcr.forage + 32 } } else k1)) core part
          (fun p => { p with forageAt := some s.clk })
      else s
    else updCore s core (fun k => if k.lcr.en then { k with lcr := { k.lcr with idle := k.lcr.idle + 32 } } else k))

/-! ## Control (18 R304; 03 R46) -/

/-- FORAGE_BLACKLIST_CLEAR: FORAGE_CTL.BLCLR written 1 (18 R304). -/
def execForageBlacklistClear (core : Nat) (s : State) : Ev := .next (updCore s core clearBlacklist)

/-- FORAGE_DISABLE: FORAGE_CTL.EN written 0 (18 R304). -/
def execForageDisable (core : Nat) (s : State) : Ev :=
  .next (updCore s core (fun k => { dropOverlays k with forageEn := false }))

/-- LCR_CLEAR: LCR_CTL.CLR written 1 (03 R46). -/
def execLcrClear (core : Nat) (s : State) : Ev := .next (updCore s core lcrClear)

/-- What a core's Forage holds of a launch freed when the launch completes (18 R290). -/
def forageForget (launch : Nat) (k : Core) : Core :=
  let gone := (k.hot.filter (fun p => p.2.launch == launch)).map Prod.fst
  nextSearch { k with
    hot := k.hot.filter (fun p => p.2.launch != launch)
    overlays := k.overlays.filter (fun p => p.2.launch != launch)
    searching := match k.searching with | some e => if gone.contains e then none else some e | none => none }

end Sys2Proof.Machine
end

