-- ==== Sys2Proof/Machine/Select.lean ====
section
/-! DEFINITION. What happens in a group before an instruction issues: the selection and its lease (03 R33 to R39), instruction fetch through
the trace cache (20 R311; 21 R343), breakpoints, halts and single steps (25 R388 to R390). -/
namespace Sys2Proof.Machine

/-! ## The selection key (03 R34, R38, R39) -/

/-- Depth and PC of a lane. -/
def laneKey (l : Lane) : Nat × Nat := (l.rstack.length, l.pc.toNat)

/-- The order of keys: depth descending, then PC ascending. -/
def keyLe (a b : Nat × Nat) : Bool := decide (b.1 < a.1) || (a.1 == b.1 && decide (a.2 ≤ b.2))

/-- The lanes of a group in RUN. -/
def runLanesOf (g : Group) : List (Nat × Lane) := g.lanes.filter (fun p => p.2.st == .run)

/-- Distinct keys of lanes in order, the smallest first. -/
def keysOf (ls : List (Nat × Lane)) : List (Nat × Nat) := (listSort keyLe (ls.map (fun p => laneKey p.2))).eraseDups

/-- What a selection finds: the lead's PC, the issue set, and the spin state after it. -/
structure Pick where
  pc : Pc
  mask : Mask
  cnt : BitVec 16
  rot : BitVec 5
  expiry : Bool
  deriving DecidableEq, Repr

/-- The RUN lanes at a PC, whatever their depth. -/
def issueSet (g : Group) (pc : Nat) : Mask := maskOf (((runLanesOf g).filter (fun p => p.2.pc.toNat == pc)).map Prod.fst)

/-- The selection of a group as its lanes stand; none when no lane is in RUN. -/
def pick (g : Group) : Option Pick :=
  match keysOf (runLanesOf g) with
  | [] => none
  | k0 :: ks =>
    let passed := decide (g.spinPc.toNat < k0.2)
    let cnt := if passed then 0#16 else g.spinCnt
    let rot := if passed then 0#5 else g.spinRot
    if g.spinLim.toNat ≤ cnt.toNat then
      let r := (rot.toNat + 1) % (ks.length + 1)
      let lead := (k0 :: ks).getD r k0
      some ⟨BitVec.ofNat 64 lead.2, issueSet g lead.2, 0#16, BitVec.ofNat 5 r, true⟩
    else
      let lead := match keysOf ((runLanesOf g).filter (fun p => !p.2.yield)) with | k :: _ => k | [] => k0
      some ⟨BitVec.ofNat 64 lead.2, issueSet g lead.2, cnt, rot, false⟩

/-- A group after a selection: its spin state, every yield mark cleared (03 R37). -/
def applyPick (g : Group) (p : Pick) : Group :=
  { g with spinCnt := p.cnt, spinRot := p.rot, lanes := g.lanes.map (fun q => (q.1, { q.2 with yield := false })) }

/-! ## Segments and the trace cache (03 R33; 20 R311; 21 R343) -/

/-- The start of the verified segment that holds an address. -/
def segmentOf (o : Obj) (pc : Nat) : Option Nat :=
  if o.textVa ≤ pc ∧ pc < o.textVa + o.textLen then
    listMin (fun a b => decide (b < a)) ((o.segments.map Prod.fst).filter (fun v => decide (v ≤ pc)))
  else none

/-- Whether an address starts a verified segment. -/
def isSegmentStart (o : Obj) (pc : Nat) : Bool := o.segments.any (fun q => q.1 == pc)

/-- The mask class of an issue set: 0 FULL, 1 LOW16, 2 HIGH16, 3 PARTIAL. -/
def maskClass (m : Mask) : Nat :=
  if m = 0xFFFFFFFF#32 then 0 else if m = 0x0000FFFF#32 then 1 else if m = 0xFFFF0000#32 then 2 else 3

/-- Whether every lane of a mask replays a held instruction. -/
def allReplay (g : Group) (m : Mask) : Bool := g.lanes.all (fun p => !hasLane m p.1 || p.2.replay)

/-- Whether a selected PC may start a lease: a verified segment's start of the launch's object, or a held instruction. -/
def startOk (s : State) (t : Team) (g : Group) (p : Pick) : Bool :=
  match objOf s (launchOf s t) with
  | none => false
  | some o => isSegmentStart o p.pc.toNat || (allReplay g p.mask && (segmentOf o p.pc.toNat).isSome)

/-- The trace-cache key of a selection: the segment's start and the mask class, with the owner and world whose fetch check passed, so that a
hit stands for the same check (20 R311; DEDUCED, log 37). -/
def traceKey (s : State) (t : Team) (p : Pick) : Pc × Nat :=
  let w := teamWorld s t
  (match (objOf s (launchOf s t)).bind (fun o => segmentOf o p.pc.toNat) with
    | some v => BitVec.ofNat 64 v
    | none => p.pc, maskClass p.mask + 4 * (2 * w.1 + (if w.2 = some true then 1 else 0)))

/-- Whether the segment of a selection is in the core's trace cache. -/
def traceHit (s : State) (t : Team) (p : Pick) : Bool := (coreAt s t.core).trace.contains (traceKey s t p)

/-- A fetch check's fault, with the first address of the segment in the page at fault: the mapping of every code page of the segment, which spans
two at most, is checked as an execution, the firmware slot's in either world. -/
def fetchFault (s : State) (t : Team) (pc : Pc) : Option (Code × BitVec 57) :=
  [pc.toNat, pc.toNat + (segmentBytes s (launchOf s t) pc - 1)].findSome? (fun a =>
    match teamTranslate s t (a % 2 ^ 57) .exec with
    | .fault c => some (c, BitVec.ofNat 57 (max pc.toNat (a / 0x10000 * 0x10000)))
    | _ => none)

/-- TRACE_CACHE_FILL: a missed segment fetched and checked, or the issue set held with access kind 7. A selection that is held so leaves the
yield marks and the spin state as they were (DESIGN CHOICE, log 37). -/
def execTraceCacheFill (r : GroupRef) (s : State) : Ev :=
  .next (match groupAt s r with
  | none => s
  | some (t, g) =>
    match g.fetching, pick g with
    | some _, some p =>
      let s1 := updGroup s t.ref g.id (fun g => { g with fetching := none })
      match fetchFault s t p.pc with
      | some f => takeWhole s1 t g p.pc p.mask f.1 7 f.2
      | none => updCore s1 t.core (fun k => if k.trace.contains (traceKey s t p) then k else { k with trace := k.trace ++ [traceKey s t p] })
    | some _, none => updGroup s t.ref g.id (fun g => { g with fetching := none })
    | none, _ => s)

/-! ## The start of a lease (03 R33 to R36) -/

/-- The lease of a selection begun, or its issue set held with ILLEGAL_FORM where no segment starts. -/
def startLease (s : State) (t : Team) (g : Group) (p : Pick) : State :=
  let s1 := updGroup s t.ref g.id (fun g => applyPick g p)
  let g1 := applyPick g p
  if startOk s t g p then
    let rep := g.lanes.any (fun q => hasLane p.mask q.1 && (q.2.replay || !q.2.skipBreak.isEmpty))
    let r := forageLease s1 t g1 { mask := p.mask, start := p.pc, pc := p.pc, replay := rep }
    updGroup r.1 t.ref g.id (fun g =>
      let g2 := { g with lease := some r.2 }
      if r.2.overlay.isSome && r.2.body.isEmpty then updLanes g2 p.mask (fun l => { l with pc := r.2.term }) else g2)
  else takeWhole s1 t g1 p.pc p.mask cIllegalForm 7 0#57

/-- Whether a group can make a selection now: no lease, its segment fetched or not needed. -/
def canSelect (s : State) (t : Team) (g : Group) : Option Pick :=
  match g.lease, g.fetching, pick g with
  | none, none, some p => if startOk s t g p = false ∨ traceHit s t p = true then some p else none
  | _, _, _ => none

/-- SPIN_EXPIRY: the selection of a group whose backward branches have reached the limit (03 R39). -/
def execSpinExpiry (r : GroupRef) (s : State) : Ev :=
  .next (match groupAt s r with
  | none => s
  | some (t, g) =>
    match canSelect s t g with
    | some p => if p.expiry then startLease s t g p else s
    | none => s)

/-! ## The next instruction -/

/-- The instruction a lease issues next: of the overlay's body, else of the text. -/
def leaseInstr (s : State) (t : Team) (le : Lease) : Decoded :=
  match le.overlay, le.body[le.overlayAt]? with
  | some _, some q => .instr (Instr.ofOp q.1 q.2)
  | _, _ =>
    match objOf s (launchOf s t) with
    | some o => instrAt s o le.pc.toNat
    | none => .bad .truncated

/-- The fault a refused word raises (07 R99). -/
def decodeCode (r : DecodeFault) : Code :=
  match r with
  | .illegalOp => cIllegalOp
  | .illegalOperand => cIllegalOperand
  | .illegalForm | .truncated => cIllegalForm

/-! ## Breakpoints, halts and single steps (25 R388 to R390) -/

/-- Whether a lease's next instruction is of its overlay's body and not an original. -/
def onOverlay (le : Lease) : Bool := le.overlay.isSome && (le.body[le.overlayAt]?).isSome

/-- The lowest enabled breakpoint at the next instruction of a group and the guard-true lanes it holds. -/
def breakpointAt (s : State) (t : Team) (g : Group) : Option (Nat × Mask × Pc) :=
  match g.lease with
  | none => none
  | some le =>
    let k := coreAt s t.core
    let la := launchOf s t
    if onOverlay le || k.dbgLtag = 0#16 || k.dbgLtag.toNat ≠ la.ltag || t.ref.launch = 0 then none
    else
      let f : Form := match leaseInstr s t le with | .instr i => (match i.opForm with | some q => q.2 | none => {}) | .bad _ => {}
      (k.bps.filter (fun b => b.2.getLsbD 63 && b.2.toNat % 2 ^ 57 == le.pc.toNat)).findSome? (fun b =>
        let m := guardMask f g (le.mask &&& runMask g)
          &&& maskOf ((g.lanes.filter (fun p => !p.2.skipBreak.contains b.1)).map Prod.fst)
        if m = 0#32 then none else some (b.1, m, le.pc))

/-- A lease without some of its lanes; it ends with the last of them. -/
def leaseWithout (m : Mask) (g : Group) : Group :=
  { g with lease := g.lease.bind (fun le => if le.mask &&& ~~~m = 0#32 then none else some { le with mask := le.mask &&& ~~~m }) }

/-- BREAKPOINT_HIT: the guard-true lanes hold with BREAK before the instruction has any effect (25 R389). A stepped lane that a breakpoint holds
has stopped: its step is over (DEDUCED, log 61). -/
def execBreakpointHit (r : GroupRef) (s : State) : Ev :=
  .next (match groupAt s r with
  | none => s
  | some (t, g) =>
    match breakpointAt s t g with
    | none => s
    | some (n, m, pc) =>
      takeWhole (updGroup s t.ref g.id (fun g => leaseWithout m { g with step := g.step &&& ~~~m })) t g pc m cBreak 7
        (BitVec.ofNat 57 (2 ^ 55 + n)))

/-- The lowest lane's PC of a mask. -/
def maskPc (g : Group) (m : Mask) : Pc := match mapGet g.lanes (lowest m) with | some l => l.pc | none => 0#64

/-- Lanes that a halt or a step stops hold with BREAK under the host's mark, out of the lease, inside whose segment they stand (25 R390). -/
def holdStopped (s : State) (t : Team) (g : Group) (m : Mask) (mark : Nat) : State :=
  let inside := match g.lease with | some le => m &&& le.mask | none => 0#32
  let s1 := updGroup s t.ref g.id (fun g =>
    leaseWithout m (updLanes { g with stepped := g.stepped &&& ~~~m } inside (fun l => { l with replay := true })))
  takeWhole s1 t g (maskPc g m) m cBreak 7 (BitVec.ofNat 57 (2 ^ 55 + mark))

/-- A halted group that has come to a pre-emption point: its RUN lanes hold under one record, and so do lanes that come back to RUN later,
until a record of the halt is resolved (25 R390). -/
def haltGroup (s : State) (t : Team) (g : Group) : State :=
  if g.halt && (match g.lease with | none => true | some le => le.susp || le.atHalt) then
    let m := runMask g &&& ~~~g.step
    if m = 0#32 then s else holdStopped s t g m 0x40
  else s

/-- Stepped lanes that come back to RUN from what their instruction left them in hold again; then a halted group's lanes do. -/
def holdBack (s : State) (t : Team) (g : Group) : State :=
  let m := g.stepped &&& runMask g
  if m = 0#32 then haltGroup s t g else holdStopped s t g m 0x41

/-- What every halt and step still has to hold after a happening. -/
def holdAll (s : State) : State :=
  if s.teams.any (fun t => t.groups.any (fun g => g.halt || g.stepped != 0#32)) then
    s.teams.foldl (fun s t => if t.ended.isNone then t.groups.foldl (fun s g => holdBack s t g) s else s) s
  else s

/-- Every halted group of a core's teams at its pre-emption point. -/
def haltSettle (s : State) (core : Nat) : State :=
  (s.teams.filter (fun t => t.core == core)).foldl (fun s t => t.groups.foldl (fun s g => haltGroup s t g) s) s

/-- DBG_HALT: a write of the host debug endpoint (25 R390). -/
def execDbgHalt (port : DebugPort) (team : BitVec 64) (s : State) : Ev :=
  .next (if hostGrants s port.cred port.core 0x531 team.toNat then haltSettle (dbgHalt s port.core team.toNat) port.core else s)

/-- DBG_STEP: a write of the host debug endpoint (25 R390). -/
def execDbgStep (port : DebugPort) (seq : BitVec 64) (s : State) : Ev :=
  .next (if hostGrants s port.cred port.core 0x532 seq.toNat then dbgStep s port.core seq.toNat else s)

/-- Stepped lanes that have issued one instruction: those still in RUN hold again under a new record (25 R390), and those that it has left waiting or
held do so when they come back to RUN (DEDUCED, log 49). -/
def stepSettle (s : State) (r : TeamRef) (id : Nat) (issued : Mask) : State :=
  match (teamAt s r).bind (fun t => (groupOf t id).map (fun g => (t, g))) with
  | none => s
  | some (t, g) =>
    let m := g.step &&& issued
    if m = 0#32 then s
    else
      let run := m &&& runMask g
      let away := m &&& ~~~run &&& ~~~maskOf ((g.lanes.filter (fun p => p.2.st == .done)).map Prod.fst)
      let s1 := updGroup s r id (fun g => { g with step := g.step &&& ~~~m, stepped := g.stepped ||| away })
      if run = 0#32 then s1 else holdStopped s1 t g run 0x41

end Sys2Proof.Machine
end

