-- ==== Sys2Proof/Machine/Place.lean ====
section
/-! DEFINITION. Carving a core among teams and starting them (02 R16 to R18, R28; 11 R169, R171; 15 R247; 16 R265), the head of the launch
table, the placement search (23 R361 to R364), and the abort of a scan (22 R349, R350). -/
namespace Sys2Proof.Machine

/-! ## What a team takes (23 R361) -/

/-- The kernel a launch runs. -/
def kernelOf (s : State) (l : Launch) : Option Kernel := (objOf s l).bind (fun o => o.kernels[l.kernel]?)

/-- What one team takes of a core: its groups (role, allotment, lanes), copy programs, window bytes and place when it is bound to one,
weight-buffer units, tiles, and an export entry. -/
structure Need where
  groups : List (Nat × Nat × Nat)
  copies : Nat
  sram : Nat
  winAt : Option Nat := none
  wbu : Nat
  tiles : Nat
  entry : Bool
  deriving DecidableEq, Repr

/-- The copy programs of a kernel, numbered in the order of its role table (02 R10). -/
def copyPrograms (k : Kernel) : List (Nat × Nat) := k.roles.flatMap (fun r => if r.kind = 3 then r.progs else [])

/-- The groups of a launch's team: general groups, the last one partial, or matrix groups before epilogue groups (02 R9, R10). -/
def launchGroups (l : Launch) : List (Nat × Nat × Nat) :=
  if l.mgrp + l.egrp = 0 then
    (List.range (ceilDiv l.lanes 32)).map (fun i => (0, l.regG, min 32 (l.lanes - 32 * i)))
  else (List.replicate l.mgrp (1, l.regM, 32)) ++ (List.replicate l.egrp (2, l.regE, 32))

/-- What a new team of a launch takes. -/
def launchNeed (s : State) (l : Launch) : Need :=
  { groups := launchGroups l, copies := match kernelOf s l with | some k => (copyPrograms k).length | none => 0
    sram := l.sram, wbu := l.wbu, tiles := l.tiles, entry := l.persistent }

/-- What a vacated team takes: its saved allotments, and its window's byte range (20 R325). -/
def savedNeed (t : Team) : Need :=
  { groups := (t.groups.filter (fun g => !g.freed)).map (fun g => (g.role, g.alloc, g.lanes.length))
    copies := if t.retired then 0 else t.progs.length, sram := t.winLen, winAt := some t.winOff
    wbu := if t.retired then 0 else t.units.length, tiles := if t.retired then 0 else t.tiles.length
    entry := false }

/-! ## What a core has free (02 R17) -/

/-- The teams of launches on a core. -/
def coreTeams (s : State) (c : Nat) : List Team := s.teams.filter (fun t => t.core == c && t.ref.launch != 0)

/-- The free group slots of a partition. -/
def freeSlots (s : State) (c p : Nat) : List Nat :=
  (List.range (if p = 5 then 15 else 16)).filter (fun n =>
    !(coreTeams s c).any (fun t => t.groups.any (fun g => g.part == p && g.slot == n && !g.freed)))

/-- The free transfer processors of a core. -/
def freeProcs (s : State) (c : Nat) : List Nat :=
  (List.range 4).filter (fun n => !(coreTeams s c).any (fun t => !t.retired && t.progs.any (fun x => x.proc == n)))

/-- The free weight-buffer units of a core. -/
def freeUnits (s : State) (c : Nat) : List Nat :=
  (List.range Config.wbUnits).filter (fun n => !(coreTeams s c).any (fun t => !t.retired && t.units.contains n))

/-- The free accumulator tiles of a core. -/
def freeTiles (s : State) (c : Nat) : List Nat :=
  (List.range Config.tiles).filter (fun n => !(coreTeams s c).any (fun t => !t.retired && t.tiles.contains n))

/-- The free export entries of a core: not valid, and not taken by a team of an active PERSISTENT launch (02 R28). -/
def freeEntries (s : State) (c : Nat) : List Nat :=
  (List.range 16).filter (fun n =>
    !(mapGetD (coreAt s c).expTable n {}).range.getLsbD 63 && !s.launches.any (fun p => p.2.exports.contains (c, n)))

/-- Whether a byte range of a slice is free for a window. -/
def windowFree (s : State) (c off len : Nat) : Bool :=
  decide (off + len ≤ Config.windowTop)
    && (coreTeams s c).all (fun t => t.winLen == 0 || len == 0 || decide (t.winOff + t.winLen ≤ off) || decide (off + len ≤ t.winOff))

/-- The offsets at which a window is tried on some cores: those from an offset on first. The spec leaves the choice open (DESIGN CHOICE, log
22). -/
def windowOffsets (s : State) (cs : List Nat) (from' : Nat) : List Nat :=
  let o := from' / 256 * 256
  let all := (listSort (fun a b => decide (a ≤ b)) (0 :: o :: cs.flatMap (fun c => (coreTeams s c).map (fun t => t.winOff + t.winLen)))).eraseDups
  all.filter (fun a => decide (o ≤ a)) ++ all.filter (fun a => decide (a < o))

/-- A place for a window on a core. -/
def windowAt (s : State) (c from' len : Nat) : Option Nat := (windowOffsets s [c] from').find? (fun o => windowFree s c o len)

/-- The partition and slot of each group in ascending group id: partitions in turn from the one after the last, skipping those without a
slot or rows (02 R18). Of the free slots the lowest is taken (DESIGN CHOICE, log 66). -/
def assignGroups (s : State) (c : Nat) : Nat → List (Nat × Nat × Nat) → List (Nat × Nat × Nat) → Option (List (Nat × Nat))
  | _, _, [] => some []
  | p, taken, g :: gs =>
    let slots (q : Nat) : List Nat := (freeSlots s c q).filter (fun n => !taken.any (fun x => x.1 == q && x.2.1 == n))
    let rows (q : Nat) : Nat :=
      freeRows s c q - ((taken.filter (fun x => x.1 == q)).map (fun x => x.2.2)).foldl (· + ·) 0
    match ((List.range 6).map (fun k => (p + k) % 6)).find? (fun q => !(slots q).isEmpty && decide (g.2.1 ≤ rows q)) with
    | none => none
    | some q =>
      let n := (slots q).headD 0
      (assignGroups s c ((q + 1) % 6) ((q, n, g.2.1) :: taken) gs).map (fun r => (q, n) :: r)

/-- Where a team goes on a core: its groups' slots, processors, units, tiles, window offset and export entry. -/
structure Spot where
  groups : List (Nat × Nat)
  procs : List Nat
  units : List Nat
  tiles : List Nat
  winOff : Nat
  entry : Option Nat
  deriving DecidableEq, Repr

/-- The spot of a team on a core, when it fits there. Of the free processors, units, tiles and export entries the lowest are taken (DESIGN
CHOICE, log 66). -/
def spotOn (s : State) (c : Nat) (n : Need) (from' : Nat) : Option Spot :=
  let win := match n.winAt with
    | some o => if windowFree s c o n.sram then some o else none
    | none => windowAt s c from' n.sram
  match assignGroups s c 0 [] n.groups, win with
  | some gs, some w =>
    if n.copies ≤ (freeProcs s c).length ∧ n.wbu ≤ (freeUnits s c).length ∧ n.tiles ≤ (freeTiles s c).length
        ∧ (n.entry = false ∨ (freeEntries s c).length ≠ 0) then
      some ⟨gs, (freeProcs s c).take n.copies, (freeUnits s c).take n.wbu, (freeTiles s c).take n.tiles, w,
        if n.entry then (freeEntries s c).head? else none⟩
    else none
  | _, _ => none

/-! ## Starting a team -/

/-- A map without the numbers of a range. -/
def clearRange {α : Type} (m : List (Nat × α)) (lo n : Nat) : List (Nat × α) :=
  m.filter (fun p => decide (p.1 < lo) || decide (lo + n ≤ p.1))

/-- A window zeroed, its granules EMPTY, and a grant of units and tiles zeroed with page tags 0 (11 R169; 15 R247). -/
def clearCore (k : Core) (t : Team) : Core :=
  { k with
    sram := clearRange k.sram t.winOff t.winLen
    full := clearRange k.full (t.winOff / 16) (t.winLen / 16)
    wb := t.units.foldl (fun m u => clearRange m (u * Config.wbUnitBytes) Config.wbUnitBytes) k.wb
    wbTag := t.units.foldl (fun m u => clearRange m (u * 16) 16) k.wbTag
    acc := t.tiles.foldl (fun m u => clearRange m (u * 4096) 4096) k.acc }

/-- A contiguous place of rows in a partition: the lowest gap that holds them. -/
def rowGap (s : State) (c p n : Nat) : Option Nat :=
  let gs := (partGroups s c p).filter (fun q => q.2.alloc != 0)
  let fits (b : Nat) : Bool := decide (b + n ≤ partRows p) && gs.all (fun q =>
    decide (q.2.base + q.2.alloc ≤ b) || decide (b + n ≤ q.2.base))
  (listSort (fun a b => decide (a ≤ b)) (0 :: gs.map (fun q => q.2.base + q.2.alloc))).find? fits

/-- A partition whose allotments are packed; groups whose rows move are not ready meanwhile (04 R53). -/
def packPart (s : State) (c p : Nat) : State :=
  moveRows s c p (packRows (partGroups s c p) (⟨0, 0⟩, 0) 0)

/-- A group given rows of its partition. -/
def giveRows (s : State) (t : TeamRef) (c : Nat) (g : Group) : State :=
  match rowGap s c g.part g.alloc with
  | some b => updGroup s t g.id (fun g => { g with base := b })
  | none =>
    let used := ((partGroups s c g.part).filter (fun q => !(q.1.ref == t && q.2.id == g.id))).map (fun q => q.2.alloc)
    updGroup (packPart s c g.part) t g.id (fun g => { g with base := used.foldl (· + ·) 0 })

/-- The groups of a team given rows one after another: none of them has rows before. -/
def giveAllRows (s : State) (t : Team) : State :=
  (t.groups.filter (fun g => !g.freed)).foldl (fun s g =>
    let s1 := updGroup s t.ref g.id (fun g => { g with alloc := 0 })
    let s2 := giveRows s1 t.ref t.core g
    updGroup s2 t.ref g.id (fun h => { h with alloc := g.alloc })) s

/-- The words of a transfer program written to its window, the rest of it zero (16 R265). -/
def loadWindow (k : Core) (o : Obj) (proc off len : Nat) : Core :=
  let ws := (List.range len).map (fun n => o.xtext.getD (off + n) 0#32)
  { k with sram := writeBytes (clearRange k.sram (programWindow proc) 0x1000) (programWindow proc) (ws.flatMap wordBytes) }

/-- The entry PC of a role. -/
def roleEntry (o : Obj) (k : Kernel) (role : Nat) : Pc :=
  match k.roles.find? (fun r => r.kind == role) with
  | some r => BitVec.ofNat 64 (o.textVa + r.entry)
  | none => BitVec.ofNat 64 o.textVa

/-- The export entry of a PERSISTENT team's fix-up barrier: for the team that shares its head tile, else invalid (02 R28). -/
def fixupEntry (l : Launch) (team winEnd : Nat) : ExpEntry :=
  if team < workTeams l ∧ cutsTile l (rangeStart l team) = true then
    { range := BitVec.ofNat 64 (2 ^ 63 + (winEnd - 9) * 2 ^ 21 + (winEnd - 16))
      ctl := BitVec.ofNat 64 ((team - 1) * 2 ^ 32 + l.ltag * 2 ^ 16 + 2) }
  else {}

/-- The first byte of a context's place in firmware's memory (DESIGN CHOICE, log 44). -/
def contextBase (n : Nat) : Nat := Config.firmwareHbm + n * Config.contextBytes

/-- The contexts in use: those of resident and of vacated teams. -/
def contextsUsed (s : State) : List Nat :=
  s.teams.map Team.ctx ++ s.launches.flatMap (fun p => p.2.clusters.flatMap (fun q => q.saved.map Team.ctx))

/-- The lowest context from 1 that is not in use, and holds no retired page and not the fault queue. -/
def freeContext (s : State) : Nat :=
  let bad (n : Nat) : Bool := (contextsUsed s).contains n
    || s.retiredPages.any (fun k => rangesMeet (k * 0x10000) 0x10000 (contextBase n) Config.contextBytes)
    || (s.faultBaseSet && rangesMeet (s.faultBase.toNat * 0x10000) 0x10000 (contextBase n) Config.contextBytes)
  ((List.range ((contextsUsed s).length + s.retiredPages.length + 2)).map (· + 1)).find? (fun n => !bad n) |>.getD 0

/-- A team started on a core: its grant cleared, its groups at their role entries, its programs at word 0. A PERSISTENT team that is relaunched
takes an export entry again, beside the one of its earlier run, which stays until the launch completes (DESIGN CHOICE, log 66). -/
def startTeam (s : State) (n : Nat) (l : Launch) (cl : Cluster) (team c : Nat) (p : Spot) : State :=
  match objOf s l, kernelOf s l with
  | some o, some k =>
    let gs := (launchGroups l).zip p.groups
    let t0 : Team :=
      { ref := ⟨n, team⟩, core := c, epoch := l.epoch, winOff := p.winOff, winLen := l.sram, units := p.units, tiles := p.tiles
        barredS := cl.barredS, barred := cl.barred, ctx := freeContext s
        groups := (gs.zipIdx).map (fun q =>
          { id := q.2, role := q.1.1.1, part := q.1.2.1, slot := q.1.2.2, alloc := q.1.1.2.1, base := 0
            lanes := (List.range q.1.1.2.2).map (fun i => (i, { pc := roleEntry o k q.1.1.1 })) }) }
    let ps := ((copyPrograms k).zip p.procs).zipIdx
    let t1 := { t0 with progs := ps.map (fun q => { n := q.2, proc := q.1.2, c := startRegs s t0 }) }
    let s1 := updCore s c (fun k => ps.foldl (fun k q => loadWindow k o q.1.2 q.1.1.1 q.1.1.2) (clearCore k t1))
    let s2 := giveAllRows { s1 with teams := s1.teams ++ [t1] } t1
    match p.entry with
    | none => s2
    | some e =>
      let w := p.winOff + l.sram
      let s3 := updCore s2 c (fun k =>
        { k with sram := writeBytes k.sram (w - 16) (natBytes (2 ^ 48) 8), expTable := mapSet k.expTable e (fixupEntry l team w) {} })
      updLaunch (updTeam s3 ⟨n, team⟩ (fun t => { t with expSlot := some e })) n (fun l =>
        { l with exports := l.exports ++ [(c, e)], fixups := mapPut l.fixups team (w - 16) })
  | _, _ => s

/-! ## Aborting a scan (22 R349, R350) -/

/-- A core put back into its module-reset condition, but for the scan CSRs, the firmware area and slot, and the breakpoints. -/
def resetCore (clk : Nat) (k : Core) : Core :=
  { untouchedCore clk with
    lcr := {}
    parts := (List.range 6).map (fun p => (p, { ptr := (16 - clk % 16) % 16 }))
    sram := k.sram.filter (fun p => decide (firmwareArea ≤ p.1))
    full := k.full.filter (fun p => decide (firmwareArea / 16 ≤ p.1))
    scan := k.scan, bps := k.bps, dbgLtag := k.dbgLtag, hgrpSel := 0#64
    relEpoch := k.relEpoch, cmd := k.cmd, scans := k.scans, scanJob := k.scanJob, windows := k.windows }

/-- A core whose scan a launch aborts. -/
def abortScan (s : State) (c : Nat) : State :=
  let n := (coreAt s c).scan
  if n.state = 3 then
    putScan (updCore s c (resetCore s.clk)) c (fun n => { n with state := 6, time := BitVec.ofNat 16 (min 200 ((s.clk - n.started) / 2400)) })
  else if n.state = 1 ∨ n.state = 2 ∨ n.state = 4 then putScan s c (fun n => { n with state := 0 })
  else s

/-- Whether a core under scan gives way to a launch of a priority. -/
def scanYields (s : State) (c prio : Nat) : Bool :=
  let n := (coreAt s c).scan
  decide (1 ≤ n.state) && decide (n.state ≤ 4) && decide (n.prio.toNat < prio) && !s.hotDies.contains (c / Config.coresPerDie)

/-! ## The launch table and its head (23 R362) -/

/-- Clusters of a launch. -/
def clusterTotal (l : Launch) : Nat := l.gx / l.cx * (l.gy / l.cy) * (l.gz / l.cz)

/-- The key of the n-th cluster in ascending key. -/
def clusterNth (l : Launch) (n : Nat) : Nat :=
  let a := l.gx / l.cx
  let b := l.gy / l.cy
  teamLinear l (n % a * l.cx) (n / a % b * l.cy) (n / a / b * l.cz)

/-- Launches in table order: PRIO descending, then claim order. -/
def tableOrder (s : State) : List (Nat × Launch) :=
  listSort (fun a b => decide (b.2.prio < a.2.prio) || (a.2.prio == b.2.prio && decide (a.2.order ≤ b.2.order)))
    (s.launches.filter (fun p => p.2.admitted))

/-- Whether a launch may dispatch: its object's core counts are patched for its map epoch, or can be now, no launch of the object being under way
(21 R338; 22 R351). -/
def dispatchable (s : State) (n : Nat) (l : Launch) : Bool :=
  match objOf s l with
  | none => false
  | some o => o.epoch == l.epoch || !s.launches.any (fun p => p.1 != n && p.2.obj == l.obj && decide (0 < p.2.dispatched))

/-- The next cluster of a launch: vacated ones before undispatched ones, each in ascending key. After a stall vacate that is the vacated
cluster itself, ahead of the one it made room for: 02 R24's first row holds without exception (DESIGN CHOICE, log 67). -/
def nextCluster (l : Launch) : Option Nat :=
  match listMin (fun a b => decide (a < b)) ((l.clusters.filter (fun q => q.state == 2 || q.state == 5)).map Cluster.key) with
  | some k => some k
  | none => if l.dispatched < clusterTotal l then some (clusterNth l l.dispatched) else none

/-- The head: the first launch in table order with a cluster to place. -/
def headCluster (s : State) : Option (Nat × Nat) :=
  (tableOrder s).findSome? (fun p => if dispatchable s p.1 p.2 then (nextCluster p.2).map (fun k => (p.1, k)) else none)

/-- A head that has changed starts a fresh wait and count, without a reservation (23 R364). -/
def settleHead (s : State) : State :=
  let h := headCluster s
  if h = s.headOf then s else { s with headOf := h, headSince := s.clk, backfills := 0, reserved := none }

/-- The herds with exposed cores. -/
def herdCount : Nat := Config.coreCount / Config.coresPerHerd

/-- The exposed cores of a herd in a launch's map epoch. -/
def herdCores (s : State) (l : Launch) (h : Nat) : List Nat :=
  ((List.range Config.coresPerHerd).map (fun k => h * Config.coresPerHerd + k)).filter (fun c =>
    !(removedAt s l.epoch).contains c && !s.removed.contains c)

/-- Whether a core takes teams of a launch: open, or giving its scan way when that counts. -/
def coreTakes (s : State) (l : Launch) (scan : Bool) (c : Nat) : Bool := coreOpen s c || (scan && scanYields s c l.prio)

/-- What a new team takes with its window at an offset. -/
def needAt (s : State) (l : Launch) (o : Nat) : Need := { launchNeed s l with winAt := some o }

/-- The cores a cluster's teams take in a herd: the lowest-numbered distinct ones on which each fits, in rank order (23 R363), its window at one
offset on all of them (12 R181; of the sets an offset allows the lowest is taken: DEDUCED, log 22). -/
def clusterCores (s : State) (l : Launch) (scan : Bool) (h : Nat) : Option (List Nat) :=
  let size := l.cx * l.cy * l.cz
  let cs := (herdCores s l h).filter (fun c => coreTakes s l scan c && (spotOn s c (launchNeed s l) 0).isSome)
  let sets := (windowOffsets s cs 0).map (fun o => (cs.filter (fun c => (spotOn s c (needAt s l o) 0).isSome)).take size)
  listMin (fun a b => decide (a < b)) (sets.filter (fun a => a.length == size))

/-- The cores a fresh cluster takes when one of them is given: that one, and the lowest-numbered others that fit beside it. -/
def clusterCoresWith (s : State) (l : Launch) (c : Nat) : Option (List Nat) :=
  let size := l.cx * l.cy * l.cz
  let cs := (herdCores s l (c / Config.coresPerHerd)).filter (fun c => coreTakes s l false c && (spotOn s c (launchNeed s l) 0).isSome)
  let sets := (windowOffsets s cs 0).filterMap (fun o =>
    let fit := cs.filter (fun c => (spotOn s c (needAt s l o) 0).isSome)
    if fit.contains c then
      let near := (fit.filter (fun d => d != c)).take (size - 1)
      some (near.filter (fun d => decide (d < c)) ++ [c] ++ near.filter (fun d => decide (c < d)))
    else none)
  listMin (fun a b => decide (a < b)) (sets.filter (fun a => a.length == size))

/-- The window offset of a new cluster: the first at which every team fits its core. -/
def commonOffset (s : State) (l : Launch) (from' : Nat) (cs : List Nat) : Nat :=
  ((windowOffsets s cs from').find? (fun o => cs.all (fun c => (spotOn s c (needAt s l o) 0).isSome))).getD 0

/-- The core counts of an object patched again for a launch's epoch (21 R338). -/
def patchCounts (s : State) (l : Launch) : State :=
  match objOf s l with
  | none => s
  | some o =>
    if o.epoch = l.epoch then s
    else
      let s1 := o.coreSites.foldl (fun s p => hbmWrite s o.owner p.1 (natBytes (logicalCount s l.epoch) (if p.2 then 8 else 4))) s
      { s1 with objects := mapPut s1.objects l.obj { o with epoch := l.epoch } }

/-- A cluster's teams started on cores of one herd, in rank order, their windows at one offset (12 R181). -/
def startTeams (s : State) (n : Nat) (l : Launch) (cl : Cluster) (from' : Nat) (cs : List Nat) : State :=
  let o := commonOffset s l from' cs
  (((clusterTeams l cl.key).zip cs)).foldl (fun s q =>
    match spotOn s q.2 (needAt s l o) 0 with
    | some p => startTeam s n l cl q.1 q.2 p
    | none => s) s

/-- The clusters of a launch with one replaced or added. -/
def putCluster (l : Launch) (q : Cluster) : Launch :=
  { l with clusters :=
      if l.clusters.any (fun c => c.key == q.key) then l.clusters.map (fun c => if c.key == q.key then q else c)
      else l.clusters ++ [q] }

/-- The state of a cluster that has been placed: held, while not every cluster of its PERSISTENT launch is (02 R26; 23 R363). -/
def placedState (l : Launch) : Nat := if l.persistent && !l.started then 6 else 1

/-- A PERSISTENT launch whose clusters are all placed at once starts them (02 R26); one that has ended for good is waited for no more. -/
def releaseHeld (l : Launch) : Launch :=
  if l.persistent && !l.started && l.dispatched == clusterTotal l && l.clusters.all (fun q => q.state == 6 || q.state == 7) then
    { l with started := true, clusters := l.clusters.map (fun q => if q.state = 6 then { q with state := 1 } else q) }
  else l

/-- A cluster placed on cores: scans in its way aborted, its teams started. -/
def placeCluster (s : State) (n key : Nat) (l : Launch) (fresh : Bool) (h from' : Nat) (cs : List Nat) : State :=
  let s1 := cs.foldl abortScan (patchCounts s l)
  let cl := ((l.clusters.find? (fun q => q.key == key)).getD { key := key })
  let cl1 := { cl with state := placedState l, cores := cs, herd := h, saved := [], usedS := false, usedE := false }
  let s2 := startTeams s1 n l cl1 from' cs
  settleHead (updLaunch s2 n (fun l =>
    releaseHeld (putCluster { l with dispatched := if fresh then l.dispatched + 1 else l.dispatched } cl1)))

/-! ## Restoring and relaunching (20 R320, R325) -/

/-- Whether a vacated cluster always returns to the cores it left. -/
def clusterBound (l : Launch) (q : Cluster) : Bool := l.persistent || decide (1 < q.cores.length)

/-- Whether a core may take a saved context: a closed core still takes those bound to it, unless its die is closed for heat, a pattern
runs, or it is removed (20 R325; 22 R348; 25 R392); with `scan`, one whose scan gives way to a priority (22 R350). -/
def coreRestores (s : State) (bound scan : Bool) (prio c : Nat) : Bool :=
  let st := (coreAt s c).scan.state
  (if bound then decide (st ≠ 3 ∧ st ≠ 7) && !s.hotDies.contains (c / Config.coresPerDie) else coreOpen s c) || (scan && scanYields s c prio)

/-- Whether a saved team of a cluster fits a core. -/
def restoresOn (s : State) (l : Launch) (q : Cluster) (scan : Bool) (t : Team) (c : Nat) : Bool :=
  coreRestores s (clusterBound l q) scan l.prio c && !(removedAt s l.epoch).contains c && !s.removed.contains c
    && (spotOn s c (savedNeed t) 0).isSome

/-- Whether every team of a vacated cluster fits the core it would take. -/
def restoreFits (s : State) (l : Launch) (q : Cluster) (scan : Bool) (cs : List Nat) : Bool :=
  cs.length == q.saved.length && (!clusterBound l q || cs == q.cores)
    && (q.saved.zip cs).all (fun p => restoresOn s l q scan p.1 p.2)

/-- The cores a vacated cluster takes in a herd: those it is bound to, or the lowest-numbered that takes its team (20 R325; 23 R363). -/
def restoreCores (s : State) (l : Launch) (q : Cluster) (scan : Bool) (h : Nat) : Option (List Nat) :=
  if clusterBound l q then
    if q.cores.all (fun c => c / Config.coresPerHerd == h) && restoreFits s l q scan q.cores then some q.cores else none
  else ((herdCores s l h).map (fun c => [c])).find? (restoreFits s l q scan)

/-- Whether a launch's next cluster is fresh, waits for a relaunch, or is vacated. -/
def clusterState (l : Launch) (key : Nat) : Nat := match l.clusters.find? (fun q => q.key == key) with | some q => q.state | none => 0

/-- The cores on which a launch's next cluster fits in a herd: a vacated one where it is restored, any other where it starts. -/
def fitInHerd (s : State) (n key : Nat) (scan : Bool) (h : Nat) : Option (Launch × List Nat) :=
  match mapGet s.launches n with
  | none => none
  | some l =>
    (match l.clusters.find? (fun (q : Cluster) => q.key == key && q.state == 2) with
      | some q => restoreCores s l q scan h
      | none => clusterCores s l scan h).map (fun cs => (l, cs))

/-- The cores on which a launch's next cluster fits when one of them is given. -/
def fitOnCore (s : State) (n key c : Nat) : Option (Launch × List Nat) :=
  match mapGet s.launches n with
  | none => none
  | some l =>
    (match l.clusters.find? (fun (q : Cluster) => q.key == key && q.state == 2) with
      | some q =>
        let cs := if clusterBound l q then q.cores else [c]
        if cs.contains c && restoreFits s l q false cs then some cs else none
      | none => clusterCoresWith s l c).map (fun cs => (l, cs))

/-- Whether the search for a cluster finds no herd among open cores, and so counts the cores of lower-priority scans (22 R350). -/
def countScans (s : State) (n key : Nat) : Bool := (List.range herdCount).all (fun h => (fitInHerd s n key false h).isNone)

end Sys2Proof.Machine
end

