-- ==== Sys2Proof/Machine/Context.lean ====
section
/-! DEFINITION. A team's context in firmware-held HBM (20 R324; 04 R49): the 512-byte team record, the areas it points to and the groups' backing
stores as bytes, written under the owner's key, and what is left of them when that key is gone (24 R380). The spec gives the areas' order and no
widths but the record's: those are log 44's. -/
namespace Sys2Proof.Machine

/-! ## The team record (20 R324) -/

/-- Where an area of a context stands: 0 WIN, 1 HND, 2 XPS, 3 ENG, 4 RSTK, 5 + n the backing store of group n, 37 the record itself, and 38 what
is left of the bulk operations (DESIGN CHOICE, log 44). -/
def contextPlace (t : Team) (area : Nat) : Nat :=
  contextBase t.ctx + (match area with
    | 0 => 0x200000 | 1 => 0x600000 | 2 => 0x602000 | 3 => 0x400000 | 4 => 0x800000 | 37 => 0x604000 | 38 => 0x1000000
    | n => (n - 5) * 0x10000)

/-- For each group, the lanes that wait at BARSYNC (14 R237). -/
def barsyncLanes (t : Team) (n : Nat) : Nat :=
  match t.groups.find? (fun g => g.id == n) with
  | some g => (maskOf ((g.lanes.filter (fun p => p.2.wait == .barsync)).map Prod.fst)).toNat
  | none => 0

/-- The 512 bytes of the team record. -/
def teamRecord (l : Launch) (t : Team) : List Byte :=
  natBytes (t.ref.team * 2 ^ 32 + l.ltag * 2 ^ 16 + t.groups.length * 2 ^ 8 + t.progs.length * 2 ^ 5
    + (if t.usedE then 2 else 0) + (if t.usedS then 1 else 0)) 8
  ++ natBytes (t.winLen * 2 ^ 32 + t.winOff) 8
  ++ natBytes (t.tiles.length * 2 ^ 16 + t.units.length) 8
  ++ (List.range 5).flatMap (fun n => natBytes (contextPlace t n) 8)
  ++ (List.range 32).flatMap (fun n => natBytes (barsyncLanes t n) 4)
  ++ natBytes t.fpxen.toNat 8
  ++ List.replicate 56 0#8
  ++ (List.range 32).flatMap (fun n => natBytes (if n < t.groups.length then contextPlace t (5 + n) else 0) 8)

/-! ## The areas it points to -/

/-- Values one after another, the first lowest, each at its own width: (width, value). -/
def packBits (fs : List (Nat × Nat)) : Nat := fs.foldr (fun f a => f.2 % 2 ^ f.1 + 2 ^ f.1 * a) 0

/-- The window's bytes, then one full/empty bit for each granule. -/
def windowImage (t : Team) : List Byte :=
  readBytes t.win 0 t.winLen
  ++ (List.range (ceilDiv t.winLen 128)).map (fun k =>
    BitVec.ofNat 8 (packBits ((List.range 8).map (fun b => (1, if mapGetD t.winFull (8 * k + b) false then 1 else 0)))))

/-- The 64 bytes of a handle, laid out as its descriptor record (11 R174). -/
def handleImage (h : Handle) : List Byte :=
  natBytes h.base.toNat 8 ++ [BitVec.ofNat 8 h.fmt, BitVec.ofNat 8 h.rank, BitVec.ofNat 8 h.spn, BitVec.ofNat 8 h.scblk]
  ++ natBytes (if h.pub then 1 else 0) 4
  ++ (List.range 5).flatMap (fun k => natBytes (h.size.getD k 0) 4) ++ (List.range 5).flatMap (fun k => natBytes (h.stride.getD k 0) 4)
  ++ natBytes h.scale.toNat 8

/-- A handle that may be absent. -/
def handleOr (h : Option Handle) : List Byte := match h with | some h => handleImage h | none => List.replicate 64 0#8

/-- The 64 handles, then the mask of the valid ones. -/
def handlesImage (t : Team) : List Byte :=
  (List.range 64).flatMap (fun n => handleOr (mapGet t.handles n))
  ++ natBytes (packBits ((List.range 64).map (fun n => (1, if (mapGet t.handles n).isSome then 1 else 0)))) 8

/-- The return stacks, group by group and lane by lane, each to its depth. -/
def stacksImage (t : Team) : List Byte := t.groups.flatMap (fun g => g.lanes.flatMap (fun p => p.2.rstack.flatMap (fun a => natBytes a.toNat 8)))

/-- Row `n` of a group's backing store: lane l's register at byte 4l (04 R49). -/
def rowImage (g : Group) (n : Nat) : List Byte :=
  (List.range 32).flatMap (fun l => match mapGet g.lanes l with | some x => natBytes (mapGetD x.v n 0#32).toNat 4 | none => List.replicate 4 0#8)

/-- The row area of a group's backing store, bytes 0 to 0x7FFF (04 R49). -/
def rowsImage (g : Group) : List Byte := (List.range 256).flatMap (rowImage g)

/-- A lane's state, in the order of 02 R19. -/
def stateNumber (x : LaneState) : Nat := match x with | .run => 0 | .park => 1 | .waitb => 2 | .hold => 3 | .done => 4

/-- What a lane waits for: its kind, address, and comparand, phase or mask. -/
def waitFields (w : Wait) : List (Nat × Nat) :=
  match w with
  | .none => [(3, 0), (32, 0), (32, 0)]
  | .parkWord a c => [(3, 1), (32, a.toNat), (32, c.toNat)]
  | .parkFull a => [(3, 2), (32, a.toNat), (32, 0)]
  | .barsync => [(3, 3), (32, 0), (32, 0)]
  | .barwait a p => [(3, 4), (32, a.toNat), (32, if p then 1 else 0)]
  | .syncm m _ => [(3, 5), (32, 0), (32, m.toNat)]
  | .ldfe a _ _ _ _ _ => [(3, 6), (32, a.toNat), (32, 0)]

/-- A lane record of 128 bytes (20 R324). -/
def laneImage (l : Lane) : List Byte :=
  natBytes (packBits ([(3, stateNumber l.st), (64, l.pc.toNat), (11, l.rstack.length), (1, if l.yield then 1 else 0), (7, l.p.toNat)]
    ++ (List.range 4).map (fun n => (16, (mapGetD l.x n 0#16).toNat))
    ++ [(5, l.flags.toNat), (32, l.sr.toNat), (1, if l.completed then 1 else 0)] ++ waitFields l.wait
    ++ [(1, if l.ldfeDone then 1 else 0)])) 128

/-- A result-window entry of 32 bytes: value, destination, pending flag, and whether it is empty (20 R324; 04 R61). -/
def latchImage (e : Latch) : List Byte :=
  let d : List (Nat × Nat) := match e.dest with | .none => [(2, 0), (8, 0), (3, 0)] | .v n w => [(2, 1), (8, n), (3, w)] | .p n => [(2, 2), (8, n), (3, 0)]
  natBytes (packBits ([(128, e.val.toNat)] ++ d ++ [(1, if e.pending then 1 else 0), (1, if e.empty then 1 else 0)])) 32

/-- The scalars and registers of a group, 0xB000 to 0xB3FF of its store (20 R324). -/
def groupImage (g : Group) : List Byte :=
  let le : Nat × Nat := match g.lease with | some le => (le.mask.toNat, le.pc.toNat) | none => (0, 0)
  natBytes (packBits ((List.range 24).map (fun n => (64, (mapGetD g.s n 0#64).toNat))
    ++ (List.range 4).map (fun n => let w : AWin := mapGetD g.aw n {}; (64, w.len.toNat * 2 ^ 16 + w.base.toNat))
    ++ [(9, g.alloc), (9, g.req), (16, g.spinCnt.toNat), (16, g.spinLim.toNat), (5, g.spinRot.toNat), (57, g.spinPc.toNat), (32, le.1), (64, le.2),
        (64, g.requests), (64, g.ovfRd.toNat), (64, g.ovfWr.toNat), (64, g.ovfMiss.toNat)])) 0x400

/-- A group's backing store with its context: rows, lane records, result windows, the group's own, zeros (04 R49; 20 R324). -/
def storeImage (g : Group) : List Byte :=
  let perLane (n : Nat) (f : Lane → List Byte) : List Byte :=
    (List.range 32).flatMap (fun l => match mapGet g.lanes l with | some x => f x | none => List.replicate n 0#8)
  rowsImage g ++ perLane 128 laneImage
    ++ perLane 256 (fun l => (List.range 8).flatMap (fun k => match l.win[k]? with | some e => latchImage e | none => List.replicate 32 0#8))
    ++ groupImage g ++ List.replicate 0x4C00 0#8

/-- What a transfer program waits for: its kind, register or address, and phase, mask or bytes. -/
def xwaitFields (w : XWaitKind) : List (Nat × Nat) :=
  match w with
  | .none => [(3, 0), (32, 0), (64, 0)]
  | .barrier a p => [(3, 1), (32, a.toNat), (64, if p then 1 else 0)]
  | .signal d m => [(3, 2), (32, d), (64, m.toNat)]
  | .arrive a b => [(3, 3), (32, a.toNat), (64, b.toNat)]

/-- A bulk operation: its spaces, word, barrier, tag, and how many units and fronts are left of it. -/
def bulkFields (o : BulkOp) : List (Nat × Nat) :=
  [(2, o.srcSpace), (2, o.dstSpace), (10, o.xpc), (32, o.bar.toNat), (16, o.tag), (64, o.units.length), (16, (o.fronts.getD []).length)]

/-- The progress of a bulk operation (16 R266): source and destination of every unit left, then the published fronts it reads through. -/
def bulkImage (o : BulkOp) : List Byte := (o.units ++ o.fronts.getD []).flatMap (fun u => natBytes u.1 8 ++ natBytes u.2 8)

/-- The progress of a team's bulk operations, program by program in queue order. -/
def bulksImage (t : Team) : List Byte := t.progs.flatMap (fun x => x.queue.flatMap bulkImage)

/-- A transfer program's state of 1 KiB, in the order of 16 R266; its counters are zero (20 R323). -/
def progImage (x : XProg) : List Byte :=
  natBytes (packBits ((List.range 16).map (fun n => (64, (mapGetD x.c n 0#64).toNat)) ++ (List.range 4).map (fun n => (32, (mapGetD x.k n 0#32).toNat))
    ++ [(10, x.xpc), (3, x.state), (16, x.signal.toNat), (32, x.post.toNat)] ++ List.replicate 17 (32, 0) ++ xwaitFields x.wait
    ++ x.queue.flatMap bulkFields)) 1024

/-- The four program states, zeros where the team has no program. -/
def progsImage (t : Team) : List Byte :=
  (List.range 4).flatMap (fun n => match t.progs.find? (fun x => x.n == n) with | some x => progImage x | none => List.replicate 1024 0#8)

/-- An engine-queue entry of 16 KiB: its fields, the snapshots of its handles, and its rows, 1,024 at most (15 R254; DESIGN CHOICE, log 44). -/
def engineImage (o : EngineOp) : List Byte :=
  let b (x : Bool) : Nat × Nat := (1, if x then 1 else 0)
  natBytes (packBits [b o.mxv, (3, o.part), (5, o.gid), (5, o.lane), (64, o.pc.toNat), (32, o.block.toNat), b o.acc, (8, o.afmt), (8, o.bfmt), b o.sa,
      b o.sb, (8, o.dtile), (32, o.k), (32, o.a), (32, o.ascl), (64, o.bscl), (32, o.bar.toNat), (32, o.rows.length), (32, o.atGroup), (32, o.atStep),
      b o.interrupted]) 128
  ++ handleOr o.aHandle ++ handleOr o.bHandle
  ++ (o.rows.flatMap (fun r => natBytes r.1 4 ++ natBytes r.2.1 4 ++ natBytes r.2.2 4))
  ++ List.replicate (16128 - 12 * o.rows.length) 0#8

/-- The engine's part: eight queue entries, the weight-buffer grant with its page tags, the tiles (15 R264). -/
def enginesImage (t : Team) : List Byte :=
  (List.range 8).flatMap (fun n => match t.engSaved[n]? with | some o => engineImage o | none => List.replicate 0x4000 0#8)
  ++ readBytes t.wbSaved 0 (t.units.length * Config.wbUnitBytes)
  ++ (List.range (t.units.length * 16)).flatMap (fun n => natBytes (mapGetD t.wbTagSaved n 0) 8)
  ++ (List.range (t.tiles.length * 4096)).flatMap (fun n => natBytes (mapGetD t.accSaved n 0#32).toNat 4)

/-- The areas of a saved team's context, the record last. -/
def contextAreas (l : Launch) (t : Team) : List (Nat × List Byte) :=
  (t.groups.map (fun g => (5 + g.id, storeImage g)))
  ++ [(0, windowImage t), (1, handlesImage t), (2, progsImage t), (3, enginesImage t), (4, stacksImage t), (38, bulksImage t), (37, teamRecord l t)]

/-- A saved team's context written to firmware's memory under the owner's key (20 R324). -/
def writeContext (s : State) (l : Launch) (t : Team) : State :=
  (contextAreas l t).foldl (fun s q => hbmWrite s l.owner (contextPlace t q.1) q.2) s

/-- A context moved to another place, its retired one left: a vacated team's is written anew (24 R372; DESIGN CHOICE, log 44). -/
def moveContext (s : State) (n : Nat) : State :=
  let m := freeContext s
  let moved (t : Team) : Team := if t.ctx = n then { t with ctx := m } else t
  let s1 := { s with
    teams := s.teams.map moved
    launches := s.launches.map (fun (p : Nat × Launch) =>
      (p.1, { p.2 with clusters := p.2.clusters.map (fun (q : Cluster) => { q with saved := q.saved.map moved }) })) }
  s1.launches.foldl (fun s p => (p.2.clusters.flatMap Cluster.saved).foldl (fun s t => if t.ctx = m then writeContext s p.2 t else s) s) s1

/-! ## What a lost key leaves (24 R380) -/

/-- A value read under a key that did not write it. -/
def lostValue (base n w : Nat) : BitVec w := (Config.freeValue (base + n)).setWidth w

/-- A bit read so. -/
def lostBit (base n : Nat) : Bool := (Config.freeValue (base + n)).getLsbD 0

/-- A number below a bound read so. -/
def lostNat (base n bound : Nat) : Nat := (Config.freeValue (base + n)).toNat % bound

/-- A lane with the registers that `gone` names read under a lost key. -/
def lostRows (base : Nat) (gone : Nat → Bool) (l : Lane) : Lane :=
  { l with v := (List.range 256).foldl (fun v n => if gone n then mapSet v n (lostValue base n 32) 0#32 else v) l.v }

/-- A resident group whose overflow rows stand under a lost key: those in the cache are on the chip (04 R50). -/
def lostOverflow (cache : List (Nat × Nat)) (base : Nat) (g : Group) : Group :=
  { g with lanes := g.lanes.map (fun p =>
      (p.1, lostRows (base + 256 * p.1) (fun n => decide (g.alloc ≤ n) && !cache.contains (g.slot, n)) p.2)) }

/-- A window entry read under a lost key. -/
def lostLatch (base : Nat) (e : Latch) : Latch :=
  { e with
    val := BitVec.ofNat 128 ((Config.freeValue base).toNat + 2 ^ 64 * (Config.freeValue (base + 1)).toNat)
    dest := if lostBit base 2 then .none else .v (lostNat base 3 256) 1
    pending := lostBit base 4, empty := lostBit base 5 }

/-- What a lane waits for read under a lost key: of its kind, at some address. -/
def lostWait (base : Nat) (w : Wait) : Wait :=
  let a : BitVec 32 := lostValue base 0 32
  match w with
  | .none => .none
  | .parkWord _ _ => .parkWord a (lostValue base 1 32)
  | .parkFull _ => .parkFull a
  | .barsync => .barsync
  | .barwait _ _ => .barwait a (lostBit base 1)
  | .syncm _ n => .syncm (lostValue base 1 32) n
  | .ldfe _ w clr d tag part => .ldfe a w clr d tag part

/-- A saved lane read under a lost key: all of its record, its registers and its window (20 R324). Its state, depth, and the kind of what it waits
for are kept (DESIGN CHOICE, log 44). -/
def lostLane (base : Nat) (l : Lane) : Lane :=
  { lostRows base (fun _ => true) l with
    pc := lostValue base 256 64
    p := lostValue base 257 7
    flags := lostValue base 258 5
    sr := lostValue base 259 32
    x := (List.range 4).map (fun n => (n, lostValue base (260 + n) 16))
    yield := lostBit base 264
    completed := lostBit base 265
    ldfeDone := lostBit base 266
    wait := lostWait (base + 267) l.wait
    win := l.win.mapIdx (fun n e => lostLatch (base + 272 + 8 * n) e)
    rstack := l.rstack.mapIdx (fun n _ => lostValue base (512 + n) 64) }

/-- A saved group read under a lost key: its lanes, and all of 0xB000 to 0xB3FF. -/
def lostGroup (base : Nat) (g : Group) : Group :=
  { g with
    lanes := g.lanes.map (fun p => (p.1, lostLane (base + 2048 * p.1) p.2))
    s := (List.range 24).map (fun n => (n, lostValue base (65536 + n) 64))
    aw := (List.range 4).map (fun n => (n, ⟨lostValue base (65568 + 2 * n) 9, lostValue base (65569 + 2 * n) 8⟩))
    alloc := lostNat base 65576 257
    req := lostNat base 65577 257
    spinCnt := lostValue base 65578 16
    spinLim := lostValue base 65579 16
    spinRot := lostValue base 65580 5
    spinPc := lostValue base 65581 57
    lease := g.lease.map (fun le => { le with
      mask := lostValue base 65582 32, pc := lostValue base 65583 64, start := lostValue base 65583 64, overlay := none, body := [] })
    requests := (lostValue base 65584 64).toNat
    ovfRd := lostValue base 65585 64
    ovfWr := lostValue base 65586 64
    ovfMiss := lostValue base 65587 64 }

/-- Memory bytes read under a lost key, in canonical form. -/
def lostBytes (base n : Nat) : List Host.Cell := (List.range n).foldl (fun m k => writeByte m k (lostValue base k 8)) []

/-- A handle read under a lost key. -/
def lostHandle (base : Nat) : Handle :=
  { base := lostValue base 0 64, fmt := lostNat base 1 256, rank := lostNat base 2 256, spn := lostNat base 3 256, scblk := lostNat base 4 256
    pub := lostBit base 5, size := (List.range 5).map (fun k => lostNat base (6 + k) (2 ^ 32))
    stride := (List.range 5).map (fun k => lostNat base (11 + k) (2 ^ 32)), scale := lostValue base 16 64 }

/-- A transfer program read under a lost key; its state and what its queue holds are kept but for the addresses (DESIGN CHOICE, log 44). -/
def lostProg (base : Nat) (x : XProg) : XProg :=
  { x with
    c := (List.range 16).map (fun n => (n, lostValue base n 64))
    k := (List.range 4).map (fun n => (n, lostValue base (16 + n) 32))
    xpc := lostNat base 20 1024
    signal := lostValue base 21 16
    post := lostValue base 22 32
    wait := match x.wait with
      | .none => .none
      | .barrier _ _ => .barrier (lostValue base 23 32) (lostBit base 24)
      | .signal _ _ => .signal (lostNat base 23 16) (lostValue base 24 16)
      | .arrive _ _ => .arrive (lostValue base 23 32) (lostValue base 24 64)
    queue := x.queue.mapIdx (fun n o =>
      let b := base + 32 + 8 * n
      { o with
        xpc := lostNat b 0 1024, bar := lostValue b 1 32, tag := lostNat b 2 65536
        units := o.units.mapIdx (fun k _ => (lostNat b 3 (2 ^ 57) + 16 * k, lostNat b 4 (2 ^ 57) + 16 * k)) }) }

/-- An engine-queue entry read under a lost key; how many rows it has is kept (DESIGN CHOICE, log 44). -/
def lostEngine (base : Nat) (o : EngineOp) : EngineOp :=
  { o with
    block := lostValue base 0 32, acc := lostBit base 1, dtile := lostNat base 2 16, k := lostNat base 3 (2 ^ 16), a := lostNat base 4 (2 ^ 32)
    ascl := lostNat base 5 (2 ^ 32), bscl := lostNat base 6 (2 ^ 32), bar := lostValue base 7 32
    atGroup := lostNat base 8 (o.rows.length + 1), atStep := lostNat base 9 (2 ^ 16), interrupted := lostBit base 10
    aHandle := o.aHandle.map (fun _ => lostHandle (base + 32)), bHandle := o.bHandle.map (fun _ => lostHandle (base + 64)) }

/-- A saved team read under a lost key: its groups, window, handles, weight buffer, tiles, engine queue, transfer programs, trap enables and
marks. Which lanes, programs and operations it has, and its grant, are kept (DESIGN CHOICE, log 44). -/
def lostTeam (base : Nat) (t : Team) : Team :=
  { t with
    groups := t.groups.map (fun g => lostGroup (base + 2 ^ 17 * g.id) g)
    win := lostBytes (base + 2 ^ 23) t.winLen
    winFull := (List.range (t.winLen / 16)).foldl (fun m n => mapSet m n (lostBit (base + 2 ^ 23 + 2 ^ 22) n) false) []
    wbSaved := lostBytes (base + 2 ^ 24) (t.units.length * Config.wbUnitBytes)
    wbTagSaved := (List.range (t.units.length * 16)).foldl (fun m n => mapSet m n (lostNat (base + 2 ^ 24 + 2 ^ 22) n (2 ^ 16)) 0) []
    accSaved := (List.range (t.tiles.length * 4096)).foldl (fun m n => mapSet m n (lostValue (base + 2 ^ 25) n 32) 0#32) []
    progs := t.progs.map (fun x => lostProg (base + 2 ^ 26 + 128 * x.n) x)
    handles := t.handles.map (fun q => (q.1, lostHandle (base + 2 ^ 26 + 2 ^ 16 + 32 * q.1)))
    engSaved := t.engSaved.mapIdx (fun n o => lostEngine (base + 2 ^ 26 + 2 ^ 17 + 128 * n) o)
    fpxen := lostValue base (2 ^ 26 + 2 ^ 18) 5
    usedS := lostBit base (2 ^ 26 + 2 ^ 18 + 1)
    usedE := lostBit base (2 ^ 26 + 2 ^ 18 + 2) }

/-- Everything the teams of an owner hold in HBM but the lines of its memory read under a lost key: overflow rows and saved contexts. -/
def lostContexts (s : State) (owner : Nat) : State :=
  let w := 2 ^ 27
  let n := s.teams.length
  { s with
    teams := s.teams.mapIdx (fun k t =>
      if (launchOf s t).owner = owner then
        { t with groups := t.groups.map (fun g =>
            lostOverflow (partAt (coreAt s t.core) g.part).cache (s.freeCtr + w * k + 8192 * g.id) g) }
      else t)
    launches := s.launches.map (fun p =>
      (p.1, if p.2.owner = owner then
          { p.2 with clusters := p.2.clusters.map (fun (q : Cluster) =>
              { q with saved := q.saved.map (fun t => lostTeam (s.freeCtr + w * (n + t.ref.team + p.1 * 2 ^ 32)) t) }) }
        else p.2))
    freeCtr := s.freeCtr + w * (n + 2 ^ 32 * (s.launchNext + 1)) }

end Sys2Proof.Machine
end

