-- ==== Sys2Proof/Machine/Team.lean ====
section
/-! DEFINITION. The course of a team after its start: retirement (02 R21), freeing an ended cluster and relaunching it (20 R319, R320; 18 R300,
R301), the watchdog (20 R321), vacating a team, its context and its return (20 R322 to R326; 15 R264; 16 R283), and the decisions of the herds with
their back-fill and reservation (23 R364). -/
namespace Sys2Proof.Machine

/-! ## Accesses performed (02 R21; 20 R319) -/

/-- Whether every counted access of a party is performed at a scope. -/
def countersAt (c : Counters) (sc : Nat) : Bool := c.accs.all (fun a => a.perf.getLsbD sc) && c.nt.all (fun a => a.perf.getLsbD sc)

/-- Whether every counted access of a team is performed at DEVICE scope, and its bulk operations, fences and publications are over; an access to a peer device is
over at SYSTEM scope (25 R387). -/
def teamPerformed (t : Team) : Bool :=
  let ok (c : Counters) : Bool := (c.accs ++ c.nt).all (fun a => a.perf.getLsbD (if a.peer then 5 else 4))
  t.groups.all (fun g => ok g.ctr && g.fences.isEmpty) && t.progs.all (fun x => ok x.ctr && x.queue.isEmpty && x.fences.isEmpty)

/-- Whether the engine of a team's core holds an operation of it. -/
def hasEngineOp (s : State) (t : Team) : Bool := (coreAt s t.core).engine.any (fun o => o.ref == t.ref)

/-- The launch with one cluster changed. -/
def updCluster (s : State) (n key : Nat) (f : Cluster → Cluster) : State :=
  updLaunch s n (fun l => { l with clusters := l.clusters.map (fun q => if q.key == key then f q else q) })

/-- The resident teams of a cluster. -/
def clusterResident (s : State) (n key : Nat) : List Team :=
  s.teams.filter (fun t => t.ref.launch == n && clusterKey (launchOf s t) t.ref.team == key)

/-- A core's partitions without the cached rows of a team's groups; a slot that was freed before may be another group's by now. -/
def dropRows (s : State) (t : Team) : State :=
  updCore s t.core (fun k =>
    { k with parts := k.parts.map (fun p =>
        (p.1, { p.2 with cache := p.2.cache.filter (fun r => !t.groups.any (fun g => !g.freed && g.part == p.1 && g.slot == r.1)) })) })

/-- A cluster's teams gone from their cores: windows, slots and grants are free. -/
def freeTeams (s : State) (n key : Nat) : State :=
  let ts := clusterResident s n key
  let s1 := ts.foldl dropRows s
  { s1 with teams := s1.teams.filter (fun t => !ts.any (fun u => u.ref == t.ref)) }

/-- Whether a team meets the conditions of R21. -/
def canRetire (s : State) (t : Team) : Bool :=
  t.ref.launch != 0 && !t.retired && t.ended.isNone && t.groups.all Group.freed && t.progs.all (fun x => x.state == 4)
    && teamPerformed t && !hasEngineOp s t

/-- TEAM_RETIRE: a team retires; its cluster's windows are freed with the last of them (02 R16, R21). -/
def execTeamRetire (r : TeamRef) (s : State) : Ev :=
  .next (match teamAt s r with
  | none => s
  | some t =>
    if !canRetire s t then s
    else
      let s1 := updTeam s r (fun t => { t with retired := true })
      let key := clusterKey (launchOf s t) r.team
      let ts := clusterResident s1 r.launch key
      if ts.all Team.retired then
        settleHead (updCluster (freeTeams s1 r.launch key) r.launch key (fun q =>
          { q with state := 4, usedS := ts.any Team.usedS, usedE := ts.any Team.usedE }))
      else s1)

/-- A launch without the buffered reductions of a cluster that starts anew (24 R376). DEDUCED, log 27. -/
def dropReds (key : Nat) (l : Launch) : Launch :=
  let kept := l.detBuf.filter (fun r => clusterKey l r.team != key)
  { l with detBuf := kept, detCount := kept.length }

/-- CLUSTER_FREE: an ended cluster whose accesses are performed is freed, to be relaunched while its limit allows (20 R319, R320). -/
def execClusterFree (launch key : Nat) (s : State) : Ev :=
  .next (match (mapGet s.launches launch).bind (fun l => (l.clusters.find? (fun q => q.key == key)).map (fun q => (l, q))) with
  | none => s
  | some (l, q) =>
    let ts := clusterResident s launch key
    if q.state = 3 ∧ ts.all (fun t => teamPerformed t && !hasEngineOp s t) = true then
      let again := l.idem && decide (q.relaunches < l.retry)
      let s1 := updCluster (freeTeams s launch key) launch key (fun q =>
        { q with state := if again then 5 else 7, relaunches := if again then q.relaunches + 1 else q.relaunches })
      settleHead (updLaunch s1 launch (fun l => if again then dropReds key { l with relaunches := l.relaunches + 1 } else releaseHeld l))
    else s)

/-- CLUSTER_RELAUNCH: the head, a cluster that ended and has been freed, starts anew in the first herd it fits (20 R320). -/
def execClusterRelaunch (launch key : Nat) (s : State) : Ev :=
  .next (match mapGet s.launches launch with
  | none => s
  | some l =>
    if headCluster s = some (launch, key) ∧ clusterState l key = 5 then
      let scan := countScans s launch key
      match (List.range herdCount).findSome? (fun h => (clusterCores s l scan h).map (fun cs => (h, cs))) with
      | some (h, cs) => placeCluster s launch key l false h 0 cs
      | none => s
    else s)

/-- Whether a launch's clusters have all come to an end. -/
def launchOver (l : Launch) : Bool := l.dispatched == clusterTotal l && l.clusters.all (fun q => q.state == 4 || q.state == 7)

/-- Whether a retired cluster is relaunched for a Forage withdrawal (18 R300, R301). -/
def forageAgain (l : Launch) (q : Cluster) : Bool :=
  l.idem && q.state == 4 && ((l.withdrawnS && q.usedS) || (!l.withdrawnE.isEmpty && q.usedE))

/-- FORAGE_RELAUNCH: after the last team has retired, the clusters that used a withdrawn class are relaunched with it barred; the relaunches
count against no limit. -/
def execForageRelaunch (launch : Nat) (s : State) : Ev :=
  .next (match mapGet s.launches launch with
  | none => s
  | some l =>
    if launchOver l && l.clusters.any (forageAgain l) then
      settleHead (updLaunch s launch (fun l =>
        { (l.clusters.filter (forageAgain l)).foldl (fun l q => dropReds q.key l) l with
          withdrawnS := false, withdrawnE := []
          clusters := l.clusters.map (fun q =>
            if forageAgain l q then
              { q with state := 5, usedS := false, usedE := false
                       barredS := q.barredS || (l.withdrawnS && q.usedS), barred := q.barred ++ l.withdrawnE }
            else q) }))
    else s)

/-! ## The watchdog (20 R315, R321) -/

/-- The lowest lane of a team that is not DONE: group, lane and PC. -/
def lowestLane (t : Team) : Option (Group × Nat × Lane) :=
  t.groups.findSome? (fun g => (g.lanes.find? (fun p => p.2.st != .done)).map (fun p => (g, p.1, p.2)))

/-- The watchdog limit of a launch. -/
def watchdogLimit (l : Launch) : Nat := if l.wdog = 0 then 2 ^ 32 else 2 ^ l.wdog

/-- WATCHDOG_EXPIRY: a team whose stalled clocks reach the limit ends with WATCHDOG. -/
def execWatchdogExpiry (r : TeamRef) (s : State) : Ev :=
  .next (match teamAt s r with
  | none => s
  | some t =>
    let l := launchOf s t
    if r.launch ≠ 0 ∧ t.ended = none ∧ t.retired = false ∧ watchdogLimit l ≤ t.stalled then
      let p := lowestLane t
      let s1 := postRecord { s with holdSets := s.holdSets + 1 }
        { code := cWatchdog, kind := 9, ltag := l.ltag, team := BitVec.ofNat 32 r.team, lcore := logicalOfPhys s t.epoch t.core
          part := match p with | some q => q.1.part | none => 0
          group := match p with | some q => q.1.id | none => 0
          pc := match p with | some q => q.2.2.pc.extractLsb' 0 57 | none => 0#57
          ref := r, core := t.core, set := s.holdSets }
      endTeam s1 r cWatchdog (nextSeq s)
    else s)

/-- Whether some party of a team waits on an unresolved record or for a place in the fault queue (20 R321). -/
def watchdogPaused (s : State) (t : Team) : Bool :=
  let open' (n : Nat) : Bool := s.faultQ.any (fun r => r.set == n && !r.resolved) || s.faultWait.any (fun r => r.set == n)
    || (coreAt s t.core).windows.any (fun w => w.set == n)
  s.faultWait.any (fun r => r.ref == t.ref)
    || t.groups.any (fun g => g.lanes.any (fun p => match p.2.hold with | some h => p.2.st == .hold && open' h.set | none => false))
    || t.progs.any (fun x => (match x.holdSet with | some n => open' n | none => false)
        || x.queue.any (fun o => match o.waiting with | some n => open' n | none => false))
    || (coreAt s t.core).engine.any (fun o => o.ref == t.ref && (match o.holdSet with | some n => open' n | none => false))

/-! ## Vacating (20 R322 to R324) -/

/-- Every team of a resident cluster asked to stop. -/
def vacateCluster (s : State) (n key : Nat) : State :=
  { s with teams := s.teams.map (fun t =>
      if t.ref.launch == n && clusterKey (launchOf s t) t.ref.team == key && t.ended.isNone then { t with vacating := true } else t) }

/-- Whether a transfer program stands at an instruction boundary with its counters at zero (13 R201; 16 R283; 20 R323): the bytes its bulk operations
had started are performed and credited, and the operations left in its queue are saved with their progress. -/
def progStopped (s : State) (t : Team) (x : XProg) : Bool :=
  let arrives := match x.wait with | .arrive a _ => (sramPlace s t a).any (fun q => arvReady s t x q.1 q.2) | _ => false
  x.loads.isEmpty && x.promos.isEmpty && x.ctr.nt.isEmpty && x.ctr.accs.isEmpty && !arrives

/-- Whether a team can be taken now: its groups, programs and running operation have stopped. -/
def canVacate (s : State) (t : Team) : Bool :=
  t.vacating && !t.stopped && t.ended.isNone && t.groups.all groupStopped && t.progs.all (progStopped s t)
    && !(coreAt s t.core).engine.any (fun o => o.ref == t.ref && o.running && o.holdSet.isNone)

/-- VACATE_TEAM: a stopped team's engine operations leave the engine, an interrupted one first (15 R255, R264). -/
def execVacateTeam (r : TeamRef) (s : State) : Ev :=
  .next (match teamAt s r with
  | none => s
  | some t =>
    if canVacate s t then
      let s1 := match (coreAt s t.core).engine.find? (fun o => o.ref == r && o.running) with
        | some op => engineInterrupt s t op
        | none => s
      let ops := (coreAt s1 t.core).engine.filter (fun o => o.ref == r)
      let s2 := updCore s1 t.core (fun k => { k with engine := k.engine.filter (fun o => o.ref != r) })
      updTeam s2 r (fun t => { t with stopped := true, engSaved := t.engSaved ++ ops })
    else s)

/-- A map's range moved to start at 0. -/
def cutRange {α : Type} (m : List (Nat × α)) (lo n : Nat) : List (Nat × α) :=
  m.filterMap (fun p => if lo ≤ p.1 ∧ p.1 < lo + n then some (p.1 - lo, p.2) else none)

/-- Ranges of one width gathered in the order of their units. -/
def gatherRanges {α : Type} (m : List (Nat × α)) (w : Nat) (us : List Nat) : List (Nat × α) :=
  (us.zipIdx).flatMap (fun u => (cutRange m (u.1 * w) w).map (fun p => (p.1 + u.2 * w, p.2)))

/-- The context of a team (20 R324): the team with its window, full/empty bits, weight buffer, tags and tiles, its leases no longer sampled or compared. -/
def contextOf (s : State) (t : Team) : Team :=
  let k := coreAt s t.core
  { t with
    win := cutRange k.sram t.winOff t.winLen
    winFull := cutRange k.full (t.winOff / 16) (t.winLen / 16)
    wbSaved := gatherRanges k.wb Config.wbUnitBytes t.units
    wbTagSaved := gatherRanges k.wbTag 16 t.units
    accSaved := gatherRanges k.acc 4096 t.tiles
    groups := t.groups.map (fun g =>
      { g with fetching := none, lastIssue := none, ctr := {}
               lease := g.lease.map (fun le => { le with sample := none, checkAt := none, entryLanes := [] }) })
    progs := t.progs.map (fun x => { x with ctr := {} }) }

/-- CONTEXT_WRITE: the context of a stopped team, once every team of its cluster has stopped, written to firmware's memory under the owner's key,
and its core freed (20 R323, R324). -/
def execContextWrite (r : TeamRef) (s : State) : Ev :=
  .next (match teamAt s r with
  | none => s
  | some t =>
    let key := clusterKey (launchOf s t) r.team
    let ts := clusterResident s r.launch key
    if t.ended.isSome ∨ (ts.all (fun u => u.stopped || u.retired) = false) ∨ ts.any Team.stopped = false then s
    else
      let s1 := dropRows s t
      let s2 := t.groups.foldl (fun s g => match g.lease with | some le => forageDrop s t g.id le | none => s) s1
      let s3 := { s2 with teams := s2.teams.filter (fun u => u.ref != r) }
      let last := ts.length == 1
      let s4 := updCluster s3 r.launch key (fun q => { q with saved := q.saved ++ [contextOf s t], state := if last then 2 else q.state })
      settleHead (writeContext s4 (launchOf s t) (contextOf s t)))

/-! ## Restoring (20 R325; 14 R225, R237, R240; 16 R283) -/

/-- Ranges written back to the units of a new grant. -/
def spreadRanges {α : Type} [DecidableEq α] (d : α) (m : List (Nat × α)) (w : Nat) (us : List Nat) (into : List (Nat × α)) :
    List (Nat × α) :=
  m.foldl (fun a p => match us[p.1 / w]? with | some u => mapSet a (u * w + p.1 % w) p.2 d | none => a) into

/-- A saved team on a core again: the units left of its bulk operations are counted anew. -/
def restoreTeam (s : State) (t : Team) (c : Nat) (p : Spot) : State :=
  let live := t.groups.filter (fun g => !g.freed)
  let spotOf (g : Group) : Nat × Nat := ((live.zip p.groups).find? (fun q => q.1.id == g.id)).elim (g.part, g.slot) Prod.snd
  let t1 : Team :=
    { t with
      core := c, winOff := p.winOff, units := p.units, tiles := p.tiles, vacating := false, stopped := false
      win := [], winFull := [], wbSaved := [], wbTagSaved := [], accSaved := [], engSaved := []
      groups := t.groups.map (fun g => if g.freed then g else { g with part := (spotOf g).1, slot := (spotOf g).2 })
      progs := (t.progs.zip (p.procs ++ List.replicate 4 0)).map (fun q =>
        let x := q.1.queue.foldl (countBulk s t) q.1
        if t.retired then x else { x with proc := q.2 }) }
  let s1 := updCore s c (fun k =>
    let k1 := clearCore k t1
    { k1 with
      sram := t.win.foldl (fun m q => writeByte m (t1.winOff + q.1) q.2) k1.sram
      full := t.winFull.foldl (fun m q => mapSet m (t1.winOff / 16 + q.1) q.2 false) k1.full
      wb := spreadRanges unlistedByte t.wbSaved Config.wbUnitBytes t1.units k1.wb
      wbTag := spreadRanges 0 t.wbTagSaved 16 t1.units k1.wbTag
      acc := spreadRanges 0#32 t.accSaved 4096 t1.tiles k1.acc
      engine := k1.engine ++ t.engSaved })
  let s2 := giveAllRows { s1 with teams := s1.teams ++ [t1] } t1
  match objOf s (launchOf s t) with
  | none => s2
  | some o =>
    match kernelOf s (launchOf s t) with
    | none => s2
    | some k =>
      updCore s2 c (fun x => ((copyPrograms k).zip (t1.progs.map XProg.proc)).foldl (fun x q => loadWindow x o q.2 q.1.1 q.1.2) x)

/-- Whether a restored lane waits no more: the restore itself returns a parked lane to RUN, after its PARK (09 R141), and a lane at a barrier when
the phase has changed meanwhile (14 R240). -/
def waitMet (s : State) (t : Team) (w : Wait) : Bool :=
  match w with
  | .parkWord _ _ | .parkFull _ => true
  | .barwait a ph => match sramPlace s t a with | some (c, o) => bit (bytesNat (sramRead s c o 8)) 63 != ph | none => false
  | _ => false

/-- The address a restored wait reads again: a barrier's word. A PARK is over, and an LDFE is tried apart. -/
def rereadAt (w : Wait) : Option (BitVec 32) := match w with | .barwait a _ => some a | _ => none

/-- A party's counters with the reads of its restored waits (13 R200). -/
def countReread (s : State) (t : Team) (ws : List Wait) (c : Counters) : Counters :=
  (ws.filterMap rereadAt).foldl (fun c a =>
    match sramPlace s t a with
    | some (k, _) => countAccess c (some (sramTag a)) false false s.clk (s.clk + sliceDelay t.core k)
    | none => c) c

/-- The promotions they ask for. -/
def rereadPromos (s : State) (t : Team) (tag : Nat) (ws : List Wait) : List Promo :=
  ((ws.filter (fun w => (rereadAt w).isSome)).flatMap (wakePromo s t tag)).eraseDups

/-- A restored team's waits tested again: each read is an access, and meets the tags there are (13 R199, R200). -/
def retestWaits (s : State) (r : TeamRef) : State :=
  match teamAt s r with
  | none => s
  | some t =>
    let s1 := updTeam s r (fun u =>
      { u with
        groups := u.groups.map (fun g =>
          let ws := g.lanes.map (fun p => p.2.wait)
          { g with
            lanes := g.lanes.map (fun p => if waitMet s t p.2.wait then (p.1, laneRun p.2) else p)
            ctr := countReread s t ws g.ctr
            promos := g.promos ++ rereadPromos s t g.issues ws })
        progs := u.progs.map (fun x =>
          match x.wait with
          | .barrier a ph =>
            let y := { x with ctr := countReread s t [.barwait a ph] x.ctr, promos := x.promos ++ rereadPromos s t 0 [.barwait a ph] }
            if waitMet s t (.barwait a ph) then { y with state := 1, wait := .none } else y
          | .signal _ _ => signalServe x
          | _ => x) })
    ldfeRetry (barsyncSettle s1 r)

/-- A vacated cluster restored whole on cores that can take it: scans in its way aborted, its teams' waits tested again. A cluster of a
PERSISTENT launch that has not started is held again (02 R26). -/
def restoreCluster (s : State) (n key : Nat) (l : Launch) (cs : List Nat) : State :=
  match l.clusters.find? (fun q => q.key == key) with
  | none => s
  | some q =>
    let s0 := (cs.filter (fun c => !coreRestores s (clusterBound l q) false l.prio c)).foldl abortScan s
    let s1 := (q.saved.zip cs).foldl (fun s p =>
      match spotOn s p.2 (savedNeed p.1) 0 with | some sp => restoreTeam s p.1 p.2 sp | none => s) s0
    let s2 := updLaunch s1 n (fun l =>
      releaseHeld (putCluster l { q with state := placedState l, saved := [], cores := cs, herd := cs.headD 0 / Config.coresPerHerd }))
    settleHead ((q.saved.map Team.ref).foldl retestWaits s2)

/-! ## Decisions (23 R364) -/

/-- The first cluster a herd may back-fill: the next of each launch in table order, but of the head's launch and queue. -/
def backfill (s : State) (hd : Nat × Nat) (h : Nat) : Option (Nat × Nat) :=
  let hq := (mapGet s.launches hd.1).bind Launch.queue
  (tableOrder s).findSome? (fun p =>
    if p.1 = hd.1 ∨ (hq.isSome = true ∧ p.2.queue = hq) ∨ dispatchable s p.1 p.2 = false then none
    else (nextCluster p.2).bind (fun k => (fitInHerd s p.1 k false h).map (fun _ => (p.1, k))))

/-- The launch's next cluster placed or restored on cores in which it fits. -/
def placeAt (s : State) (n key : Nat) (l : Launch) (h winOff : Nat) (cs : List Nat) : State :=
  if clusterState l key = 2 then restoreCluster s n key l cs else placeCluster s n key l (clusterState l key == 0) h winOff cs

/-- PLACEMENT_DECISION: the head if it fits the herd, else a back-fill unless the herd is reserved, else nothing. -/
def execPlacementDecision (herd winOff : Nat) (s : State) : Ev :=
  .next (match headCluster s with
  | none => s
  | some (n, key) =>
    match fitInHerd s n key (countScans s n key) herd with
    | some (l, cs) => placeAt s n key l herd winOff cs
    | none =>
      if s.reserved = some herd then s
      else match backfill s (n, key) herd with
      | none => s
      | some (m, k) =>
        match fitInHerd s m k false herd with
        | some (l, cs) =>
          let s1 := placeAt s m k l herd winOff cs
          { s1 with backfills := s1.backfills + 1 }
        | none => s)

/-- The launch that may be given a place in a herd now, the head before a back-fill, with whether it is the head. -/
def herdTurn (s : State) (n key h : Nat) : Option Bool :=
  match headCluster s with
  | none => none
  | some hd =>
    if hd = (n, key) then some true
    else if (fitInHerd s hd.1 hd.2 (countScans s hd.1 hd.2) h).isNone && s.reserved != some h && backfill s hd h == some (n, key) then some false
    else none

/-- CONTEXT_RESTORE: a vacated cluster whose turn it is in the herd of some cores, restored whole on them (23 R364); a head that does not
fit them is one CTX_CAPACITY refusal. -/
def execContextRestore (launch key : Nat) (cores : List Nat) (s : State) : Ev :=
  .next (match (mapGet s.launches launch).bind (fun l => (l.clusters.find? (fun q => q.key == key)).map (fun q => (l, q))) with
  | none => s
  | some (l, q) =>
    if q.state ≠ 2 then s
    else match herdTurn s launch key (cores.headD 0 / Config.coresPerHerd) with
    | none => s
    | some head =>
      if restoreFits s l q (head && countScans s launch key) cores then
        let s1 := restoreCluster s launch key l cores
        if head then s1 else { s1 with backfills := s1.backfills + 1 }
      else if head then { s with ctxRefused := s.ctxRefused + 1 } else s)

/-- Teams of the head that a herd lacks a core for: a vacated cluster's on the cores it is bound to, or on any of the herd. -/
def herdLacks (s : State) (l : Launch) (q : Option Cluster) (h : Nat) : Nat :=
  let fresh := l.cx * l.cy * l.cz - ((herdCores s l h).filter (fun c => coreOpen s c && (spotOn s c (launchNeed s l) 0).isSome)).length
  match q with
  | some q =>
    if q.state ≠ 2 then fresh
    else if clusterBound l q then
      q.saved.length - ((q.saved.zip q.cores).filter (fun p => decide (q.herd = h) && restoresOn s l q false p.1 p.2)).length
    else if (restoreCores s l q false h).isSome then 0 else q.saved.length
  | none => fresh

/-- Whether the head has aged: AGE_LIMIT since it became head, or four back-fill passes. -/
def headAged (s : State) : Bool := s.headOf.isSome && (decide (s.headSince + s.age.toNat * 2400 ≤ s.clk) || decide (4 ≤ s.backfills))

/-- HEAD_AGE_EXPIRY: an aged head reserves the herd with the fewest teams it lacks, the lowest among equals. -/
def execHeadAgeExpiry (s : State) : Ev :=
  .next (if headAged s && s.reserved.isNone then
      match s.headOf with
      | none => s
      | some (n, key) =>
        match mapGet s.launches n with
        | none => s
        | some l =>
          let q := l.clusters.find? (fun q => q.key == key)
          let hs := (List.range herdCount).filter (fun h => !(herdCores s l h).isEmpty)
          { s with reserved := listMin (fun a b => decide (herdLacks s l q a < herdLacks s l q b)) hs }
    else s)

/-! ## Who is asked to leave (02 R24; 20 R322) -/

/-- The keys of a launch's clusters not dispatched: the lowest of those that never were, and those that wait for their relaunch. -/
def undispatched (l : Launch) : List Nat :=
  (if l.dispatched < clusterTotal l then [clusterNth l l.dispatched] else []) ++ (l.clusters.filter (fun q => q.state == 5)).map Cluster.key

/-- The lowest global thread number of a runnable thread of a launch with its cluster: a lane in RUN, resident or saved, or a thread of a team
not yet dispatched, of which the first of the team that gives its cluster the key is the lowest (02 R23). -/
def lowestRunnable (s : State) (n : Nat) (l : Launch) : Option (Nat × Nat) :=
  let ts := s.teams.filter (fun t => t.ref.launch == n && t.ended.isNone) ++ l.clusters.flatMap Cluster.saved
  listMin (fun (a b : Nat × Nat) => decide (a.1 < b.1)) (ts.flatMap (fun t => t.groups.flatMap (fun g =>
      (runLanesOf g).map (fun p => (threadNumber l t.ref.team g.id p.1, clusterKey l t.ref.team))))
    ++ (undispatched l).map (fun k => (threadNumber l k 0 0, k)))

/-- The resident clusters a launch may be asked to give up, in descending key. -/
def sparedClusters (s : State) (n : Nat) (l : Launch) : List Nat :=
  let low := (lowestRunnable s n l).map Prod.snd
  listSort (fun a b => decide (b ≤ a))
    ((l.clusters.filter (fun q => (q.state == 1 || q.state == 6) && some q.key != low
      && !(clusterResident s n q.key).any (fun t => t.vacating || t.ended.isSome))).map Cluster.key)

/-- Whether a launch has resident lanes and none of them is runnable (02 R24). -/
def launchIdle (s : State) (n : Nat) : Bool :=
  let ts := s.teams.filter (fun t => t.ref.launch == n && t.ended.isNone)
  !ts.isEmpty && !ts.any (fun t => t.groups.any (fun g => g.lanes.any (fun p => p.2.st == .run)))

/-- STALL_VACATE: a launch without a runnable resident lane for 100 µs, and with a cluster that waits, gives up its highest cluster. -/
def execStallVacate (launch : Nat) (s : State) : Ev :=
  .next (match mapGet s.launches launch with
  | none => s
  | some l =>
    if 240000 ≤ l.idleFor ∧ launchIdle s launch = true ∧ (nextCluster l).isSome = true then
      match listMin (fun a b => decide (b < a)) ((l.clusters.filter (fun q => q.state == 1)).map Cluster.key) with
      | some k => updLaunch (vacateCluster s launch k) launch (fun l => { l with idleFor := 0 })
      | none => s
    else s)

/-- The exposed cores of a launch's epoch. -/
def exposedCores (s : State) (l : Launch) : List Nat :=
  (List.range Config.coreCount).filter (fun c => !(removedAt s l.epoch).contains c && !s.removed.contains c)

/-- The cores that stand free once some clusters have been vacated. -/
def freedCores (s : State) (l : Launch) (gone : List (Nat × Nat)) : List Nat :=
  (exposedCores s l).filter (fun c => (coreOpen s c || scanYields s c l.prio)
    && (coreTeams s c).all (fun t => gone.contains (t.ref.launch, clusterKey (launchOf s t) t.ref.team)))

/-- The clusters a request may take, in order: launches of lower priority ascending, in each descending key. -/
def preemptOrder (s : State) (l : Launch) : List (Nat × Nat) :=
  (listSort (fun (a b : Nat × Launch) => decide (a.2.prio < b.2.prio) || (a.2.prio == b.2.prio && decide (b.2.order ≤ a.2.order)))
    (s.launches.filter (fun p => decide (p.2.prio < l.prio)))).flatMap (fun p => (sparedClusters s p.1 p.2).map (fun k => (p.1, k)))

/-- The shortest run of an order that frees enough cores. -/
def enoughClusters (s : State) (l : Launch) (order : List (Nat × Nat)) : Option (List (Nat × Nat)) :=
  ((List.range (order.length + 1)).map (fun n => order.take n)).find? (fun g => decide (l.preempt ≤ (freedCores s l g).length))

/-- The next cluster of a launch placed on a core that a request has just opened, unless an earlier one stands there (22 R350). -/
def placeOn (n : Nat) (s : State) (c : Nat) : State :=
  match (mapGet s.launches n).bind nextCluster with
  | none => s
  | some key =>
    match fitOnCore s n key c with
    | some (l, cs) => if (coreTeams s c).isEmpty && dispatchable s n l then placeAt s n key l (c / Config.coresPerHerd) 0 cs else s
    | none => s

/-- The cores under scan that a request takes at once: as many as it lacks beside the free ones. A core under scan that still holds a team to be
vacated is not opened, and once it is empty the placement that needs it aborts its scan (22 R350; DEDUCED, log 50). -/
def takenScans (s : State) (l : Launch) : List Nat :=
  let now := freedCores s l []
  (now.filter (fun c => !coreOpen s c)).take (l.preempt - (now.filter (coreOpen s)).length)

/-- Cores under scan opened for a request and its clusters placed on them, in one step: a core on which none comes to stand is not needed, and keeps its
scan (22 R350; DEDUCED, log 50). -/
def openScans (n : Nat) : Nat → List Nat → State → State
  | 0, _, s => s
  | k + 1, scans, s =>
    let t := scans.foldl (placeOn n) (scans.foldl abortScan s)
    let used := scans.filter (fun c => (coreTeams t c).any (fun u => u.ref.launch == n))
    if used = scans then t else openScans n k used s

/-- SPATIAL_PREEMPTION: a launch's request for cores takes free ones, then lower-priority scans, then vacates clusters of lower priority,
or nothing when that is not enough. -/
def execSpatialPreemption (launch : Nat) (s : State) : Ev :=
  .next (match mapGet s.launches launch with
  | none => s
  | some l =>
    if !l.preemptPending then s
    else match enoughClusters s l (preemptOrder s l) with
    | none => s
    | some gone =>
      let scans := takenScans s l
      let s1 := gone.foldl (fun s q => vacateCluster s q.1 q.2) s
      openScans launch (scans.length + 1) scans (updLaunch s1 launch (fun l => { l with preemptPending := false })))

end Sys2Proof.Machine
end

