-- ==== Sys2Proof/Machine/Launch.lean ====
section
/-! DEFINITION. Launches: the parameter block and its checks (23 R359, R360; 02 R8, R9, R15, R26), the launch table, rejection and completion
(23 R360, R362; 24 R375), and the time-triggered table (23 R366, R367). -/
namespace Sys2Proof.Machine

/-! ## Words at virtual addresses -/

/-- Bytes read at an address of an owner's space: none without a mapping of the world that may be read. A peer device's page is such a mapping. -/
def vaRead (s : State) (owner : Nat) (secure : Bool) (va n : Nat) : Option (List Byte) :=
  let one (a : Nat) : Option Byte :=
    match translate s owner (some secure) (a % 2 ^ 57) .read with
    | .hbm pa => some (hbmByte s owner pa)
    | .peer d pl b => some (peerByteAt s d pl b)
    | .fault _ => none
  let bs := (List.range n).map (fun k => one (va + k))
  if bs.all Option.isSome then some (somes bs) else none

/-- Whether every byte of a range may be written. -/
def vaWritable (s : State) (owner : Nat) (secure : Bool) (va n : Nat) : Bool :=
  (List.range n).all (fun k =>
    match translate s owner (some secure) ((va + k) % 2 ^ 57) .write with | .fault _ => false | _ => true)

/-- Bytes written at an address of an owner's space; a peer's memory is not the device's. -/
def vaWrite (s : State) (owner : Nat) (secure : Bool) (va : Nat) (bs : List Byte) : State :=
  (bs.zipIdx).foldl (fun s b =>
    match translate s owner (some secure) ((va + b.2) % 2 ^ 57) .write with
    | .hbm pa => ringStore (hbmWriteByte s owner pa b.1) pa 1
    | _ => s) s

/-- A 64-bit word at an offset of a record. -/
def recWord (bs : List Byte) (o : Nat) : Nat := bytesNat ((bs.drop o).take 8)

/-! ## The parameter block (23 R359) -/

/-- Why a launch is rejected: its STATUS (23 R360). -/
def lerrShape : Nat := 0x10
def lerrFormat : Nat := 0x11
def lerrObject : Nat := 0x12
def lerrTag : Nat := 0x13

/-- Whether an allotment field is 0 or 8 to 256 in steps of 8. -/
def allotOk (n : Nat) : Bool := n % 8 == 0 && decide (n ≤ 256)

/-- Whether the block's reserved fields are 0 and every field is in its range. -/
def blockFormatOk (b : List Byte) : Bool :=
  let w := recWord b
  let z (o hi lo : Nat) : Bool := bits (w o) hi lo == 0
  let persistent := bit (w 0x08) 2
  let wdog := bits (w 0x38) 37 32
  z 0 63 48 && z 8 63 48 && z 8 31 25 && z 8 11 11 && z 8 7 5 && z 0x18 63 42 && z 0x18 31 27 && z 0x18 15 12 && z 0x20 63 21
    && z 0x28 63 41 && z 0x28 31 25 && z 0x28 15 9 && z 0x38 63 38 && z 0x48 63 57 && z 0x50 63 57 && z 0x58 63 9 && z 0x58 7 6
    && (List.range 20).all (fun k => w (0x60 + 8 * k) == 0)
    && decide (bits (w 8) 19 16 ≤ 8) && decide (bits (w 8) 24 20 ≤ 16)
    && allotOk (bits (w 0x28) 8 0) && allotOk (bits (w 0x28) 24 16) && allotOk (bits (w 0x28) 40 32)
    && (wdog == 0 || (decide (20 ≤ wdog) && decide (wdog ≤ 44)))
    && (!persistent || (w 0x30 != 0 && bits (w 0x38) 31 0 != 0))

/-- The role record of a kind. -/
def roleRegs (k : Kernel) (kind : Nat) : Option Nat := (k.roles.find? (fun r => r.kind == kind)).map Role.regs

/-- The launch a block asks for, its defaults resolved. -/
def blockLaunch (s : State) (k : Kernel) (b : List Byte) : Launch :=
  let w := recWord b
  let or0 (x d : Nat) : Nat := if x = 0 then d else x
  let m := bits (w 0x18) 35 32
  let e := bits (w 0x18) 41 36
  let split := (roleRegs k 0).isNone
  let mg := if split && m + e == 0 then k.mgrp else m
  let eg := if split && m + e == 0 then k.egrp else e
  let c := bits (w 0x18) 11 0
  { obj := bits (w 0) 31 0, kernel := bits (w 0) 47 32, ltag := bits (w 8) 47 32
    tiles := if bits (w 8) 24 20 = 0 ∧ mg ≠ 0 then 16 else bits (w 8) 24 20
    wbu := if bits (w 8) 19 16 = 0 ∧ mg ≠ 0 then 8 else bits (w 8) 19 16
    tpol := bits (w 8) 15 15, retry := bits (w 8) 14 12, prio := bits (w 8) 10 8
    idem := bit (w 8) 0, det := bit (w 8) 1, persistent := bit (w 8) 2, forageOff := bit (w 8) 3, forageSpec := bit (w 8) 4
    gx := bits (w 0x10) 31 0 + 1, gy := bits (w 0x10) 47 32 + 1, gz := bits (w 0x10) 63 48 + 1
    mgrp := mg, egrp := eg
    lanes := if split then bits (w 0x18) 26 16 else or0 (bits (w 0x18) 26 16) k.lanes
    cx := if c = 0 then k.cx else bits c 3 0, cy := if c = 0 then k.cy else bits c 7 4, cz := if c = 0 then k.cz else bits c 11 8
    sram := bits (w 0x20) 20 0
    regG := or0 (bits (w 0x28) 8 0) ((roleRegs k 0).getD 0), regM := or0 (bits (w 0x28) 24 16) ((roleRegs k 1).getD 0)
    regE := or0 (bits (w 0x28) 40 32) ((roleRegs k 2).getD 0)
    iter := w 0x30, tile := bits (w 0x38) 31 0, wdog := bits (w 0x38) 37 32
    fixBase := BitVec.ofNat 64 (w 0x40), fixStride := bits (w 0x48) 31 0, preempt := bits (w 0x48) 47 32
    csig := bits (w 0x50) 56 0, secure := bit (w 0x58) 8, owner := bits (w 0x58) 5 0, epoch := s.epoch
    preemptPending := bits (w 0x48) 47 32 != 0 }

/-- The device with nothing placed on it. -/
def idleDevice (s : State) : State := { s with teams := [], launches := [], cores := [] }

/-- Exposed cores of each herd. -/
def herdSizes (s : State) (l : Launch) : List Nat := (List.range herdCount).map (fun h => (herdCores s l h).length)

/-- How many teams of a PERSISTENT launch an idle core takes at once, at most 16. -/
def idleCapacity (s : State) (l : Launch) (n : Need) : Nat → Nat
  | 0 => 0
  | k + 1 =>
    match spotOn s 0 n 0 with
    | none => 0
    | some p =>
      let t : Team :=
        { ref := ⟨1, k + 1⟩, core := 0, winOff := p.winOff, winLen := n.sram, units := p.units, tiles := p.tiles
          groups := ((n.groups.zip p.groups).zipIdx).map (fun q =>
            { id := q.2, role := 0, part := q.1.2.1, slot := q.1.2.2, lanes := [], alloc := q.1.1.2.1, base := 0 })
          progs := (p.procs.zipIdx).map (fun q => { n := q.2, proc := q.1 }) }
      1 + idleCapacity { s with teams := t :: s.teams } l n k

/-- Whether the shape of a launch obeys R2, R8, R9, R15, R26, R28, R361 and R375. `asked` is LANES as the block holds it, `k` the kernel. -/
def shapeOk (s : State) (k : Kernel) (asked : Nat) (l : Launch) : Bool :=
  let size := l.cx * l.cy * l.cz
  let split := (roleRegs k 0).isNone
  let need := { launchNeed s l with copies := (copyPrograms k).length }
  let sizes := herdSizes s l
  decide (l.gx * l.gy * l.gz ≤ 2 ^ 32)
    && (if split then asked == 0 && decide (1 ≤ l.mgrp + l.egrp) && decide (l.mgrp ≤ 8) && decide (l.mgrp + l.egrp ≤ 32)
          && (l.mgrp == 0 || (roleRegs k 1).isSome) && (l.egrp == 0 || (roleRegs k 2).isSome)
        else l.mgrp + l.egrp == 0 && decide (1 ≤ l.lanes) && decide (l.lanes ≤ 1024))
    && decide (1 ≤ size) && decide (size ≤ 8) && l.gx % l.cx == 0 && l.gy % l.cy == 0 && l.gz % l.cz == 0
    && sizes.any (fun n => decide (size ≤ n)) && (!l.det || size == 1)
    && l.sram % 256 == 0 && decide (l.sram ≤ 0x100000) && decide (k.sram ≤ l.sram) && (!l.persistent || decide (16 ≤ l.sram)) && decide (l.preempt ≤ logicalCount s l.epoch)
    && (spotOn (idleDevice s) 0 need 0).isSome
    && (!l.persistent || decide (l.gx * l.gy * l.gz / size ≤
        (sizes.map (fun n => n / size * idleCapacity (idleDevice s) l need 16)).foldl (· + ·) 0))

/-- A block checked: the launch it asks for, or the status of its rejection. -/
def checkBlock (s : State) (b : List Byte) : Except Nat Launch :=
  if !blockFormatOk b then .error lerrFormat
  else match (mapGet s.objects (bits (recWord b 0) 31 0)).bind (fun o => o.kernels[bits (recWord b 0) 47 32]?) with
  | none => .error lerrObject
  | some k =>
    let l := blockLaunch s k b
    if bits (recWord b 0) 31 0 = 0 then .error lerrObject
    else if l.ltag = 0 ∨ s.launches.any (fun p => p.2.ltag == l.ltag) = true then .error lerrTag
    else if shapeOk s k (bits (recWord b 0x18) 26 16) l then .ok l
    else .error lerrShape

/-- The completion word a block names, with its owner and world. -/
def blockCsig (b : List Byte) : Nat × Nat × Bool := (bits (recWord b 0x50) 56 0, bits (recWord b 0x58) 5 0, bit (recWord b 0x58) 8)

/-- Whether a block's completion word is aligned (23 R356, R360). -/
def csigAligned (b : List Byte) : Bool := (blockCsig b).1 % 8 == 0

/-- Whether a block's completion word can be written by the launch (23 R360). -/
def csigOk (s : State) (b : List Byte) : Bool :=
  let c := blockCsig b
  c.1 == 0 || vaWritable s c.2.1 c.2.2 c.1 8

/-! ## Completion of packets (23 R352, R355, R357) -/

/-- READ moved over the complete packets it stands at. -/
def advanceRead (q : Queue) : Nat → Queue
  | 0 => q
  | n + 1 =>
    if q.doneSet.contains q.read.toNat then
      advanceRead { q with read := q.read + 1, doneSet := q.doneSet.filter (fun i => i != q.read.toNat) } n
    else q

/-- A packet of a queue complete. -/
def completeIndex (s : State) (q : Nat) (i : BitVec 64) : State :=
  match mapGet s.queues q with
  | none => s
  | some r =>
    let r1 := { r with doneSet := r.doneSet ++ [i.toNat] }
    { s with queues := mapPut s.queues q (advanceRead r1 (r1.doneSet.length)) }

/-- QERR codes (23 R356). -/
def qerrFormat : Nat := 1
def qerrNest : Nat := 2
def qerrXlate : Nat := 3
def qerrTimeout : Nat := 4

/-- The command type of a packet. -/
def packetType (b : List Byte) : Nat := recWord b 0 % 256

/-- Whether a packet's type is a command's and its reserved fields, addresses and completion word are as R354 and R357 ask. -/
def packetFormatOk (b : List Byte) : Bool :=
  let w := recWord b
  let va (o k : Nat) : Bool := decide (w o < 2 ^ 57) && w o % k == 0
  bits (w 0) 63 9 == 0 && decide (1 ≤ packetType b) && decide (packetType b ≤ 9) && va 0x38 8
    && (match packetType b with
        | 1 => va 8 256 && w 0x38 == 0
        | 2 => va 8 8 && decide (w 0x18 ≤ 1)
        | 3 => va 8 8 && bits (w 0x18) 1 0 != 3
        | 4 => va 8 64 && decide (1 ≤ bits (w 0x10) 15 0) && decide (bits (w 0x10) 15 0 ≤ 4096)
        | 5 => va 0x20 256 && bits (w 0x28) 31 2 == 0
        | 6 | 7 => va 8 1 && va 0x10 1
        | _ => true)

/-- The slot that holds a queue. -/
def slotOf (s : State) (q : Nat) : Option (Nat × HwSlot) := s.slots.find? (fun p => p.2.queue == q)

/-- A queue stopped by a packet: the error, the packet's address and the ticket in its record, and its agent free (23 R356). A queue that
has stopped keeps its first error. -/
def stopQueue (s : State) (core q err va : Nat) : State :=
  let s1 := updCore s core (fun k => { k with cmd := none })
  match mapGet s.queues q with
  | none => s1
  | some r =>
    if r.err ≠ 0 then s1
    else
      let t := match slotOf s q with | some p => p.2.ticket | none => r.ticket
      { s1 with queues := mapPut s.queues q { r with err := err, errAddr := va, ticket := t } }

/-- A completion word set to 1, as far as its mapping allows. -/
def setCsig (s : State) (r : Queue) (va : Nat) : State :=
  if va = 0 then s else vaWrite s r.owner r.secure va (natBytes 1 8)

/-- The measurement of the firmware that runs. -/
def runningFirmware (s : State) : BitVec 512 := s.firmware.getD Config.firmwareMeasurement

/-- The chain value: every stage's measurement hashed on the value before it, from 0 (24 R381). -/
def chainValue (s : State) : BitVec 512 :=
  (Config.bootRomMeasurement :: Config.firmwareMeasurement :: s.stages).foldl
    (fun c m => measureOf (shake256 (measureBytes c ++ measureBytes m))) 0#512

/-- The snapshot a report is made from: the flag, SEQ, the chain, the firmware and the pending measurement (24 R381, R382). -/
def reportSnapshot (s : State) : List Byte :=
  natBytes (if s.pendingFw.isSome then 1 else 0) 8 ++ natBytes s.reports 8 ++ measureBytes (chainValue s)
    ++ measureBytes (runningFirmware s) ++ measureBytes (s.pendingFw.getD 0#512)

/-- A LAUNCH claimed: its block is read and its completion word checked, and it takes its place in the claim order (23 R359, R360, R362). -/
def loadLaunch (s : State) (core : Nat) (p : Packet) : State :=
  match (mapGet s.queues p.queue).bind (fun r => vaRead s r.owner r.secure (recWord p.bytes 8) 256) with
  | none => stopQueue s core p.queue qerrXlate p.va
  | some b =>
    if !csigAligned b then stopQueue s core p.queue qerrFormat p.va
    else if !csigOk s b then stopQueue s core p.queue qerrXlate p.va
    else updCore { s with claims := s.claims + 1 } core (fun k => { k with cmd := some { p with block := b, order := s.claims } })

/-- A packet an agent has claimed; a LAUNCH's block is read and an ATTEST's snapshot is taken now (23 R359; 24 R382). -/
def loadPacket (s : State) (core : Nat) (p : Packet) (va : Nat) (b : List Byte) : State :=
  let p1 := { p with va := va, bytes := b, running := false, deadline := none, block := [] }
  match packetType b with
  | 1 => loadLaunch s core p1
  | 6 => updCore { s with reports := s.reports + 1 } core (fun k => { k with cmd := some { p1 with block := reportSnapshot s } })
  | _ => updCore s core (fun k => { k with cmd := some p1 })

/-- The next packet of the innermost array of a command; an array at its end completes its INDIRECT once its launches are complete
(23 R357). -/
def arrayNext : Nat → State → Nat → Packet → State
  | 0, s, _, _ => s
  | n + 1, s, core, p =>
    match p.chain, mapGet s.queues p.queue with
    | f :: rest, some r =>
      if f.next < f.count then
        let va := f.base + 64 * f.next
        match vaRead s r.owner r.secure va 64 with
        | none => stopQueue s core p.queue qerrXlate va
        | some b =>
          if packetFormatOk b then loadPacket s core { p with chain := { f with next := f.next + 1 } :: rest } va b
          else stopQueue s core p.queue qerrFormat va
      else if f.open' = 0 then
        let s1 := setCsig s r f.csig
        match rest with
        | [] => completeIndex (updCore s1 core (fun k => { k with cmd := none })) p.queue p.index
        | _ => arrayNext n s1 core { p with chain := rest }
      else updCore s core (fun k => { k with cmd := some { p with bytes := [] } })
    | _, _ => updCore s core (fun k => { k with cmd := none })

/-- An agent done with a packet that a table or nothing carries on: free, or at the next packet of its array. -/
def agentNext (s : State) (core : Nat) (p : Packet) : State :=
  match p.chain with
  | [] => updCore s core (fun k => { k with cmd := none })
  | _ => arrayNext 5 s core p

/-- A command complete: its completion word written, and READ advanced or its array carried on. -/
def packetDone (s : State) (core : Nat) (p : Packet) : State :=
  let s1 := match mapGet s.queues p.queue with | some r => setCsig s r (recWord p.bytes 0x38) | none => s
  let s2 := agentNext s1 core p
  match p.chain with
  | [] => completeIndex s2 p.queue p.index
  | _ => s2

/-- One launch of an array less in progress; `depth` counts arrays from the outermost. The array may be at its end. -/
def closeFrame (s : State) (q : Nat) (i : BitVec 64) (core depth : Nat) : State :=
  match (coreAt s core).cmd with
  | none => s
  | some p =>
    if p.queue = q ∧ p.index = i then
      let p1 := { p with chain := p.chain.mapIdx (fun n f => if p.chain.length - n = depth then { f with open' := f.open' - 1 } else f) }
      let s1 := updCore s core (fun k => { k with cmd := some p1 })
      if p.bytes.isEmpty then arrayNext 5 s1 core p1 else s1
    else s

/-- The status word of a launch at its end (23 R360). -/
def statusWord (l : Launch) (status : Nat) : Nat :=
  l.fseq.toNat * 2 ^ 32 + l.fcode.toNat * 2 ^ 24 + min l.relaunches 255 * 2 ^ 16 + (if l.escaped then 2 ^ 8 else 0) + status

/-- The packet, array or firing of a launch complete. -/
def completeSource (s : State) (l : Launch) : State :=
  let s2 := match l.queue, l.packet, l.frame with
    | some q, some i, some (c, d) => closeFrame s q i c d
    | some q, some i, none => completeIndex s q i
    | _, _, _ => s
  match l.trigger with
  | some e =>
    match mapGet s2.triggers e with
    | some t => { s2 with triggers := mapPut s2.triggers e { t with active := none } }
    | none => s2
  | none => s2

/-- A rejected launch: its status word written at once, its packet or firing complete; it starts no team. -/
def rejectLaunch (s : State) (b : List Byte) (status : Nat) (src : Launch) : State :=
  let c := blockCsig b
  let s1 := if c.1 = 0 then s else vaWrite s c.2.1 c.2.2 c.1 (natBytes (statusWord src status) 8)
  completeSource s1 src

/-! ## The launch table (23 R362) -/

/-- Launches in the table. -/
def activeCount (s : State) : Nat := (s.launches.filter (fun p => p.2.admitted)).length

/-- A launch entered in the table, or kept waiting for a place. -/
def enterLaunch (s : State) (l : Launch) (now : Bool) : State :=
  settleHead { s with
    launches := mapPut s.launches s.launchNext { l with admitted := now }
    launchNext := s.launchNext + 1 }

/-- Where a launch comes from, with its place in the claim order, as an otherwise empty launch. -/
def fromPacket (q : Nat) (i : Option (BitVec 64)) (f : Option (Nat × Nat)) (order : Nat) : Launch :=
  { obj := 0, kernel := 0, ltag := 0, queue := some q, packet := i, frame := f, order := order }

/-- A checked launch with its source. -/
def withSource (l src : Launch) : Launch :=
  { l with queue := src.queue, packet := src.packet, frame := src.frame, trigger := src.trigger, order := src.order }

/-! ## The time-triggered table (23 R366, R367; 25 R386) -/

/-- An entry's launch started: its block read and checked, and entered as if claimed in this clock. -/
def startTrigger (s : State) (e : Nat) (t : Trigger) : State :=
  let stop (s : State) : State := { s with triggers := mapPut s.triggers e { t with en := false } }
  match vaRead s t.owner t.secure t.lpb 256 with
  | none => stop s
  | some b =>
    let src : Launch := { obj := 0, kernel := 0, ltag := 0, trigger := some e, order := s.claims }
    if !csigAligned b || !csigOk s b then stop s
    else if !bit (recWord b 0x48) 56 || bits (recWord b 0x48) 55 48 != e then stop (rejectLaunch s b lerrFormat { src with trigger := none })
    else match checkBlock s b with
    | .error n => rejectLaunch s b n { src with trigger := none }
    | .ok l =>
      let s1 := { s with claims := s.claims + 1, triggers := mapPut s.triggers e { t with active := some s.launchNext } }
      enterLaunch s1 (withSource l src) (decide (activeCount s < 256))

/-- The slots of an entry at or before the present time, from its next one on. -/
def slotsDue (s : State) (t : Trigger) : Nat :=
  if !t.en ∨ t.spent ∨ s.time < t.next then 0 else if t.period = 0 then 1 else (s.time - t.next) / t.period + 1

/-- One firing of an entry at the present time; further slots passed by a forward step are skipped and counted. -/
def fireTrigger (entry : Nat) (s : State) : State :=
  match mapGet s.triggers entry with
  | none => s
  | some t =>
    let n := slotsDue s t
    if n = 0 then s
    else
      let t1 := { t with next := t.next + n * t.period, en := t.en && t.period != 0, skip := t.skip + BitVec.ofNat 32 (n - 1) }
      match t.active with
      | none => startTrigger { s with triggers := mapPut s.triggers entry t1 } entry t1
      | some _ =>
        let t2 := if t.catchup && !t.pending then { t1 with pending := true } else { t1 with skip := t1.skip + 1 }
        { s with triggers := mapPut s.triggers entry t2 }

/-- TIME_TRIGGER_FIRE. -/
def execTimeTriggerFire (entry : Nat) (s : State) : Ev := .next (fireTrigger entry s)

/-- A start held pending made when the instance completes. -/
def startPending (s : State) (e : Nat) : State :=
  match mapGet s.triggers e with
  | some t => if t.pending && t.active.isNone then startTrigger { s with triggers := mapPut s.triggers e { t with pending := false } } e { t with pending := false } else s
  | none => s

/-! ## The end of a launch (23 R360; 24 R375; 12 R182; 18 R290; 21 R338) -/

/-- The order of buffered reductions: team, group, issue order, lane. -/
def detBefore (a b : DetRed) : Bool := decide ([a.team, a.group, a.order, a.lane] ≤ [b.team, b.group, b.order, b.lane])

/-- The buffered RED `.fadd`s of a launch applied in order. -/
def applyDet (s : State) (l : Launch) : State :=
  (listSort detBefore l.detBuf).foldl (fun s r =>
    let old := bytesNat (hbmRead s l.owner r.pa 4)
    writePlace s l.owner (.hbm r.pa) 4 (fAdd 0 0 false 0#32 (floatVal 0 old) (floatVal 0 r.x.toNat)).bits) s

/-- The export entries of a completed launch cleared: those its PERSISTENT teams took, and every one that names its tag. -/
def clearExports (n : Nat) (l : Launch) (s : State) : State :=
  { s with cores := s.cores.map (fun c =>
      (c.1, forageForget n { c.2 with expTable := c.2.expTable.filter (fun e =>
        !(l.exports.contains (c.1, e.1) || bits e.2.ctl.toNat 31 16 == l.ltag)) })) }

/-- The queue's signal word, when it can be read. -/
def queueWord (s : State) (r : Queue) : Option Nat := (vaRead s r.owner r.secure r.sigva 8).map bytesNat

/-- W, the packets written so far; a word that cannot be read counts none to claim. -/
def queueW (s : State) (r : Queue) (ticket : BitVec 64) : Nat := (queueWord s r).getD ticket.toNat

/-- Whether a queue's ring holds a LAUNCH of an object not yet claimed. Those of INDIRECT arrays count from their claim (DEDUCED, log 31). -/
def queuedObject (s : State) (n : Nat) (r : Queue) (o : Nat) : Bool :=
  let t := match slotOf s n with | some p => p.2.ticket | none => r.ticket
  (List.range (min (queueW s r t - t.toNat) (2 ^ r.log2))).any (fun k =>
    match vaRead s r.owner r.secure (r.ring + 64 * ((t.toNat + k) % 2 ^ r.log2)) 64 with
    | none => false
    | some b => packetType b == 1
      && (match vaRead s r.owner r.secure (recWord b 8) 256 with | some k => bits (recWord k 0) 31 0 == o | none => false))

/-- The object of a launch that an agent has claimed. -/
def heldObject (k : Core) : Option Nat :=
  k.cmd.bind (fun p => if packetType p.bytes = 1 ∧ p.block ≠ [] then some (bits (recWord p.block 0) 31 0) else none)

/-! ## Accesses under a mapping (20 R318) -/

/-- Whether a range tag may stand for accesses to a page. -/
def tagOnPage (p : PageMap) (t : Option RangeTag) : Bool :=
  match t with
  | none => true
  | some g => tagMeets g ⟨0, p.va, p.size, 0⟩

/-- Whether every counted access of an owner's teams that may have been translated under a page is performed at SYSTEM scope (20 R318). -/
def pageQuiet (s : State) (p : PageMap) : Bool :=
  s.teams.all (fun t =>
    (teamWorld s t).1 != p.owner
      || (let ok (c : Counters) : Bool := c.nt.isEmpty && c.accs.all (fun a => !tagOnPage p (if a.ctr = 16 then none else mapGet c.tags a.ctr))
          t.groups.all (fun g => ok g.ctr) && t.progs.all (fun x => ok x.ctr)))

/-! ## Objects dropped (21 R338) -/

/-- Whether every access under an object's mappings is performed, so that they may go (20 R318). -/
def objectQuiet (s : State) (x : Obj) : Bool := s.pages.all (fun p => !(p.owner == x.owner && x.pages.contains p.va) || pageQuiet s p)

/-- An object whose unregistering waited for its launches, queued or running, dropped: its text leaves the trace caches, its memory is free. -/
def dropObject (s : State) (o : Nat) : State :=
  match mapGet s.objects o with
  | none => s
  | some x =>
    if s.unregistering.contains o && !s.launches.any (fun p => p.2.obj == o) && !s.cores.any (fun c => heldObject c.2 == some o)
        && !s.queues.any (fun q => queuedObject s q.1 q.2 o) && objectQuiet s x then
      { s with
        objects := mapDel s.objects o
        unregistering := s.unregistering.filter (fun n => n != o)
        pages := s.pages.filter (fun p => !(p.owner == x.owner && x.pages.contains p.va))
        cores := s.cores.map (fun c => (c.1, { c.2 with trace := c.2.trace.filter (fun q =>
          !(decide (x.textVa ≤ q.1.toNat) && decide (q.1.toNat < x.textVa + x.textLen))) })) }
    else s

/-- The objects whose unregistering waits dropped as far as nothing holds them. -/
def dropWaiting (s : State) : State := s.unregistering.foldl dropObject s

/-- The oldest waiting launch of a time trigger enters the table when a place is free. -/
def admitWaiting (s : State) : State :=
  match s.launches.find? (fun p => !p.2.admitted) with
  | some p => if activeCount s < 256 then updLaunch s p.1 (fun l => { l with admitted := true }) else s
  | none => s

/-- LAUNCH_COMPLETE: after the last team, the buffered reductions, then the status word, and in the same step the packet or firing. -/
def execLaunchComplete (launch : Nat) (s : State) : Ev :=
  .next (match mapGet s.launches launch with
  | none => s
  | some l =>
    if !launchOver l || l.clusters.any (forageAgain l) then s
    else
      let s1 := applyDet s l
      let status := if l.clusters.any (fun q => q.state == 7) then 2 else 1
      let s2 := if l.csig = 0 then s1 else vaWrite s1 l.owner l.secure l.csig (natBytes (statusWord l status) 8)
      let s3 := clearExports launch l { s2 with launches := mapDel s2.launches launch }
      let s4 := admitWaiting (dropObject (completeSource s3 l) l.obj)
      let s5 := match l.trigger with | some e => startPending s4 e | none => s4
      settleHead s5)

end Sys2Proof.Machine
end

