-- ==== Sys2Proof/Machine/Queue.lean ====
section
/-! DEFINITION. Queues, hardware slots and the firmware agents (23 R352 to R356), the commands (23 R357, R358, R366; 24 R377, R381, R382), the
scan program of a core's agent (22 R345; 23 R357), and the services of SYSCALL (23 R368). -/
namespace Sys2Proof.Machine

/-! ## Queues and slots (23 R352, R353) -/

/-- Whether a slot's queue has no unclaimed packet. -/
def slotIdle (s : State) (h : HwSlot) : Bool :=
  match mapGet s.queues h.queue with
  | some r => queueW s r h.ticket == h.ticket.toNat
  | none => true

/-- A slot emptied: its ticket goes back to the queue's record. -/
def unmapSlot (s : State) (n : Nat) : State :=
  match mapGet s.slots n with
  | none => s
  | some h =>
    let s1 := { s with slots := mapDel s.slots n }
    match mapGet s.queues h.queue with
    | some r => { s1 with queues := mapPut s.queues h.queue { r with ticket := h.ticket } }
    | none => s1

/-- The home core of a ticket word, which the spec leaves open: the lowest core in the map (DESIGN CHOICE, log 21). -/
def ticketHome (s : State) : Nat := ((List.range Config.coreCount).find? (fun c => !s.removed.contains c)).getD 0

/-- A queue mapped to a slot with the ticket of its record; one whose record is bad never is (23 R352). -/
def mapSlot (s : State) (n q : Nat) : State :=
  match mapGet s.queues q with
  | none => s
  | some r =>
    if r.bad then s
    else { s with slots := mapPut s.slots n { queue := q, home := ticketHome s, signalled := s.clk, ticket := r.ticket }
                  pendingQ := s.pendingQ.filter (fun k => k != q) }

/-- A slot that has become free given to the first queue that waits for one. -/
def offerSlot (s : State) (n : Nat) : State :=
  match s.pendingQ with
  | q :: _ => mapSlot s n q
  | [] => s

/-- A signal store reaches the queue unit: a mapped queue is signalled, one that waits keeps its place, another takes a free slot, the lowest
(DESIGN CHOICE, log 51), else the least recently signalled one without an unclaimed packet, else waits (23 R353). -/
def noteSignal (s : State) (q : Nat) : State :=
  match mapGet s.queues q with
  | none => s
  | some r =>
    if r.bad then s
    else match slotOf s q with
    | some (n, h) => { s with slots := mapPut s.slots n { h with signalled := s.clk } }
    | none =>
      if s.pendingQ.contains q then s
      else match (List.range 64).find? (fun n => (mapGet s.slots n).isNone) with
      | some n => mapSlot s n q
      | none =>
        match listMin (fun a b => decide (a.2.signalled < b.2.signalled)) (s.slots.filter (fun p => slotIdle s p.2)) with
        | some (n, _) => mapSlot (unmapSlot s n) n q
        | none => { s with pendingQ := s.pendingQ ++ [q] }

/-- The signal stores since the queue unit looked, each noted by it. -/
def signalCatch (s : State) : State := s.rung.foldl noteSignal { s with rung := [] }

/-- SIGNAL_STORE: W stored to a queue's signal word by its owner's session. -/
def execSignalStore (queue : Nat) (w : BitVec 64) (s : State) : Ev :=
  .next (match mapGet s.queues queue with
  | none => s
  | some r =>
    if vaWritable s r.owner r.secure r.sigva 8 then
      signalCatch (vaWrite s r.owner r.secure r.sigva (natBytes w.toNat 8))
    else s)

/-- QUEUE_UNMAP: a queue without a signal store or an unclaimed packet for QIDLE leaves its slot, which the first waiting queue takes. A store in
the clock in which the time completes counts first. -/
def execQueueUnmap (slot : Nat) (s : State) : Ev :=
  .next (match mapGet s.slots slot with
  | none => s
  | some h =>
    if max h.signalled h.claimed + s.qidle.toNat * 2400 < s.clk ∧ slotIdle s h = true then
      offerSlot (unmapSlot s slot) slot
    else s)

/-- QUEUE_RECORD_WRITE: a queue made, or one that had stopped set running at the TICKET the record carries (23 R352, R356). -/
def execQueueRecordWrite (queue owner : Nat) (secure : Bool) (r : List Byte) (s : State) : Ev :=
  .next (
    let w := recWord r
    let log2 := bits (w 8) 4 0
    let bad := bits (w 0) 63 57 != 0 || bits (w 8) 63 11 != 0 || bits (w 8) 7 5 != 0 || bits (w 0x10) 63 57 != 0
      || bits (w 0x20) 63 8 != 0 || bits (w 0x28) 63 57 != 0 || w 0x38 != 0 || decide (log2 < 4) || decide (16 < log2)
      || w 0 % 64 != 0 || w 0x10 % 8 != 0
    let old := match mapGet s.queues queue with | some q => q.doneSet | none => []
    let read := BitVec.ofNat 64 (w 0x18)
    let q : Queue :=
      { ring := bits (w 0) 56 0, prio := bits (w 8) 10 8, log2 := log2, sigva := bits (w 0x10) 56 0, read := read
        err := if bad then qerrFormat else bits (w 0x20) 7 0, errAddr := bits (w 0x28) 56 0, ticket := BitVec.ofNat 64 (w 0x30)
        bad := bad, doneSet := old.filter (fun i => decide (read.toNat ≤ i)), owner := owner, secure := secure }
    if 4096 ≤ queue then s
    else
      let s1 := { s with queues := mapPut s.queues queue q, pendingQ := if bad then s.pendingQ.filter (fun k => k != queue) else s.pendingQ }
      match slotOf s queue with
      | none => s1
      | some (n, h) =>
        if bad then offerSlot { s1 with slots := mapDel s1.slots n } n
        else { s1 with slots := mapPut s1.slots n { h with ticket := q.ticket } })

/-! ## Claiming (23 R354 to R356) -/

/-- Whether a core's agent may claim: its core is open and in the map, and it has no command. -/
def agentFree (s : State) (core : Nat) : Bool :=
  let k := coreAt s core
  decide (core < Config.coreCount) && !s.removed.contains core && (k.scan.state == 0 || k.scan.state == 6) && k.cmd.isNone && k.scans.isEmpty && k.scanJob.isNone

/-- The mapped slots in the order of a scan: QPRIO descending, then slot index. -/
def scanOrder (s : State) : List (Nat × HwSlot × Queue) :=
  listSort (fun a b => decide (b.2.2.prio < a.2.2.prio) || (a.2.2.prio == b.2.2.prio && decide (a.1 ≤ b.1)))
    (s.slots.filterMap (fun p => (mapGet s.queues p.2.queue).map (fun r => (p.1, p.2, r))))

/-- The slot an agent's scan finds: the first whose queue runs and has an unclaimed packet. -/
def nextClaim (s : State) : Option (Nat × HwSlot × Queue) :=
  (scanOrder s).find? (fun p => p.2.2.err == 0 && decide (p.2.1.ticket.toNat < queueW s p.2.2 p.2.1.ticket))

/-- PACKET_CLAIM: an agent's CAS on a slot's ticket claims the next packet, and the packet is read; one that cannot be carried out stops
its queue. -/
def execPacketClaim (core slot : Nat) (s : State) : Ev :=
  .next (match nextClaim s with
  | none => s
  | some (n, h, r) =>
    if n ≠ slot ∨ agentFree s core = false then s
    else
      let va := r.ring + 64 * (h.ticket.toNat % 2 ^ r.log2)
      let s1 := { s with slots := mapPut s.slots n { h with ticket := h.ticket + 1, claimed := s.clk } }
      match vaRead s r.owner r.secure va 64 with
      | none => stopQueue s1 core h.queue qerrXlate va
      | some b =>
        if packetFormatOk b then loadPacket s1 core { queue := h.queue, index := h.ticket, va := va, bytes := b } va b
        else stopQueue s1 core h.queue qerrFormat va)

/-! ## Commands (23 R357) -/

/-- Whether an agent holds a packet of a queue's ring, claimed before the one at an index, that has not started (23 R355). A FENCE without
BARRIER starts at its claim. -/
def earlierWaits (s : State) (q : Nat) (i : BitVec 64) : Bool :=
  s.cores.any (fun c => match c.2.cmd with
    | some p => p.queue == q && p.chain.isEmpty && !p.running && (packetType p.bytes != 9 || bit (recWord p.bytes 0) 8) && decide (p.index.toNat < i.toNat)
    | none => false)

/-- A claimed packet of a type that may start now: the packets of a queue start in ticket order, and one with BARRIER once every earlier packet
of its queue, or of its array, is complete. -/
def readyPacket (s : State) (core ty : Nat) : Option (Packet × Queue) :=
  match (coreAt s core).cmd with
  | none => none
  | some p =>
    match mapGet s.queues p.queue with
    | none => none
    | some r =>
      let earlier := match p.chain with | [] => decide (p.index.toNat ≤ r.read.toNat) | f :: _ => f.open' == 0
      if !p.running && !p.bytes.isEmpty && packetType p.bytes == ty && (!bit (recWord p.bytes 0) 8 || earlier)
        && (!p.chain.isEmpty || !earlierWaits s p.queue p.index) then some (p, r) else none

/-- The packet an agent is running, of a type. -/
def runningPacket (s : State) (core ty : Nat) : Option (Packet × Queue) :=
  match (coreAt s core).cmd with
  | none => none
  | some p => if p.running && packetType p.bytes == ty then (mapGet s.queues p.queue).map (fun r => (p, r)) else none

/-- An agent's packet changed. -/
def updPacket (s : State) (core : Nat) (f : Packet → Packet) : State := updCore s core (fun k => { k with cmd := k.cmd.map f })

/-- Whether a packet's completion word can be written. -/
def packetCsigOk (s : State) (p : Packet) (r : Queue) : Bool :=
  let va := recWord p.bytes 0x38
  va == 0 || vaWritable s r.owner r.secure va 8

/-- A command of a type run when its packet is ready; a completion word without a mapping stops the queue. -/
def withPacket (ty core : Nat) (s : State) (k : Packet → Queue → State) : Ev :=
  .next (match readyPacket s core ty with
  | none => s
  | some (p, r) => if packetCsigOk s p r then k p r else stopQueue s core p.queue qerrXlate p.va)

/-- The source of the launch a packet starts. -/
def packetSource (core : Nat) (p : Packet) : Launch :=
  fromPacket p.queue (some p.index) (if p.chain.isEmpty then none else some (core, p.chain.length)) p.order

/-- The innermost array of a packet counts one launch more. -/
def openFrame (p : Packet) : Packet :=
  match p.chain with
  | f :: rest => { p with chain := { f with open' := f.open' + 1 } :: rest }
  | [] => p

/-- A launch entered for an agent's packet, or rejected; the agent goes on. -/
def settleLaunch (s : State) (core : Nat) (p : Packet) (b : List Byte) (x : Except Nat Launch) : State :=
  let src := packetSource core p
  let p1 := openFrame p
  match x with
  | .ok l => agentNext (enterLaunch s (withSource l src) true) core p1
  | .error n =>
    let s1 := updCore s core (fun k => { k with cmd := some p1 })
    let s2 := rejectLaunch s1 b n src
    agentNext s2 core p

/-- LAUNCH: the block read at the claim is checked; the launch enters the table, is held while the table is full, or is rejected (23 R359, R360,
R362, R367). -/
def execLaunch (core : Nat) (s : State) : Ev :=
  .next (match readyPacket s core 1 with
  | none => s
  | some (p, _) =>
    match if bit (recWord p.block 0x48) 56 then .error lerrFormat else checkBlock s p.block with
    | .error n => settleLaunch s core p p.block (.error n)
    | .ok l =>
      if activeCount s < 256 then settleLaunch s core p p.block (.ok l)
      else updPacket s core (fun p => { p with running := true }))

/-- LAUNCH_TABLE_ADMIT: a held launch enters the table when a place is free. -/
def execLaunchTableAdmit (core : Nat) (s : State) : Ev :=
  .next (match runningPacket s core 1 with
  | none => s
  | some (p, _) => if activeCount s < 256 then settleLaunch s core p p.block (checkBlock s p.block) else s)

/-- SIGNAL: a store or an addition at SYSTEM scope. -/
def execSignal (core : Nat) (s : State) : Ev :=
  withPacket 2 core s (fun p r =>
    let w := recWord p.bytes
    let va := w 8
    let kind : AccKind := if w 0x18 = 1 then .atomic else .write
    match translate s r.owner (some r.secure) va kind with
    | .hbm pa =>
      let old := bytesNat (hbmRead s r.owner pa 8)
      let v := if w 0x18 = 1 then (old + w 0x10) % 2 ^ 64 else w 0x10
      signalCatch (packetDone (writePlace s r.owner (.hbm pa) 8 v) core p)
    | .peer _ _ _ => packetDone s core p
    | .fault _ => stopQueue s core p.queue qerrXlate p.va)

/-- WAIT begins, with its time limit. -/
def execWait (core : Nat) (s : State) : Ev :=
  withPacket 3 core s (fun p r =>
    match vaRead s r.owner r.secure (recWord p.bytes 8) 8 with
    | none => stopQueue s core p.queue qerrXlate p.va
    | some _ =>
      let n := recWord p.bytes 0x20
      updPacket s core (fun p => { p with running := true, deadline := if n = 0 then none else some (s.clk + 2400 * n) }))

/-- Whether a WAIT's word meets its condition. -/
def waitHolds (s : State) (p : Packet) (r : Queue) : Bool :=
  let w := recWord p.bytes
  match vaRead s r.owner r.secure (w 8) 8 with
  | none => false
  | some b =>
    match bits (w 0x18) 1 0 with
    | 0 => decide (w 0x10 ≤ bytesNat b)
    | 1 => bytesNat b == w 0x10
    | _ => bytesNat b != w 0x10

/-- WAIT_SATISFIED; a word whose page has lost its mapping stops the queue (23 R356). -/
def execWaitSatisfied (core : Nat) (s : State) : Ev :=
  .next (match runningPacket s core 3 with
  | none => s
  | some (p, r) =>
    if (vaRead s r.owner r.secure (recWord p.bytes 8) 8).isNone then stopQueue s core p.queue qerrXlate p.va
    else if waitHolds s p r then packetDone s core p else s)

/-- WAIT_TIMEOUT. -/
def execWaitTimeout (core : Nat) (s : State) : Ev :=
  .next (match runningPacket s core 3 with
  | none => s
  | some (p, r) =>
    match p.deadline with
    | some d => if d ≤ s.clk ∧ waitHolds s p r = false then stopQueue s core p.queue qerrTimeout p.va else s
    | none => s)

/-- INDIRECT: its nesting is checked, then the array's packets run in order (23 R357, R358). -/
def execIndirect (core : Nat) (s : State) : Ev :=
  withPacket 4 core s (fun p r =>
    let w := recWord p.bytes
    let base := w 8
    let count := bits (w 0x10) 15 0
    let nest := decide (5 ≤ p.chain.length + 1) || p.chain.any (fun f => rangesMeet base (64 * count) f.base (64 * f.count))
      || rangesMeet base (64 * count) r.ring (64 * 2 ^ r.log2)
    if nest then stopQueue s core p.queue qerrNest p.va
    else arrayNext 5 s core { p with chain := { base := base, count := count, va := p.va, csig := w 0x38 } :: p.chain })

/-- The first slot of an entry at or after a time. -/
def firstSlot (start period now : Nat) : Nat :=
  if now ≤ start then start else if period = 0 then start else start + ceilDiv (now - start) period * period

/-- TTSET: an entry written whole; a pending start is dropped, and an active run of it goes on (23 R366, R367). A single slot before it fires
never. -/
def execTtset (core : Nat) (s : State) : Ev :=
  withPacket 5 core s (fun p r =>
    let w := recWord p.bytes
    let start := w 0x10
    let period := w 0x18
    let old := (mapGet s.triggers (bits (w 8) 7 0)).bind Trigger.active
    let t : Trigger :=
      { start := start, period := period, lpb := w 0x20, skip := 0#32, catchup := bit (w 0x28) 1, en := bit (w 0x28) 0
        owner := r.owner, secure := r.secure, next := firstSlot start period s.time, active := old
        spent := decide (start < s.time) && period == 0 }
    packetDone { s with triggers := mapPut s.triggers (bits (w 8) 7 0) t } core p)

/-- ATTEST: a report over the nonce and the snapshot made at the claim (24 R381, R382). -/
def execAttest (core : Nat) (s : State) : Ev :=
  withPacket 6 core s (fun p r =>
    let w := recWord p.bytes
    match vaRead s r.owner r.secure (w 8) 64 with
    | none => stopQueue s core p.queue qerrXlate p.va
    | some nonce =>
      if vaWritable s r.owner r.secure (w 0x10) 512 then
        let body := p.block.take 16 ++ nonce ++ p.block.drop 16
        let sig := (Config.ed448Sign body).take 114
        let report := body ++ sig ++ List.replicate (512 - body.length - sig.length) 0#8
        packetDone (vaWrite s r.owner r.secure (w 0x10) report) core p
      else stopQueue s core p.queue qerrXlate p.va)

/-- The fields of the present manifest, in order. -/
def manifestFields (s : State) : List (List Byte) :=
  [natBytes (Config.manifestWord 1).toNat 8, natBytes 3 8, natBytes (Config.manifestWord 3).toNat 8,
   natBytes (Config.firmwareVersion (runningFirmware s)).toNat 8, measureBytes (runningFirmware s), natBytes (Config.manifestWord 6).toNat 8]

/-- The present manifest (24 R377). -/
def manifestBytes (s : State) : List Byte := (manifestFields s).flatten ++ List.replicate 152 0#8

/-- The number of the first field that differs from a stored manifest; none when all six are equal. -/
def manifestField : List (List Byte) → List Byte → Nat → Option Nat
  | [], _, _ => none
  | f :: r, b, n => if b.take f.length = f then manifestField r (b.drop f.length) (n + 1) else some n

/-- MANIFEST: a stored manifest compared with the present one. The spec numbers no field for a difference in the reserved bytes alone: that
FIELD is free (DESIGN CHOICE, log 24). -/
def execManifest (core : Nat) (s : State) : Ev :=
  withPacket 7 core s (fun p r =>
    let w := recWord p.bytes
    match vaRead s r.owner r.secure (w 8) 256 with
    | none => stopQueue s core p.queue qerrXlate p.va
    | some b =>
      if vaWritable s r.owner r.secure (w 0x10) 264 then
        let f := takeFree s
        let res : Nat × State :=
          match manifestField (manifestFields s) b 1 with
          | some n => (n * 256 + 1, s)
          | none => if b = manifestBytes s then (0, s) else (f.1.toNat % 256 * 256 + 1, f.2)
        packetDone (vaWrite res.2 r.owner r.secure (w 0x10) (natBytes res.1 8 ++ manifestBytes s)) core p
      else stopQueue s core p.queue qerrXlate p.va)

/-- QUEUE_FENCE: complete once every earlier packet of the queue, and of the arrays it stands in, is complete. A packet completes after its
writes are performed. -/
def execQueueFence (core : Nat) (s : State) : Ev :=
  withPacket 9 core s (fun p r =>
    if p.index.toNat ≤ r.read.toNat ∧ p.chain.all (fun f => f.open' == 0) = true then packetDone s core p else s)

/-! ## SCAN and the firmware team (22 R345, R347; 23 R357) -/

/-- The team of a core's firmware slot at the entry of the scan program, when the firmware's object holds one. Its window stands as it is, bytes and
granules: 11 R169's clearing is a placement's (DESIGN CHOICE, log 19). -/
def startFirmware (s : State) (c : Nat) : State :=
  match (mapGet s.objects 0).bind (fun o => o.kernels.head?.map (fun k => (o, k))) with
  | none => s
  | some (o, k) =>
    { s with teams := s.teams ++
        [{ ref := ⟨0, c⟩, core := c, epoch := s.epoch, winOff := firmwareArea, winLen := 0xC000
           groups := [{ id := 0, role := 0, part := 5, slot := 15, alloc := 8, base := 2040
                        lanes := (List.range (min 32 k.lanes)).map (fun i => (i, { pc := roleEntry o k 0 })) }] }] }

/-- A SCAN packet complete: the claiming agent goes on. -/
def scanPacketDone (s : State) (j : ScanJob) : State :=
  match runningPacket s j.agent 8 with
  | some (p, _) => packetDone s j.agent p
  | none => s

/-- Whether a core's scan program has ended: its group has; without a program, the scan state has left OPEN and come to rest. -/
def scanProgramOver (s : State) (c : Nat) (j : ScanJob) : Bool :=
  match firmwareTeam s c with
  | some t => t.groups.all Group.freed || t.ended.isSome
  | none =>
    let st := (coreAt s c).scan.state
    j.begun && (st == 0 || st == 6 || st == 7)

/-- A core's agent that is free takes the first SCAN passed to it: a closed or removed core completes it at once, else PRIO and PAT are
written and the program starts. -/
def takeScan (s : State) (c : Nat) : State :=
  let k := coreAt s c
  match k.scans, k.scanJob with
  | j :: rest, none =>
    let busy := match k.cmd with | none => false | some p => !(j.agent == c && p.running && packetType p.bytes == 8)
    if busy then s
    else
      let s1 := updCore s c (fun k => { k with scans := rest })
      if (k.scan.state ≠ 0 ∧ k.scan.state ≠ 6) ∨ s.removed.contains c = true then scanPacketDone s1 j
      else
        let s2 := putScan (updCore s1 c (fun k => { k with scanJob := some j })) c (scanPattern c j.prio j.pat)
        startFirmware s2 c
  | _, _ => s

/-- A scan program's course noted, and its end. -/
def endScan (s : State) (c : Nat) : State :=
  match (coreAt s c).scanJob with
  | none => s
  | some j =>
    if scanProgramOver s c j then
      let s1 := updCore s c (fun k => { k with scanJob := none })
      scanPacketDone { s1 with teams := s1.teams.filter (fun t => !(t.ref.launch == 0 && t.core == c)) } j
    else if j.begun then s
    else if (coreAt s c).scan.state = 0 ∨ (coreAt s c).scan.state = 6 then s
    else updCore s c (fun k => { k with scanJob := some { j with begun := true } })

/-- The agents that hold or have been passed a SCAN, or have a datapath to test, go on as far as they can. -/
def agentSettle (s : State) : State :=
  let s1 := (s.cores.filter (fun c => c.2.scanJob.isSome || !c.2.scans.isEmpty)).foldl (fun s c => takeScan (endScan s c.1) c.1) s
  ((s.selftests.filter isDatapath).map (fun (e : ErrorRec) => e.core)).eraseDups.foldl carrySelftest s1

/-- SCAN: the request is passed to the named core's agent; a core not in the map completes it at once. -/
def execScan (core : Nat) (s : State) : Ev :=
  withPacket 8 core s (fun p _ =>
    let w := recWord p.bytes
    let l := bits (w 8) 10 0
    if logicalCount s s.epoch ≤ l then packetDone s core p
    else
      let s1 := updPacket s core (fun p => { p with running := true })
      agentSettle (updCore s1 (physOfLogical s s.epoch l) (fun k =>
        { k with scans := k.scans ++ [{ agent := core, prio := BitVec.ofNat 8 (bits (w 8) 31 24), pat := BitVec.ofNat 8 (bits (w 8) 23 16) }] })))

/-! ## The services of SYSCALL (23 R368) -/

/-- A demand-mapped page mapped, as for an XLATE record. -/
def mapDemand (s : State) (owner va : Nat) : State :=
  { s with pages := s.pages.map (fun p =>
      if p.owner == owner && p.demand && !p.valid && decide (p.va ≤ va) && decide (va < p.va + p.size) then { p with valid := true } else p) }

/-- A scalar register of the caller's group. -/
def callerS (g : Group) (n : Nat) : Nat := (mapGetD g.s n 0#64).toNat

/-- The caller's s0 set, and its record resolved with resume. -/
def serveWith (s : State) (r : FaultRec) (v : BitVec 64) : State :=
  resolveRecord (updGroup s r.ref r.group (fun g => { g with s := mapSet g.s 0 v 0#64 })) r.core r.seq false

/-- Service 1: a store at SYSTEM scope, or the record killed. -/
def serveSignal (s : State) (r : FaultRec) (t : Team) (g : Group) : State :=
  let va := callerS g 0
  let s1 := mapDemand s (teamWorld s t).1 va
  if va % 8 ≠ 0 ∨ 2 ^ 57 ≤ va then resolveRecord s r.core r.seq true
  else match teamTranslate s1 t va .write with
  | .hbm pa =>
    signalCatch (resolveRecord (writePlace s1 (teamWorld s t).1 (.hbm pa) 8 (callerS g 1)) r.core r.seq false)
  | .peer _ _ _ => resolveRecord s1 r.core r.seq false
  | .fault _ => resolveRecord s1 r.core r.seq true

/-- Service 4: a packet copied to place W of a queue's ring and W raised by a signal store; 0 when the ring is full or the queue stopped. An
unknown queue, and a packet, ring or signal word that cannot be reached, enqueue nothing, and s0 is free: the spec states no result (DESIGN
CHOICE, log 25). -/
def serveEnqueue (s : State) (r : FaultRec) (t : Team) (g : Group) : State :=
  let f := takeFree s
  let unstated := serveWith f.2 r f.1
  match mapGet s.queues (callerS g 0) with
  | none => unstated
  | some q =>
    if q.err ≠ 0 then serveWith s r 0#64
    else match queueWord s q with
    | none => unstated
    | some w =>
      let place := q.ring + 64 * (w % 2 ^ q.log2)
      if q.read.toNat + 2 ^ q.log2 ≤ w then serveWith s r 0#64
      else match vaRead s (teamWorld s t).1 ((teamWorld s t).2.getD q.secure) (callerS g 1) 64 with
      | none => unstated
      | some b =>
        if vaWritable s q.owner q.secure place 64 && vaWritable s q.owner q.secure q.sigva 8 then
          let s1 := vaWrite s q.owner q.secure place b
          let s2 := vaWrite s1 q.owner q.secure q.sigva (natBytes ((w + 1) % 2 ^ 64) 8)
          signalCatch (serveWith s2 r 1#64)
        else unstated

/-- A SYSCALL record served by the agent of its core (23 R368). -/
def serveSyscall (s : State) (r : FaultRec) (t : Team) (g : Group) : State :=
  match r.addr.toNat % 2 ^ 16 with
  | 0 => resolveRecord s r.core r.seq false
  | 1 => serveSignal s r t g
  | 2 => serveWith s r (BitVec.ofNat 64 s.time)
  | 3 => serveWith s r (BitVec.ofNat 64 (logicalCount s t.epoch))
  | 4 => serveEnqueue s r t g
  | _ => resolveRecord s r.core r.seq true

/-- Whether an address of a team's space has a mapping (20 R318). -/
def isMapped (s : State) (t : Team) (va : Nat) : Bool :=
  match teamTranslate s t va .read with
  | .fault c => c != cXlate
  | _ => true

/-- An XLATE record resolved: with resume when its page is mapped by now or is demand-mapped (20 R318; 23 R368). With which disposition a page
that is neither is resolved the spec leaves open: that is free (DESIGN CHOICE, log 30). -/
def serveXlate (s : State) (r : FaultRec) (t : Team) : State :=
  let va := r.addr.toNat
  let s1 := if isMapped s t va then s else mapDemand s (teamWorld s t).1 va
  if isMapped s1 t va then resolveRecord s1 r.core r.seq false
  else let f := takeFree s1; resolveRecord f.2 r.core r.seq (f.1.getLsbD 0)

/-- A record served by the firmware agent of its core: the place of one whose run has ended is freed, an XLATE's page is mapped, a SYSCALL is carried
out, and under trap policy 0 an FPX, TRAP or BREAK is killed; under policy 1 it is left to the host (20 R316, R318; 23 R368). A vacated team's
record waits for its return, and the firmware slot's own, but for a SYSCALL, for the host (DEDUCED, log 30). -/
def serveRecord (s : State) (core seq : Nat) : State :=
  match s.faultQ.find? (fun r => r.seq == seq && r.core == core && !r.resolved) with
  | none => s
  | some r =>
    let held := teamsInSet s r.set
    if held.isEmpty || r.code == cEscaped then resolveRecord s core seq false
    else match held.findSome? (teamAt s) with
    | none => s
    | some t =>
      if isSyscall r then
        match groupOf t r.group with
        | some g => serveSyscall s r t g
        | none => resolveRecord s core seq false
      else if t.ref.launch = 0 then s
      else if r.code == cXlate then serveXlate s r t
      else if (launchOf s t).tpol = 0 then resolveRecord s core seq true
      else s

/-- What the agents do next by themselves: the first record in queue order that one of them serves (20 R316, R318). -/
def agentServes (s : State) : Option State :=
  (s.faultQ.filter (fun r => !r.resolved)).findSome? (fun r =>
    let u := serveRecord s r.core r.seq
    if u = s then none else some u)

end Sys2Proof.Machine
end

