-- ==== Sys2Proof/Machine/Loader.lean ====
section
/-! DEFINITION. Psimi objects: the file's format (21 R332 to R336; 14 R230), relocation and patching (21 R337, R338), measurement (21 R339), the
verifier and the feature levels (21 R341, R342; 07 R98, R101; 16 R270), registration and its result (21 R340), unregistering (21 R338). -/
namespace Sys2Proof.Machine

/-! ## The file -/

/-- A load's result: STATUS, REASON, KERNEL and OFFSET (21 R340). -/
structure LoadResult where
  status : Nat
  reason : Nat := 0
  kernel : Nat := 0
  offset : Nat := 0
  deriving DecidableEq, Repr

/-- LOAD_FORMAT at a byte of the file. -/
def loadFormat (off : Nat) : LoadResult := { status := 1, offset := off }

/-- `n` bytes of a file at an offset, as a number. -/
def fileNat (f : List Byte) (off n : Nat) : Nat := bytesNat ((f.drop off).take n)

/-- The first check that fails, by its byte. -/
def firstFail (l : List (Bool × Nat)) : Option Nat := (l.find? (fun p => !p.1)).map Prod.snd

/-- Offset and size of a section. -/
def secAt (f : List Byte) (k : Nat) : Nat × Nat := (fileNat f (0x40 + 16 * k) 8, fileNat f (0x48 + 16 * k) 4)

/-- The bytes of a section. -/
def secBytes (f : List Byte) (k : Nat) : List Byte := (f.drop (secAt f k).1).take (secAt f k).2

/-- Bytes of a record of each section. -/
def recordSize (k : Nat) : Nat := [4, 4, 8, 128, 32, 16, 1, 16, 64].getD k 1

/-- Whether two sections overlap. -/
def secsMeet (f : List Byte) (a b : Nat) : Bool :=
  rangesMeet (secAt f a).1 (secAt f a).2 (secAt f b).1 (secAt f b).2 && (secAt f a).2 != 0 && (secAt f b).2 != 0

/-- The checks of the header and the directory (21 R332, R333). -/
def headerChecks (f : List Byte) : List (Bool × Nat) :=
  [(decide (0xD0 ≤ f.length), 0), (fileNat f 0 4 == 0x4D495350, 0), (fileNat f 4 2 == 1, 4), (fileNat f 6 2 == 0, 6),
   (decide (1 ≤ fileNat f 8 2) && decide (fileNat f 8 2 ≤ 4096), 8), (fileNat f 0x0A 6 == 0, 0x0A), (fileNat f 0x10 48 == 0, 0x10)]
  ++ (List.range 9).flatMap (fun k =>
    [((secAt f k).1 % 8 == 0 && decide ((secAt f k).1 + (secAt f k).2 ≤ f.length), 0x40 + 16 * k),
     ((secAt f k).2 % recordSize k == 0, 0x48 + 16 * k), (fileNat f (0x4C + 16 * k) 4 == 0, 0x4C + 16 * k)])
  ++ [((secAt f 3).2 == 128 * fileNat f 8 2, 0x78), (decide ((secAt f 5).2 ≤ 16 * 1024), 0x98), ((secAt f 8).2 == 64, 0xC8)]
  ++ (List.range 9).map (fun k => ((List.range k).all (fun j => !secsMeet f j k), 0x40 + 16 * k))
  ++ [((List.range 8).all (fun k => decide ((secAt f k).1 + (secAt f k).2 ≤ (secAt f 8).1)), 0xC0)]

/-- The checks of an entry record (21 R334). That a reserved field or a value outside its range is LOAD_FORMAT at the record is the model's choice:
21 R334 names no status for it (DESIGN CHOICE, log 31). -/
def entryChecks (f : List Byte) (k : Nat) : List (Bool × Nat) :=
  let o := (secAt f 3).1 + 128 * k
  let w (n : Nat) : Nat := fileNat f (o + n) 8
  let toff := fileNat f (o + 0x20) 4
  let tlen := fileNat f (o + 0x24) 4
  [(bits (w 0) 63 21 == 0 && bits (w 0) 15 10 == 0 && bits (w 0) 7 0 != 0, o),
   (bits (w 8) 63 21 == 0 && w 8 % 256 == 0 && decide (w 8 ≤ 1048576), o + 8),
   (bits (w 0x10) 63 44 == 0, o + 0x10), (bits (w 0x18) 63 18 == 0, o + 0x18),
   (toff % 4 == 0 && tlen % 4 == 0 && decide (4 ≤ tlen) && decide (toff + tlen ≤ (secAt f 0).2), o + 0x20),
   (fileNat f (o + 0x28) 24 == 0, o + 0x28)]

/-- The text range of a kernel. -/
def kernelRange (f : List Byte) (k : Nat) : Nat × Nat :=
  let o := (secAt f 3).1 + 128 * k
  (fileNat f (o + 0x20) 4, fileNat f (o + 0x24) 4)

/-- Whether the kernels' ranges do not overlap and cover the text exactly. -/
def rangesCover (f : List Byte) (n : Nat) : Bool :=
  let rs := (List.range n).map (kernelRange f)
  (rs.map Prod.snd).foldl (· + ·) 0 == (secAt f 0).2
    && (List.range n).all (fun j => (List.range j).all (fun i =>
      let a := kernelRange f i
      let b := kernelRange f j
      !rangesMeet a.1 a.2 b.1 b.2))

/-- The reserved fields of segment, role and pool records (21 R335, R336; 14 R230). That one which is not 0 is LOAD_FORMAT at its record is the
model's choice: those rules name no status for it (DESIGN CHOICE, log 31). -/
def recordChecks (f : List Byte) : List (Bool × Nat) :=
  let recs (k : Nat) : List Nat := (List.range ((secAt f k).2 / recordSize k)).map (fun n => (secAt f k).1 + recordSize k * n)
  ((recs 2).map (fun o => (bits (fileNat f o 8) 63 39 == 0, o)))
  ++ ((recs 4).flatMap (fun o =>
    [(bits (fileNat f o 8) 7 4 == 0 && bits (fileNat f o 8) 23 17 == 0 && bits (fileNat f o 8) 63 27 == 0, o),
     (fileNat f (o + 0x0C) 4 == 0, o + 0x0C)]))
  ++ ((recs 5).map (fun o => (fileNat f (o + 0x0C) 4 / 2 == 0, o + 0x0C)))

/-- A relocation record: site, section, target section, kind, reserved bits and addend. -/
def relocAt (f : List Byte) (n : Nat) : Nat × Nat × Nat × Nat × Nat × Nat :=
  let o := (secAt f 7).1 + 16 * n
  let w := fileNat f o 8
  (bits w 31 0, bits w 35 32, bits w 39 36, bits w 43 40, bits w 63 44, fileNat f (o + 8) 8)

/-- Whether a relocation obeys R337. -/
def relocOk (f : List Byte) (n : Nat) : Bool :=
  let r := relocAt f n
  let w := if r.2.2.2.1 = 1 then 4 else 8
  (r.2.1 == 5 || r.2.1 == 6) && decide (r.2.2.2.1 ≤ 2)
    && (if r.2.2.2.1 = 0 then r.2.2.1 == 0 || r.2.2.1 == 6 else r.2.2.1 == 0 && r.2.2.2.2.2 == 0)
    && r.2.2.2.2.1 == 0 && r.1 % w == 0 && decide (r.1 + w ≤ (secAt f r.2.1).2)

/-- The first break of the object's format, in the order header, directory, entries, ranges, records, relocations. -/
def formatFail (f : List Byte) : Option Nat :=
  match firstFail (headerChecks f) with
  | some o => some o
  | none =>
    let n := fileNat f 8 2
    firstFail ((List.range n).flatMap (entryChecks f) ++ [(rangesCover f n, (secAt f 3).1)] ++ recordChecks f
      ++ (List.range ((secAt f 7).2 / 16)).map (fun k => (relocOk f k, (secAt f 7).1 + 16 * k)))

/-! ## Records read -/

/-- A role record (21 R335). -/
def roleAt (f : List Byte) (n : Nat) : Role :=
  let o := (secAt f 4).1 + 32 * n
  let w := fileNat f o 8
  { kind := bits w 3 0, regs := bits w 16 8, entry := fileNat f (o + 8) 4
    progs := (List.range (bits w 26 24)).map (fun k => (fileNat f (o + 0x10 + 2 * k) 2, fileNat f (o + 0x18 + 2 * k) 2)) }

/-- The kernel an entry record describes. -/
def kernelAt (f : List Byte) (k : Nat) : Kernel :=
  let o := (secAt f 3).1 + 128 * k
  let w (n : Nat) : Nat := fileNat f (o + n) 8
  { khdr := BitVec.ofNat 64 (w 0), sram := bits (w 8) 20 0, lanes := bits (w 0x10) 15 0
    mgrp := bits (w 0x10) 23 16, egrp := bits (w 0x10) 31 24
    cx := bits (w 0x10) 35 32, cy := bits (w 0x10) 39 36, cz := bits (w 0x10) 43 40
    roles := (List.range (bits (w 0x18) 17 16)).map (fun n => roleAt f (bits (w 0x18) 15 0 + n))
    toff := (kernelRange f k).1, tlen := (kernelRange f k).2 }

/-- The segment table: start offset and instruction count. -/
def segmentTable (f : List Byte) : List (Nat × Nat) :=
  (List.range ((secAt f 2).2 / 8)).map (fun n =>
    let w := fileNat f ((secAt f 2).1 + 8 * n) 8
    (bits w 31 0, bits w 38 32))

/-! ## Feature levels (07 R97, R98) -/

/-- The level of an opcode. -/
def opLevel (code : Nat) : Nat :=
  if (0x30 ≤ code ∧ code ≤ 0x32) ∨ (0xA3 ≤ code ∧ code ≤ 0xA5) ∨ (0xD1 ≤ code ∧ code ≤ 0xD4) ∨ code = 0xE4 ∨ (0xE8 ≤ code ∧ code ≤ 0xEB) then 3
  else if (0x6A ≤ code ∧ code ≤ 0x74) ∨ code = 0xC4 ∨ code = 0xC5 ∨ (0xE0 ≤ code ∧ code ≤ 0xE7) then 2
  else 1

/-- The level of a format code. -/
def formatLevel (c : Nat) : Nat := if (5 ≤ c ∧ c ≤ 9) ∨ c = 0x0D then 3 else 1

/-- The format codes an instruction holds. -/
def formatsOf (o : Op) (f : Form) : List Nat :=
  let code := (opCode o).toNat
  let imm := f.imm.toNat % 32
  if 0x6A ≤ code ∧ code ≤ 0x6F then (if f.sub.getLsbD 7 then [f.ty.toNat] else [])
  else if 0x80 ≤ code ∧ code ≤ 0x94 then [f.ty.toNat]
  else match o with
  | .fcvt => [f.ty.toNat, imm]
  | .f2i => [imm]
  | .i2f | .qdot4 | .pack | .unpack | .tdst | .accrd | .accwr => [f.ty.toNat]
  | _ => []

/-- The level of an instruction. -/
def instrLevel (q : Op × Form) : Nat :=
  ((formatsOf q.1 q.2).map formatLevel).foldl max
    (max (opLevel (opCode q.1).toNat) (if q.2.rm = 5#3 ∨ (usesScope q.1 = true ∧ q.2.scope = 2#3) then 3 else 1))

/-! ## The verifier (21 R341) -/

/-- Bytes of an instruction of the text: by the L field of its base word (07 R85). -/
def textLength (i : Instr) : Nat :=
  match i with
  | .udf _ _ _ _ l => 4 + 8 * (l.toNat % 2) + 8 * (l.toNat / 2)
  | _ => match i.opForm with | some q => formLength q.2 | none => 4

/-- Bytes of a pattern at an address of the text, whether it decodes or not. -/
def patternLength (text : List Byte) (pc : Nat) (d : Decoded) : Nat :=
  match d with
  | .instr i => textLength i
  | .bad _ => let l := (text.getD pc 0#8).toNat % 4; 4 + 8 * (l % 2) + 8 * (l / 2)

/-- The level of what stands at an address: 1 where it does not decode. -/
def decodedLevel (d : Decoded) : Nat :=
  match d with
  | .instr i => (match i.opForm with | some q => instrLevel q | none => 1)
  | .bad _ => 1

/-- The direct target of an instruction at an address. -/
def targetOf (q : Op × Form) (pc : Nat) : Option Int :=
  match q.1 with
  | .br | .jmpDirect | .call => some ((pc : Int) + 4 * q.2.imm.toInt)
  | _ => none

/-- Whether every latch an instruction reads names an entry in scope that is not empty; the list says for each entry, newest first, whether
it holds a result. -/
def latchRefsOk (q : Op × Form) (hist : List Bool) : Bool :=
  (sourcesOf q).all (fun p => match p.2 with | .latch k => hist.getD (k - 1) false | _ => true)

/-- Whether an instruction pushes a result. -/
def pushesResult (q : Op × Form) : Bool := (shape q.1 q.2).d != .none && (shape q.1 q.2).d != .window

/-- What a walk of a kernel's text finds: its operations, or the first failure as REASON and byte of the text. -/
structure Walk where
  ops : List Op := []
  fail : Option (Nat × Nat) := none
  deriving DecidableEq, Repr

/-- Whether what stands at an address ends a segment: by its opcode, also where the pattern is rejected. -/
def endsSegment (text : List Byte) (pc : Nat) (d : Decoded) : Bool :=
  match d with
  | .instr i => (match i.opForm with | some q => isTerminator q.1 | none => false)
  | .bad _ =>
    match opOfCode (BitVec.ofNat 8 (fileNat text pc 2 / 4)) 0#8 with
    | some o => isTerminator o
    | none => false

/-- The instructions from an address to the terminator that ends their segment, rejected patterns counted by their L field (21 R341; 07
R101); none where the range ends before it. -/
def segCount (text : List Byte) (hi : Nat) : Nat → Nat → Option Nat
  | 0, _ => none
  | fuel + 1, pc =>
    if hi ≤ pc then none
    else
      let d := decodeBytes ((text.drop pc).take 20)
      if endsSegment text pc d || decide (hi < pc + patternLength text pc d) then some 1
      else (segCount text hi fuel (pc + patternLength text pc d)).map (· + 1)

/-- A walk from an instruction on, in a segment that began at `start` with `count` instructions so far; `rest` is the part of the segment table
that the walk has not come to. -/
def walkText (text : List Byte) (segs : List (Nat × Nat)) (lo hi : Nat) :
    Nat → Nat → Nat → Nat → List (Nat × Nat) → List Bool → Walk
  | 0, _, _, _, _, _ => {}
  | fuel + 1, pc, start, count, rest, hist =>
    let early := match rest with | q :: _ => decide (q.1 < pc) || (count != 0 && q.1 == pc) | [] => false
    if early then { fail := some (2, (rest.headD (pc, 0)).1) }
    else if pc = hi then { fail := if count = 0 then none else some (2, start) }
    else if count = 0 ∧ (rest.head? ≠ (segCount text hi (fuel + 1) pc).map (fun n => (pc, n)) ∨ 64 < (rest.headD (pc, 0)).2) then
      { fail := some (2, pc) }
    else match decodeBytes ((text.drop pc).take 20) with
    | .bad .illegalOperand => { fail := some (4, pc) }
    | .bad _ => { fail := some (5, pc) }
    | .instr i =>
      let next := pc + textLength i
      let q := i.opForm
      let targetBad := match q.bind (fun q => targetOf q pc) with
        | some t => !(decide ((lo : Int) ≤ t) && decide (t < hi) && segs.any (fun s => (s.1 : Int) == t))
        | none => false
      let ends := match q with | some q => isTerminator q.1 | none => false
      let latchBad := match q with | some q => !latchRefsOk q hist | none => false
      if text.length < next then { fail := some (5, pc) }
      else if hi < next then { fail := some (2, start) }
      else if targetBad then { fail := some (1, pc) }
      else if latchBad then { fail := some (3, pc) }
      else
        let push := match q with | some q => pushesResult q | none => false
        let rest1 := if count = 0 then rest.tail else rest
        let r := if ends then walkText text segs lo hi fuel next next 0 rest1 []
          else walkText text segs lo hi fuel next start (count + 1) rest1 (push :: hist)
        { r with ops := match q with | some q => q.1 :: r.ops | none => r.ops }

/-- The highest level of the instructions from an address on; a pattern that does not decode is none of them and is passed by its length
(21 R342). -/
def textLevel (text : List Byte) (hi : Nat) : Nat → Nat → Nat
  | 0, _ => 1
  | fuel + 1, pc =>
    if hi ≤ pc then 1
    else
      let d := decodeBytes ((text.drop pc).take 20)
      max (decodedLevel d) (textLevel text hi fuel (pc + patternLength text pc d))

/-- The first instruction from an address on whose level is above a declared one. -/
def aboveLevel (text : List Byte) (hi level : Nat) : Nat → Nat → Option Nat
  | 0, _ => none
  | fuel + 1, pc =>
    if hi ≤ pc then none
    else
      let d := decodeBytes ((text.drop pc).take 20)
      if level < decodedLevel d then some pc else aboveLevel text hi level fuel (pc + patternLength text pc d)

/-- The first record of a segment table that starts past the text (21 R336). -/
def tableFail (segs : List (Nat × Nat)) (len : Nat) : Option Nat := (segs.find? (fun q => decide (len ≤ q.1))).map Prod.fst

/-- Whether a transfer instruction's branch stays in a program of `n` words. -/
def xTargetOk (i : Instr) (pc n : Nat) : Bool :=
  let ok (o : BitVec 11) : Bool := decide (0 ≤ (pc : Int) + o.toInt) && decide ((pc : Int) + o.toInt < n)
  match i with
  | .xb _ _ _ o => ok o
  | .xloop _ o => ok o
  | _ => true

/-- The first bad word of a transfer program of `n` words, from a word on. -/
def walkWords (ws : List Word) (n : Nat) : Nat → Nat → Option Nat
  | 0, _ => none
  | fuel + 1, pc =>
    if n ≤ pc then none
    else
      let w := ws.getD pc 0#32
      let two := xHasOperandWord w
      match decodeXWord w (if pc + 1 < n then ws.getD (pc + 1) 0#32 else 0#32) with
      | .bad _ => some pc
      | .instr i =>
        if (two && decide (n ≤ pc + 1)) || !xTargetOk i pc n then some pc
        else walkWords ws n fuel (pc + (if two then 2 else 1))

/-- The words of a section. -/
def secWords (f : List Byte) (k : Nat) : List Word := wordsOfBytes (secBytes f k)

/-- Whether a transfer word waits, or arrives. -/
def xWordIs (codes : List Nat) (w : Word) : Bool := codes.contains (w.extractLsb' 26 6).toNat

/-- The first break of R9 and R335 in the role records of a kernel, by its byte: ROLE0 and NROLE in the entries, a record's own fields in
the roles, an ENTRY that starts no segment of the kernel's range in the text (21 R340, R341). -/
def rolesFail (f : List Byte) (k : Nat) (segs : List (Nat × Nat)) : Option Nat :=
  let o := (secAt f 3).1 + 128 * k
  let w := fileNat f (o + 0x18) 8
  let first := bits w 15 0
  let count := bits w 17 16
  let rg := kernelRange f k
  let rs := (kernelAt f k).roles
  if !(decide (1 ≤ count) && decide (first + count ≤ (secAt f 4).2 / 32)) then some (128 * k)
  else if !((rs.length == 1 && rs.all (fun r => r.kind == 0))
      || rs.all (fun r => r.kind == 1 || r.kind == 2 || r.kind == 3) && (rs.map Role.kind).eraseDups.length == rs.length) then some (32 * first)
  else (rs.zipIdx).findSome? (fun p =>
    let r := p.1
    let b := (secAt f 4).1 + 32 * (first + p.2)
    let rest := (List.range 4).all (fun n => decide (n < r.progs.length)
      || (fileNat f (b + 0x10 + 2 * n) 2 == 0 && fileNat f (b + 0x18 + 2 * n) 2 == 0))
    let fields := if r.kind = 3 then r.regs == 0 && r.entry == 0 && decide (1 ≤ r.progs.length) && decide (r.progs.length ≤ 4)
      else decide (8 ≤ r.regs) && decide (r.regs ≤ 256) && r.regs % 8 == 0 && r.progs.isEmpty
    if !(rest && fields) then some (32 * (first + p.2))
    else if r.kind = 3 then none
    else if decide (rg.1 ≤ r.entry) && decide (r.entry < rg.1 + rg.2) && segs.any (fun s => s.1 == r.entry) then none
    else some r.entry)

/-- LOAD_VERIFY of a kernel with a reason at a byte of its section. -/
def verifyFail (k reason off : Nat) : LoadResult := { status := 3, reason := reason, kernel := k, offset := off }

/-- The first failure of a kernel's transfer programs in ascending address of xtext, as REASON and byte: a program outside it, or a bad word. -/
def progsFail (xs : List Word) (progs : List (Nat × Nat)) : Option (Nat × Nat) :=
  (listSort (fun (a b : Nat × Nat) => decide (a.1 ≤ b.1)) progs).findSome? (fun p =>
    if !(decide (1 ≤ p.2) && decide (p.2 ≤ 1024) && decide (p.1 + p.2 ≤ xs.length)) then some (6, 4 * p.1)
    else (walkWords ((xs.drop p.1).take p.2) p.2 (p.2 + 1) 0).map (fun n => (9, 4 * (p.1 + n))))

/-- The byte of the first instruction or transfer word above a declared level. -/
def levelOffset (text : List Byte) (ker : Kernel) (progs : List (Nat × Nat)) (declared : Nat) : Nat :=
  match aboveLevel text (ker.toff + ker.tlen) declared (ker.tlen / 4 + 1) ker.toff with
  | some pc => pc
  | none => 4 * ((listMin (fun a b => decide (a < b)) (progs.map Prod.fst)).getD 0)

/-- The first failure of a kernel: the feature-level rule, then one pass over its text with the segment table beside it, its roles, its
transfer words, and the barrier rule last (21 R341, R342; the order of the last three DEDUCED, log 31). -/
def verifyKernel (f : List Byte) (k : Nat) : Option LoadResult :=
  let text := secBytes f 0
  let segs := segmentTable f
  let ker := kernelAt f k
  let hi := ker.toff + ker.tlen
  let progs := ker.roles.flatMap (fun r => if r.kind = 3 then r.progs else [])
  let xs := secWords f 1
  let fuel := ker.tlen / 4 + 1
  let level := max (textLevel text hi fuel ker.toff) (if progs.isEmpty then 1 else 3)
  let declared := ker.khdr.toNat % 256
  if declared < level then some (verifyFail k 8 (levelOffset text ker progs declared))
  else if 3 < declared ∧ ker.khdr.getLsbD 9 = false then
    some { status := 2, kernel := k, offset := (secAt f 3).1 + 128 * k }
  else
    let w := walkText text segs ker.toff hi fuel ker.toff ker.toff 0 (segs.dropWhile (fun q => decide (q.1 < ker.toff))) []
    match w.fail with
    | some (r, o) => some (verifyFail k r o)
    | none =>
      let xwords := progs.flatMap (fun p => (xs.drop p.1).take p.2)
      let waits := w.ops.contains .barwait || xwords.any (xWordIs [0x31])
      let arrives := w.ops.any (fun o => o == .bararv || o == .mxgo || o == .mxv) || xwords.any (xWordIs [0x30, 0x28, 0x29, 0x2A])
      match tableFail segs text.length, rolesFail f k segs, progsFail xs progs with
      | some o, _, _ => some (verifyFail k 2 o)
      | none, some o, _ => some (verifyFail k 6 o)
      | none, none, some (r, o) => some (verifyFail k r o)
      | none, none, none => if waits && !arrives then some (verifyFail k 7 ker.toff) else none

/-! ## Registration (21 R338, R340) -/

/-- Bytes replaced in a list. -/
def patchBytes (bs : List Byte) (o : Nat) (new : List Byte) : List Byte := bs.take o ++ new ++ bs.drop (o + new.length)

/-- The pool and data sections with every relocation applied in record order. -/
def patched (s : State) (r : RegisterInput) : List Byte × List Byte :=
  (List.range ((secAt r.file 7).2 / 16)).foldl (fun (a : List Byte × List Byte) n =>
    let x := relocAt r.file n
    let base := if x.2.2.1 = 0 then r.textVa else r.dataVa
    let new := match x.2.2.2.1 with
      | 0 => natBytes ((base + x.2.2.2.2.2) % 2 ^ 64) 8
      | 1 => natBytes (logicalCount s s.epoch) 4
      | _ => natBytes (logicalCount s s.epoch) 8
    if x.2.1 = 5 then (patchBytes a.1 x.1 new, a.2) else (a.1, patchBytes a.2 x.1 new)) (secBytes r.file 5, secBytes r.file 6)

/-- Where an object's core counts stand. -/
def countSites (r : RegisterInput) : List (Nat × Bool) :=
  (List.range ((secAt r.file 7).2 / 16)).filterMap (fun n =>
    let x := relocAt r.file n
    if x.2.2.2.1 = 0 then none else some ((if x.2.1 = 5 then r.poolPa else r.dataPa) + x.1, x.2.2.2.1 == 2))

/-- The 64 KiB pages of a section. -/
def secPages (r : RegisterInput) (k va pa : Nat) (write exec : Bool) : List PageMap :=
  (List.range (ceilDiv (secAt r.file k).2 0x10000)).map (fun n =>
    { owner := r.owner, va := va + 0x10000 * n, size := 0x10000, target := .hbm (pa + 0x10000 * n), read := true, write := write
      atomic := write, exec := exec, secure := r.secure })

/-- The mappings of an object. -/
def objectPages (r : RegisterInput) : List PageMap :=
  secPages r 0 r.textVa r.textPa false true ++ secPages r 5 r.poolVa r.poolPa false false ++ secPages r 6 r.dataVa r.dataPa true false

/-- Whether two pages of one owner overlap. -/
def pagesMeet (p q : PageMap) : Bool := p.owner == q.owner && p.valid && q.valid && rangesMeet p.va p.size q.va q.size

/-- Whether a page's mapping lies in the address space and in memory that is not firmware's own; a peer device's memory is mapped by pages of 64 KiB
alone (25 R387). -/
def pageOk (p : PageMap) : Bool :=
  decide (p.owner < 64) && (p.size == 2 ^ 16 || p.size == 2 ^ 21 || p.size == 2 ^ 30) && p.va % p.size == 0 && decide (p.va + p.size ≤ 2 ^ 57)
    && (match p.target with
        | .hbm b => b % 0x10000 == 0 && decide (b + p.size ≤ Config.firmwareHbm)
        | .published e _ => decide (e < 4096)
        | .peer d pl b => p.size == 2 ^ 16 && decide (d < 192) && decide (pl < 64) && b % 0x10000 == 0)

/-- The memory that holds a text of some bytes: whole pages. -/
def textRange (pa len : Nat) : Nat × Nat := (pa, ceilDiv len 0x10000 * 0x10000)

/-- Whether a mapping would let text be written, which no mapping may (21 R333). -/
def writesText (ts : List (Nat × Nat)) (p : PageMap) : Bool :=
  (p.write || p.atomic) && (match p.target with | .hbm b => ts.any (fun t => rangesMeet b p.size t.1 t.2) | _ => false)

/-- The memory that holds the text of registered objects. -/
def textRanges (s : State) : List (Nat × Nat) := s.objects.map (fun q => textRange q.2.textPa q.2.textLen)

/-- Whether some memory (base, bytes) meets a text. -/
def meetsText (ts : List (Nat × Nat)) (r : Nat × Nat) : Bool := ts.any (fun t => rangesMeet r.1 r.2 t.1 t.2)

/-- The memory the loader writes an object's text, pool and data to. -/
def sectionPlaces (r : RegisterInput) : List (Nat × Nat) :=
  [textRange r.textPa (secAt r.file 0).2, (r.poolPa, (secAt r.file 5).2), (r.dataPa, (secAt r.file 6).2)]

/-- The memory of published buffers, which any mapping of an entry may come to name. -/
def publishedRanges (s : State) : List (Nat × Nat) := s.published.flatMap (fun p => p.2.halves)

/-- Whether the places the loader chose are free: whole pages of the owner's space that do not meet, in memory, no text among what may be
written, and no section in the place of a text. -/
def placesOk (s : State) (r : RegisterInput) : Bool :=
  let ps := objectPages r
  let t := textRange r.textPa (secAt r.file 0).2
  ps.all pageOk && ps.all (fun p => !s.pages.any (pagesMeet p))
    && s.pages.all (fun p => !writesText [t] p) && ps.all (fun p => !writesText (t :: textRanges s) p)
    && (sectionPlaces r).all (fun q => !meetsText (textRanges s) q) && (sectionPlaces r).tail.all (fun q => !meetsText [t] q)
    && (publishedRanges s).all (fun q => !meetsText [t] q)
    && (List.range ps.length).all (fun j => (List.range j).all (fun i =>
      match ps[i]?, ps[j]? with | some p, some q => !pagesMeet p q | _, _ => true))

/-- The 16 bytes of a result. -/
def resultBytes (r : LoadResult) : List Byte := natBytes (r.kernel * 2 ^ 32 + r.reason * 2 ^ 8 + r.status) 8 ++ natBytes r.offset 8

/-- The result of an object's checks: format, measurement, then the kernels in index order. -/
def loadResult (f : List Byte) : LoadResult :=
  match formatFail f with
  | some o => loadFormat o
  | none =>
    if shake256 (f.take (secAt f 8).1) ≠ secBytes f 8 then { status := 4, offset := (secAt f 8).1 }
    else ((List.range (fileNat f 8 2)).findSome? (verifyKernel f)).getD { status := 0 }

/-- An accepted object in memory. -/
def placeObject (s : State) (r : RegisterInput) : State :=
  let p := patched s r
  let s1 := hbmWrite s r.owner r.textPa (secBytes r.file 0)
  let s2 := hbmWrite s1 r.owner r.poolPa p.1
  let s3 := hbmWrite s2 r.owner r.dataPa p.2
  let m := measureOf (secBytes r.file 8)
  let o : Obj :=
    { owner := r.owner, secure := r.secure, textVa := r.textVa, textPa := r.textPa, textLen := (secAt r.file 0).2
      poolVa := r.poolVa, poolCount := (secAt r.file 5).2 / 16, dataVa := r.dataVa, xtext := secWords r.file 1
      segments := (segmentTable r.file).map (fun q => (r.textVa + q.1, q.2))
      kernels := (List.range (fileNat r.file 8 2)).map (kernelAt r.file)
      measure := m, coreSites := countSites r, pages := (objectPages r).map PageMap.va, epoch := s.epoch }
  let firm := r.owner == 0 && (mapGet s.objects 0).isNone
  { s3 with
    pages := s3.pages ++ objectPages r
    objects := mapPut s3.objects (if firm then 0 else s3.objNext) o
    objNext := if firm then s3.objNext else s3.objNext + 1
    stages := s3.stages ++ [m] }

/-- OBJECT_REGISTER: the object checked, placed, patched and registered, or its first failure reported (21 R338, R340). -/
def execObjectRegister (r : RegisterInput) (s : State) : Ev :=
  .next (
    let x := loadResult r.file
    let s1 := { s with hostReply := resultBytes x, hostStatus := 0 }
    if x.status ≠ 0 then s1
    else if placesOk s r then placeObject s1 r
    else s)

/-- OBJECT_UNREGISTER: at once, or when the object's launches have completed. -/
def execObjectUnregister (obj : Nat) (s : State) : Ev :=
  .next (if (mapGet s.objects obj).isSome ∧ s.unregistering.contains obj = false then
      dropObject { s with unregistering := s.unregistering ++ [obj] } obj
    else s)

end Sys2Proof.Machine
end

