-- ==== Sys2Proof/Machine/Device.lean ====
section
/-! DEFINITION. Events of the firmware, the host and the module: record resolution (19 R308; 20 R316), register writes (20 R327, R328), scan
commands and patterns (22 R346 to R351), errors, self-tests and predictive counters (24 R369 to R374), mappings (12 R177, R190), host and
peer accesses (25 R385, R387), time (25 R386), heat and power (25 R392), keys and firmware (24 R380 to R382), and module reset. -/
namespace Sys2Proof.Machine

/-! ## Records and registers -/

/-- A record resolved by firmware, or by a host session that may (25 R384). -/
def hostResolve (host : Option Cred) (core seq : Nat) (kill : Bool) (s : State) : Ev :=
  .next (if host.all (fun c => hostResolves s c core seq) then resolveRecord s core seq kill else s)

/-- FAULT_ACK: a record resolved with resume. -/
def execFaultAck (port : FaultPort) (seq : BitVec 64) (s : State) : Ev := hostResolve port.host port.core seq.toNat false s

/-- FAULT_KILL: a record resolved with kill. -/
def execFaultKill (port : FaultPort) (seq : BitVec 64) (s : State) : Ev := hostResolve port.host port.core seq.toNat true s

/-- FP_FLAG_CLEAR: a write to a flag CSR of a group, once the flags of earlier instructions are there (10 R168). -/
def execFpFlagClear (g : GroupRef) (csr : Nat) (v : BitVec 64) (s : State) : Ev :=
  .next (match groupAt s g with
  | none => s
  | some (t, h) =>
    if 0x01C ≤ csr ∧ csr ≤ 0x020 ∧ h.sb.any (fun b => b.fp) = false then updGroup s t.ref h.id (fun h => clearFlag h (csr - 0x01C) v)
    else s)

/-- REGISTER_WRITE: a CSR written by a session of the host debug endpoint or by the firmware slot of a core. -/
def execRegisterWrite (host : Option Cred) (core csr : Nat) (v : BitVec 64) (s : State) : Ev :=
  .next (match host with
    | some c => if hostGrants s c core csr v.toNat then haltSettle (hostPut s core csr v.toNat) core else s
    | none =>
      match firmPut s core csr v.toNat with
      | .ok t => t
      | .error _ => s)

/-! ## Scan (22 R346 to R349) -/

/-- SCAN_CLOSE. -/
def execScanClose (core : Nat) (v : BitVec 64) (s : State) : Ev := .next (scanClose s core v.toNat)
/-- SCAN_START. -/
def execScanStart (core : Nat) (v : BitVec 64) (s : State) : Ev := .next (scanStart s core v.toNat)
/-- SCAN_OPEN. -/
def execScanOpen (core : Nat) (v : BitVec 64) (s : State) : Ev := .next (scanOpen s core v.toNat)
/-- SCAN_REMOVE. -/
def execScanRemove (core : Nat) (v : BitVec 64) (s : State) : Ev := .next (scanRemove s core v.toNat)
/-- SCAN_CTL_NO_COMMAND: PRIO and PAT only. -/
def execScanCtlNoCommand (core : Nat) (v : BitVec 64) (s : State) : Ev := .next (putScan s core (scanFields core v.toNat))

/-- SCAN_DRAINED: a DRAINING core that meets every condition; its dirty lines are written back. -/
def execScanDrained (core : Nat) (s : State) : Ev :=
  .next (if (coreAt s core).scan.state = 1 ∧ coreDrained s core = true then scanDrain s core id else s)

/-- A core at the end of its pattern: reset, and the signature compared with REF. -/
def patternEnd (s : State) (core : Nat) (sig : BitVec 64) (faildom : BitVec 8) : State :=
  let pass := sig == (coreAt s core).scan.ref
  putScan (updCore s core (resetCore s.clk)) core (fun n =>
    { n with state := if pass then 4 else 5, time := 200#16, sig := sig, faildom := if pass then 0#8 else faildom })

/-- Whether a FAILDOM code names a scan domain: a partition or the shared units, and a unit (22 R349). -/
def scanDomain (d : BitVec 8) : Bool := decide (d.toNat / 32 ≤ 6) && decide (d.toNat % 32 ≤ 13)

/-- SCAN_PATTERN_END: in the clock 480,000 after START the core is reset, and the signature compared with REF. -/
def execScanPatternEnd (core : Nat) (sig : BitVec 64) (faildom : BitVec 8) (s : State) : Ev :=
  .next (
    let n := (coreAt s core).scan
    if n.state = 3 ∧ n.started + 480000 = s.clk ∧ scanDomain faildom = true then patternEnd s core sig faildom else s)

/-- The patterns whose last clock passes, which find a healthy core unless an event has said otherwise (22 R349; DESIGN CHOICE, log 8). -/
def patternsEnd (s : State) : State :=
  ((s.cores.filter (fun q => q.2.scan.state == 3 && decide (q.2.scan.started + 480000 ≤ s.clk))).map Prod.fst).foldl
    (fun s c => patternEnd s c (coreAt s c).scan.ref 0#8) s

/-! ## Counts of errors (24 R373) -/

/-- The place of a count: kind 0 corrected symbols, 1 uncorrectable frames, 2 retrains, 3 corrected errors of a bank, 4 of a row; 8 more for
the present interval; 16 spare rows used. -/
def countKey (kind unit die idx row : Nat) : Nat := (((kind * 256 + unit) * 256 + die) * 65536 + idx) * 2 ^ 32 + row

/-- A count increased, modulo 2^64. -/
def bumpCount (n : Nat) (s : State) (key : Nat) : State :=
  { s with counts := mapPut s.counts key ((mapGetD s.counts key 0 + n) % 2 ^ 64) }

/-- A count and its interval's. -/
def bumpBoth (n : Nat) (s : State) (kind unit die idx row : Nat) : State :=
  bumpCount n (bumpCount n s (countKey kind unit die idx row)) (countKey (kind + 8) unit die idx row)

/-! ## Errors (24 R369 to R371) -/

/-- The die field of a link or port: 0xFF for a network port (24 R370). -/
def linkDie (unit die : Nat) : Nat := if unit = 18 then 255 else die

/-- Units with a check: register file, weight buffer, accumulators, transfer processors, SRAM, trace cache, die cache, HBM, staging, L1. -/
def checkedUnit (u : Nat) : Bool := [5, 8, 9, 10, 11, 13, 14, 15, 19, 20].contains u

/-- The team that reads the data. -/
def consumerTeam (s : State) (c : Consumer) : Option Team :=
  match c with
  | .group g _ => (groupAt s g).map Prod.fst
  | .prog x | .bulk x _ => (progAt s x).map Prod.fst
  | .engine c => ((coreAt s c).engine.find? EngineOp.running).bind (fun op => teamAt s op.ref)

/-- The launch whose team reads the data. -/
def consumerTag (s : State) (e : ErrorInput) : Nat :=
  match e.consumer.bind (consumerTeam s) with
  | some t => (launchOf s t).ltag
  | none => e.ltag

/-- The access kind of ECC_UNCORR at a read of an instruction (19 R393). -/
def accessKind (o : Op) (f : Form) : Nat :=
  match o with
  | .ld | .ldnt | .sld => 0
  | .st | .stnt | .tdst => 1
  | .atom | .red => if f.hint = 1#2 then 3 else 2
  | .ldm | .stm | .ldfe | .stfe | .park | .parkFull | .barinit | .bararv | .barwait | .mxgo | .mxv => 3
  | .tdld | .tdset | .publish | .ldgen | .pld => 4
  | _ => 7

/-- The lease whose instruction a group reads for: the one it holds, or the one its selection begins in the step of the read. -/
def readingLease (g : Group) : Option Lease :=
  match g.lease with
  | some le => some le
  | none => (pick g).map (fun p => { mask := p.mask, start := p.pc, pc := p.pc })

/-- The access kind of a consuming read of a group: of its instruction's access, or 7 of a fetch, a backing-store row, a register or an
accumulator element. -/
def consumerKind (s : State) (t : Team) (g : Group) (unit how : Nat) : Nat :=
  if how ≠ 0 ∨ unit = 5 ∨ unit = 9 then 7
  else match (readingLease g).map (leaseInstr s t) with
  | some (.instr i) => (match i.opForm with | some q => accessKind q.1 q.2 | none => 7)
  | some (.bad _) | none => 7

/-- The lanes of a group that read: its lease's, or the issue set it would select. -/
def readingLanes (g : Group) : Mask :=
  match readingLease g with | some le => le.mask &&& runMask g | none => 0#32

/-- The consuming read of uncorrectable data: ECC_UNCORR ends the team of the group or the engine operation, TX_FAULT with that cause a
transfer program's, at the XPC of the instruction that reads. -/
def consumeBad (s : State) (e : ErrorInput) : State :=
  match e.consumer with
  | none => s
  | some (.group r how) =>
    match groupAt s r with
    | none => s
    | some (t, g) =>
      let m := readingLanes g
      if m = 0#32 then s
      else
        let s1 := updGroup s t.ref g.id (fun g => { g with lease := none })
        takeWhole s1 t g (maskPc g m) m cEccUncorr (consumerKind s t g e.unit how) e.addr
  | some (.prog x) =>
    match progAt s x with
    | none => s
    | some (t, y) => takeProgFault s t y y.xpc cTxFault cEccUncorr e.addr
  | some (.bulk x n) =>
    match progAt s x with
    | none => s
    | some (t, y) =>
      match y.queue.find? (fun o => o.num == n) with
      | none => s
      | some op => takeProgFault s t y op.xpc cTxFault cEccUncorr e.addr
  | some (.engine c) =>
    match (coreAt s c).engine.find? EngineOp.running with
    | none => s
    | some op =>
      match teamAt s op.ref with
      | none => s
      | some t => engineEnd (putRunning s c none) t op cEccUncorr e.addr

/-- Links and ports, whose symbols, frames and retrains are counted: die-to-die, mesh, network. -/
def isLink (u : Nat) : Bool := decide (16 ≤ u) && decide (u ≤ 18)

/-- ERROR_DETECTED: what the table of R369 says of the place: corrected in place with a CE record, or a UE record and the consuming read's
fault. Errors of a link or port are counted alone, as many corrected symbols as DET1 says, and a bad trace-cache entry is fetched again. -/
def execErrorDetected (e : ErrorInput) (s : State) : Ev :=
  .next (
    if isLink e.unit then
      if e.corrected then bumpBoth (max 1 e.det1.toNat) s 0 e.unit (linkDie e.unit e.die) e.idx 0
      else bumpCount 1 s (countKey 1 e.unit (linkDie e.unit e.die) e.idx 0)
    else if !checkedUnit e.unit || (e.unit == 13 && !e.corrected) || (e.unit == 19 && e.corrected) then s
    else
      let r : ErrorRec :=
        { cls := if e.corrected then 1 else 2, unit := e.unit, part := e.part, die := e.die, core := e.core, ltag := consumerTag s e
          row := BitVec.ofNat 32 e.row, col := BitVec.ofNat 16 e.col, idx := BitVec.ofNat 16 e.idx, det1 := e.det1, det2 := 0#64 }
      let s1 := startSelftest (postError s r) r
      let s2 := if e.unit = 15 ∧ e.corrected = true then bumpBoth 1 (bumpBoth 1 s1 3 15 e.die e.idx 0) 4 15 e.die e.idx e.row else s1
      let s3 := if e.unit = 13 then updCore s2 e.core (fun k => { k with trace := listDrop k.trace e.idx }) else s2
      if e.corrected then s3 else consumeBad s3 e)

/-- LINK_CRC_ERROR: a replay, or after sixteen a retrain with its record and count. A port's retrain takes the same record (DESIGN CHOICE,
log 64). -/
def execLinkCrcError (unit die idx : Nat) (retrain : Bool) (s : State) : Ev :=
  .next (if !retrain || !isLink unit then s
    else
      let die := linkDie unit die
      let r : ErrorRec :=
        { cls := 5, unit := unit, part := 7, die := die, core := 0xFFFF, ltag := 0, row := 0xFFFFFFFF#32, col := 0xFFFF#16
          idx := BitVec.ofNat 16 idx, det1 := 0#64, det2 := 0#64 }
      startSelftest (postError (bumpCount 1 s (countKey 2 unit die idx 0)) r) r)

/-- ERROR_RECORD_DEFERRED: the first waiting record takes its place when that is free. -/
def execErrorRecordDeferred (s : State) : Ev :=
  .next (match s.errWait with
  | [] => s
  | e :: rest => if errorPlaceFree s then putError { s with errWait := rest } e else s)

/-- ERROR_QUEUE_FREE: the host frees a place of the ring. -/
def execErrorQueueFree (n : Nat) (s : State) : Ev := .next { s with errQ := mapDel s.errQ (n % 4096) }

/-! ## Ends of self-tests (24 R372) -/

/-- The SELFTEST record of a test, at the location of the record that started it. -/
def selftestRecord (s : State) (e : ErrorRec) (outcome : Nat) : State :=
  postError s { e with cls := 7, outcome := outcome, det1 := 0#64, det2 := 0#64, pat := 0 }

/-- A core removed from service: a new map epoch, and the state REMOVED (22 R351). -/
def retireCore (s : State) (c : Nat) : State :=
  if c < Config.coreCount then putScan (removeCore s c) c (fun n => { n with state := 7 }) else s

/-- A mapping after the memory [old, old + n) has moved to `new`: a larger page that meets it is split into pages of 64 KiB. -/
def movePage (old new n : Nat) (p : PageMap) : List PageMap :=
  match p.target with
  | .hbm b =>
    let moved (b : Nat) : Nat := if old ≤ b ∧ b < old + n then b - old + new else b
    if p.size = 0x10000 then [{ p with target := .hbm (moved b) }]
    else if rangesMeet b p.size old n then
      (List.range (p.size / 0x10000)).map (fun k =>
        { p with va := p.va + k * 0x10000, size := 0x10000, target := .hbm (moved (b + k * 0x10000)) })
    else [p]
  | _ => [p]

/-- A location of the tag table moved with the memory its line lies in (13 R199). -/
def moveKey (moved : Nat → Nat) (k : Nat × Nat) : Nat × Nat := if k.1 = 0 then lineKeyOf (moved (k.2 * 64)) else k

/-- A team with the places it holds moved: the fronts its bulk operations started with, and the lines its promotions name. -/
def moveTeam (moved : Nat → Nat) (t : Team) : Team :=
  let promos (l : List Promo) : List Promo := l.map (fun q => { q with key := moveKey moved q.key })
  { t with
    groups := t.groups.map (fun g => { g with promos := promos g.promos })
    progs := t.progs.map (fun y =>
      { y with
        promos := promos y.promos
        queue := y.queue.map (fun o => { o with fronts := o.fronts.map (fun l => l.map (fun q => (q.1, moved q.2))) }) }) }

/-- A launch with the places it holds moved: buffered REDs and those of its vacated teams. -/
def moveLaunch (moved : Nat → Nat) (l : Launch) : Launch :=
  { l with
    detBuf := l.detBuf.map (fun d => { d with pa := moved d.pa })
    clusters := l.clusters.map (fun q => { q with saved := q.saved.map (moveTeam moved) }) }

/-- Memory of `n` bytes, whole 64 KiB pages, moved by firmware with its keys and release tags: every mapping, published buffer, object, buffered RED, started
operation and promotion that named a place there, and the fault queue's base, names the new one. -/
def moveRegion (s : State) (old new n : Nat) : State :=
  let moved (b : Nat) : Nat := if old ≤ b ∧ b < old + n then b - old + new else b
  { s with
    mem := writeBytes s.mem new (readBytes s.mem old n)
    lineKeys := (List.range (n / 64)).foldl (fun m k =>
      match mapGet s.lineKeys (old / 64 + k) with
      | some o => mapPut m (new / 64 + k) o
      | none => mapDel m (new / 64 + k)) s.lineKeys
    tags := (s.tags.filter (fun e => !(e.1.1 == 0 && rangesMeet (e.1.2 * 64) 64 new n))).map (fun e => (moveKey moved e.1, e.2))
    pages := s.pages.flatMap (movePage old new n)
    published := s.published.map (fun p => (p.1, { p.2 with front := moved p.2.front, back := moved p.2.back }))
    objects := s.objects.map (fun p => (p.1, { p.2 with
      textPa := moved p.2.textPa, coreSites := p.2.coreSites.map (fun c => (moved c.1, c.2)) }))
    launches := s.launches.map (fun p => (p.1, moveLaunch moved p.2))
    teams := s.teams.map (moveTeam moved)
    faultBase := BitVec.ofNat 32 (moved (s.faultBase.toNat * 0x10000) / 0x10000) }

/-- Whether a 64 KiB page of HBM is in use or retired. -/
def pageUsed (s : State) (k : Nat) : Bool :=
  let meets (a n : Nat) : Bool := rangesMeet (k * 0x10000) 0x10000 a n
  s.retiredPages.contains k
    || s.pages.any (fun (p : PageMap) => match p.target with | .hbm b => meets b p.size | _ => false)
    || (publishedRanges s).any (fun q => meets q.1 q.2)
    || s.objects.any (fun p => meets p.2.textPa p.2.textLen)
    || (s.faultBaseSet && s.faultBase.toNat == k)

/-- The first run of `n` free pages; which one firmware takes is a DESIGN CHOICE (log 64). -/
def freeRun (s : State) (n : Nat) : Nat → Nat → Nat
  | 0, k => k
  | f + 1, k => if (List.range n).all (fun i => !pageUsed s (k + i)) then k else freeRun s n f (k + 1)

/-- What has to move with a page: the half of a published buffer or the text it lies in, else the page alone (base, pages). -/
def pageRegion (s : State) (k : Nat) : Nat × Nat :=
  let covers (q : Nat × Nat) : Bool := rangesMeet (k * 0x10000) 0x10000 q.1 q.2
  let rs := publishedRanges s ++ s.objects.map (fun p => (p.2.textPa, p.2.textLen))
  match rs.find? covers with
  | some q => (q.1, ceilDiv q.2 0x10000)
  | none => (k * 0x10000, 1)

/-- A page of firmware's memory left: the fault queue moves to the memory of a free context, and a team's context to another's (20 R314; DESIGN
CHOICE, log 64). -/
def leavePage (s : State) (k : Nat) : State :=
  let s1 := if s.faultBaseSet ∧ s.faultBase.toNat = k then moveRegion s (k * 0x10000) (contextBase (freeContext s)) 0x10000 else s
  moveContext s1 ((k * 0x10000 - Config.firmwareHbm) / Config.contextBytes)

/-- Whether a mapping names memory (base, bytes). -/
def mapsInto (s : State) (r : Nat × Nat) (p : PageMap) : Bool :=
  match p.target with
  | .hbm b => rangesMeet b p.size r.1 r.2
  | .published e _ => (mapGet s.published e).any (fun q => q.halves.any (fun h => rangesMeet h.1 h.2 r.1 r.2))
  | .peer _ _ _ => false

/-- Whether a page may be retired now: every access under a mapping that changes with it is performed (20 R318). -/
def retireReady (s : State) (k : Nat) : Bool :=
  let r := pageRegion s k
  s.pages.all (fun p => !mapsInto s (r.1, r.2 * 0x10000) p || pageQuiet s p)

/-- A 64 KiB page of HBM retired, its data moved (24 R372). -/
def retirePage (s : State) (k : Nat) : State :=
  let r := pageRegion s k
  let s1 := { s with retiredPages := s.retiredPages ++ [k] }
  if Config.firmwareHbm ≤ k * 0x10000 then leavePage s1 k
  else moveRegion s1 r.1 (freeRun s1 r.2 (Config.firmwareHbm / 0x10000) 0 * 0x10000) (r.2 * 0x10000)

/-- SELFTEST_DONE: a datapath's test ends with its pattern; an array row returns, is spared while one of 32 spare rows is left, or its core is
removed; HBM is repaired, or its page retired when no repair is left and what is outstanding under its mappings is performed; a link passes or is disabled, a port with a report to the host. -/
def execSelftestDone (n outcome : Nat) (s : State) : Ev :=
  .next (match s.selftests[n]? with
  | none => s
  | some e =>
    let s1 := { s with selftests := listDrop s.selftests n }
    if isDatapath e then
      let c := (coreAt s e.core).scan
      if c.state = 4 ∧ e.testing = true then selftestRecord (scanOpen s1 e.core (c.prio.toNat * 2 ^ 24 + 3)) e 0
      else if c.state = 5 ∧ e.testing = true then selftestRecord (scanRemove s1 e.core (c.prio.toNat * 2 ^ 24 + 4)) e 2
      else if c.state = 7 then selftestRecord s1 e 2
      else s
    else if outcome = 0 then selftestRecord s1 e 0
    else if isLink e.unit then
      selftestRecord { s1 with
        retiredLinks := s1.retiredLinks ++ [(e.unit * 256 + e.die, e.idx.toNat)]
        portReports := if e.unit = 18 then s1.portReports ++ [e.idx.toNat] else s1.portReports } e 2
    else if e.unit = 15 then
      if outcome = 1 then selftestRecord s1 e 1
      else if retireReady s (e.det1.toNat / 0x10000) then selftestRecord (retirePage s1 (e.det1.toNat / 0x10000)) e 2 else s
    else
      let key := countKey 16 e.unit e.die (e.core * 8 + e.part) e.idx.toNat
      if mapGetD s1.counts key 0 < 32 then selftestRecord (bumpCount 1 s1 key) e 1
      else selftestRecord (retireCore s1 e.core) e 2)

/-- A PREDICT record of an interval count. -/
def predictRecord (s : State) (unit die idx row n limit : Nat) : State :=
  postError s
    { cls := 6, unit := unit, part := 7, die := die, core := 0xFFFF, ltag := 0, row := BitVec.ofNat 32 row, col := 0xFFFF#16
      idx := BitVec.ofNat 16 idx, det1 := BitVec.ofNat 64 n, det2 := BitVec.ofNat 64 limit }

/-- PREDICT_INTERVAL_END: one record for each interval count above its limit, and the interval's counts start again. -/
def execPredictIntervalEnd (s : State) : Ev :=
  .next (if s.clk < s.intervalFrom + 2 ^ s.logInt.toNat then s
    else
      let now := s.counts.filter (fun p => decide (8 ≤ p.1 / 2 ^ 64) && decide (p.1 / 2 ^ 64 < 16))
      let s1 := now.foldl (fun s p =>
        let unit := p.1 / 2 ^ 56 % 256
        let die := p.1 / 2 ^ 48 % 256
        let idx := p.1 / 2 ^ 32 % 65536
        match p.1 / 2 ^ 64 with
        | 8 => if s.linkLim.toNat * 1024 < p.2 then predictRecord s unit die idx 0xFFFFFFFF p.2 (s.linkLim.toNat * 1024) else s
        | 11 => if s.bankLim.toNat < p.2 then predictRecord s unit die idx 0xFFFFFFFF p.2 s.bankLim.toNat else s
        | 12 => if s.rowLim.toNat < p.2 then predictRecord s unit die idx (p.1 % 2 ^ 32) p.2 s.rowLim.toNat else s
        | _ => s) s
      { s1 with
        counts := s1.counts.filter (fun p => !(decide (8 ≤ p.1 / 2 ^ 64) && decide (p.1 / 2 ^ 64 < 16)))
        intervalFrom := s1.intervalFrom + 2 ^ s.logInt.toNat })

/-! ## Mappings (12 R177, R190; 20 R318; 25 R387) -/

/-- TLB_SHOOTDOWN: a mapping changed with the invalidation of both TLB levels; it completes only when the accesses under the old mapping have
been performed. None lets text be written (21 R333). -/
def execTlbShootdown (old : Option (Nat × Nat)) (page : Option PageMap) (s : State) : Ev :=
  .next (
    let gone := match old with | some (o, va) => s.pages.filter (fun (p : PageMap) => p.owner == o && p.va == va) | none => []
    let kept := match old with | some (o, va) => s.pages.filter (fun (p : PageMap) => !(p.owner == o && p.va == va)) | none => s.pages
    if !gone.all (pageQuiet s) then s
    else match page with
    | none => { s with pages := kept }
    | some p => if pageOk p && !kept.any (pagesMeet p) && !writesText (textRanges s) p then { s with pages := kept ++ [p] } else s)

/-- PUBLISHED_BUFFER_CREATE: an entry not in use, of memory that holds no text (12 R190; 21 R333). -/
def execPublishedBufferCreate (n front back owner len : Nat) (s : State) : Ev :=
  let q : Published := { front := front, back := back, owner := owner, len := len, gen := 0#64 }
  .next (if n < 4096 ∧ (mapGet s.published n).isNone = true ∧ q.halves.any (meetsText (textRanges s)) = false then
      { s with published := mapPut s.published n q }
    else s)

/-- PUBLISHED_BUFFER_FREE. -/
def execPublishedBufferFree (n : Nat) (s : State) : Ev := .next { s with published := mapDel s.published n }

/-- PEER_PAGE_UNREACHABLE: accesses to the page fault XLATE until firmware maps it again. -/
def execPeerPageUnreachable (owner va : Nat) (s : State) : Ev :=
  .next { s with pages := s.pages.map (fun (p : PageMap) =>
    match p.target with
    | .peer _ _ _ => if p.owner == owner && p.va == va then { p with valid := false } else p
    | _ => p) }

/-! ## Host and peer accesses (25 R385, R387) -/

/-- The places of `n` bytes of an owner's space for a session of a world, or the first byte's error. -/
def sessionPlaces (s : State) (owner : Nat) (world : Option Bool) (va : Nat) (k : AccKind) (n : Nat) : Except Code (List Xl) :=
  (List.range n).foldr (fun i (r : Except Code (List Xl)) =>
    match translate s owner world ((va + i) % 2 ^ 57) k with
    | .fault c => .error c
    | x => r.map (fun l => x :: l)) (.ok [])

/-- The bytes at places: a peer's are free (DESIGN CHOICE, log 3). -/
def placeBytes (s : State) (owner : Nat) : List Xl → List Byte × State
  | [] => ([], s)
  | .hbm pa :: r => let x := placeBytes s owner r; (hbmByte s owner pa :: x.1, x.2)
  | _ :: r => let x := placeBytes s owner r; let f := takeFree x.2; (f.1.extractLsb' 0 8 :: x.1, f.2)

/-- Bytes written at places; a peer's memory is not the device's. -/
def putPlaces (s : State) (owner : Nat) (ps : List Xl) (bs : List Byte) : State :=
  (ps.zip bs).foldl (fun s q => match q.1 with | .hbm pa => ringStore (hbmWriteByte s owner pa q.2) pa 1 | _ => s) s

/-- HOST_MEMORY_READ: the bytes, or the error, returned to the host. -/
def execHostMemoryRead (owner : Nat) (secure : Bool) (va len : Nat) (s : State) : Ev :=
  .next (match sessionPlaces s owner (some secure) va .read len with
  | .error c => { s with hostReply := [], hostStatus := c.toNat }
  | .ok ps => let r := placeBytes s owner ps; { r.2 with hostReply := r.1, hostStatus := 0 })

/-- HOST_MEMORY_WRITE: performed at SYSTEM scope and acknowledged, or the error; a write to a signal word is a signal store (23 R353). -/
def execHostMemoryWrite (owner : Nat) (secure : Bool) (va : Nat) (bytes : List Byte) (s : State) : Ev :=
  .next (match sessionPlaces s owner (some secure) va .write bytes.length with
  | .error c => { s with hostReply := [], hostStatus := c.toNat }
  | .ok ps => signalCatch { putPlaces s owner ps bytes with hostReply := [], hostStatus := 0 })

/-- The places of a peer's access, on pages mapped to that peer alone (25 R384). -/
def peerPlaces (s : State) (a : PeerInput) (k : AccKind) (n : Nat) : Except Code (List Xl) :=
  if (List.range n).all (fun i => (findPage s a.owner ((a.va + i) % 2 ^ 57)).any (fun p => p.peers.contains a.device)) then
    sessionPlaces s a.owner none a.va k n
  else .error cXlate

/-- PEER_ACCESS: a peer's read, write or atomic on a page mapped to it, performed at the home of the line. -/
def execPeerAccess (a : PeerInput) (s : State) : Ev :=
  .next (
    let k : AccKind := match a.kind with | 0 => .read | 1 => .write | _ => .atomic
    let f : Form := { sub := BitVec.ofNat 8 ((a.kind - 2) % 16), ty := BitVec.ofNat 5 ((a.kind - 2) / 16) }
    let w := intWidth f.ty / 8
    let n := if a.kind ≤ 1 then a.bytes.length else w
    if 2 ≤ a.kind ∧ (a.va % w ≠ 0 ∨ 8 < f.sub.toNat ∨ (w ≠ 4 ∧ w ≠ 8)) then { s with hostReply := [], hostStatus := cAlign.toNat }
    else match peerPlaces s a k n with
    | .error c => { s with hostReply := [], hostStatus := c.toNat }
    | .ok ps =>
      let r := placeBytes s a.owner ps
      match a.kind with
      | 0 => { r.2 with hostReply := r.1, hostStatus := 0 }
      | 1 => { putPlaces s a.owner ps a.bytes with hostReply := [], hostStatus := 0 }
      | _ =>
        let new := atomNew f (bytesNat r.1) (bytesNat (a.bytes.take w)) (bytesNat ((a.bytes.drop w).take w))
        { putPlaces r.2 a.owner ps (natBytes new w) with hostReply := r.1, hostStatus := 0 })

/-! ## The host debug endpoint (25 R384, R391) -/

/-- Bytes of a core's Forage area; those of its working space are free (18 R292). -/
def forageArea (s : State) (core off : Nat) : Nat → List Byte × State
  | 0 => ([], s)
  | n + 1 =>
    let r := forageArea s core (off + 1) n
    if off < 0x1EB000 then (sramRead s core off 1 ++ r.1, r.2)
    else let f := takeFree r.2; (f.1.extractLsb' 0 8 :: r.1, f.2)

/-- The rows of a die's HBM stack with the most corrected errors, 64 at most: (bank, row, count). -/
def stackRows (s : State) (die : Nat) : List (Nat × Nat × Nat) :=
  let rows := (s.counts.filter (fun p => p.1 / 2 ^ 64 == 4 && p.1 / 2 ^ 56 % 256 == 15 && p.1 / 2 ^ 48 % 256 == die)).map
    (fun p => (p.1 / 2 ^ 32 % 65536, p.1 % 2 ^ 32, p.2))
  (listSort (fun (a b : Nat × Nat × Nat) => decide (b.2.2 ≤ a.2.2)) rows).take 64

/-- A read of the host debug endpoint and its answer, 8 bytes a value in the order its kind gives. A register that is not granted answers
ILLEGAL_OPERAND, and what is read belongs to no launch (DESIGN CHOICE, log 61). Every counter of an LCR read is as it stood in one clock. -/
def debugRead (s : State) (r : DebugRead) : State :=
  let reply (vs : List Nat) : State := { s with hostReply := vs.flatMap (fun v => natBytes v 8), hostStatus := 0 }
  let refuse : State := { s with hostReply := [], hostStatus := cIllegalOperand.toNat }
  match r with
  | .csr n => match devCsr s n with | some v => reply [v] | none => refuse
  | .lcr c => reply (lcrCounters s (coreAt s c))
  | .forage c off n =>
    if 0x1E0000 ≤ off ∧ off + n ≤ 0x1F0000 then
      let b := forageArea s c off n
      { b.2 with hostReply := b.1, hostStatus := 0 }
    else refuse
  | .count kind unit die idx =>
    if kind ≤ 3 then reply [mapGetD s.counts (countKey kind unit die idx 0) 0] else refuse
  | .rows die => reply ((stackRows s die).flatMap (fun q => [q.1, q.2.1, q.2.2]))

/-! ## Whether the endpoints answer (25 R392) -/

/-- Whether a port is live: a self-test has not disabled it (24 R372). -/
def portLive (s : State) (n : Nat) : Bool := !s.retiredLinks.any (fun q => q.1 / 256 == 18 && q.2 == n)

/-- Whether the firmware agent of a core runs: the core is in service, and no pattern runs on it (22 R349, R351). -/
def agentRuns (s : State) (c : Nat) : Bool := !s.removed.contains c && (coreAt s c).scan.state != 3

/-- Whether the endpoints of R384 answer: a port is live and a core's agent runs. When none is, power-on reset alone reaches the module. -/
def endpointsAnswer (s : State) : Bool := (List.range Config.ports).any (portLive s) && (List.range Config.coreCount).any (agentRuns s)

/-- Whether a happening comes in through an endpoint (25 R384). -/
def viaEndpoint (i : Instr) : Bool :=
  match i with
  | .faultAck p _ | .faultKill p _ => p.host.isSome
  | .registerWrite h _ _ _ => h.isSome
  | .dbgHalt _ _ | .dbgStep _ _ | .signalStore _ _ | .queueRecordWrite _ _ _ _ | .errorQueueFree _ | .keySlotLoad _ | .keySlotClear _
  | .objectRegister _ | .objectUnregister _ | .hostMemoryRead _ _ _ _ | .hostMemoryWrite _ _ _ _ | .peerAccess _
  | .publishedBufferCreate _ _ _ _ _ | .publishedBufferFree _ => true
  | _ => false

/-! ## Time (25 R386) -/

/-- PTP_MESSAGE: locked to a master; a forward offset above 1 ms is one forward step that fires the entries it passes, any other offset is
slewed. -/
def execPtpMessage (offset : Int) (port : BitVec 8) (s : State) : Ev :=
  .next (
    let s1 := { s with ptpPort := BitVec.ofNat 8 (port.toNat % 64), ptpState := 1 }
    if 1000000 < offset then
      let s2 := { s1 with time := s1.time + offset.toNat, slew := 0, ptpSteps := BitVec.ofNat 8 (min 255 (s1.ptpSteps.toNat + 1)) }
      (s2.triggers.map Prod.fst).foldl (fun s e => fireTrigger e s) s2
    else { s1 with slew := offset })

/-- PTP_HOLDOVER: locked to holdover. -/
def execPtpHoldover (s : State) : Ev := .next (if s.ptpState = 1 then { s with ptpState := 2 } else s)

/-! ## Heat and power (25 R392) -/

/-- The resident clusters with a team on a die. -/
def dieClusters (s : State) (die : Nat) : List (Nat × Nat) :=
  ((s.teams.filter (fun t => t.ref.launch != 0 && t.core / Config.coresPerDie == die)).map (fun t =>
    (t.ref.launch, clusterKey (launchOf s t) t.ref.team))).eraseDups

/-- DIE_THERMAL_TRIP: a die closed to dispatch and restore, its clusters vacated. -/
def execDieThermalTrip (die : Nat) (s : State) : Ev :=
  .next (if Config.dieCount ≤ die ∨ s.hotDies.contains die = true then s
    else (dieClusters s die).foldl (fun s q => vacateCluster s q.1 q.2) { s with hotDies := s.hotDies ++ [die] })

/-- DIE_THERMAL_REOPEN. -/
def execDieThermalReopen (die : Nat) (s : State) : Ev := .next (settleHead { s with hotDies := s.hotDies.filter (fun d => d != die) })

/-- POWER_CAP_CHECK: the 1 ms average, and whether positions are withheld. -/
def execPowerCapCheck (meas : BitVec 16) (s : State) : Ev :=
  .next (settleCap { s with meas := meas })

/-! ## Keys, firmware, reset (24 R374, R380, R382) -/

/-- The lines written under a slot's key readable under no slot's, the backing stores and contexts of its teams among them. -/
def orphanLines (s : State) (slot : Nat) : State :=
  { lostContexts s slot with lineKeys := s.lineKeys.map (fun p => if p.2 = slot then (p.1, 64) else p) }

/-- KEY_SLOT_LOAD: a new key from a session of the secure host channel; what an earlier key of the slot wrote is unreadable. -/
def execKeySlotLoad (key : KeyAccess) (s : State) : Ev :=
  .next (if !key.secure || decide (64 ≤ key.slot) then s
    else if s.keys.contains key.slot then orphanLines s key.slot
    else { s with keys := s.keys ++ [key.slot] })

/-- KEY_SLOT_CLEAR by a session of the secure host channel: every line written under the slot is unreadable. -/
def execKeySlotClear (key : KeyAccess) (s : State) : Ev :=
  .next (if !key.secure || decide (64 ≤ key.slot) then s
    else { orphanLines s key.slot with keys := s.keys.filter (fun k => k != key.slot) })

/-- FIRMWARE_HANDOVER_START: the incoming measurement is pending. -/
def execFirmwareHandoverStart (m : BitVec 512) (s : State) : Ev :=
  .next (if s.pendingFw.isNone then { s with pendingFw := some m } else s)

/-- FIRMWARE_HANDOVER_COMMIT: every agent changes over in one step, and the chain is extended with the incoming firmware. -/
def execFirmwareHandoverCommit (s : State) : Ev :=
  .next (match s.pendingFw with
  | none => s
  | some m => { s with pendingFw := none, firmware := some m, stages := s.stages ++ [m] })

/-- FIRMWARE_HANDOVER_ABANDON. -/
def execFirmwareHandoverAbandon (s : State) : Ev := .next { s with pendingFw := none }

/-- MODULE_RESET: the reset state with the stored list of removed cores applied before the map is built; what the model itself still has to
run, and its free values, go on. -/
def execModuleReset (s : State) : Ev :=
  .next { State.reset with
    removed := s.removed
    epochs := [(0, s.removed)]
    agenda := s.agenda
    freeCtr := s.freeCtr }

end Sys2Proof.Machine
end

