-- ==== Sys2Proof/Machine/Dispatch.lean ====
section
/-! DEFINITION. The meaning of every instruction: one direct call for each constructor of `Instr`. -/
namespace Sys2Proof.Machine

/-- The meaning of an instruction. -/
def exec (i : Instr) (s : State) : Host.Outcome State Fault Refusal :=
  match i with
  | .iadd f => Sys2Proof.Machine.execIadd f s
  | .isub f => Sys2Proof.Machine.execIsub f s
  | .imul f => Sys2Proof.Machine.execImul f s
  | .imad f => Sys2Proof.Machine.execImad f s
  | .imin f => Sys2Proof.Machine.execImin f s
  | .imax f => Sys2Proof.Machine.execImax f s
  | .iabs f => Sys2Proof.Machine.execIabs f s
  | .ineg f => Sys2Proof.Machine.execIneg f s
  | .and f => Sys2Proof.Machine.execAnd f s
  | .or f => Sys2Proof.Machine.execOr f s
  | .xor f => Sys2Proof.Machine.execXor f s
  | .andn f => Sys2Proof.Machine.execAndn f s
  | .not f => Sys2Proof.Machine.execNot f s
  | .shl f => Sys2Proof.Machine.execShl f s
  | .shr f => Sys2Proof.Machine.execShr f s
  | .sar f => Sys2Proof.Machine.execSar f s
  | .rot f => Sys2Proof.Machine.execRot f s
  | .popc f => Sys2Proof.Machine.execPopc f s
  | .clz f => Sys2Proof.Machine.execClz f s
  | .ctz f => Sys2Proof.Machine.execCtz f s
  | .brev f => Sys2Proof.Machine.execBrev f s
  | .bfx f => Sys2Proof.Machine.execBfx f s
  | .bfi f => Sys2Proof.Machine.execBfi f s
  | .perm f => Sys2Proof.Machine.execPerm f s
  | .sel f => Sys2Proof.Machine.execSel f s
  | .icmp f => Sys2Proof.Machine.execIcmp f s
  | .lea f => Sys2Proof.Machine.execLea f s
  | .pand f => Sys2Proof.Machine.execPand f s
  | .por f => Sys2Proof.Machine.execPor f s
  | .pxor f => Sys2Proof.Machine.execPxor f s
  | .pnot f => Sys2Proof.Machine.execPnot f s
  | .pmov f => Sys2Proof.Machine.execPmov f s
  | .awset f => Sys2Proof.Machine.execAwset f s
  | .reggrow f => Sys2Proof.Machine.execReggrow f s
  | .regshrink f => Sys2Proof.Machine.execRegshrink f s
  | .sadd f => Sys2Proof.Machine.execSadd f s
  | .ssub f => Sys2Proof.Machine.execSsub f s
  | .smul f => Sys2Proof.Machine.execSmul f s
  | .sand f => Sys2Proof.Machine.execSand f s
  | .sor f => Sys2Proof.Machine.execSor f s
  | .sxor f => Sys2Proof.Machine.execSxor f s
  | .sshl f => Sys2Proof.Machine.execSshl f s
  | .sshr f => Sys2Proof.Machine.execSshr f s
  | .scmp f => Sys2Proof.Machine.execScmp f s
  | .smov f => Sys2Proof.Machine.execSmov f s
  | .sld f => Sys2Proof.Machine.execSld f s
  | .bcast f => Sys2Proof.Machine.execBcast f s
  | .readlane f => Sys2Proof.Machine.execReadlane f s
  | .br f => Sys2Proof.Machine.execBr f s
  | .jmpDirect f => Sys2Proof.Machine.execJmpDirect f s
  | .jmpRegister f => Sys2Proof.Machine.execJmpRegister f s
  | .call f => Sys2Proof.Machine.execCall f s
  | .calli f => Sys2Proof.Machine.execCalli f s
  | .ret f => Sys2Proof.Machine.execRet f s
  | .exit f => Sys2Proof.Machine.execExit f s
  | .next f => Sys2Proof.Machine.execNext f s
  | .park f => Sys2Proof.Machine.execPark f s
  | .parkFull f => Sys2Proof.Machine.execParkFull f s
  | .yield f => Sys2Proof.Machine.execYield f s
  | .nop f => Sys2Proof.Machine.execNop f s
  | .udf b a k d l => Sys2Proof.Machine.execUdf b a k d l s
  | .shfl f => Sys2Proof.Machine.execShfl f s
  | .vote f => Sys2Proof.Machine.execVote f s
  | .redux f => Sys2Proof.Machine.execRedux f s
  | .scanx f => Sys2Proof.Machine.execScanx f s
  | .matchLanes f => Sys2Proof.Machine.execMatchLanes f s
  | .elect f => Sys2Proof.Machine.execElect f s
  | .barsync f => Sys2Proof.Machine.execBarsync f s
  | .barinit f => Sys2Proof.Machine.execBarinit f s
  | .bararv f => Sys2Proof.Machine.execBararv f s
  | .barwait f => Sys2Proof.Machine.execBarwait f s
  | .syncm f => Sys2Proof.Machine.execSyncm f s
  | .csrr f => Sys2Proof.Machine.execCsrr f s
  | .csrw f => Sys2Proof.Machine.execCsrw f s
  | .syscall f => Sys2Proof.Machine.execSyscall f s
  | .eret f => Sys2Proof.Machine.execEret f s
  | .trap f => Sys2Proof.Machine.execTrap f s
  | .brk f => Sys2Proof.Machine.execBrk f s
  | .fadd f => Sys2Proof.Machine.execFadd f s
  | .fsub f => Sys2Proof.Machine.execFsub f s
  | .fmul f => Sys2Proof.Machine.execFmul f s
  | .ffma f => Sys2Proof.Machine.execFfma f s
  | .fmin f => Sys2Proof.Machine.execFmin f s
  | .fmax f => Sys2Proof.Machine.execFmax f s
  | .fcmp f => Sys2Proof.Machine.execFcmp f s
  | .fclass f => Sys2Proof.Machine.execFclass f s
  | .frcp f => Sys2Proof.Machine.execFrcp f s
  | .frsq f => Sys2Proof.Machine.execFrsq f s
  | .fsqrt f => Sys2Proof.Machine.execFsqrt f s
  | .fexp2 f => Sys2Proof.Machine.execFexp2 f s
  | .flog2 f => Sys2Proof.Machine.execFlog2 f s
  | .fsin f => Sys2Proof.Machine.execFsin f s
  | .fcos f => Sys2Proof.Machine.execFcos f s
  | .ftanh f => Sys2Proof.Machine.execFtanh f s
  | .dadd f => Sys2Proof.Machine.execDadd f s
  | .dmul f => Sys2Proof.Machine.execDmul f s
  | .dfma f => Sys2Proof.Machine.execDfma f s
  | .hadd2 f => Sys2Proof.Machine.execHadd2 f s
  | .hfma2 f => Sys2Proof.Machine.execHfma2 f s
  | .fcvt f => Sys2Proof.Machine.execFcvt f s
  | .f2i f => Sys2Proof.Machine.execF2i f s
  | .i2f f => Sys2Proof.Machine.execI2f f s
  | .qdot4 f => Sys2Proof.Machine.execQdot4 f s
  | .pack f => Sys2Proof.Machine.execPack f s
  | .unpack f => Sys2Proof.Machine.execUnpack f s
  | .ld f => Sys2Proof.Machine.execLd f s
  | .st f => Sys2Proof.Machine.execSt f s
  | .ldm f => Sys2Proof.Machine.execLdm f s
  | .stm f => Sys2Proof.Machine.execStm f s
  | .ldfe f => Sys2Proof.Machine.execLdfe f s
  | .stfe f => Sys2Proof.Machine.execStfe f s
  | .atom f => Sys2Proof.Machine.execAtom f s
  | .red f => Sys2Proof.Machine.execRed f s
  | .ldnt f => Sys2Proof.Machine.execLdnt f s
  | .stnt f => Sys2Proof.Machine.execStnt f s
  | .prefetch f => Sys2Proof.Machine.execPrefetch f s
  | .cctl f => Sys2Proof.Machine.execCctl f s
  | .pld f => Sys2Proof.Machine.execPld f s
  | .fence f => Sys2Proof.Machine.execFence f s
  | .fenceR f => Sys2Proof.Machine.execFenceR f s
  | .ntdrain f => Sys2Proof.Machine.execNtdrain f s
  | .publish f => Sys2Proof.Machine.execPublish f s
  | .ldgen f => Sys2Proof.Machine.execLdgen f s
  | .tdld f => Sys2Proof.Machine.execTdld f s
  | .tdst f => Sys2Proof.Machine.execTdst f s
  | .tdset f => Sys2Proof.Machine.execTdset f s
  | .mxgo f => Sys2Proof.Machine.execMxgo f s
  | .mxv f => Sys2Proof.Machine.execMxv f s
  | .accrd f => Sys2Proof.Machine.execAccrd f s
  | .accwr f => Sys2Proof.Machine.execAccwr f s
  | .acczero f => Sys2Proof.Machine.execAcczero f s
  | .xstart f => Sys2Proof.Machine.execXstart f s
  | .xsig f => Sys2Proof.Machine.execXsig f s
  | .xstat f => Sys2Proof.Machine.execXstat f s
  | .worknext f => Sys2Proof.Machine.execWorknext f s
  | .xadd f => Sys2Proof.Machine.execXadd f s
  | .xsub f => Sys2Proof.Machine.execXsub f s
  | .xmul f => Sys2Proof.Machine.execXmul f s
  | .xand f => Sys2Proof.Machine.execXand f s
  | .xior f => Sys2Proof.Machine.execXior f s
  | .xxor f => Sys2Proof.Machine.execXxor f s
  | .xshl f => Sys2Proof.Machine.execXshl f s
  | .xshr f => Sys2Proof.Machine.execXshr f s
  | .xsar f => Sys2Proof.Machine.execXsar f s
  | .xmov d h v => Sys2Proof.Machine.execXmov d h v s
  | .xmovk d h v => Sys2Proof.Machine.execXmovk d h v s
  | .xsetk n iv m => Sys2Proof.Machine.execXsetk n iv m s
  | .xrdk d n => Sys2Proof.Machine.execXrdk d n s
  | .xld f => Sys2Proof.Machine.execXld f s
  | .xst f => Sys2Proof.Machine.execXst f s
  | .xldx c b w sp x => Sys2Proof.Machine.execXldx c b w sp x s
  | .xb a b cond o => Sys2Proof.Machine.execXb a b cond o s
  | .xloop n o => Sys2Proof.Machine.execXloop n o s
  | .xswait d m => Sys2Proof.Machine.execXswait d m s
  | .xpost a => Sys2Proof.Machine.execXpost a s
  | .xaddr d h iv n => Sys2Proof.Machine.execXaddr d h iv n s
  | .xcopy f g => Sys2Proof.Machine.execXcopy f g s
  | .xgath f g => Sys2Proof.Machine.execXgath f g s
  | .xscat f g => Sys2Proof.Machine.execXscat f g s
  | .xarv f => Sys2Proof.Machine.execXarv f s
  | .xwait f => Sys2Proof.Machine.execXwait f s
  | .xfe b o g => Sys2Proof.Machine.execXfe b o g s
  | .xpub h scope => Sys2Proof.Machine.execXpub h scope s
  | .xfence f => Sys2Proof.Machine.execXfence f s
  | .xend => Sys2Proof.Machine.execXend s
  | .xtrap code => Sys2Proof.Machine.execXtrap code s
  | .xnop => Sys2Proof.Machine.execXnop s
  | .spinExpiry g => Sys2Proof.Machine.execSpinExpiry g s
  | .breakpointHit g => Sys2Proof.Machine.execBreakpointHit g s
  | .maybeFaultCheckDone g => Sys2Proof.Machine.execMaybeFaultCheckDone g s
  | .faultRecordDeferred => Sys2Proof.Machine.execFaultRecordDeferred s
  | .fpxWindowClose core launch => Sys2Proof.Machine.execFpxWindowClose core launch s
  | .loadResultReturn g tag => Sys2Proof.Machine.execLoadResultReturn g tag s
  | .overflowReadFill g tag => Sys2Proof.Machine.execOverflowReadFill g tag s
  | .accessPerformed p n scope => Sys2Proof.Machine.execAccessPerformed p n scope s
  | .fenceComplete p => Sys2Proof.Machine.execFenceComplete p s
  | .ntdrainComplete p => Sys2Proof.Machine.execNtdrainComplete p s
  | .publishSwap p => Sys2Proof.Machine.execPublishSwap p s
  | .promoteRequest p n => Sys2Proof.Machine.execPromoteRequest p n s
  | .promoteReply p n => Sys2Proof.Machine.execPromoteReply p n s
  | .reggrowGrant core part => Sys2Proof.Machine.execReggrowGrant core part s
  | .registerReclaim core part => Sys2Proof.Machine.execRegisterReclaim core part s
  | .engineOpStart core => Sys2Proof.Machine.execEngineOpStart core s
  | .engineStepCommit core => Sys2Proof.Machine.execEngineStepCommit core s
  | .bulkByteCredit x op unit => Sys2Proof.Machine.execBulkByteCredit x op unit s
  | .transferLoadReturn x c => Sys2Proof.Machine.execTransferLoadReturn x c s
  | .xarvApply x => Sys2Proof.Machine.execXarvApply x s
  | .teamRetire t => Sys2Proof.Machine.execTeamRetire t s
  | .launchComplete launch => Sys2Proof.Machine.execLaunchComplete launch s
  | .placementDecision herd winOff => Sys2Proof.Machine.execPlacementDecision herd winOff s
  | .headAgeExpiry => Sys2Proof.Machine.execHeadAgeExpiry s
  | .stallVacate launch => Sys2Proof.Machine.execStallVacate launch s
  | .spatialPreemption launch => Sys2Proof.Machine.execSpatialPreemption launch s
  | .vacateTeam t => Sys2Proof.Machine.execVacateTeam t s
  | .contextWrite t => Sys2Proof.Machine.execContextWrite t s
  | .contextRestore launch key cores => Sys2Proof.Machine.execContextRestore launch key cores s
  | .watchdogExpiry t => Sys2Proof.Machine.execWatchdogExpiry t s
  | .clusterFree launch key => Sys2Proof.Machine.execClusterFree launch key s
  | .clusterRelaunch launch key => Sys2Proof.Machine.execClusterRelaunch launch key s
  | .hotEpochEnd core entry => Sys2Proof.Machine.execHotEpochEnd core entry s
  | .forageSearchDone core entry cand => Sys2Proof.Machine.execForageSearchDone core entry cand s
  | .tetherCompare core place => Sys2Proof.Machine.execTetherCompare core place s
  | .forageAuditCompare core place => Sys2Proof.Machine.execForageAuditCompare core place s
  | .forageRelaunch launch => Sys2Proof.Machine.execForageRelaunch launch s
  | .queueUnmap slot => Sys2Proof.Machine.execQueueUnmap slot s
  | .packetClaim core slot => Sys2Proof.Machine.execPacketClaim core slot s
  | .launch core => Sys2Proof.Machine.execLaunch core s
  | .launchTableAdmit core => Sys2Proof.Machine.execLaunchTableAdmit core s
  | .signal core => Sys2Proof.Machine.execSignal core s
  | .wait core => Sys2Proof.Machine.execWait core s
  | .waitSatisfied core => Sys2Proof.Machine.execWaitSatisfied core s
  | .waitTimeout core => Sys2Proof.Machine.execWaitTimeout core s
  | .indirect core => Sys2Proof.Machine.execIndirect core s
  | .ttset core => Sys2Proof.Machine.execTtset core s
  | .attest core => Sys2Proof.Machine.execAttest core s
  | .manifest core => Sys2Proof.Machine.execManifest core s
  | .scan core => Sys2Proof.Machine.execScan core s
  | .queueFence core => Sys2Proof.Machine.execQueueFence core s
  | .timeTriggerFire entry => Sys2Proof.Machine.execTimeTriggerFire entry s
  | .scanDrained core => Sys2Proof.Machine.execScanDrained core s
  | .scanPatternEnd core sig faildom => Sys2Proof.Machine.execScanPatternEnd core sig faildom s
  | .errorRecordDeferred => Sys2Proof.Machine.execErrorRecordDeferred s
  | .predictIntervalEnd => Sys2Proof.Machine.execPredictIntervalEnd s
  | .scoreboardResultArrival g tag => Sys2Proof.Machine.execScoreboardResultArrival g tag s
  | .traceCacheFill g => Sys2Proof.Machine.execTraceCacheFill g s
  | .idleIssuePosition core part forage => Sys2Proof.Machine.execIdleIssuePosition core part forage s
  | .transferIllegalWord x => Sys2Proof.Machine.execTransferIllegalWord x s
  | .faultAck port seq => Sys2Proof.Machine.execFaultAck port seq s
  | .faultKill port seq => Sys2Proof.Machine.execFaultKill port seq s
  | .signalStore queue w => Sys2Proof.Machine.execSignalStore queue w s
  | .queueRecordWrite queue owner secure r => Sys2Proof.Machine.execQueueRecordWrite queue owner secure r s
  | .scanClose core v => Sys2Proof.Machine.execScanClose core v s
  | .scanStart core v => Sys2Proof.Machine.execScanStart core v s
  | .scanOpen core v => Sys2Proof.Machine.execScanOpen core v s
  | .scanRemove core v => Sys2Proof.Machine.execScanRemove core v s
  | .scanCtlNoCommand core v => Sys2Proof.Machine.execScanCtlNoCommand core v s
  | .errorDetected e => Sys2Proof.Machine.execErrorDetected e s
  | .linkCrcError unit die idx retrain => Sys2Proof.Machine.execLinkCrcError unit die idx retrain s
  | .selftestDone n outcome => Sys2Proof.Machine.execSelftestDone n outcome s
  | .errorQueueFree n => Sys2Proof.Machine.execErrorQueueFree n s
  | .dieThermalTrip die => Sys2Proof.Machine.execDieThermalTrip die s
  | .dieThermalReopen die => Sys2Proof.Machine.execDieThermalReopen die s
  | .powerCapCheck meas => Sys2Proof.Machine.execPowerCapCheck meas s
  | .moduleReset => Sys2Proof.Machine.execModuleReset s
  | .ptpMessage offset port => Sys2Proof.Machine.execPtpMessage offset port s
  | .firmwareHandoverCommit => Sys2Proof.Machine.execFirmwareHandoverCommit s
  | .firmwareHandoverAbandon => Sys2Proof.Machine.execFirmwareHandoverAbandon s
  | .keySlotLoad key => Sys2Proof.Machine.execKeySlotLoad key s
  | .keySlotClear key => Sys2Proof.Machine.execKeySlotClear key s
  | .objectRegister r => Sys2Proof.Machine.execObjectRegister r s
  | .objectUnregister obj => Sys2Proof.Machine.execObjectUnregister obj s
  | .hostMemoryRead owner secure va len => Sys2Proof.Machine.execHostMemoryRead owner secure va len s
  | .hostMemoryWrite owner secure va bytes => Sys2Proof.Machine.execHostMemoryWrite owner secure va bytes s
  | .peerAccess a => Sys2Proof.Machine.execPeerAccess a s
  | .dbgHalt port team => Sys2Proof.Machine.execDbgHalt port team s
  | .dbgStep port seq => Sys2Proof.Machine.execDbgStep port seq s
  | .lcrClear core => Sys2Proof.Machine.execLcrClear core s
  | .forageBlacklistClear core => Sys2Proof.Machine.execForageBlacklistClear core s
  | .forageDisable core => Sys2Proof.Machine.execForageDisable core s
  | .fpFlagClear g csr v => Sys2Proof.Machine.execFpFlagClear g csr v s
  | .registerWrite host core csr v => Sys2Proof.Machine.execRegisterWrite host core csr v s
  | .tlbShootdown old page => Sys2Proof.Machine.execTlbShootdown old page s
  | .publishedBufferCreate n front back owner len => Sys2Proof.Machine.execPublishedBufferCreate n front back owner len s
  | .publishedBufferFree n => Sys2Proof.Machine.execPublishedBufferFree n s
  | .firmwareHandoverStart m => Sys2Proof.Machine.execFirmwareHandoverStart m s
  | .ptpHoldover => Sys2Proof.Machine.execPtpHoldover s
  | .peerPageUnreachable owner va => Sys2Proof.Machine.execPeerPageUnreachable owner va s

end Sys2Proof.Machine
end

