-- ==== Sys2Proof/Machine/Sched.lean ====
section
/-! DEFINITION. What happens next: when a group or a transfer program is ready (03 R41, R43; 16 R267), the filling of issue positions (03 R41 to
R45), what is due between clocks, and the clock itself. The meaning of an instruction is the argument `ex`. Log 2 says how the device's
concurrency becomes one order of steps. -/
namespace Sys2Proof.Machine

/-- The meanings of all instructions. -/
abbrev Exec := Instr → State → Ev

/-- Whether an instruction is one of the device's happenings, which has no words. -/
def isEvent (i : Instr) : Bool := (encode i).isEmpty

/-! ## The units of R42 -/

/-- The single units an instruction needs: 1 the FP64 unit, 2 the scalar pipe, 3 the SFU, 4 the load-store port (03 R42; 09 R131, R136, R141;
14 R230; 15 R259). SYSCALL, ERET, TRAP and BRK, of which the spec names no unit, need none (DESIGN CHOICE, log 68). -/
def unitsOf' (o : Op) : List Nat :=
  let n := (opCode o).toNat
  if isFp64 o then [1]
  else if o == .sld || o == .pld then [2, 4]
  else if (0x40 ≤ n ∧ n ≤ 0x4C) ∨ o = .csrr ∨ o = .csrw ∨ o = .worknext ∨ o = .reggrow ∨ o = .regshrink then [2]
  else if 0x88 ≤ n ∧ n ≤ 0x8F then [3]
  else if 0xC0 ≤ n ∨ o = .park ∨ o = .parkFull ∨ (0x70 ≤ n ∧ n ≤ 0x74) then [4]
  else []

/-- Fences, drains and PUBLISH, which may issue while others are in flight (14 R231). -/
def isFence (o : Op) : Bool := o == .fence || o == .fenceR || o == .ntdrain || o == .publish

/-! ## Operands (03 R43) -/

/-- The lanes in which an instruction reads a source: its guard-true lanes, or the lane READLANE names (09 R135). -/
def readers (la : Launch) (i : Issue) (p : SrcPos) : List (Nat × Lane) :=
  match p with
  | .vreg => i.g.lanes.filter (fun q => q.1 == i.chosen la)
  | _ => i.active

/-- Whether a source's value in a lane is a result that has not arrived: the newest value of a register, or a latch that is or holds it. -/
def sourceWaits (i : Issue) (b : Sb) (p : SrcPos) (sel : Sel) (q : Nat × Lane) : Bool :=
  let regs (n : Nat) : Bool := (List.range (posWords p)).any (fun k => b.vs.contains (q.1, n + k))
  match sel with
  | .v n => regs n.toNat
  | .idx k => match indexed i.g q.2 k (posWords p == 2) with | some r => regs r | none => false
  | .latch k => match q.2.win[k - 1]? with | some e => e.tag == b.tag || b.held.contains (q.1, e.tag) | none => false
  | .s k => b.ss.contains k
  | _ => false

/-- The predicate sources of an instruction. -/
def predSources (i : Issue) : List Nat :=
  [(i.shape.a, i.f.a.toNat), (i.shape.b, i.f.b.toNat), (i.shape.c, i.f.c.toNat)].filterMap (fun p =>
    if p.1 == .pred then some (p.2 % 8) else none)

/-- Whether an instruction waits for a result that has not arrived (03 R43): its guard in a lane of its issue set, a source in a lane that reads
it, a flag, or an overflow row. -/
def waitsFor (la : Launch) (i : Issue) (b : Sb) : Bool :=
  b.cls == 2
    || (lanesOf i.m).any (fun l => b.ps.contains (l, i.f.pred.toNat))
    || i.active.any (fun q => (predSources i).any (fun n => b.ps.contains (q.1, n)))
    || i.reads.any (fun p => (readers la i p.1).any (sourceWaits i b p.1 p.2))
    || (b.fp && (i.o == .csrr || i.o == .csrw) && decide (0x01C ≤ immBits i.f 11 0) && decide (immBits i.f 11 0 ≤ 0x020))

/-! ## Ready groups (03 R41; 20 R311, R323) -/

/-- Whether a team issues: it has neither ended, retired nor been taken, and a PERSISTENT launch's clusters are all placed. -/
def teamIssues (s : State) (t : Team) : Bool :=
  t.ended.isNone && !t.retired && !t.stopped && (coreAt s t.core).scan.state != 3
    && (t.ref.launch == 0 || clusterState (launchOf s t) (clusterKey (launchOf s t) t.ref.team) != 6)

/-- Whether a record of a group's held lanes waits for a place in the fault queue (20 R314). -/
def waitsPlace (s : State) (g : Group) : Bool :=
  s.faultWait.any (fun r => g.lanes.any (fun p => p.2.st == .hold && p.2.hold.any (fun h => h.set == r.set)))

/-- Whether nothing but its next instruction keeps a group from issuing. -/
def groupAwake (s : State) (t : Team) (g : Group) : Bool :=
  teamIssues s t && !g.freed && (match g.lastIssue with | some c => decide (c + 4 ≤ s.clk) | none => true)
    && g.req == 0 && g.checking.isNone && !waitsPlace s g && decide (g.movingTill ≤ s.clk) && g.promos.isEmpty
    && (match g.lease with | some le => !le.susp && (le.mask &&& runMask g) != 0#32 | none => !t.vacating && (canSelect s t g).isSome)

/-- A group with its selection made, when it holds no lease: a lease, or its lanes held where none can start, or by a halt (25 R390). -/
def prepare (ex : Exec) (s : State) (p : GroupRef) : Ev :=
  match groupAt s p with
  | none => .next s
  | some (t, g) =>
    match g.lease with
    | some _ => .next s
    | none =>
      if g.halt && (runMask g &&& ~~~g.step) != 0#32 then .next (haltGroup s t g)
      else match canSelect s t g with
      | none => .next s
      | some k => if k.expiry then ex (.spinExpiry p) s else .next (startLease s t g k)

/-- Whether the next instruction of a lease has its operands and its units. `taken` are the single units the other position uses. -/
def leaseReady (s : State) (t : Team) (p : GroupRef) (le : Lease) (pos : Nat) (taken : List Nat) : Bool :=
  match leaseInstr s t le with
  | .bad _ => true
  | .instr i =>
    match i.opForm with
    | none => true
    | some (o, f) =>
      match issueOf { s with cur := .group p } o f with
      | none => false
      | some is =>
        let us := unitsOf' o
        !(is.g.sb.any (waitsFor (launchOf s t) is)) && !us.any taken.contains && !(us.contains 1 && pos != 0)
          && !(us.contains 4 && !isFence o && !is.g.fences.isEmpty)
          && !((o == .mxgo || o == .mxv) && decide (8 ≤ (coreAt s t.core).engine.length))

/-- The state in which a group issues now: its lease begun; none when it is not ready. A group whose selection holds its lanes is ready to do
that. -/
def readyGroup (ex : Exec) (s : State) (p : GroupRef) (pos : Nat) (taken : List Nat) : Option State :=
  match groupAt s p with
  | none => none
  | some (t, g) =>
    if groupAwake s t g then
      match prepare ex s p with
      | .next s1 =>
        match groupAt s1 p with
        | none => some s1
        | some (t1, g1) =>
          match g1.lease with
          | none => some s1
          | some le => if leaseReady s1 t1 p le pos taken then some s1 else none
      | _ => none
    else none

/-! ## One issue -/

/-- What follows an instruction of a lease: its sample or comparison at the segment's end, single steps, a halt, and the watchdog's note that
the team moved. -/
def afterIssue (t : Team) (g : Group) (le : Lease) (ender : Bool) (s : State) : State :=
  let m := le.mask &&& runMask g
  let s1 := match (teamAt s t.ref).bind (fun u => (groupOf u g.id).map (fun h => (u, h))) with
    | none => s
    | some (u, h) =>
      if h.lease.isSome then s
      else if ender && h.lanes.any (fun q => hasLane m q.1 && q.2.st != .hold) then forageEnd s u h le
      else forageDrop s u h.id le
  let s2 := stepSettle s1 t.ref g.id m
  let s3 := match (teamAt s2 t.ref).bind (fun u => (groupOf u g.id).map (fun h => (u, h))) with
    | none => s2
    | some (u, h) => haltGroup s2 u h
  updTeam { s3 with cur := .none } t.ref (fun u => { u with moved := true })

/-- The next instruction of a lease run, or the issue set held at words that decode to nothing (07 R99). -/
def issueDecoded (ex : Exec) (s : State) (p : GroupRef) (t : Team) (g : Group) (le : Lease) : Ev :=
  let s1 := { s with cur := .group p }
  match leaseInstr s t le with
  | .instr i =>
    thenDo (ex i s1) (afterIssue t g le (match i.opForm with | some q => isTerminator q.1 | none => false))
  | .bad r =>
    match issueOf s1 .nop {} with
    | none => .next s
    | some is => .next (afterIssue t g le false (holdWhole s1 is is.m (decodeCode r) 7 0#57))

/-- A ready group's turn: a breakpoint holds before the instruction has any effect (25 R389), else the instruction issues. -/
def runGroup (ex : Exec) (s : State) (p : GroupRef) : Ev :=
  match groupAt s p with
  | none => .next s
  | some (t, g) =>
    match g.lease with
    | none => .next s
    | some le =>
      match breakpointAt s t g with
      | some _ => thenDo (ex (.breakpointHit p) s) (fun s => haltAfter (forageGone s t g le) t g)
      | none => issueDecoded ex s p t g le
where
  /-- A halted group whose lease a breakpoint has ended is at its pre-emption point. -/
  haltAfter (s : State) (t : Team) (g : Group) : State :=
    match (teamAt s t.ref).bind (fun u => (groupOf u g.id).map (fun h => (u, h))) with
    | some (u, h) => haltGroup s u h
    | none => s
  /-- A lease that a breakpoint has ended is not compared. -/
  forageGone (s : State) (t : Team) (g : Group) (le : Lease) : State :=
    match (teamAt s t.ref).bind (fun u => groupOf u g.id) with
    | some h => if h.lease.isSome then s else forageDrop s t g.id le
    | none => s

/-! ## Issue positions (03 R41, R44, R45; 25 R392) -/

/-- Withheld positions: while the average power exceeds CAP, the excess's share of them, evenly spread (DESIGN CHOICE, log 29). -/
def withheld (s : State) (part pos : Nat) : Bool :=
  let meas := s.meas.toNat
  let excess := meas - s.cap.toNat
  let k := s.clk * 12 + part * 2 + pos
  s.throttled && decide (k * excess / meas ≠ (k + 1) * excess / meas)

/-- The turn past the present core. -/
def coreDone (u : Turn) : Turn := { done := u.done ++ u.core.toList }

/-- A partition's rotation pointer: it advances with the clock (03 R41). -/
def ringPtr (s : State) (q : Part) : Nat := (q.ptr + s.clk) % 16

/-- A partition after a clock in which a slot issued last, or none: the pointer of the next clock is the slot after, or one further. An FP64
issue takes both clocks, and the pointer moves in the first alone (DESIGN CHOICE, log 37). -/
def partAfter (s : State) (last : Option Nat) (q : Part) : Part :=
  match last with
  | some n => { q with ptr := (n + 16 - s.clk % 16) % 16 }
  | none => if s.clk < q.fp64Till then { q with ptr := (q.ptr + 15) % 16 } else q

/-- The state past a position of a partition: after its second the rotation pointer moves (03 R41). -/
def nextPos (s : State) (c : Nat) : State :=
  let u := s.turn
  if u.pos = 0 then { s with turn := { u with pos := 1 } }
  else
    let s1 := updPart s c u.part (partAfter s u.last)
    { s1 with turn := { core := u.core, part := u.part + 1, done := u.done } }

/-- A position that no group fills: offered to Forage, with no group left to scan, unless it is withheld. -/
def idlePos (ex : Exec) (s : State) (c : Nat) (offered : Bool) : Ev :=
  thenDo (ex (.idleIssuePosition c s.turn.part (offered && forageReady s c s.turn.part)) s)
    (fun s => nextPos (if offered then { s with turn := { s.turn with scan := 16 } } else s) c)

/-- The single units of a lease's next instruction. -/
def leaseUnits (s : State) (p : GroupRef) : List Nat :=
  match groupAt s p with
  | some (t, g) =>
    match g.lease with
    | some le => (match leaseInstr s t le with | .instr i => (match i.opForm with | some q => unitsOf' q.1 | none => []) | .bad _ => [])
    | none => []
  | none => []

/-- The turn after a group's: past the position when it has issued, the FP64 unit taking both positions of two clocks (03 R42). -/
def groupTurn (c slot k : Nat) (us : List Nat) (id : Option (TeamRef × Nat)) (s : State) : State :=
  let u := s.turn
  let issued := match id.bind (fun q => (teamAt s q.1).bind (fun t => groupOf t q.2)) with
    | some g => g.lastIssue == some s.clk
    | none => true
  if !issued then s
  else
    let s1 := { s with turn := { u with scan := k + 1, last := some slot, taken := u.taken ++ us } }
    if us.contains 1 then
      nextPos { updPart s1 c u.part (fun q => { q with fp64Till := s.clk + 2 }) with turn := { s1.turn with pos := 1 } } c
    else nextPos s1 c

/-- The first ready group of a partition's ring from the place the scan has come to, with the number of places passed. -/
def scanRing (ex : Exec) (s : State) (c : Nat) : Option (Nat × Nat × State) :=
  let u := s.turn
  let ptr := ringPtr s (partAt (coreAt s c) u.part)
  ((List.range 16).filter (fun k => decide (u.scan ≤ k))).findSome? (fun k =>
    let slot := (ptr + k) % 16
    (readyGroup ex s ⟨c, u.part, slot⟩ u.pos u.taken).map (fun s1 => (slot, k, s1)))

/-- One position of a partition. While a scan pattern runs nothing issues and nothing counts (22 R349). -/
def fillPosition (ex : Exec) (s : State) (c : Nat) : Ev :=
  let u := s.turn
  if (coreAt s c).scan.state = 3 ∨ s.clk < (partAt (coreAt s c) u.part).fp64Till then .next (nextPos s c)
  else if withheld s u.part u.pos then idlePos ex s c false
  else match scanRing ex s c with
  | none => idlePos ex s c true
  | some (slot, k, s1) =>
    let p : GroupRef := ⟨c, u.part, slot⟩
    thenDo (runGroup ex s1 p)
      (groupTurn c slot k (leaseUnits s1 p) ((groupAt s1 p).map (fun q => (q.1.ref, q.2.id))))

/-! ## Transfer processors (16 R267) -/

/-- Whether an instruction enters the bulk queue. -/
def isBulk (i : Instr) : Bool := match i with | .xcopy _ _ | .xgath _ _ | .xscat _ _ => true | _ => false

/-- Whether a program issues now: the registers its instruction reads have arrived, its fences and promotions are complete, and a bulk
instruction finds a place in the queue. That every instruction waits for the fences is a DESIGN CHOICE (log 8). -/
def progReady (s : State) (t : Team) (x : XProg) : Bool :=
  teamIssues s t && !t.vacating && x.state == 1 && x.wait == .none && x.promos.isEmpty && x.fences.isEmpty
    && (match x.lastIssue with | some c => decide (c + 1 ≤ s.clk) | none => true)
    && (match fetchX s t x with
      | .instr i => !(isBulk i && decide (8 ≤ x.queue.length)) && (xReads i).all (fun r => x.loads.all (fun q => q.1 != r.toNat))
      | .bad _ => true)

/-- A program's instruction run, and its team noted as moving when it went on. -/
def runProg (ex : Exec) (s : State) (r : ProgRef) : Ev :=
  match progAt s r with
  | none => .next s
  | some (t, x) =>
    if progReady s t x then
      match fetchX s t x with
      | .instr i =>
        thenDo (ex i { s with cur := .prog r }) (fun s1 =>
          updTeam { s1 with cur := .none } t.ref (fun u =>
            { u with moved := u.moved || u.progs.any (fun y => y.n == x.n && y.lastIssue == some s.clk) }))
      | .bad _ => ex (.transferIllegalWord r) s
    else .next s

/-- One transfer processor's clock. -/
def fillProc (ex : Exec) (s : State) (c : Nat) : Ev :=
  thenDo (runProg ex s ⟨c, s.turn.pos⟩) (fun s1 =>
    { s1 with turn := if s.turn.pos < 3 then { s1.turn with pos := s.turn.pos + 1 } else coreDone s1.turn })

/-! ## The clock -/

/-- Groups of a core that miss the trace cache begin to fetch (20 R311; 21 R343). -/
def startFetches (s : State) (c : Nat) : State :=
  { s with teams := s.teams.map (fun t =>
      if t.core = c ∧ teamIssues s t = true then
        { t with groups := t.groups.map (fun g =>
            match g.freed, g.lease, g.fetching, pick g with
            | false, none, none, some p => if startOk s t g p && !traceHit s t p then { g with fetching := some s.clk } else g
            | _, _, _, _ => g) }
      else t) }

/-- Whether a core's Forage slots have work. -/
def foraging (k : Core) : Bool := k.searching.isSome || k.overlays.any (fun o => o.2.check.isSome)

/-- The core whose positions are filled next: the lowest with teams or Forage work that is not done in this clock. -/
def nextCore (s : State) : Option Nat :=
  listMin (fun a b => decide (a < b))
    ((s.teams.map Team.core ++ (s.cores.filter (fun q => foraging q.2)).map Prod.fst).filter (fun c => !s.turn.done.contains c))

/-- The nanoseconds a clock adds to device time, 12 clocks being 5 ns, with a correction of at most 200 ppm while an offset remains
(00 R1; 25 R386). -/
def timeStep (s : State) : Nat × Int :=
  let d := 5 * (s.clk + 1) / 12 - 5 * s.clk / 12
  if (s.clk + 1) % 12000 ≠ 0 ∨ s.slew = 0 then (d, s.slew)
  else if 0 < s.slew then (d + 1, s.slew - 1) else (d - 1, s.slew + 1)

/-- A team after a clock: its stalled clocks (20 R321), and a TEAM_FPXEN written in it in force (08 R120). The clocks of a PERSISTENT team that is
held until every team is placed count, the spec excluding none of them (DESIGN CHOICE, log 67). -/
def teamClock (s : State) (t : Team) : Team :=
  { t with
    moved := false
    fpxen := t.fpxenNext.getD t.fpxen
    fpxenNext := none
    stalled := if t.stopped || watchdogPaused s t then t.stalled else if t.moved then 0 else t.stalled + 1 }

/-- The next clock. Scan patterns that end in the old one end, and listed cores whose positions were not filled count them idle (03 R45). -/
def clockStep (s0 : State) : State :=
  let s := patternsEnd s0
  let d := timeStep s
  settleHead { s with
    clk := s.clk + 1
    time := s.time + d.1
    slew := d.2
    teams := s.teams.map (teamClock s)
    launches := s.launches.map (fun p => (p.1, { p.2 with idleFor := if launchIdle s p.1 then p.2.idleFor + 1 else 0 }))
    cores := s.cores.map (fun q =>
      if q.2.lcr.en && q.2.scan.state != 3 && !s.turn.done.contains q.1 then
        (q.1, { q.2 with lcr := { q.2.lcr with idle := q.2.lcr.idle + 384 } })
      else q)
    turn := {} }

/-- What the queue unit, the agents, the loader and the debug unit do at once after any happening: signal stores noted, SCAN jobs carried on, objects
dropped, lanes of a halt or a step held. -/
def settle (s : State) : State := holdAll (dropWaiting (agentSettle (signalCatch s)))

/-- One step of the barrel: a position of the core in turn, a transfer processor's clock, or the end of the clock. -/
def barrel (ex : Exec) (s : State) : Ev :=
  match s.turn.core with
  | some c => if s.turn.part < 6 then fillPosition ex s c else fillProc ex s c
  | none =>
    match nextCore s with
    | some c =>
      let s1 := startFetches s c
      fillPosition ex { s1 with turn := { core := some c, done := s1.turn.done } } c
    | none => .next (clockStep s)

/-! ## What is due -/

/-- What may be due for a place's groups. -/
def placeItems (s : State) (p : GroupRef) : List Instr :=
  let gs := placeGroups s p
  let n := (gs.map (fun q => q.2.ctr.accs.length + q.2.ctr.nt.length)).foldl (· + ·) 0
  let live := match gs.head? with | some q => q.2.sb.map (fun b =>
      if b.cls = 1 then Instr.loadResultReturn p b.tag else if b.cls = 2 then .overflowReadFill p b.tag
      else .scoreboardResultArrival p b.tag) | none => []
  live ++ (List.range n).map (fun k => .accessPerformed (.group p) k 5)
    ++ [.maybeFaultCheckDone p, .traceCacheFill p, .fenceComplete (.group p), .ntdrainComplete (.group p), .publishSwap (.group p)]
    ++ (match gs.head? with | some q => (List.range q.2.promos.length).flatMap (fun k =>
        [.promoteRequest (.group p) k, .promoteReply (.group p) k]) | none => [])

/-- What may be due for a transfer program. -/
def progItems (r : ProgRef) (x : XProg) : List Instr :=
  x.loads.map (fun q => .transferLoadReturn r q.1)
    ++ x.queue.map (fun o => .bulkByteCredit r o.num 0)
    ++ (List.range (x.ctr.accs.length + x.ctr.nt.length)).map (fun k => .accessPerformed (.prog r) k 5)
    ++ [.fenceComplete (.prog r), .publishSwap (.prog r), .xarvApply r]
    ++ (List.range x.promos.length).flatMap (fun k => [.promoteRequest (.prog r) k, .promoteReply (.prog r) k])

/-- What may be due for a team. -/
def teamItems (s : State) (t : Team) : List Instr :=
  t.groups.flatMap (fun g => placeItems s (placeOf t g))
    ++ t.progs.flatMap (fun x => progItems ⟨t.core, x.proc⟩ x)
    ++ (t.groups.filter (fun g => g.req != 0)).flatMap (fun g => [.reggrowGrant t.core g.part, .registerReclaim t.core g.part])
    ++ [.teamRetire t.ref, .watchdogExpiry t.ref, .vacateTeam t.ref, .contextWrite t.ref]

/-- The commands an agent may carry on. -/
def agentItems (c : Nat) : List Instr :=
  [.launch c, .launchTableAdmit c, .signal c, .wait c, .waitSatisfied c, .waitTimeout c, .indirect c, .ttset c, .attest c, .manifest c,
    .scan c, .queueFence c]

/-- What may be due on a core. A pattern that ends finds a healthy core (DESIGN CHOICE, log 8). -/
def coreItems (c : Nat) (k : Core) : List Instr :=
  (if k.engine.isEmpty then [] else [.engineOpStart c, .engineStepCommit c])
    ++ k.hot.map (fun h => .hotEpochEnd c h.1)
    ++ k.overlays.flatMap (fun o => if o.2.check.isSome then [.tetherCompare c o.1, .forageAuditCompare c o.1] else [])
    ++ (match k.searching with | some e => [.forageSearchDone c e none] | none => [])
    ++ k.windows.map (fun w => .fpxWindowClose c w.launch)
    ++ (if k.cmd.isSome then agentItems c else [])
    ++ (if k.scan.state = 1 then [.scanDrained c] else [])
    ++ (if k.scan.state = 3 then [.scanPatternEnd c k.scan.ref 0#8] else [])

/-- What may be due for a launch. -/
def launchItems (n : Nat) (l : Launch) : List Instr :=
  l.clusters.flatMap (fun q =>
      if q.state = 3 then [.clusterFree n q.key]
      else if q.state = 5 then [.clusterRelaunch n q.key]
      else [])
    ++ [.forageRelaunch n, .launchComplete n, .stallVacate n, .spatialPreemption n]

/-- The first agent that may claim a packet, with the slot its scan finds. -/
def claimItems (s : State) : List Instr :=
  match nextClaim s with
  | none => []
  | some (n, _, _) => ((List.range Config.coreCount).find? (agentFree s)).toList.map (fun c => .packetClaim c n)

/-- Everything that may be due. -/
def dueItems (s : State) : List Instr :=
  [.faultRecordDeferred, .errorRecordDeferred]
    ++ s.teams.flatMap (teamItems s)
    ++ s.cores.flatMap (fun q => coreItems q.1 q.2)
    ++ s.launches.flatMap (fun q => launchItems q.1 q.2)
    ++ s.triggers.map (fun q => .timeTriggerFire q.1)
    ++ claimItems s ++ s.slots.map (fun q => .queueUnmap q.1)
    ++ (match headCluster s with | some _ => .headAgeExpiry :: (List.range herdCount).map (fun h => .placementDecision h 0) | none => [])
    ++ [.predictIntervalEnd]

/-- What a happening leaves when it changes something. -/
def dueState (ex : Exec) (s : State) (i : Instr) : Option State :=
  match ex i s with
  | .next t => let u := settle t; if u = s then none else some u
  | _ => none

/-- A step with nothing on the agenda: at the start of a clock the first happening that is due and changes something, then the records the
firmware agents serve, else the barrel. -/
def autoStep (ex : Exec) (s : State) : Ev :=
  let due := if s.turn = {} then ((dueItems s).findSome? (dueState ex s)).or ((agentServes s).map settle) else none
  match due with
  | some t => .next t
  | none => thenDo (barrel ex s) settle

/-- An agenda item carried out. What comes in through an endpoint that does not answer changes nothing (25 R392). -/
def runItem (ex : Exec) (it : Item) (s : State) : Ev :=
  match it with
  | .event i => if isEvent i && (!viaEndpoint i || endpointsAnswer s) then thenDo (ex i s) settle else .next s
  | .service c n => .next (settle (serveRecord s c n))
  | .debugRead r => .next (if endpointsAnswer s then settle (debugRead s r) else s)
  | .barrel => thenDo (barrel ex s) settle

/-- One step under the meanings `ex`: the head of the agenda, else what comes next by itself. -/
def stepWith (ex : Exec) (s : State) : Ev :=
  match s.agenda with
  | it :: rest => runItem ex it { s with agenda := rest }
  | [] => autoStep ex s

end Sys2Proof.Machine
end

