-- ==== Sys2Proof/Machine/Fetch.lean ====
section
/-! DEFINITION. An instruction placed where the next step runs it: what registering an object, launching it and selecting its first segment
would leave, for one team of one group, or of one transfer program, on core 0 (DESIGN CHOICE, log 9). -/
namespace Sys2Proof.Machine

/-- The words of an instruction whose bits are `w`, first word first; every bit above `nbits` is 0. -/
def fetchWords (nbits w : Nat) : List Word := (List.range 5).map (fun k => BitVec.ofNat 32 (w % 2 ^ nbits / 2 ^ (32 * k)))

/-- The VA of the placed text. -/
def fetchVa : Nat := 0x100000

/-- The placed object: a text of the instruction's 20 bytes at HBM address 0, one segment, no kernel. -/
def fetchObj (xs : List Word) : Obj :=
  { owner := 1, secure := false, textVa := fetchVa, textPa := 0, textLen := 256, poolVa := 0, poolCount := 0, dataVa := 0, xtext := xs
    segments := [(fetchVa, 1)], kernels := [], measure := 0#512, coreSites := [] }

/-- The placed launch, of one team of 32 lanes, under a tag that no breakpoint names. -/
def fetchLaunch (s : State) : Launch :=
  { obj := s.objNext, kernel := 0, ltag := if (coreAt s 0).dbgLtag = 1#16 then 2 else 1, owner := 1, epoch := s.epoch, order := s.launchNext
    dispatched := 1, clusters := [{ key := 0, state := 1, cores := [0] }] }

/-- The placed team: a group at the text's start in slot 0 of partition 0, or a transfer program on processor 0. -/
def fetchTeam (s : State) (transfer : Bool) : Team :=
  { ref := ⟨s.launchNext, 0⟩, core := 0, epoch := s.epoch, winOff := 0, winLen := 256, units := [], tiles := []
    groups := if transfer then [] else
      [{ id := 0, role := 0, part := 0, slot := 0, alloc := 8, base := 0
         lanes := (List.range 32).map (fun n => (n, { pc := BitVec.ofNat 64 fetchVa })) }]
    progs := if transfer then [{ n := 0, proc := 0 }] else [] }

/-- Core 0 with the placed segment in its trace cache, filled for owner 1, or the placed words in a program window, and free to issue. -/
def fetchCore (k : Core) (transfer : Bool) (ws : List Word) : Core :=
  { k with
    scan := { k.scan with state := 0 }
    parts := mapPut k.parts 0 { partAt k 0 with ptr := 0, fp64Till := 0 }
    trace := if transfer then k.trace else k.trace ++ [(BitVec.ofNat 64 fetchVa, 8)]
    sram := if transfer then writeBytes k.sram (programWindow 0) (ws.flatMap wordBytes) else k.sram }

/-- The state in which the next step runs the instruction of these words, as transfer text or as text. -/
def placeFetch (s : State) (transfer : Bool) (ws : List Word) : State :=
  let s1 := if transfer then s else hbmWrite s 1 0 (ws.flatMap wordBytes)
  let s2 := updCore s1 0 (fun k => fetchCore k transfer ws)
  { s2 with
    objects := mapPut s.objects s.objNext (fetchObj (if transfer then ws else []))
    objNext := s.objNext + 1
    launches := mapPut s.launches s.launchNext (fetchLaunch s)
    launchNext := s.launchNext + 1
    teams := fetchTeam s transfer :: s.teams
    throttled := false
    turn := { core := some 0, part := if transfer then 6 else 0 }
    agenda := .barrel :: s.agenda }

end Sys2Proof.Machine
end

