-- ==== Sys2Proof/Machine/Step.lean ====
section
/-! DEFINITION. The step of the machine, and the placing of an instruction for the host's question. -/
namespace Sys2Proof.Machine

/-- One step: the head of the agenda, or what comes next by itself (DESIGN CHOICE, log 2). -/
def step (s : State) : Host.Outcome State Fault Refusal := stepWith exec s

/-- `s` with the instruction whose bits are `w` placed so that the very next step runs it (DESIGN CHOICE, log 9). -/
def State.withFetchWord (s : State) (nbits w : Nat) : State :=
  placeFetch s (tableWordIsTransfer (BitVec.ofNat 32 (w % 2 ^ nbits))) (fetchWords nbits w)

end Sys2Proof.Machine
end

