-- ==== Sys2Proof/Safety.lean ====
section
/-! DEFINITION. The terms the claims are stated in: a clean issue, what it delivers to its lanes, what it leaves alone, the values the rules give
in the arithmetic of bit vectors, and the invariants. -/
namespace Sys2Proof.Machine

/-! ## Where a lane and a group stand -/

/-- A group of a team in a state. -/
def groupIn (s : State) (r : TeamRef) (id : Nat) : Option Group := (teamAt s r).bind (fun t => groupOf t id)

/-- A lane of a group in a state. -/
def laneIn (s : State) (r : TeamRef) (id n : Nat) : Option Lane := (groupIn s r id).bind (fun g => mapGet g.lanes n)

/-- A transfer program of a team in a state. -/
def progIn (s : State) (r : TeamRef) (n : Nat) : Option XProg := (teamAt s r).bind (fun t => progOf t n)

/-! ## A clean issue -/

/-- The party of `cur` issues this instruction, and no fault found at operand read stops the issue set or one of its guard-true lanes:
no odd window in a 64-bit use, no broken convergence rule, no latch out of scope, no index out of its window (04 R56, R59, R64). -/
structure Clean (s : State) (o : Op) (f : Form) (i : Issue) : Prop where
  wf : f.wellFormed o = true
  issue : issueOf s o f = some i
  whole : i.wholeFault = none
  index : ∀ p ∈ i.active, i.indexBad p.2 = false

/-- A clean issue in a team that enables no floating-point trap (08 R120). -/
structure Quiet (s : State) (o : Op) (f : Form) (i : Issue) : Prop extends Clean s o f i where
  noTrap : i.t.fpxen = 0#5

/-! ## What a lane holds after an issue (04 R61, R63) -/

/-- Whether a destination takes a v register. -/
def Dest.takes (d : Dest) (r : Nat) : Bool := match d with | .v n w => decide (n ≤ r) && decide (r < n + w) | _ => false

/-- A destination reads as a value: each v register its word of the value, a predicate its bit 0; p7 discards the write (04 R60). -/
def Holds (l : Lane) (d : Dest) (v : QWord) : Prop :=
  match d with
  | .none => True
  | .v n w => ∀ k, k < w → readReg l (n + k) = (v >>> (32 * k)).extractLsb' 0 32
  | .p n => n < 7 → predOf l n = v.getLsbD 0

/-- A lane after it completed one instruction: its PC, the value in its destination, its sticky flags with those raised, and every other
register and predicate as it was. -/
structure LaneAfter (pc : Pc) (l l' : Lane) (d : Dest) (v : QWord) (raised : BitVec 5) : Prop where
  pc : l'.pc = pc
  dest : Holds l' d v
  flags : l'.flags = l.flags ||| raised
  regs : ∀ r, d.takes r = false → readReg l' r = readReg l r
  preds : ∀ q, d ≠ .p q → predOf l' q = predOf l q

/-- A clean issue delivers in every lane of its issue set: the value and flags to the guard-true lanes, nothing but the PC to the
others (04 R60, R61, R63). -/
def DeliversF (s t : State) (i : Issue) (val : Nat → Lane → Srcs → QWord) (raised : Nat → Lane → Srcs → BitVec 5) : Prop :=
  ∀ n l, i.lane n = some l → hasLane i.m n = true →
    ∃ l', laneIn t i.t.ref i.g.id n = some l' ∧
      if hasLane i.on n then
        LaneAfter i.nextPc l l' (i.dest l) (val n l (i.srcs (launchOf s i.t) n l)) (raised n l (i.srcs (launchOf s i.t) n l))
      else LaneAfter i.nextPc l l' .none 0#128 0#5

/-- A clean issue delivers values and raises no flag. -/
def Delivers (s t : State) (i : Issue) (val : Nat → Lane → Srcs → QWord) : Prop := DeliversF s t i val (fun _ _ _ => 0#5)

/-! ## What an issue leaves alone -/

/-- A group but for what every issue updates: its lanes, lease, issue count, clock and check, its scoreboard and overflow counters. -/
def GroupKept (g g' : Group) : Prop :=
  { g' with
    lanes := g.lanes, lease := g.lease, issues := g.issues, lastIssue := g.lastIssue, checking := g.checking, sb := g.sb
    ovfRd := g.ovfRd, ovfWr := g.ovfWr, ovfMiss := g.ovfMiss } = g

/-- A lane but for what an instruction that computes updates: its PC, registers, predicates, window, flags, rounding counter and marks. -/
def LaneKept (l l' : Lane) : Prop :=
  { l' with
    pc := l.pc, v := l.v, p := l.p, win := l.win, flags := l.flags, sr := l.sr, skipTrap := l.skipTrap, skipBreak := l.skipBreak
    replay := l.replay, completed := l.completed } = l

/-- Every byte of memory reads as before: HBM under every key, and every slice. -/
structure MemoryKept (s t : State) : Prop where
  hbm : ∀ owner pa, hbmByte t owner pa = hbmByte s owner pa
  sram : ∀ c o, readByte (coreAt t c).sram o = readByte (coreAt s c).sram o

/-- Outside the issue's team nothing changes but lane-cycle records, rotation and overflow caches, and the team changes in its groups only. -/
structure DeviceKept (s t : State) (i : Issue) : Prop where
  rest : { t with teams := s.teams, cores := s.cores } = s
  memory : MemoryKept s t
  core : ∀ c, { coreAt t c with lcr := (coreAt s c).lcr, parts := (coreAt s c).parts } = coreAt s c
  otherTeams : ∀ r, r ≠ i.t.ref → teamAt t r = teamAt s r
  team : ∃ u, teamAt t i.t.ref = some u ∧ { u with groups := i.t.groups } = i.t

/-- The frame of an issue that touches no memory: outside its group nothing changes but its core's lane-cycle record, rotation and
overflow cache; `gk` says what its group keeps and `lk` what the lanes of its issue set keep. -/
structure IssueFrame (gk : Group → Group → Prop) (lk : Lane → Lane → Prop) (s t : State) (i : Issue) : Prop extends DeviceKept s t i where
  otherCores : ∀ c, c ≠ i.t.core → coreAt t c = coreAt s c
  otherGroups : ∀ n, n ≠ i.g.id → groupIn t i.t.ref n = groupIn s i.t.ref n
  group : ∃ h, groupIn t i.t.ref i.g.id = some h ∧ gk i.g h
  otherLanes : ∀ n, hasLane i.m n = false → laneIn t i.t.ref i.g.id n = laneIn s i.t.ref i.g.id n
  lanes : ∀ n l, hasLane i.m n = true → i.lane n = some l → ∃ l', laneIn t i.t.ref i.g.id n = some l' ∧ lk l l'

/-- The frame of an instruction that only computes. -/
abbrev ComputeFrame (s t : State) (i : Issue) : Prop := IssueFrame GroupKept LaneKept s t i

/-- The frame of an instruction that writes scalar registers. -/
abbrev ScalarFrame (s t : State) (i : Issue) : Prop := IssueFrame (fun g h => GroupKept { g with s := h.s } h) LaneKept s t i

/-! ## Instructions that complete -/

/-- In every clean issue of the instruction, `exec` answers a next state, every lane receives what the rule gives, no flag is raised, and
nothing else changes. -/
def Gives (j : Instr) (o : Op) (f : Form) (val : State → Issue → Nat → Lane → Srcs → QWord) : Prop :=
  ∀ s i, Clean s o f i → ∃ t, exec j s = .next t ∧ Delivers s t i (val s i) ∧ ComputeFrame s t i

/-- The same of an instruction that may raise flags, in a team that enables no trap: the flags raised stay set (08 R119). -/
def GivesF (j : Instr) (o : Op) (f : Form) (res : State → Issue → Nat → Lane → Srcs → FRes) : Prop :=
  ∀ s i, Quiet s o f i → ∃ t, exec j s = .next t
    ∧ DeliversF s t i (fun n l x => BitVec.ofNat 128 (res s i n l x).bits) (fun n l x => (res s i n l x).flags) ∧ ComputeFrame s t i

/-- The scalar registers of a group after one of them is written. -/
def ScalarHolds (g h : Group) (n : Nat) (v : BitVec 64) : Prop :=
  ∀ k, mapGetD h.s k 0#64 = if k = n then v else mapGetD g.s k 0#64

/-- In every clean issue of a scalar instruction, `exec` answers a next state, the scalar register of D holds the value, and nothing else
changes but the lanes' PC and window. -/
def GivesScalar (j : Instr) (o : Op) (f : Form) (val : State → Issue → Srcs → BitVec 64) : Prop :=
  ∀ s i, Clean s o f i → ∃ t, exec j s = .next t
    ∧ (∃ h, groupIn t i.t.ref i.g.id = some h ∧ ScalarHolds i.g h (f.d.toNat - 0x40) (val s i (scalarSrcs s i)))
    ∧ Delivers s t i (fun _ _ _ => 0#128) ∧ ScalarFrame s t i

/-! ## The end of a segment (09 R137) -/

/-- A segment has ended: the lease is gone, and in every lane of the issue set every pending entry is written back (each register and
predicate keeps its value, and the window is empty, 04 R63, R64), guard-true lanes stand as `took` says and the others as `left` says. -/
def SegmentOver (t : State) (i : Issue) (took left : Nat → Lane → Lane → Prop) : Prop :=
  (∃ h, groupIn t i.t.ref i.g.id = some h ∧ h.lease = none)
  ∧ ∀ n l, i.lane n = some l → hasLane i.m n = true →
    ∃ l', laneIn t i.t.ref i.g.id n = some l' ∧ l'.win = [] ∧ (∀ r, readReg l' r = readReg l r) ∧ (∀ q, predOf l' q = predOf l q)
      ∧ l'.flags = l.flags ∧ if hasLane i.on n then took n l l' else left n l l'

/-- A lane that continues: at a PC, in its state, with its return stack and its mark. -/
def Continues (pc : Pc) (l l' : Lane) : Prop := l'.pc = pc ∧ l'.st = l.st ∧ l'.rstack = l.rstack ∧ l'.yield = l.yield

/-- The frame of a terminator: its group keeps all but the issue bookkeeping, the spin count and its end, and its lanes all but their PC,
window, marks, state, wait and return stack. -/
abbrev EndFrame (s t : State) (i : Issue) : Prop :=
  IssueFrame (fun g h => GroupKept { g with spinCnt := h.spinCnt, spinPc := h.spinPc, freed := h.freed } h)
    (fun l l' => LaneKept { l with st := l'.st, rstack := l'.rstack, yield := l'.yield, wait := l'.wait } l') s t i

/-- The backward branches of an issue are counted once (03 R38): when some guard-true lane takes one, the count is one more and the
terminator's PC is noted. -/
def CountsBack (t : State) (i : Issue) (target : Nat → Lane → Pc) : Prop :=
  let back := i.active.any (fun p => decide ((target p.1 p.2).toNat ≤ i.pc.toNat))
  ∃ h, groupIn t i.t.ref i.g.id = some h ∧ h.spinCnt = (if back then i.g.spinCnt + 1 else i.g.spinCnt)
    ∧ h.spinPc = (if back then i.pc.extractLsb' 0 57 else i.g.spinPc)

/-- A branch of an issue: guard-true lanes to their targets, the others to the next instruction, backward branches counted. -/
def Branches (j : Instr) (o : Op) (f : Form) (ok : Issue → Prop) (target : State → Issue → Nat → Lane → Pc)
    (took : Issue → Pc → Lane → Lane → Prop) : Prop :=
  ∀ s i, Clean s o f i → ok i → ∃ t, exec j s = .next t
    ∧ SegmentOver t i (fun n l l' => took i (target s i n l) l l') (fun _ l l' => Continues i.nextPc l l')
    ∧ CountsBack t i (target s i) ∧ EndFrame s t i

/-- The label of an instruction: PC + 4 × IMM23 (07 R89). -/
def label (f : Form) (i : Issue) : Pc := i.pc + BitVec.ofInt 64 (4 * f.imm.toInt)

/-- A called lane: at the target, with the return address on its stack and the depth one more (09 R139). -/
def Calls (i : Issue) (pc : Pc) (l l' : Lane) : Prop :=
  l'.pc = pc ∧ l'.st = l.st ∧ l'.rstack = i.nextPc :: l.rstack ∧ l'.yield = l.yield

/-! ## Integer values, in the arithmetic of bit vectors (09 R124 to R129) -/

/-- A source as the W bits its type reads. -/
def lowBits (f : Form) (x : QWord) : BitVec (intWidth f.ty) := x.setWidth (intWidth f.ty)

/-- W bits as a result: extended under the type (09 R124). -/
def extended (f : Form) (y : BitVec (intWidth f.ty)) : QWord :=
  if intSigned f.ty then y.signExtend 128 else y.setWidth 128

/-- W bits as the integer the type reads. -/
def number (f : Form) (y : BitVec (intWidth f.ty)) : Int := if intSigned f.ty then y.toInt else (y.toNat : Int)

/-- An exact integer limited to the type's range under `.sat`, else modulo 2^W (09 R124, R125). -/
def limited (f : Form) (y : Int) : BitVec (intWidth f.ty) :=
  let w := intWidth f.ty
  let lo : Int := if intSigned f.ty then -(2 ^ (w - 1) : Nat) else 0
  let hi : Int := if intSigned f.ty then (2 ^ (w - 1) : Nat) - 1 else (2 ^ w : Nat) - 1
  BitVec.ofInt w (if f.sat then max lo (min hi y) else y)

/-- The low or high W bits of an exact 2W-bit value (09 R125). -/
def half (f : Form) (y : Int) : BitVec (intWidth f.ty) :=
  if f.sub = 1#8 then (BitVec.ofInt (2 * intWidth f.ty) y).extractLsb' (intWidth f.ty) (intWidth f.ty) else BitVec.ofInt _ y

/-- A truth value as a result. -/
def flag (b : Bool) : QWord := if b then 1#128 else 0#128

/-- A comparison of two integers under a code of SUB: EQ, NE, LT, LE, GT, GE (07 R96). -/
def compares (sub : BitVec 8) (a b : Int) : Bool :=
  match sub.toNat with
  | 0 => decide (a = b) | 1 => decide (a ≠ b) | 2 => decide (a < b) | 3 => decide (a ≤ b) | 4 => decide (b < a) | _ => decide (b ≤ a)

/-- A source of a 32-bit position. -/
def low32 (x : QWord) : BitVec 32 := x.setWidth 32

/-- The field BFX takes: `ctl[15:8]` bits, at most W, from `ctl[7:0]` on, extended under the type (09 R128). -/
def fieldOf (f : Form) (a : BitVec (intWidth f.ty)) (ctl : BitVec 32) : BitVec (intWidth f.ty) :=
  let y := (a >>> (ctl.extractLsb' 0 8).toNat).setWidth (min (ctl.extractLsb' 8 8).toNat (intWidth f.ty))
  if intSigned f.ty then y.signExtend _ else y.setWidth _

/-- The bits BFI replaces. -/
def fieldMask (f : Form) (ctl : BitVec 32) : BitVec (intWidth f.ty) :=
  ((BitVec.allOnes (min (ctl.extractLsb' 8 8).toNat (intWidth f.ty))).setWidth _) <<< (ctl.extractLsb' 0 8).toNat

/-- Byte `k` of PERM: the byte that nibble `k` of the control names among the eight of {B, A}, or its sign repeated (09 R128). -/
def permuted (x : Srcs) (k : Nat) : BitVec 8 :=
  let n := ((low32 x.c) >>> (4 * k)).extractLsb' 0 4
  let b := ((low32 x.b ++ low32 x.a) >>> (8 * (n.toNat % 8))).extractLsb' 0 8
  if n.getLsbD 3 then (if b.msb then 0xFF#8 else 0#8) else b

/-- The zeros above the highest 1 bit, and below the lowest; W of a zero. -/
def zerosAbove {w : Nat} (a : BitVec w) : Nat := ((List.range w).takeWhile (fun k => !a.getLsbD (w - 1 - k))).length
def zerosBelow {w : Nat} (a : BitVec w) : Nat := ((List.range w).takeWhile (fun k => !a.getLsbD k)).length

/-- A scalar value reduced to its type and extended to 64 bits (09 R132). -/
def reduced (f : Form) (y : BitVec 64) : BitVec 64 :=
  let z := y.setWidth (intWidth f.ty)
  if intSigned f.ty then z.signExtend 64 else z.setWidth 64

/-- A fold of W-bit values in order: sum modulo 2^W, least or greatest (09 R146). -/
def folded (f : Form) (xs : List (BitVec (intWidth f.ty))) : BitVec (intWidth f.ty) :=
  match xs with
  | [] => 0
  | x :: r => r.foldl (fun a y =>
      if f.sub.toNat % 8 = 0 then a + y
      else if f.sub.toNat % 8 = 1 then (if number f a ≤ number f y then a else y)
      else (if number f a ≤ number f y then y else a)) x

/-- The first lane and the number of lanes of a lane's half: the whole group without L16 (09 R143). -/
def halfOfLane (i : Issue) (n : Nat) : Nat × Nat := if i.l16 then (n / 16 * 16, 16) else (0, 32)

/-- The participants a lane sees: the guard-true lanes of its half (09 R143). -/
def participants (i : Issue) (n : Nat) : List (Nat × Lane) :=
  i.active.filter (fun p => !i.l16 || p.1 / 16 == n / 16)

/-- The lane SHFL names, counted within the half (09 R144). -/
def shuffled (f : Form) (n b : Nat) : Int :=
  if f.sub = 0#8 then b else if f.sub = 1#8 then (n : Int) - b else if f.sub = 2#8 then (n : Int) + b else ((n ^^^ b : Nat) : Int)

/-- A mask of the participants of a lane's half that pass a test, counted from the half's first lane. -/
def maskWhere (i : Issue) (n : Nat) (q : Nat × Lane → Bool) : QWord :=
  (maskOf (((participants i n).filter q).map (fun p => p.1 - (halfOfLane i n).1))).setWidth 128

/-- A 64-bit scalar source. -/
def low64 (x : QWord) : BitVec 64 := x.setWidth 64

/-! ## What an instruction that computes answers in a lane (09; 10) -/

/-- The integer and predicate instructions that compute, lane by lane. -/
def bodyOps : List Op :=
  [.iadd, .isub, .imul, .imad, .imin, .imax, .iabs, .ineg, .and, .or, .xor, .andn, .not, .shl, .shr, .sar, .rot, .popc, .clz, .ctz, .brev,
   .bfx, .bfi, .perm, .sel, .icmp, .lea, .pand, .por, .pxor, .pnot, .pmov]

/-- Every instruction that computes a register or predicate in each lane: integer, predicate, floating-point and cross-lane. -/
def computeOps : List Op :=
  bodyOps ++ [.shfl, .vote, .redux, .scanx, .matchLanes, .elect, .fadd, .fsub, .fmul, .ffma, .fmin, .fmax, .fcmp, .fclass, .frcp, .frsq,
   .fsqrt, .fexp2, .flog2, .fsin, .fcos, .ftanh, .dadd, .dmul, .dfma, .hadd2, .hfma2, .fcvt, .f2i, .i2f, .qdot4, .pack, .unpack]

/-- The result of an instruction that rounds, with the roundings made: the elements of a packed one in ascending order (08 R118). -/
def roundedResult (o : Op) (f : Form) (i : Issue) (n : Nat) (l : Lane) (x : Srcs) : Option FRes :=
  let c := f.ty.toNat
  let h (k : Nat) : BitVec 32 := laneHash i n l k
  let ts := f.imm.toNat % 32
  match o with
  | .fadd | .dadd => some (fnFadd f false (h 0) x)
  | .fsub => some (fnFadd f true (h 0) x)
  | .fmul | .dmul => some (fnFmul f (h 0) x)
  | .ffma | .dfma => some (fnFfma f (h 0) x)
  | .hadd2 =>
    let r := fnFadd f false (h 0) x
    some (joinPair r (fnFadd f false (h r.rounds) (highHalf x)))
  | .hfma2 =>
    let r := fnFfma f (h 0) x
    some (joinPair r (fnFfma f (h r.rounds) (highHalf x)))
  | .fsqrt => some (fSqrt c f.rm.toNat (h 0) (floatBits c x.a))
  | .fcvt => some (fCvt c ts f.rm.toNat f.sat (h 0) (codeVal ts (floatBits ts x.a)))
  | .f2i =>
    let r := fToInt (intWidth f.ty) (intSigned f.ty) f.rm.toNat (h 0) (codeVal ts (floatBits ts x.a))
    some ⟨writeInt f.ty r.1, r.2.1, r.2.2⟩
  | .i2f => some (intToF c f.rm.toNat f.sat (h 0) (readInt (BitVec.ofNat 5 ts) x.a))
  | .qdot4 => some (fnQdot4 f (h 0) x)
  | .pack =>
    let j := f.imm.toNat % 32
    let r := packConv f (h 0) x.a
    let q := packConv f (h r.rounds) x.b
    some ⟨packPut c (packPut c (low32 x.c).toNat (2 * j) r.bits) (2 * j + 1) q.bits, r.flags ||| q.flags, r.rounds + q.rounds⟩
  | _ => none

/-! ## Accesses to memory -/

/-- What an access may update in a core: its lane-cycle record, partitions, slice, full/empty bits, L1 mark and release epoch. -/
def CoreKept (k k' : Core) : Prop :=
  { k' with
    lcr := k.lcr, parts := k.parts, sram := k.sram, full := k.full, dirty := k.dirty, relEpoch := k.relEpoch } = k

/-- What an access may update in a group that does not issue it, and in one that does: besides its lanes and issue bookkeeping its counters
and the promotions it asks for. -/
def AccessGroup (g h : Group) : Prop := GroupKept { g with ctr := h.ctr, promos := h.promos } h

/-- A lane keeps every register, predicate, flag and latch, unless it waits at an LDFE that the access serves (14 R225). -/
def RegistersKept (l l' : Lane) : Prop :=
  (∀ a w c d g p, l.wait ≠ .ldfe a w c d g p) →
    (∀ r, readReg l' r = readReg l r) ∧ (∀ q, predOf l' q = predOf l q) ∧ l'.flags = l.flags ∧ l'.sr = l.sr ∧ l'.x = l.x
      ∧ l'.rstack = l.rstack ∧ l'.win = l.win

/-- The frame of an instruction that accesses memory, but for the bytes and bits it stores, which its statement names: no lane outside the
issue set loses a register, no group its scalars or windows, no core any other register, and nothing else of the device changes but the
keys of stored lines, the tags of releases, the free counter, the signal words rung and the launch's deterministic buffer; `gk` says what its own group keeps. -/
structure AccessFrame (gk : Group → Group → Prop) (s t : State) (i : Issue) : Prop where
  rest : { t with
    teams := s.teams, cores := s.cores, mem := s.mem, lineKeys := s.lineKeys, tags := s.tags, freeCtr := s.freeCtr
    launches := s.launches, rung := s.rung } = s
  core : ∀ c, CoreKept (coreAt s c) (coreAt t c)
  own : ∃ h, groupIn t i.t.ref i.g.id = some h ∧ gk i.g h
  groups : ∀ r id g, (r ≠ i.t.ref ∨ id ≠ i.g.id) → groupIn s r id = some g → ∃ h, groupIn t r id = some h ∧ AccessGroup g h
  lanes : ∀ r id n l, laneIn s r id n = some l → (r ≠ i.t.ref ∨ id ≠ i.g.id ∨ hasLane i.m n = false) →
    ∃ l', laneIn t r id n = some l' ∧ RegistersKept l l'

/-- The frame of an access that writes no scalar register. -/
abbrev MemFrame (s t : State) (i : Issue) : Prop := AccessFrame AccessGroup s t i

/-- The owner under whose key a team's data lies (24 R380). -/
def ownerOf (s : State) (t : Team) : Nat := (teamWorld s t).1

/-- A value known of a guard-true lane's result, where the rules give one. -/
def DeliversKnown (s t : State) (i : Issue) (known : Nat → Lane → Srcs → Option QWord) : Prop :=
  ∃ val : Nat → Lane → Srcs → QWord, Delivers s t i val ∧ ∀ n l x v, known n l x = some v → val n l x = v

/-- Bytes as a load's result: extended under the type, all 128 bits of a `.128` (14 R219). -/
def loaded (f : Form) (v : Nat) : QWord :=
  if widthBytes f.sub = 16 then BitVec.ofNat 128 v else extended f (BitVec.ofNat (intWidth f.ty) v)

/-- The VA of a lane's global operand: (base + IMM23) mod 2^57 (14 R220). -/
def vaIn (s : State) (f : Form) (i : Issue) (p : Nat × Lane) : Nat :=
  (((low64 (i.srcs (launchOf s i.t) p.1 p.2).a).toNat + f.imm.toInt) % (2 ^ 57 : Nat) : Int).toNat

/-- The SRAM address of a lane's operand: (base + IMM23) mod 2^32 (14 R220). -/
def maIn (s : State) (f : Form) (i : Issue) (p : Nat × Lane) : BitVec 32 :=
  low32 (i.srcs (launchOf s i.t) p.1 p.2).a + BitVec.ofInt 32 f.imm.toInt

/-- Where a lane's global access of `w` bytes lands, when its checks pass. -/
def globalPlace (s : State) (f : Form) (i : Issue) (w : Nat) (k : AccKind) (p : Nat × Lane) : Option Xl :=
  match globalCheck s i.t (vaIn s f i p) w k with | .ok x => some x | .error _ => none

/-- Where a lane's SRAM access of `w` bytes lands, when its checks pass. -/
def slicePlace (s : State) (f : Form) (i : Issue) (w : Nat) (write : Bool) (p : Nat × Lane) : Option (Nat × Nat) :=
  match sramCheck s i.t (maIn s f i p) w write with | .ok x => some x | .error _ => none

/-- Every guard-true lane's access passes its checks. -/
def AllPlaced {α : Type} (i : Issue) (place : Nat × Lane → Option α) : Prop := ∀ p ∈ i.active, (place p).isSome = true

/-- HBM after stores of `w` bytes by the guard-true lanes: each stored byte holds the data of the last lane that stores to it, in
ascending lane order (14 R221); every other byte reads as before under the owner's key, and under any other key outside the stored
lines. -/
def StoredHbm (s t : State) (i : Issue) (w : Nat) (place : Nat × Lane → Option Xl) (data : Nat × Lane → Nat) : Prop :=
  let hits (p : Nat × Lane) (a : Nat) : Prop := ∃ b, place p = some (.hbm b) ∧ b ≤ a ∧ a < b + w
  (∀ before p after b k, i.active = before ++ p :: after → place p = some (.hbm b) → k < w → (∀ q ∈ after, ¬ hits q (b + k)) →
    hbmByte t (ownerOf s i.t) (b + k) = BitVec.ofNat 8 (data p / 2 ^ (8 * k)))
  ∧ (∀ a, (∀ p ∈ i.active, ¬ hits p a) → hbmByte t (ownerOf s i.t) a = hbmByte s (ownerOf s i.t) a)
  ∧ (∀ o a, (∀ p ∈ i.active, ∀ k, k < 64 → ¬ hits p (a / 64 * 64 + k)) → hbmByte t o a = hbmByte s o a)

/-- The slices after stores of `w` bytes by the guard-true lanes, the same way. -/
def StoredSram (s t : State) (i : Issue) (w : Nat) (place : Nat × Lane → Option (Nat × Nat)) (data : Nat × Lane → Nat) : Prop :=
  let hits (p : Nat × Lane) (c a : Nat) : Prop := ∃ b, place p = some (c, b) ∧ b ≤ a ∧ a < b + w
  (∀ before p after c b k, i.active = before ++ p :: after → place p = some (c, b) → k < w → (∀ q ∈ after, ¬ hits q c (b + k)) →
    readByte (coreAt t c).sram (b + k) = BitVec.ofNat 8 (data p / 2 ^ (8 * k)))
  ∧ (∀ c a, (∀ p ∈ i.active, ¬ hits p c a) → readByte (coreAt t c).sram a = readByte (coreAt s c).sram a)

/-- HBM reads as before under every key. -/
def HbmKept (s t : State) : Prop := ∀ o a, hbmByte t o a = hbmByte s o a
/-- Every slice reads as before. -/
def SramKept (s t : State) : Prop := ∀ c a, readByte (coreAt t c).sram a = readByte (coreAt s c).sram a
/-- Every slice reads as before but for `n` bytes of one. -/
def SramKeptBut (s t : State) (c o n : Nat) : Prop :=
  ∀ k a, (k ≠ c ∨ a < o ∨ o + n ≤ a) → readByte (coreAt t k).sram a = readByte (coreAt s k).sram a
/-- Every full/empty bit stays. -/
def FullSame (s t : State) : Prop := ∀ c a, granuleFull t c a = granuleFull s c a

/-- No other guard-true lane's place of `w` bytes meets a lane's. -/
def Apart {α : Type} (i : Issue) (place : Nat × Lane → Option α) (meet : α → α → Prop) : Prop :=
  ∀ p ∈ i.active, ∀ q ∈ i.active, p.1 ≠ q.1 → ∀ x y, place p = some x → place q = some y → ¬ meet x y

/-- What an atomic leaves in its location (14 R227): ADD, MIN, MAX, AND, OR, XOR, EXCH, CAS, and the FP32 sum under RNE. -/
def atomicResult (f : Form) (old b c : BitVec (intWidth f.ty)) : Nat :=
  if f.sub = 0#8 then (old + b).toNat
  else if f.sub = 1#8 then (if number f old ≤ number f b then old else b).toNat
  else if f.sub = 2#8 then (if number f old ≤ number f b then b else old).toNat
  else if f.sub = 3#8 then (old &&& b).toNat
  else if f.sub = 4#8 then (old ||| b).toNat
  else if f.sub = 5#8 then (old ^^^ b).toNat
  else if f.sub = 6#8 then b.toNat
  else if f.sub = 7#8 then (if old = b then c else old).toNat
  else (fAdd 0 0 false 0#32 (floatVal 0 old.toNat) (floatVal 0 b.toNat)).bits

/-! ## Exceptions (07 R100; 20 R314 to R316) -/

/-- A lane held before an instruction has any effect on it: nothing of the lane changes but its state and its hold, its bit of the
partial-completion mask, which reads 0 (04 R65; 20 R311), and the record of an LDFE it no longer waits at. -/
def HeldAt (s t : State) (i : Issue) (n : Nat) (c : Code) : Prop :=
  ∀ l, laneIn s i.t.ref i.g.id n = some l →
    ∃ h w, laneIn t i.t.ref i.g.id n = some { l with st := .hold, hold := some h, completed := false, wait := w } ∧ h.code = c
      ∧ (l.wait = .none → w = .none)

/-- A lane held after its instruction has completed. -/
def HeldAfter (t : State) (i : Issue) (n : Nat) (c : Code) : Prop :=
  ∃ l h, laneIn t i.t.ref i.g.id n = some l ∧ l.st = .hold ∧ l.hold = some h ∧ h.code = c

/-- One record is written at the next place of the fault queue, when that is free: the next sequence number and the device time are in it. -/
def Recorded (s t : State) (is : FaultRec → Prop) : Prop :=
  s.faultWait = [] → faultPlaceFree s = true →
    t.faultNext = s.faultNext + 1 ∧ ∃ r ∈ t.faultQ, r.seq = s.faultNext ∧ r.time = s.time ∧ r.resolved = false ∧ is r

/-- What a record of one issue says: code, access kind, lanes, address, the PC, the launch tag, team, partition and group of the issuer, no
transfer program, an empty completion mask, one record of one. -/
def Names (s : State) (i : Issue) (c : Code) (kind : Nat) (lanes : Mask) (addr : BitVec 57) (r : FaultRec) : Prop :=
  r.code = c ∧ r.kind = kind ∧ r.lanes = lanes ∧ r.addr = addr ∧ r.pc = i.pc.extractLsb' 0 57
    ∧ r.team = BitVec.ofNat 32 i.t.ref.team ∧ r.part = i.g.part ∧ r.group = i.g.id ∧ r.ltag = (launchOf s i.t).ltag
    ∧ r.xp = none ∧ r.cmask = 0#32 ∧ r.nrec = 1 ∧ r.ridx = 0

/-- A resident team has ended with a code. -/
def EndedWith (t : State) (r : TeamRef) (c : Code) : Prop := ∃ u, teamAt t r = some u ∧ u.ended = some c

/-- A resident team that has not ended. -/
def EndedNot (s : State) (r : TeamRef) : Prop := ∃ u, teamAt s r = some u ∧ u.ended = none

/-- The whole issue set held with a code that ends the team, before any effect (07 R100): every lane held as it was, one record naming them,
the team ended, no scalar register, handle or counted branch changed, and no byte of a slice. -/
structure WholeHeld (s t : State) (i : Issue) (c : Code) : Prop where
  lanes : ∀ n, hasLane i.m n = true → HeldAt s t i n c
  others : ∀ n, hasLane i.m n = false → laneIn t i.t.ref i.g.id n = laneIn s i.t.ref i.g.id n
  record : i.m ≠ 0#32 → Recorded s t (Names s i c 7 i.m 0#57)
  ends : i.m ≠ 0#32 → i.t.ended = none → EndedWith t i.t.ref c
  group : ∃ h, groupIn t i.t.ref i.g.id = some h ∧ h.s = i.g.s ∧ h.aw = i.g.aw ∧ h.spinCnt = i.g.spinCnt ∧ h.alloc = i.g.alloc
  handles : ∃ u, teamAt t i.t.ref = some u ∧ u.handles = i.t.handles
  sram : ∀ k a, readByte (coreAt t k).sram a = readByte (coreAt s k).sram a
  hbm : s.faultBaseSet = false → ∀ o a, hbmByte t o a = hbmByte s o a

/-! ## Control and status registers (20 R327, R328) -/

/-- What a register of a core or of the device holds after a 64-bit value is written to it by a writer that may (03 R46; 12 R182; 18 R304; 20
R316, R329; 23 R365; 24 R373; 25 R392). -/
def RegisterHolds (t : State) (c n : Nat) (v : BitVec 64) : Prop :=
  let atLeast (lo : BitVec 16) (x : BitVec 16) : BitVec 16 := if x < lo then lo else x
  match n with
  | 0x100 => (coreAt t c).lcr.en = v.getLsbD 0
  | 0x300 => (coreAt t c).forageEn = v.getLsbD 0
  | 0x510 => t.qidle = atLeast 1#16 (v.extractLsb' 32 16) ∧ t.age = atLeast 1#16 (v.extractLsb' 0 16)
  | 0x511 =>
    t.linkLim = v.extractLsb' 48 16 ∧ t.bankLim = v.extractLsb' 32 16 ∧ t.rowLim = v.extractLsb' 16 16
      ∧ t.logInt = if v.extractLsb' 0 6 < 24#6 then 24#6 else v.extractLsb' 0 6
  | 0x513 => t.cap = atLeast 400#16 (v.extractLsb' 32 16)
  | _ =>
    if 0x110 ≤ n ∧ n < 0x120 then
      mapGetD (coreAt t c).lcr.base (n - 0x110) 0#64 = v &&& 0x81FFFFFFFFFFFFFF#64
    else if 0x120 ≤ n ∧ n < 0x130 then
      mapGetD (coreAt t c).lcr.lim (n - 0x120) 0#64 = v &&& 0x01FFFFFFFFFFFFFF#64
    else if 0x200 ≤ n ∧ n < 0x220 then
      let e := mapGetD (coreAt t c).expTable ((n - 0x200) / 2) {}
      if n % 2 = 0 then e.range = v &&& 0x800003FFFFFFFFFF#64 else e.ctl = v &&& 0xFFFFFFFFFFFF0003#64
    else True

/-- The numbers `RegisterHolds` speaks of. -/
def isDeviceRegister (n : Nat) : Bool :=
  [0x100, 0x300, 0x510, 0x511, 0x513].contains n || (decide (0x110 ≤ n) && decide (n < 0x130))
    || (decide (0x200 ≤ n) && decide (n < 0x220))

/-- The numbers that name a register (20 R327). -/
def namesCsr (n : Nat) : Bool :=
  let among (lo hi : Nat) : Bool := decide (lo ≤ n) && decide (n ≤ hi)
  among 0x000 0x00D || among 0x010 0x020 || among 0x100 0x100 || among 0x110 0x176 || among 0x200 0x21F || among 0x300 0x300
    || among 0x310 0x325 || among 0x400 0x404 || among 0x420 0x437 || among 0x500 0x503 || among 0x510 0x513 || among 0x520 0x532

/-- The registers whose write from outside the firmware slot is PRIV: TEAM_FORAGE, and every register of the core and of fault handling but
FAULTQ_NEXT and CORE_SRAM_PASS, whose writes are ignored (03 R46; 12 R182; 18 R304, R306; 19 R308; 20 R316, R329). -/
def isPrivilegedCsr (n : Nat) : Bool :=
  n == 0x00D || (namesCsr n && decide (0x100 ≤ n) && decide (n < 0x500) && n != 0x403 && n != 0x176)

/-! ## Transfer programs (16 R266 to R285) -/

/-- A team's transfer program is the party whose instruction runs now. -/
def Runs (s : State) (u : Team) (x : XProg) : Prop := ∃ r, s.cur = .prog r ∧ progAt s r = some (u, x)

/-- A program of a team changed from `x` to `y`: every other program and group of it and every other team stays. -/
structure ProgFrame (s t : State) (u : Team) (x y : XProg) : Prop where
  prog : progIn t u.ref x.n = some y
  others : ∀ q, q ≠ x.n → progIn t u.ref q = progIn s u.ref q
  teams : ∀ r, r ≠ u.ref → teamAt t r = teamAt s r
  team : ∃ v, teamAt t u.ref = some v ∧ { v with progs := u.progs } = u

/-- A program stands at a word with these registers, its issue noted, and nothing else of it or of the device changed. -/
def Advances (s t : State) (u : Team) (x : XProg) (next : Int) (creg : BitVec 4 → BitVec 64) (kreg : BitVec 2 → BitVec 32) : Prop :=
  ∃ y, ProgFrame s t u x y ∧ { t with teams := s.teams } = s ∧ (y.xpc : Int) = next ∧ (∀ c, cReg y c = creg c) ∧ (∀ k, kReg y k = kreg k)
    ∧ { y with c := x.c, k := x.k, xpc := x.xpc, lastIssue := x.lastIssue } = x

/-- The registers of a program with one written. -/
def regSet (x : XProg) (d : BitVec 4) (v : BitVec 64) (c : BitVec 4) : BitVec 64 := if c = d then v else cReg x c

/-- A program at a word with these registers, whatever else its instruction does: its loops, signals and POST as before. -/
def ProgAt (t : State) (u : Team) (x y : XProg) (next : Nat) (creg : BitVec 4 → BitVec 64) : Prop :=
  progIn t u.ref x.n = some y ∧ y.xpc = next ∧ (∀ c, cReg y c = creg c) ∧ (∀ k, kReg y k = kReg x k)
    ∧ y.signal = x.signal ∧ y.post = x.post

/-- A program's fault that ends its team: TX_FAULT with its cause and the word, one record of the program (16 R282). -/
def ProgEnds (s t : State) (u : Team) (x : XProg) (cause : Code) : Prop :=
  (u.ended = none → EndedWith t u.ref cTxFault)
    ∧ Recorded s t (fun r => r.code = cTxFault ∧ r.kind = 6 ∧ r.cause = cause ∧ r.xp = some x.n ∧ r.pc = BitVec.ofNat 57 x.xpc)

/-- A program held at its word by a record that a later resolution releases. -/
def ProgHeld (s t : State) (u : Team) (x : XProg) (c : Code) (addr : BitVec 57) : Prop :=
  (∃ y, progIn t u.ref x.n = some y ∧ y.state = 3 ∧ y.holdSet.isSome = true ∧ y.c = x.c)
    ∧ Recorded s t (fun r => r.code = c ∧ r.kind = 6 ∧ r.xp = some x.n ∧ r.pc = BitVec.ofNat 57 x.xpc ∧ r.addr = addr)

/-- An SRAM place holds bytes from an offset on, and every other byte of every slice reads as before. -/
def WroteSram (s t : State) (c o n v : Nat) : Prop :=
  (∀ k, k < n → readByte (coreAt t c).sram (o + k) = BitVec.ofNat 8 (v / 2 ^ (8 * k)))
    ∧ ∀ c' a, (c' ≠ c ∨ a < o ∨ o + n ≤ a) → readByte (coreAt t c').sram a = readByte (coreAt s c').sram a

/-- HBM holds bytes from an address on under an owner's key, and every other byte reads as before under that key. -/
def WroteHbm (s t : State) (owner pa n v : Nat) : Prop :=
  (∀ k, k < n → hbmByte t owner (pa + k) = BitVec.ofNat 8 (v / 2 ^ (8 * k)))
    ∧ ∀ a, (a < pa ∨ pa + n ≤ a) → hbmByte t owner a = hbmByte s owner a

/-! ## Queues and their packets (23 R354 to R360) -/

/-- A queue stopped by the packet at an address: its agent is free, and the error and the address stand in its record unless an earlier error
does. -/
def QueueStopped (t : State) (c q : Nat) (r : Queue) (err va : Nat) : Prop :=
  (coreAt t c).cmd = none
    ∧ ∃ r', mapGet t.queues q = some r' ∧ (r.err = 0 → r'.err = err ∧ r'.errAddr = va) ∧ (r.err ≠ 0 → r'.err = r.err)

/-- What an agent's reading of the packet at an address comes to: it holds the packet, a LAUNCH with its block and place in the claim order, or
the queue has stopped. `p` names the queue and the index, `ch` the arrays the packet stands in. -/
def PacketRead (s t : State) (c : Nat) (p : Packet) (r : Queue) (va : Nat) (ch : List Frame) : Prop :=
  let stopped (err : Nat) : Prop := QueueStopped t c p.queue r err va
  let held (is : Packet → Prop) (b : List Byte) : Prop := ∃ p', (coreAt t c).cmd = some p' ∧ is p' ∧ p'.queue = p.queue ∧ p'.index = p.index
    ∧ p'.va = va ∧ p'.bytes = b ∧ p'.chain = ch ∧ p'.running = false ∧ p'.deadline = none
  match vaRead s r.owner r.secure va 64 with
  | none => stopped 3
  | some b =>
    if packetFormatOk b = false then stopped 1
    else if packetType b = 1 then
      match vaRead s r.owner r.secure (recWord b 8) 256 with
      | none => stopped 3
      | some k =>
        if (blockCsig k).1 % 8 ≠ 0 then stopped 1
        else if csigOk s k = false then stopped 3
        else held (fun p' => p'.block = k ∧ p'.order = s.claims) b ∧ t.claims = s.claims + 1
    else held (fun p' => packetType b = 6 → p'.block = reportSnapshot s) b

/-! ## Invariants, encodings and steps -/

/-- Every memory that holds bytes by address has its canonical form: HBM and every slice. -/
def Canonical (s : State) : Prop := Memory.wf s.mem = true ∧ ∀ p ∈ s.cores, Memory.wf p.2.sram = true

/-- An instruction of compute text: one with a form, or UDF. -/
def isCompute (i : Instr) : Bool := i.opForm.isSome || (match i with | .udf _ _ _ _ _ => true | _ => false)

/-- An instruction of transfer text. -/
def isTransfer (i : Instr) : Bool := !isCompute i && !(encode i).isEmpty

end Sys2Proof.Machine
end

