-- ==== Sys2Proof/Certificates/Slice0/Obligations.lean ====
section
/-! DEFINITION. The statements about the machine, one for each entry of OBLIGATIONS.json. -/
open Sys2Proof Sys2Proof.Machine

/-- R125 with R124: the integer arithmetic instructions complete, write the exact value, and leave everything else alone. -/
def Obligations.IntegerArithmeticResults : Prop :=
  ∀ f : Form,
    Gives (.iadd f) .iadd f (fun _ _ _ _ x => extended f (limited f (number f (lowBits f x.a) + number f (lowBits f x.b))))
    ∧ Gives (.isub f) .isub f (fun _ _ _ _ x => extended f (limited f (number f (lowBits f x.a) - number f (lowBits f x.b))))
    ∧ Gives (.imul f) .imul f (fun _ _ _ _ x => extended f (half f (number f (lowBits f x.a) * number f (lowBits f x.b))))
    ∧ Gives (.imad f) .imad f (fun _ _ _ _ x =>
        extended f (half f (number f (lowBits f x.a) * number f (lowBits f x.b) + number f (lowBits f x.c))))
    ∧ Gives (.imin f) .imin f (fun _ _ _ _ x =>
        extended f (if number f (lowBits f x.a) ≤ number f (lowBits f x.b) then lowBits f x.a else lowBits f x.b))
    ∧ Gives (.imax f) .imax f (fun _ _ _ _ x =>
        extended f (if number f (lowBits f x.a) ≤ number f (lowBits f x.b) then lowBits f x.b else lowBits f x.a))
    ∧ Gives (.iabs f) .iabs f (fun _ _ _ _ x =>
        extended f (if number f (lowBits f x.a) < 0 then -lowBits f x.a else lowBits f x.a))
    ∧ Gives (.ineg f) .ineg f (fun _ _ _ _ x => extended f (-lowBits f x.a))

/-- R126, its logic and shift rows. R126, its counting, field, byte and select rows. -/
def Obligations.LogicShiftAndBitResults : Prop :=
  (∀ f : Form,
       Gives (.and f) .and f (fun _ _ _ _ x => extended f (lowBits f x.a &&& lowBits f x.b))
       ∧ Gives (.or f) .or f (fun _ _ _ _ x => extended f (lowBits f x.a ||| lowBits f x.b))
       ∧ Gives (.xor f) .xor f (fun _ _ _ _ x => extended f (lowBits f x.a ^^^ lowBits f x.b))
       ∧ Gives (.andn f) .andn f (fun _ _ _ _ x => extended f (lowBits f x.a &&& ~~~lowBits f x.b))
       ∧ Gives (.not f) .not f (fun _ _ _ _ x => extended f (~~~lowBits f x.a))
       ∧ Gives (.shl f) .shl f (fun _ _ _ _ x => extended f (lowBits f x.a <<< (low32 x.b).toNat))
       ∧ Gives (.shr f) .shr f (fun _ _ _ _ x => extended f (lowBits f x.a >>> (low32 x.b).toNat))
       ∧ Gives (.sar f) .sar f (fun _ _ _ _ x => extended f ((lowBits f x.a).sshiftRight (low32 x.b).toNat))
       ∧ Gives (.rot f) .rot f (fun _ _ _ _ x => extended f ((lowBits f x.a).rotateLeft (low32 x.b).toNat)))
  ∧ (∀ f : Form,
       Gives (.popc f) .popc f (fun _ _ _ _ x => BitVec.ofNat 128 ((List.range (intWidth f.ty)).countP (lowBits f x.a).getLsbD))
       ∧ Gives (.clz f) .clz f (fun _ _ _ _ x => BitVec.ofNat 128 (zerosAbove (lowBits f x.a)))
       ∧ Gives (.ctz f) .ctz f (fun _ _ _ _ x => BitVec.ofNat 128 (zerosBelow (lowBits f x.a)))
       ∧ Gives (.brev f) .brev f (fun _ _ _ _ x => extended f (lowBits f x.a).reverse)
       ∧ Gives (.bfx f) .bfx f (fun _ _ _ _ x => extended f (fieldOf f (lowBits f x.a) (low32 x.b)))
       ∧ Gives (.bfi f) .bfi f (fun _ _ _ _ x => extended f
           ((lowBits f x.a &&& ~~~fieldMask f (low32 x.c))
             ||| ((lowBits f x.b <<< ((low32 x.c).extractLsb' 0 8).toNat) &&& fieldMask f (low32 x.c))))
       ∧ Gives (.perm f) .perm f (fun _ _ _ _ x => (permuted x 3 ++ permuted x 2 ++ permuted x 1 ++ permuted x 0).setWidth 128)
       ∧ Gives (.sel f) .sel f (fun _ _ _ l x => extended f (lowBits f (if predOf l f.c.toNat then x.a else x.b))))

/-- R127 and R128 on the forms that decode. -/
def Obligations.CompareAndAddressResults : Prop :=
  ∀ f : Form,
    Gives (.icmp f) .icmp f (fun _ _ _ _ x => flag (compares f.sub (number f (lowBits f x.a)) (number f (lowBits f x.b))))
    ∧ Gives (.lea f) .lea f (fun _ _ _ _ x =>
        (low64 x.a + ((low32 x.b).setWidth 64 <<< (f.imm.extractLsb' 0 3).toNat)).setWidth 128)

/-- R129, and NOP of R142. -/
def Obligations.PredicateInstructionResults : Prop :=
  ∀ f : Form,
    Gives (.pand f) .pand f (fun _ _ _ l _ => flag (predOf l f.a.toNat && predOf l f.b.toNat))
    ∧ Gives (.por f) .por f (fun _ _ _ l _ => flag (predOf l f.a.toNat || predOf l f.b.toNat))
    ∧ Gives (.pxor f) .pxor f (fun _ _ _ l _ => flag (predOf l f.a.toNat ^^ predOf l f.b.toNat))
    ∧ Gives (.pnot f) .pnot f (fun _ _ _ l _ => flag (!predOf l f.a.toNat))
    ∧ Gives (.pmov f) .pmov f (fun _ _ _ l _ => flag (predOf l f.a.toNat))
    ∧ Gives (.nop f) .nop f (fun _ _ _ _ _ => 0#128)
    ∧ (∀ l : Lane, predOf l 7 = true)

/-- R133 with the reduction of R132. R134 and R135 on the forms that decode. -/
def Obligations.ScalarResults : Prop :=
  (∀ f : Form,
       GivesScalar (.sadd f) .sadd f (fun _ _ x => reduced f (low64 x.a + low64 x.b))
       ∧ GivesScalar (.ssub f) .ssub f (fun _ _ x => reduced f (low64 x.a - low64 x.b))
       ∧ GivesScalar (.smul f) .smul f (fun _ _ x => reduced f (low64 x.a * low64 x.b))
       ∧ GivesScalar (.sand f) .sand f (fun _ _ x => reduced f (low64 x.a &&& low64 x.b))
       ∧ GivesScalar (.sor f) .sor f (fun _ _ x => reduced f (low64 x.a ||| low64 x.b))
       ∧ GivesScalar (.sxor f) .sxor f (fun _ _ x => reduced f (low64 x.a ^^^ low64 x.b))
       ∧ GivesScalar (.sshl f) .sshl f (fun _ _ x => reduced f (low64 x.a <<< (low64 x.b).toNat))
       ∧ GivesScalar (.sshr f) .sshr f (fun _ _ x => reduced f
           (if intSigned f.ty then (low64 x.a).sshiftRight (low64 x.b).toNat else low64 x.a >>> (low64 x.b).toNat))
       ∧ GivesScalar (.smov f) .smov f (fun _ _ x => reduced f (low64 x.a)))
  ∧ (∀ f : Form,
       Gives (.scmp f) .scmp f (fun s i _ _ _ =>
         flag (compares f.sub (number f (lowBits f (scalarSrcs s i).a)) (number f (lowBits f (scalarSrcs s i).b))))
       ∧ Gives (.bcast f) .bcast f (fun s i _ _ _ => (low64 (scalarSrcs s i).a).setWidth 128)
       ∧ GivesScalar (.readlane f) .readlane f (fun _ i x =>
           match i.lane ((low64 x.b).toNat % 32) with
           | some l => (readReg l (f.ax ++ f.a.extractLsb' 0 6).toNat).setWidth 64
           | none => 0#64))

/-- R144, R145 and R147 under the participants of R143. R146 under the participants of R143. -/
def Obligations.CrossLaneAndFoldResults : Prop :=
  (∀ f : Form,
       Gives (.shfl f) .shfl f (fun s i n _ x =>
         let h := halfOfLane i n
         let k := shuffled f (n - h.1) (low32 x.b).toNat
         let src := h.1 + k.toNat
         if 0 ≤ k ∧ k < (h.2 : Int) ∧ hasLane i.on src = true then
           match i.lane src with
           | some l => extended f (lowBits f (i.srcs (launchOf s i.t) src l).a)
           | none => extended f (lowBits f x.a)
         else extended f (lowBits f x.a))
       ∧ Gives (.vote f) .vote f (fun _ i n _ _ =>
         let q (p : Nat × Lane) : Bool := predOf p.2 f.a.toNat
         if f.sub = 0#8 then flag ((participants i n).any q)
         else if f.sub = 1#8 then flag ((participants i n).all q)
         else maskWhere i n q)
       ∧ Gives (.matchLanes f) .matchLanes f (fun s i n _ x =>
         maskWhere i n (fun p => lowBits f (i.srcs (launchOf s i.t) p.1 p.2).a == lowBits f x.a))
       ∧ Gives (.elect f) .elect f (fun _ i n _ _ => flag (((participants i n).map Prod.fst).head? == some n)))
  ∧ (∀ f : Form,
       (f.sub.toNat / 128 = 0 →
         Gives (.redux f) .redux f (fun s i n _ _ =>
           extended f (folded f ((participants i n).map (fun p => lowBits f (i.srcs (launchOf s i.t) p.1 p.2).a))))
         ∧ Gives (.scanx f) .scanx f (fun s i n _ _ =>
           extended f (folded f (((participants i n).filter (fun p => decide (p.1 ≤ n))).map (fun p =>
             lowBits f (i.srcs (launchOf s i.t) p.1 p.2).a)))))
       ∧ (f.sub.toNat / 128 = 1 →
         GivesF (.redux f) .redux f (fun s i n _ _ =>
           foldSources f ((participants i n).map (fun p => (i.srcs (launchOf s i.t) p.1 p.2).a)))
         ∧ GivesF (.scanx f) .scanx f (fun s i n _ _ =>
           foldSources f (((participants i n).filter (fun p => decide (p.1 ≤ n))).map (fun p =>
             (i.srcs (launchOf s i.t) p.1 p.2).a)))))

/-- 10 R152 to R155, R158 and R159: basic floating point completes with its one rounding. -/
def Obligations.FloatArithmeticResults : Prop :=
  ∀ f : Form,
    let c := f.ty.toNat
    let add (neg : Bool) (h : BitVec 32) (x : Srcs) : FRes :=
      fAdd c f.rm.toNat f.sat h (fsrc c x.a) (if neg then fNeg (fsrc c x.b) else fsrc c x.b)
    let mul (h : BitVec 32) (x : Srcs) : FRes := fMul c f.rm.toNat f.sat h (fsrc c x.a) (fsrc c x.b)
    let fma (h : BitVec 32) (x : Srcs) : FRes := fFma c f.rm.toNat f.sat h (fsrc c x.a) (fsrc c x.b) (fsrc c x.c)
    GivesF (.fadd f) .fadd f (fun _ i n l x => add false (laneHash i n l 0) x)
    ∧ GivesF (.fsub f) .fsub f (fun _ i n l x => add true (laneHash i n l 0) x)
    ∧ GivesF (.fmul f) .fmul f (fun _ i n l x => mul (laneHash i n l 0) x)
    ∧ GivesF (.ffma f) .ffma f (fun _ i n l x => fma (laneHash i n l 0) x)
    ∧ GivesF (.dadd f) .dadd f (fun _ i n l x => add false (laneHash i n l 0) x)
    ∧ GivesF (.dmul f) .dmul f (fun _ i n l x => mul (laneHash i n l 0) x)
    ∧ GivesF (.dfma f) .dfma f (fun _ i n l x => fma (laneHash i n l 0) x)
    ∧ GivesF (.hadd2 f) .hadd2 f (fun _ i n l x =>
        let r := add false (laneHash i n l 0) x
        joinPair r (add false (laneHash i n l r.rounds) (highHalf x)))
    ∧ GivesF (.hfma2 f) .hfma2 f (fun _ i n l x =>
        let r := fma (laneHash i n l 0) x
        joinPair r (fma (laneHash i n l r.rounds) (highHalf x)))
    ∧ GivesF (.fmin f) .fmin f (fun _ _ _ _ x => fMinMax c false (floatBits c x.a) (floatBits c x.b))
    ∧ GivesF (.fmax f) .fmax f (fun _ _ _ _ x => fMinMax c true (floatBits c x.a) (floatBits c x.b))
    ∧ GivesF (.fcmp f) .fcmp f (fun _ _ _ _ x =>
        ⟨(fCmp f.sub.toNat (fsrc c x.a) (fsrc c x.b)).1.toNat, (fCmp f.sub.toNat (fsrc c x.a) (fsrc c x.b)).2, 0⟩)
    ∧ Gives (.fclass f) .fclass f (fun _ _ _ _ x =>
        if f.imm = 0#23 then BitVec.ofNat 128 (fClass c (floatBits c x.a))
        else flag ((fClass c (floatBits c x.a) &&& f.imm.toNat % 1024) != 0))

/-- 10 R150 and R152: NaN propagation. 08 R114: rounding changes only values the format does not represent. 08 R114: the directed modes, and the inexact flag of R119. -/
def Obligations.FloatRoundingLaws : Prop :=
  (∀ (c rm : Nat) (sat : Bool) (h : BitVec 32) (a b d : FVal),
       (isNan a = true ∨ isNan b = true →
         (fAdd c rm sat h a b).bits = canonicalNan c ∧ (fAdd c rm sat h a b).flags = flagIf (isSig a || isSig b) flagNV
         ∧ (fAdd c rm sat h a (fNeg b)).bits = canonicalNan c
         ∧ (fMul c rm sat h a b).bits = canonicalNan c ∧ (fMul c rm sat h a b).flags = flagIf (isSig a || isSig b) flagNV)
       ∧ (isNan a = true ∨ isNan b = true ∨ isNan d = true → (fFma c rm sat h a b d).bits = canonicalNan c)
       ∧ (∀ (p : Bool) (y : Dy), y.m = 0 →
         fFma c rm sat h (.inf p) (.num y) d = nanRes c flagNV ∧ fFma c rm sat h (.num y) (.inf p) d = nanRes c flagNV))
  ∧ (∀ (c rm : Nat) (sat : Bool) (h : BitVec 32) (x : Nat) (y : Dy),
       (c ≤ 7 ∨ c = 0x0E) → x < 2 ^ ((fmtOf c).signAt + 1) → floatVal c x = .num y → y.m ≠ 0 →
         roundFloat c rm sat h y = ⟨x, 0#5, 1⟩)
  ∧ (∀ (c rm : Nat) (h : BitVec 32) (x y : Dy),
       (c ≤ 7 ∨ c = 0x0E) → x.m ≠ 0 → rm ≤ 5 →
       (roundFloat c rm false h x).flags &&& flagOF = 0#5 → floatVal c (roundFloat c rm false h x).bits = .num y →
         (rm = 1 → dyLt ⟨false, x.m, x.e⟩ ⟨false, y.m, y.e⟩ = false)
         ∧ (rm = 2 → dyLt x y = false)
         ∧ (rm = 3 → dyLt y x = false)
         ∧ ((roundFloat c rm false h x).flags &&& flagNX = 0#5 ↔ dyEq x y = true))

/-- 10 R156, R157 and R161 to R164. The inexact SFU values are free within the error bounds of R156 (DESIGN CHOICE, log 14). -/
def Obligations.SpecialFunctionAndConversionResults : Prop :=
  ∀ f : Form,
    let c := f.ty.toNat
    let ts := f.imm.toNat % 32
    GivesF (.frcp f) .frcp f (fun _ _ _ _ x => fnSfu 8 f x)
    ∧ GivesF (.frsq f) .frsq f (fun _ _ _ _ x => fnSfu 9 f x)
    ∧ GivesF (.fexp2 f) .fexp2 f (fun _ _ _ _ x => fnSfu 11 f x)
    ∧ GivesF (.flog2 f) .flog2 f (fun _ _ _ _ x => fnSfu 12 f x)
    ∧ GivesF (.fsin f) .fsin f (fun _ _ _ _ x => fnSfu 13 f x)
    ∧ GivesF (.fcos f) .fcos f (fun _ _ _ _ x => fnSfu 14 f x)
    ∧ GivesF (.ftanh f) .ftanh f (fun _ _ _ _ x => fnSfu 15 f x)
    ∧ GivesF (.fsqrt f) .fsqrt f (fun _ i n l x => fSqrt c f.rm.toNat (laneHash i n l 0) (floatBits c x.a))
    ∧ GivesF (.fcvt f) .fcvt f (fun _ i n l x =>
        fCvt c ts f.rm.toNat f.sat (laneHash i n l 0) (codeVal ts (floatBits ts x.a)))
    ∧ GivesF (.f2i f) .f2i f (fun _ i n l x =>
        let r := fToInt (intWidth f.ty) (intSigned f.ty) f.rm.toNat (laneHash i n l 0) (codeVal ts (floatBits ts x.a))
        ⟨writeInt f.ty r.1, r.2.1, r.2.2⟩)
    ∧ GivesF (.i2f f) .i2f f (fun _ i n l x =>
        intToF c f.rm.toNat f.sat (laneHash i n l 0) (readInt (BitVec.ofNat 5 ts) x.a))
    ∧ GivesF (.qdot4 f) .qdot4 f (fun _ i n l x => fnQdot4 f (laneHash i n l 0) x)

/-- 10 R165 to R167. -/
def Obligations.PackAndUnpackResults : Prop :=
  ∀ (f : Form) (s : State) (i : Issue),
    let c := f.ty.toNat
    let j := f.imm.toNat % 32
    let word (p : Nat × Lane) (b : Bool) : Nat :=
      (low32 (if b then (i.srcs (launchOf s i.t) p.1 p.2).c else (i.srcs (launchOf s i.t) p.1 p.2).a)).toNat
    let whole (b : Bool) : Prop := ∀ p ∈ i.active, c = 9 → triBad (word p b) (2 * j) = false ∧ triBad (word p b) (2 * j + 1) = false
    (Quiet s .pack f i → whole true → ∃ t, exec (.pack f) s = .next t ∧ ComputeFrame s t i
      ∧ ∃ val : Nat → Lane → Srcs → QWord,
        DeliversF s t i val (fun n l x =>
          (packConv f (laneHash i n l 0) x.a).flags
            ||| (packConv f (laneHash i n l (packConv f (laneHash i n l 0) x.a).rounds) x.b).flags)
        ∧ (c ≠ 9 → ∀ n l x e, e < 32 / formatBits c →
          packedElem ((val n l x).toNat % 2 ^ 32) (formatBits c) e =
            if e = 2 * j then (packConv f (laneHash i n l 0) x.a).bits
            else if e = 2 * j + 1 then (packConv f (laneHash i n l (packConv f (laneHash i n l 0) x.a).rounds) x.b).bits
            else packedElem (low32 x.c).toNat (formatBits c) e))
    ∧ (Clean s .unpack f i → whole false → ∃ t, exec (.unpack f) s = .next t ∧ ComputeFrame s t i
      ∧ Delivers s t i (fun _ _ x => BitVec.ofNat 128
        (unpackElem c (low32 x.a).toNat (2 * j) + 2 ^ 32 * unpackElem c (low32 x.a).toNat (2 * j + 1))))

/-- 09 R130 and R131 with the effects of 04 R52. -/
def Obligations.WindowAndAllotmentResults : Prop :=
  ∀ (f : Form) (s : State) (i : Issue),
    let w := f.d.toNat
    let n := f.imm.toNat % 512
    (Clean s .awset f i → ∃ t h, exec (.awset f) s = .next t ∧ groupIn t i.t.ref i.g.id = some h
      ∧ Delivers s t i (fun _ _ _ => 0#128)
      ∧ (∀ k, mapGetD h.aw k {} =
          if k = w ∧ i.on ≠ 0#32 then ⟨BitVec.ofNat 9 (f.imm.toNat / 256 % 512), BitVec.ofNat 8 (f.imm.toNat % 256)⟩
          else mapGetD i.g.aw k {})
      ∧ (∀ m l l', i.lane m = some l → hasLane i.m m = true → laneIn t i.t.ref i.g.id m = some l' →
          ∀ k, mapGetD l'.x k 0#16 =
            if k = w ∧ hasLane i.on m = true then (i.srcs (launchOf s i.t) m l).a.extractLsb' 0 16 else mapGetD l.x k 0#16)
      ∧ IssueFrame (fun g h => GroupKept { g with aw := h.aw } h) (fun l l' => LaneKept { l with x := l'.x } l') s t i)
    ∧ (Clean s .reggrow f i → ∃ t h, exec (.reggrow f) s = .next t ∧ groupIn t i.t.ref i.g.id = some h
      ∧ h.req = (if n ≤ i.g.alloc then i.g.req else n)
      ∧ Delivers s t i (fun _ _ _ => 0#128)
      ∧ IssueFrame (fun g h => GroupKept { g with req := h.req } h) LaneKept s t i)
    ∧ (Clean s .regshrink f i → ∃ t h, exec (.regshrink f) s = .next t ∧ groupIn t i.t.ref i.g.id = some h
      ∧ h.alloc = min n i.g.alloc
      ∧ Delivers s t i (fun _ _ _ => 0#128)
      ∧ IssueFrame (fun g h => GroupKept { g with alloc := h.alloc } h) LaneKept s t i)

/-- 04 R61 and R63, and the value in the arithmetic of bit vectors for a register, a pair and a predicate. 08 R118; which results count as a rounding where the rule leaves it open is DESIGN CHOICE, log 70. -/
def Obligations.EveryIssuePushesAndCounts : Prop :=
  ((∀ (o : Op) (f : Form) (s : State) (i : Issue) (n : Nat) (l : Lane), o ∈ computeOps → (f.ty = 9#5 → o ∉ [Op.pack, .unpack]) →
       Quiet s o f i → i.lane n = some l → hasLane i.m n = true →
       let x := i.srcs (launchOf s i.t) n l
       ∃ t, exec (Instr.ofOp o f) s = .next t ∧ ∃ l' e, laneIn t i.t.ref i.g.id n = some l'
         ∧ l'.win = (e :: l.win).take 8 ∧ e.empty = false ∧ e.tag = i.g.issues
         ∧ if hasLane i.on n then
             e.dest = i.dest l ∧ e.pending = (i.dest l != .none) ∧ Holds l' (i.dest l) e.val
               ∧ (o ∈ bodyOps → e.val = BitVec.ofNat 128 (bodyFn o f l x).bits)
               ∧ (∀ r, roundedResult o f i n l x = some r → e.val = BitVec.ofNat 128 r.bits)
           else e.val = destNow l (i.dest l) ∧ e.dest = .none ∧ e.pending = false)
     ∧ ∀ (f : Form) (s : State) (i : Issue) (n : Nat) (l : Lane), i.lane n = some l → hasLane i.m n = true →
       let pushed (val : QWord) (t : State) : Prop := ∃ l' e, laneIn t i.t.ref i.g.id n = some l'
         ∧ l'.win = (e :: l.win).take 8 ∧ e.empty = false ∧ e.tag = i.g.issues
         ∧ if hasLane i.on n then e.val = val ∧ e.dest = i.dest l ∧ e.pending = (i.dest l != .none)
           else e.val = destNow l (i.dest l) ∧ e.dest = .none ∧ e.pending = false
       (Clean s .imul f i → ∃ t, exec (.imul f) s = .next t ∧
         pushed (BitVec.ofNat 128 (fnImul f (i.srcs (launchOf s i.t) n l)).bits) t)
       ∧ (Clean s .lea f i → ∃ t, exec (.lea f) s = .next t ∧
         pushed ((low64 (i.srcs (launchOf s i.t) n l).a
           + ((low32 (i.srcs (launchOf s i.t) n l).b).setWidth 64 <<< (f.imm.extractLsb' 0 3).toNat)).setWidth 128) t)
       ∧ (Clean s .pand f i → ∃ t, exec (.pand f) s = .next t ∧ pushed (flag (predOf l f.a.toNat && predOf l f.b.toNat)) t))
  ∧ (∀ (o : Op) (f : Form) (s : State) (i : Issue) (n : Nat) (l : Lane), o ∈ computeOps → (f.ty = 9#5 → o ∉ [Op.pack, .unpack]) →
       Quiet s o f i → i.lane n = some l → hasLane i.m n = true →
       let rounds := ((roundedResult o f i n l (i.srcs (launchOf s i.t) n l)).map FRes.rounds).getD 0
       ∃ t, exec (Instr.ofOp o f) s = .next t ∧ ∃ l', laneIn t i.t.ref i.g.id n = some l' ∧
         l'.sr = if hasLane i.on n = true ∧ f.rm = 5#3 then l.sr + BitVec.ofNat 32 rounds else l.sr)

/-- 02 R29 for one request, and 02 R26 with R27: the pieces partition the iterations. That an END piece has first iteration and tile 0 is DESIGN
CHOICE, log 62, and where the fix-up copy of a team that waits for a relaunch stands is DEDUCED, log 57. -/
def Obligations.WorkNextHandsOutThePieces : Prop :=
  (∀ (f : Form) (s : State) (i : Issue), Clean s .worknext f i →
    let l := launchOf s i.t
    let r := i.t.ref.team
    let piece := if l.persistent = true ∧ r < workTeams l then (teamPieces l r)[i.g.requests]? else none
    let words := pieceWords s l i.t.ref.launch r piece
    ∃ t h, exec (.worknext f) s = .next t ∧ groupIn t i.t.ref i.g.id = some h
      ∧ h.requests = i.g.requests + 1
      ∧ (∀ k, mapGetD h.s k 0#64 =
          if f.d.toNat - 0x40 ≤ k ∧ k < f.d.toNat - 0x40 + 5 then words.getD (k - (f.d.toNat - 0x40)) 0#64 else mapGetD i.g.s k 0#64)
      ∧ IssueFrame (fun g h => GroupKept { g with s := h.s, requests := h.requests } h) LaneKept s t i)
  ∧ (∀ l : Launch, 1 ≤ l.gx → 1 ≤ l.gy → 1 ≤ l.gz → 1 ≤ l.iter → 1 ≤ l.tile → ∀ k, k < l.iter →
    ((List.range (workTeams l)).flatMap (teamPieces l)).countP (fun p => decide (p.first ≤ k) && decide (k < p.first + p.count)) = 1)

/-- 09 R138 and R139 (below depth 1,024), with 03 R38. -/
def Obligations.BranchesMoveTheLanes : Prop :=
  ∀ f : Form,
    let shallow (i : Issue) : Prop := ∀ p ∈ i.active, p.2.rstack.length < 1024
    let register (s : State) (i : Issue) (n : Nat) (l : Lane) : Pc := low64 (i.srcs (launchOf s i.t) n l).a
    Branches (.br f) .br f (fun _ => True) (fun _ i _ _ => label f i) (fun _ => Continues)
    ∧ Branches (.jmpDirect f) .jmpDirect f (fun _ => True) (fun _ i _ _ => label f i) (fun _ => Continues)
    ∧ Branches (.jmpRegister f) .jmpRegister f (fun _ => True) register (fun _ => Continues)
    ∧ Branches (.call f) .call f shallow (fun _ i _ _ => label f i) Calls
    ∧ Branches (.calli f) .calli f shallow register Calls

/-- 09 R140 and R142. -/
def Obligations.ReturnExitNextAndYield : Prop :=
  ∀ (f : Form) (s : State) (i : Issue),
    let onward (_ : Nat) (l l' : Lane) : Prop := l'.pc = i.nextPc ∧ l'.rstack = l.rstack
    (Clean s .ret f i → ∃ t, exec (.ret f) s = .next t ∧ DeviceKept s t i
      ∧ SegmentOver t i (fun _ l l' =>
        match l.rstack with
        | [] => l'.st = .done
        | p :: r => l'.pc = p ∧ l'.rstack = r) onward)
    ∧ (Clean s .exit f i → ∃ t, exec (.exit f) s = .next t ∧ DeviceKept s t i
      ∧ SegmentOver t i (fun _ _ l' => l'.st = .done) onward)
    ∧ (Clean s .next f i → ∃ t, exec (.next f) s = .next t ∧ EndFrame s t i
      ∧ SegmentOver t i (fun _ l l' => Continues i.nextPc l l') (fun _ l l' => Continues i.nextPc l l'))
    ∧ (Clean s .yield f i → ∃ t, exec (.yield f) s = .next t ∧ EndFrame s t i
      ∧ SegmentOver t i (fun _ l l' => Continues i.nextPc { l with yield := true } l') (fun _ l l' => Continues i.nextPc l l'))

/-- 09 R141, 14 R237, R240 and R241. -/
def Obligations.WaitsAndTheirReleases : Prop :=
  ∀ (f : Form) (s : State) (i : Issue),
    let onward (_ : Nat) (l l' : Lane) : Prop := Continues i.nextPc l l'
    let addr (n : Nat) (l : Lane) : BitVec 32 := low32 (i.srcs (launchOf s i.t) n l).a + BitVec.ofInt 32 f.imm.toInt
    let operand (n : Nat) (l : Lane) : BitVec 32 := low32 (i.srcs (launchOf s i.t) n l).b
    let allowed (w : Nat) : Prop := ∀ p ∈ i.active, ∃ c o, sramCheck s i.t (addr p.1 p.2) w false = .ok (c, o)
    let waits (st : LaneState) (w : Wait) (l' : Lane) : Prop := l'.pc = i.nextPc ∧ l'.st = st ∧ l'.wait = w
    (Clean s .park f i → allowed 4 → ∃ t, exec (.park f) s = .next t ∧ SegmentOver t i (fun n l l' =>
      if parkWord s i.t (addr n l) = operand n l then waits .park (.parkWord (addr n l) (operand n l)) l' else Continues i.nextPc l l') onward)
    ∧ (Clean s .parkFull f i → allowed 1 → ∃ t, exec (.parkFull f) s = .next t ∧ SegmentOver t i (fun n l l' =>
      ∀ c o, sramPlace s i.t (addr n l) = some (c, o) →
        if granuleFull s c o then Continues i.nextPc l l' else waits .park (.parkFull (addr n l)) l') onward)
    ∧ (Clean s .barwait f i → allowed 8 → ∃ t, exec (.barwait f) s = .next t ∧ SegmentOver t i (fun n l l' =>
      ∀ c o, sramPlace s i.t (addr n l) = some (c, o) →
        if bit (barWord s i.t c o) 63 = (operand n l).getLsbD 0 then waits .waitb (.barwait (addr n l) ((operand n l).getLsbD 0)) l'
        else Continues i.nextPc l l') onward)
    ∧ (Clean s .barsync f i → ∃ t, exec (.barsync f) s = .next t ∧ DeviceKept s t i ∧ SegmentOver t i (fun _ _ l' =>
      let arrived : Bool := i.t.ended.isNone && i.t.groups.all (fun g => g.lanes.all (fun p =>
        (g.id == i.g.id && hasLane i.m p.1) || p.2.st == .done || p.2.wait == .barsync))
      if arrived then waits .run .none l' else waits .waitb .barsync l') (fun _ _ _ => True))
    ∧ (Clean s .syncm f i → (∀ p ∈ i.active, operand p.1 p.2 = i.on) → (∀ k, hasLane i.on k = true → (i.lane k).isSome = true) →
      (i.l16 = true → ∀ k n, hasLane i.on k = true → hasLane i.on n = true → k / 16 = n / 16) →
      ∃ t, exec (.syncm f) s = .next t ∧ SegmentOver t i (fun _ _ l' => waits .run .none l') onward)
    ∧ (Clean s .syncm f i → i.l16 = false → (∀ p ∈ i.active, hasLane (operand p.1 p.2) p.1 = true
          ∧ (∀ k, hasLane (operand p.1 p.2) k = true → (i.lane k).isSome = true)
          ∧ ∃ k l, hasLane (operand p.1 p.2) k = true ∧ hasLane i.m k = false ∧ i.lane k = some l ∧ syncMask l = none) →
      ∃ t, exec (.syncm f) s = .next t ∧ SegmentOver t i (fun n l l' => waits .waitb (.syncm (operand n l) f.scope.toNat) l') onward)

/-- 14 R219, R220, R222 and R224 for loads whose checks pass. -/
def Obligations.LoadsReadTheirBytes : Prop :=
  ∀ (f : Form) (s : State) (i : Issue),
    let w := widthBytes f.sub
    let far (n : Nat) (l : Lane) (_ : Srcs) : Option QWord :=
      match globalPlace s f i w .read (n, l) with
      | some (.hbm a) => some (loaded f (bytesNat (hbmRead s (ownerOf s i.t) a w)))
      | _ => none
    let near (n : Nat) (l : Lane) (_ : Srcs) : Option QWord :=
      (slicePlace s f i w false (n, l)).map (fun q => loaded f (bytesNat (sramRead s q.1 q.2 w)))
    let whole (t : State) : Prop := MemFrame s t i ∧ HbmKept s t ∧ SramKept s t ∧ FullSame s t
    (Clean s .ld f i → AllPlaced i (globalPlace s f i w .read) → ∃ t, exec (.ld f) s = .next t ∧ DeliversKnown s t i far ∧ whole t)
    ∧ (Clean s .ldnt f i → AllPlaced i (globalPlace s f i w .read) →
        ∃ t, exec (.ldnt f) s = .next t ∧ DeliversKnown s t i far ∧ whole t)
    ∧ (Clean s .ldm f i → AllPlaced i (slicePlace s f i w false) →
        ∃ t, exec (.ldm f) s = .next t ∧ DeliversKnown s t i near ∧ whole t)

/-- 14 R220 to R222 and R224 for stores whose checks pass. -/
def Obligations.StoresWriteTheirBytes : Prop :=
  ∀ (f : Form) (s : State) (i : Issue),
    let w := widthBytes f.sub
    let data (p : Nat × Lane) : Nat := (i.srcs (launchOf s i.t) p.1 p.2).b.toNat
    let far (t : State) : Prop := Delivers s t i (fun _ _ _ => 0#128) ∧ MemFrame s t i ∧ SramKept s t ∧ FullSame s t
      ∧ StoredHbm s t i w (globalPlace s f i w .write) data
    (Clean s .st f i → AllPlaced i (globalPlace s f i w .write) → ∃ t, exec (.st f) s = .next t ∧ far t)
    ∧ (Clean s .stnt f i → AllPlaced i (globalPlace s f i w .write) →
        (∀ p ∈ i.active, ∀ x, globalPlace s f i w .write p = some x → detPeer s i.t x = false) → ∃ t, exec (.stnt f) s = .next t ∧ far t)
    ∧ (Clean s .stm f i → AllPlaced i (slicePlace s f i w true) →
        ∃ t, exec (.stm f) s = .next t ∧ Delivers s t i (fun _ _ _ => 0#128) ∧ MemFrame s t i ∧ HbmKept s t ∧ FullSame s t
          ∧ StoredSram s t i w (slicePlace s f i w true) data)

/-- 14 R225 and R226. -/
def Obligations.FullEmptyAccesses : Prop :=
  ∀ (f : Form) (s : State) (i : Issue), (i.g.lanes.map Prod.fst).Nodup →
    let w := widthBytes f.sub
    let clr := f.sub.getLsbD 3
    let place := slicePlace s f i w clr
    let granule (p : Nat × Lane) : Option (Nat × Nat) := (place p).map (fun q => (q.1, q.2 / 16))
    let data (p : Nat × Lane) : Nat := (i.srcs (launchOf s i.t) p.1 p.2).b.toNat
    let full (p : Nat × Lane) : Prop := ∀ c o, place p = some (c, o) → granuleFull s c o = true
    let takes (before : List (Nat × Lane)) (p : Nat × Lane) : Prop := full p ∧ (clr = true → ∀ q ∈ before, granule q ≠ granule p)
    (Clean s .ldfe f i → AllPlaced i place →
      ∃ t h, exec (.ldfe f) s = .next t ∧ groupIn t i.t.ref i.g.id = some h
        ∧ (∀ before n l after, i.active = before ++ (n, l) :: after → i.lane n = some l →
            ∃ l', laneIn t i.t.ref i.g.id n = some l' ∧
              (takes before (n, l) → ∀ c o, place (n, l) = some (c, o) →
                LaneAfter i.nextPc l l' (i.dest l) (BitVec.ofNat 128 (bytesNat (sramRead s c o w))) 0#5)
              ∧ (¬ takes before (n, l) → l'.pc = i.nextPc ∧ l'.wait = .ldfe (maIn s f i (n, l)) w clr (i.dest l) i.g.issues false
                ∧ (∀ r, readReg l' r = readReg l r) ∧ (∀ q, predOf l' q = predOf l q)))
        ∧ ((∃ before n l after, i.active = before ++ (n, l) :: after ∧ i.lane n = some l ∧ ¬ takes before (n, l)) →
            (∃ le, h.lease = some le ∧ le.susp = true)
            ∧ ∀ n l, i.lane n = some l → hasLane i.m n = true → ∃ l', laneIn t i.t.ref i.g.id n = some l' ∧ l'.st = .park)
        ∧ ((∀ before n l after, i.active = before ++ (n, l) :: after → takes before (n, l)) →
            (∀ le, i.g.lease = some le → le.susp = false) → (∀ p ∈ i.g.lanes, hasLane i.m p.1 = true → p.2.wait = .none) →
            (∀ le, h.lease = some le → le.susp = false)
            ∧ ∀ n l, i.lane n = some l → hasLane i.m n = true →
              ∃ l', laneIn t i.t.ref i.g.id n = some l' ∧ l'.st = l.st ∧ l'.wait = .none)
        ∧ MemFrame s t i ∧ HbmKept s t ∧ SramKept s t
        ∧ (∀ c a, granuleFull t c a = (granuleFull s c a && !(clr && i.active.any (fun p => granule p == some (c, a / 16))))))
    ∧ (Clean s .stfe f i → AllPlaced i (slicePlace s f i w true) → (∀ le, i.g.lease = some le → le.susp = false) →
      (∀ p ∈ i.g.lanes, hasLane i.m p.1 = true → p.2.wait = .none) →
      ∃ t, exec (.stfe f) s = .next t ∧ Delivers s t i (fun _ _ _ => 0#128) ∧ MemFrame s t i ∧ HbmKept s t
        ∧ StoredSram s t i w (slicePlace s f i w true) data
        ∧ (∀ p ∈ i.active, ∀ c b, slicePlace s f i w true p = some (c, b) → granuleFull t c b = true
            ∨ ∃ r id n l a v d g h, laneIn s r id n = some l ∧ l.wait = .ldfe a v true d g h)
        ∧ (∀ c a, granuleFull t c a = true → granuleFull s c a = true
            ∨ ∃ p ∈ i.active, ∃ b, slicePlace s f i w true p = some (c, b) ∧ b / 16 = a / 16))

/-- 14 R227 and R228, in HBM (HINT 0) and in SRAM (HINT 1). -/
def Obligations.AtomicsReadModifyWrite : Prop :=
  ∀ (f : Form) (s : State) (i : Issue), (launchOf s i.t).det = false →
    let w := intWidth f.ty / 8
    let far := globalPlace s f i w .atomic
    let near := slicePlace s f i w true
    let x (p : Nat × Lane) : Srcs := i.srcs (launchOf s i.t) p.1 p.2
    let oldFar (p : Nat × Lane) : Nat := match far p with | some (.hbm a) => bytesNat (hbmRead s (ownerOf s i.t) a w) | _ => 0
    let oldNear (p : Nat × Lane) : Nat := match near p with | some q => bytesNat (sramRead s q.1 q.2 w) | none => 0
    let new (old : Nat × Lane → Nat) (p : Nat × Lane) : Nat :=
      atomicResult f (BitVec.ofNat _ (old p)) (lowBits f (x p).b) (lowBits f (x p).c)
    let known (old : Nat × Lane → Nat) (n : Nat) (l : Lane) (_ : Srcs) : Option QWord := some (BitVec.ofNat 128 (old (n, l)))
    let apartFar : Prop := Apart i far (fun a b => ∃ p q, a = .hbm p ∧ b = .hbm q ∧ p < q + w ∧ q < p + w)
    let apartNear : Prop := Apart i near (fun a b => a.1 = b.1 ∧ a.2 < b.2 + w ∧ b.2 < a.2 + w)
    let global (o : Op) (j : Instr) : Prop := Clean s o f i → f.hint = 0#2 → AllPlaced i far → apartFar →
      (∀ p ∈ i.active, ∃ a, far p = some (.hbm a)) → (i.g.lanes.map Prod.fst).Nodup →
      ∃ t, exec j s = .next t ∧ DeliversKnown s t i (known oldFar) ∧ MemFrame s t i ∧ SramKept s t ∧ FullSame s t
        ∧ StoredHbm s t i w far (new oldFar)
    let shared (o : Op) (j : Instr) : Prop := Clean s o f i → f.hint = 1#2 → AllPlaced i near → apartNear → (i.g.lanes.map Prod.fst).Nodup →
      ∃ t, exec j s = .next t ∧ DeliversKnown s t i (known oldNear) ∧ MemFrame s t i ∧ HbmKept s t ∧ FullSame s t
        ∧ StoredSram s t i w near (new oldNear)
    global .atom (.atom f) ∧ shared .atom (.atom f) ∧ global .red (.red f) ∧ shared .red (.red f)

/-- 24 R375, the buffer and the refusal, and 25 R387; that STNT is no plain store is DEDUCED, log 74. -/
def Obligations.DeterministicLaunchesBufferTheirReds : Prop :=
  ∀ (f : Form) (s : State) (i : Issue) (la : Launch), (launchOf s i.t).det = true → mapGet s.launches i.t.ref.launch = some la →
    f.hint = 0#2 →
    let w := intWidth f.ty / 8
    let far := globalPlace s f i w .atomic
    (Clean s .red f i → f.sub = 8#8 → (∀ p ∈ i.active, ∃ a, far p = some (.hbm a)) → la.detCount + i.active.length ≤ 2 ^ 20 →
      ∃ t lb, exec (.red f) s = .next t ∧ mapGet t.launches i.t.ref.launch = some lb ∧ HbmKept s t ∧ SramKept s t
        ∧ Delivers s t i (fun _ _ _ => 0#128) ∧ lb.detCount = la.detCount + i.active.length
        ∧ lb.detBuf = la.detBuf ++ i.active.map (fun p =>
          ⟨i.t.ref.team, i.g.id, i.g.issues, p.1, (match far p with | some (.hbm a) => a | _ => 0),
            low32 (i.srcs (launchOf s i.t) p.1 p.2).b⟩))
    ∧ (Clean s .atom f i → AllPlaced i far → ∀ n l, i.lane n = some l → hasLane i.on n = true →
      ∃ t l' h, exec (.atom f) s = .next t ∧ laneIn t i.t.ref i.g.id n = some l' ∧ l'.st = .hold ∧ l'.hold = some h
        ∧ h.code = cDetAtomic ∧ l'.pc = l.pc ∧ ∀ r, readReg l' r = readReg l r)
    ∧ (Clean s .stnt f i → (i.g.lanes.map Prod.fst).Nodup → ∀ n l, i.lane n = some l → hasLane i.on n = true →
      (∃ a b c, globalPlace s f i (widthBytes f.sub) .write (n, l) = some (.peer a b c)) →
      ∃ t l' h, exec (.stnt f) s = .next t ∧ laneIn t i.t.ref i.g.id n = some l' ∧ l'.st = .hold ∧ l'.hold = some h
        ∧ h.code = cDetAtomic ∧ l'.pc = l.pc ∧ ∀ r, readReg l' r = readReg l r)

/-- 09 R136 and 14 R230. 14 R229. -/
def Obligations.ScalarLoadsPoolAndHints : Prop :=
  (∀ (f : Form) (s : State) (i : Issue),
       let a := scalarSrcs s i
       let d := f.d.toNat - 0x40
       let frame (t : State) : Prop := AccessFrame (fun g h => AccessGroup { g with s := h.s } h) s t i ∧ HbmKept s t ∧ SramKept s t
         ∧ Delivers s t i (fun _ _ _ => 0#128)
       let holds (t : State) (v : BitVec 64) : Prop := ∃ h, groupIn t i.t.ref i.g.id = some h ∧ ScalarHolds i.g h d v
       let va := (((low64 a.a).toNat + f.imm.toInt) % (2 ^ 57 : Nat) : Int).toNat
       let record := ((poolOf s (launchOf s i.t)).1 + 16 * (low64 a.a).toNat) % 2 ^ 57
       (∀ pa, Clean s .sld f i → globalCheck s i.t va (widthBytes f.sub) .read = .ok (.hbm pa) →
         ∃ t, exec (.sld f) s = .next t ∧ frame t
           ∧ holds t (reduced f (BitVec.ofNat 64 (bytesNat (hbmRead s (ownerOf s i.t) pa (widthBytes f.sub))))))
       ∧ (∀ pa, Clean s .pld f i → (low64 a.a).toNat < (poolOf s (launchOf s i.t)).2 → globalCheck s i.t record 8 .read = .ok (.hbm pa) →
         ∃ t, exec (.pld f) s = .next t ∧ frame t ∧ holds t (BitVec.ofNat 64 (bytesNat (hbmRead s (ownerOf s i.t) pa 8)))))
  ∧ (∀ (f : Form) (s : State) (i : Issue),
       let whole (t : State) : Prop := Delivers s t i (fun _ _ _ => 0#128) ∧ MemFrame s t i ∧ HbmKept s t ∧ SramKept s t ∧ FullSame s t
       (Clean s .prefetch f i → ∃ t, exec (.prefetch f) s = .next t ∧ whole t)
       ∧ (Clean s .cctl f i → ∃ t, exec (.cctl f) s = .next t ∧ whole t))

/-- 14 R231 to R235: what starts; R203 says when it is met (FencesCompleteWhenMet). -/
def Obligations.FencesGoIntoFlight : Prop :=
  ∀ (f : Form) (s : State) (i : Issue), i.on ≠ 0#32 →
    let started (k : FenceKind) (t : State) : Prop := ∃ h, groupIn t i.t.ref i.g.id = some h
      ∧ h.fences = i.g.fences ++ [⟨k, f.scope.toNat⟩] ∧ Delivers s t i (fun _ _ _ => 0#128)
      ∧ IssueFrame (fun g h => GroupKept { g with fences := h.fences } h) LaneKept s t i
    (Clean s .fence f i → ∃ t, exec (.fence f) s = .next t ∧ started .plain t)
    ∧ (Clean s .ntdrain f i → ∃ t, exec (.ntdrain f) s = .next t ∧ started .drain t)
    ∧ (Clean s .fenceR f i →
      (∀ q ∈ fenceItems s i, q.1 = 2 → ∀ v ∈ q.2.2, (rangeOf v).isSome = true) →
      (∀ q ∈ fenceItems s i, q.1 = 1 → (mapGet i.t.handles q.2.1).isSome = true) →
      ∃ t rs, exec (.fenceR f) s = .next t ∧ started (.ranged rs) t
        ∧ (∀ q ∈ fenceItems s i, q.1 = 2 → ∀ v ∈ q.2.2, ∀ r, rangeOf v = some r → r ∈ rs)
        ∧ (∀ q ∈ fenceItems s i, q.1 = 1 → ∀ h, mapGet i.t.handles q.2.1 = some h → handleTag h ∈ rs))
    ∧ (∀ h e, Clean s .publish f i → mapGet i.t.handles f.a.toNat = some h → publishedOf s i.t h = some e →
      ∃ t, exec (.publish f) s = .next t ∧ started (.publish e) t)

/-- 11 R170 with 14 R238 and R239, at a place that is no vacated team's fix-up barrier for the issuing team. -/
def Obligations.BarrierWords : Prop :=
  ∀ (f : Form) (s : State) (i : Issue) (p : Nat × Lane) (c o : Nat),
    let word (s : State) : Nat := bytesNat (sramRead s c o 8)
    let count (q : Nat × Lane) : Nat := (low32 (i.srcs (launchOf s i.t) q.1 q.2).b).toNat
    let e := count p
    let expected := word s / 2 ^ 48 % 2 ^ 15
    let arrived := word s / 2 ^ 33 % 2 ^ 15
    let pending := word s % 2 ^ 33
    let phase := word s / 2 ^ 63
    let alone : Prop := i.active = [p] ∧ slicePlace s f i 8 true p = some (c, o) ∧ vacatedAt s i.t c o = none
    let frame (t : State) : Prop := Delivers s t i (fun _ _ _ => 0#128) ∧ MemFrame s t i ∧ HbmKept s t
      ∧ ∀ c' a, (c' ≠ c ∨ a < o ∨ o + 8 ≤ a) → readByte (coreAt t c').sram a = readByte (coreAt s c').sram a
    (Clean s .barinit f i → alone → 1 ≤ e → e ≤ 32767 →
      ∃ t, exec (.barinit f) s = .next t ∧ frame t ∧ word t = phase * 2 ^ 63 + e * 2 ^ 48)
    ∧ (Clean s .barinit f i → AllPlaced i (slicePlace s f i 8 true) → (∀ q ∈ i.active, 1 ≤ count q ∧ count q ≤ 32767) →
      (∀ q ∈ i.active, ∀ c o, slicePlace s f i 8 true q = some (c, o) → vacatedAt s i.t c o = none) →
      ∃ t, exec (.barinit f) s = .next t ∧ Delivers s t i (fun _ _ _ => 0#128) ∧ MemFrame s t i ∧ HbmKept s t
        ∧ StoredSram s t i 8 (slicePlace s f i 8 true) (fun q => match slicePlace s f i 8 true q with
          | some (c, o) => bytesNat (sramRead s c o 8) / 2 ^ 63 * 2 ^ 63 + count q * 2 ^ 48
          | none => 0))
    ∧ (Clean s .bararv f i → alone → arrived < expected →
      ∃ t, exec (.bararv f) s = .next t ∧ frame t ∧
        word t = if arrived + 1 = expected ∧ pending = 0 then (1 - phase) * 2 ^ 63 + expected * 2 ^ 48 else word s + 2 ^ 33)

/-- 14 R236 and R242 to R244. -/
def Obligations.TensorHandleInstructions : Prop :=
  ∀ (f : Form) (s : State) (i : Issue), i.on ≠ 0#32 →
    let n := f.a.toNat
    let lead := electSrcs s i
    let va := (((low64 lead.b).toNat + f.imm.toInt) % (2 ^ 57 : Nat) : Int).toNat
    let has (t : State) (h : Handle) : Prop :=
      ∃ u, teamAt t i.t.ref = some u ∧ ∀ k, mapGet u.handles k = if k = n then some h else mapGet i.t.handles k
    let frame (t : State) : Prop := Delivers s t i (fun _ _ _ => 0#128) ∧ MemFrame s t i ∧ SramKept s t ∧ FullSame s t
      ∧ ∃ u, teamAt t i.t.ref = some u ∧ { u with groups := i.t.groups, handles := i.t.handles } = i.t
    (∀ pa, Clean s .tdld f i → globalCheck s i.t va 64 .read = .ok (.hbm pa) →
      let r := bytesNat (hbmRead s (ownerOf s i.t) pa 64)
      bits r 127 97 = 0 → handleOk (handleOf r) = true →
      ∃ t, exec (.tdld f) s = .next t ∧ has t (handleOf r) ∧ frame t ∧ HbmKept s t)
    ∧ (∀ h, Clean s .tdset f i → mapGet i.t.handles n = some h →
      handleOk (setField h (f.imm.toNat % 32) lead.b.toNat) = true →
      ∃ t, exec (.tdset f) s = .next t ∧ has t (setField h (f.imm.toNat % 32) lead.b.toNat) ∧ frame t ∧ HbmKept s t)
    ∧ (∀ h, Clean s .tdst f i → mapGet i.t.handles n = some h → h.fmt = f.ty.toNat →
      let w := formatBits f.ty.toNat / 8
      let x (p : Nat × Lane) : Srcs := i.srcs (launchOf s i.t) p.1 p.2
      let place (p : Nat × Lane) : Option Xl :=
        match globalCheck s i.t (vaOf h.base ((elementOffset h (low32 (x p).b).toNat * w : Nat) : Int)) w (if h.pub then .back else .write) with
        | .ok y => some y
        | .error _ => none
      (∀ p ∈ i.active, (low32 (x p).b).toNat < handleCount h) → AllPlaced i place →
      ∃ t, exec (.tdst f) s = .next t ∧ frame t ∧ (∃ u, teamAt t i.t.ref = some u ∧ u.handles = i.t.handles)
        ∧ StoredHbm s t i w place (fun p => (x p).c.toNat))
    ∧ (∀ h e q, Clean s .ldgen f i → mapGet i.t.handles n = some h → publishedOf s i.t h = some e → mapGet s.published e = some q →
      ∃ t, exec (.ldgen f) s = .next t ∧ Delivers s t i (fun _ _ _ => (q.gen.setWidth 32).setWidth 128) ∧ MemFrame s t i
        ∧ HbmKept s t ∧ SramKept s t ∧ FullSame s t ∧ (∃ u, teamAt t i.t.ref = some u ∧ { u with groups := i.t.groups } = i.t))

/-- 07 R100: the whole issue set is held before any effect. -/
def Obligations.WholeIssueSetFaultsHoldTheSet : Prop :=
  (∀ (o : Op) (f : Form) (s : State) (i : Issue) (c : Code),
    o ∉ [Op.csrr, .csrw, .fenceR, .pld, .mxgo, .mxv, .xstart, .xsig, .xstat, .barsync, .syncm] →
    issueOf s o f = some i → i.wholeFault = some c → ∃ t, exec (Instr.ofOp o f) s = .next t ∧ WholeHeld s t i c)
  ∧ (∀ (b a d : BitVec 7) (k : Bool) (l : BitVec 2) (s : State) (i : Issue), issueOf s .nop {} = some i →
    ∃ t, exec (.udf b a k d l) s = .next t ∧ WholeHeld s t i cIllegalOp)

/-- 20 R312 with 04 R56, 14 R220 and 09 R139: per-lane faults. -/
def Obligations.LaneFaultsHoldTheirLanes : Prop :=
  ∀ (f : Form) (s : State) (i : Issue),
    (f.wellFormed .iadd = true → issueOf s .iadd f = some i → i.wholeFault = none → ∃ t, exec (.iadd f) s = .next t
      ∧ ∀ n l, i.lane n = some l → hasLane i.on n = true →
        if i.indexBad l then HeldAt s t i n cIndexBounds
        else ∃ l', laneIn t i.t.ref i.g.id n = some l' ∧
          let x := i.srcs (launchOf s i.t) n l
          LaneAfter i.nextPc l l' (i.dest l)
            (extended f (limited f (number f (lowBits f x.a) + number f (lowBits f x.b)))) 0#5)
    ∧ (Clean s .ld f i → (i.g.lanes.map Prod.fst).Nodup → ∃ t, exec (.ld f) s = .next t
      ∧ ∀ n l, i.lane n = some l → hasLane i.on n = true →
        if vaIn s f i (n, l) % widthBytes f.sub ≠ 0 then HeldAt s t i n cAlign
        else (∀ c, teamTranslate s i.t (vaIn s f i (n, l)) .read = .fault c → HeldAt s t i n c)
          ∧ ∀ a, teamTranslate s i.t (vaIn s f i (n, l)) .read = .hbm a → ∃ l', laneIn t i.t.ref i.g.id n = some l'
            ∧ LaneAfter i.nextPc l l' (i.dest l) (loaded f (bytesNat (hbmRead s (ownerOf s i.t) a (widthBytes f.sub)))) 0#5)
    ∧ (Clean s .call f i → (i.g.lanes.map Prod.fst).Nodup → ∃ t, exec (.call f) s = .next t
      ∧ ∀ n l, i.lane n = some l → hasLane i.on n = true →
        if 1024 ≤ l.rstack.length then HeldAt s t i n cDepthOverflow
        else ∃ l', laneIn t i.t.ref i.g.id n = some l' ∧ Calls i (label f i) l l')

/-- 08 R120 and 20 R317: taking a floating-point exception. -/
def Obligations.EnabledFloatFlagsTrap : Prop :=
  ∀ (f : Form) (s : State) (i : Issue), Clean s .fadd f i → (∀ p ∈ i.g.lanes, p.2.skipTrap = false) →
    let c := f.ty.toNat
    let res (n : Nat) (l : Lane) : FRes :=
      let x := i.srcs (launchOf s i.t) n l
      fAdd c f.rm.toNat f.sat (laneHash i n l 0) (fsrc c x.a) (fsrc c x.b)
    ∃ t, exec (.fadd f) s = .next t ∧ ∀ n l, i.lane n = some l → hasLane i.on n = true →
      let e := (res n l).flags &&& i.t.fpxen
      if e = 0#5 then
        ∃ l', laneIn t i.t.ref i.g.id n = some l'
          ∧ LaneAfter i.nextPc l l' (i.dest l) (BitVec.ofNat 128 (res n l).bits) (res n l).flags
      else
        (∃ h w, laneIn t i.t.ref i.g.id n
            = some { l with
                flags := l.flags ||| (res n l).flags, st := .hold, hold := some h, completed := false, wait := w } ∧ h.code = cFpx
            ∧ (l.wait = .none → w = .none))
        ∧ ∃ w ∈ (coreAt t i.t.core).windows, w.launch = i.t.ref.launch
          ∧ ∃ x ∈ w.lanes, x.ref = i.t.ref ∧ x.group = i.g.id ∧ x.lane = n ∧ x.flags = e

/-- 20 R329 and R331, with R315 for the records. -/
def Obligations.SyscallTrapAndBreakEnterTheHandler : Prop :=
  ∀ (f : Form) (s : State) (i : Issue),
    let n : BitVec 57 := (f.imm.extractLsb' 0 16).setWidth 57
    let enters (t : State) (c : Code) (kind : Nat) (addr : BitVec 57) : Prop :=
      Delivers s t i (fun _ _ _ => 0#128) ∧ SramKept s t
        ∧ (∀ k l, i.lane k = some l → hasLane i.on k = true → HeldAfter t i k c)
        ∧ (∀ k l, i.lane k = some l → hasLane i.m k = true → hasLane i.on k = false →
            ∃ l', laneIn t i.t.ref i.g.id k = some l' ∧ l'.st = l.st)
        ∧ (i.on ≠ 0#32 → Recorded s t (Names s i c kind i.on addr))
        ∧ (i.on = 0#32 → t.faultQ = s.faultQ)
    (Clean s .syscall f i → ∃ t, exec (.syscall f) s = .next t ∧ enters t cTrap 9 (2 ^ 56 + n))
    ∧ (Clean s .trap f i → ∃ t, exec (.trap f) s = .next t ∧ enters t cTrap 7 n)
    ∧ (Clean s .brk f i → ∃ t, exec (.brk f) s = .next t ∧ enters t cBreak 7 0#57)

/-- 20 R316 and R330: return from an exception. That the host resolves the firmware slot's records, all but a SYSCALL's, is DEDUCED, log 30; a
halted or stepped lane keeps its mark of standing inside a segment. -/
def Obligations.ResumeAndKillResolveARecord : Prop :=
  let found (s : State) (core seq : Nat) (r : FaultRec) : Prop :=
    s.faultQ.find? (fun q => q.seq == seq && q.core == core && !q.resolved) = some r
  let closed (t : State) (seq : Nat) : Prop := ∀ q ∈ t.faultQ, q.seq = seq → q.resolved = true
  let last (s : State) (seq : Nat) (r : FaultRec) : Prop :=
    (∀ q ∈ s.faultQ, q.set = r.set → q.seq ≠ seq → q.resolved = true) ∧ ∀ q ∈ s.faultWait, q.set ≠ r.set
  let resumed (s t : State) (r : FaultRec) : Prop :=
    ∀ ref id n l, EndedNot s ref → laneIn s ref id n = some l →
      (∀ h, l.st = .hold → l.hold = some h → h.set = r.set → laneIn t ref id n = some
        { l with st := .run, hold := none, replay := l.replay || !stoppedHold h, skipTrap := h.code == cFpx, skipBreak := skipNext l h })
      ∧ ((l.st ≠ .hold ∨ ∀ h, l.hold = some h → h.set ≠ r.set) → laneIn t ref id n = some l)
  let killed (s t : State) (r : FaultRec) : Prop :=
    ∀ ref u, teamAt s ref = some u → u.ended = none → (∃ g ∈ u.groups, ∃ p ∈ g.lanes, ∃ h, p.2.hold = some h ∧ h.set = r.set) →
      EndedWith t ref r.code
  let may (host : Option Cred) (r : FaultRec) : Prop :=
    match host with
    | none => True
    | some c => (r.tpol = 1 ∨ r.ref.launch = 0) ∧ credOwns c r.owner = true ∧ isSyscall r = false
  (∀ s host core (seq : BitVec 64) r, found s core seq.toNat r → last s seq.toNat r → may host r →
    ∃ t, exec (.faultAck ⟨host, core⟩ seq) s = .next t ∧ closed t seq.toNat ∧ resumed s t r)
  ∧ (∀ s host core (seq : BitVec 64) r, found s core seq.toNat r → may host r →
    ∃ t, exec (.faultKill ⟨host, core⟩ seq) s = .next t ∧ closed t seq.toNat ∧ killed s t r)
  ∧ (∀ s host core (seq : BitVec 64), (∀ r, found s core seq.toNat r → ¬ may host r) →
    exec (.faultAck ⟨host, core⟩ seq) s = .next s ∧ exec (.faultKill ⟨host, core⟩ seq) s = .next s)
  ∧ (∀ f s i, Clean s .eret f i → isFirmwareSlot i.g.part i.g.slot = true →
    let seq := (low64 (scalarSrcs s i).a).toNat
    (∀ r, found s i.t.core seq r → last s seq r → f.imm.getLsbD 0 = false →
      ∃ t, exec (.eret f) s = .next t ∧ closed t seq ∧ Delivers s t i (fun _ _ _ => 0#128)
        ∧ ∀ ref id n l h, (ref ≠ i.t.ref ∨ id ≠ i.g.id) → EndedNot s ref → laneIn s ref id n = some l → l.st = .hold →
          l.hold = some h → h.set = r.set → laneIn t ref id n = some
            { l with st := .run, hold := none, replay := l.replay || !stoppedHold h, skipTrap := h.code == cFpx, skipBreak := skipNext l h })
    ∧ (∀ r, found s i.t.core seq r → f.imm.getLsbD 0 = true →
      ∃ t, exec (.eret f) s = .next t ∧ closed t seq ∧ Delivers s t i (fun _ _ _ => 0#128) ∧ killed s t r)
    ∧ ((∀ r, ¬ found s i.t.core seq r) →
      ∃ t, exec (.eret f) s = .next t ∧ Delivers s t i (fun _ _ _ => 0#128) ∧ ComputeFrame s t i))
  ∧ (∀ f s i, Clean s .eret f i → isFirmwareSlot i.g.part i.g.slot = false →
    ∃ t, exec (.eret f) s = .next t ∧ WholeHeld s t i cPriv)

/-- 20 R327 and R328: what CSRR reads. -/
def Obligations.CsrReadsGiveTheRegisters : Prop :=
  ∀ (f : Form) (s : State) (i : Issue), Clean s .csrr f i →
    let n := (f.imm.extractLsb' 0 12).toNat
    let la := launchOf s i.t
    let k := coreAt s i.t.core
    let up (m : List (Nat × BitVec 64)) : Option Nat := some (mapGetD m (n % 16) 0#64).toNat
    let known : Option Nat :=
      match n with
      | 0x000 => some i.t.ref.team | 0x002 => some la.gx | 0x003 => some la.gy | 0x004 => some la.gz | 0x005 => some i.g.role
      | 0x009 => some (0xFFE00000 + i.t.winOff) | 0x00A => some i.t.winLen
      | 0x00B => some (i.t.tiles.length * 65536 + i.t.units.length) | 0x00C => some i.t.fpxen.toNat
      | 0x00D => some (i.t.usedE.toNat * 2 + i.t.usedS.toNat)
      | 0x010 => some (i.g.req * 4294967296 + i.g.base * 65536 + i.g.alloc)
      | 0x011 => some i.g.ovfRd.toNat | 0x012 => some i.g.ovfWr.toNat | 0x013 => some i.g.ovfMiss.toNat
      | 0x018 => some i.g.spinCnt.toNat | 0x019 => some i.g.spinLim.toNat | 0x01A => some i.g.spinRot.toNat
      | 0x01B => some i.g.spinPc.toNat
      | 0x100 => some k.lcr.en.toNat | 0x170 => some k.lcr.totAct.toNat | 0x171 => some k.lcr.totDiv.toNat
      | 0x172 => some k.lcr.totPred.toNat | 0x173 => some k.lcr.totAbs.toNat | 0x174 => some k.lcr.idle.toNat
      | 0x175 => some k.lcr.forage.toNat | 0x176 => some k.lcr.pass.toNat | 0x300 => some k.forageEn.toNat
      | 0x320 => some k.lcr.hot.toNat | 0x321 => some k.lcr.inst.toNat | 0x322 => some k.lcr.promo.toNat
      | 0x323 => some k.lcr.disc.toNat | 0x324 => some k.lcr.wdraw.toNat | 0x325 => some k.lcr.emiss.toNat
      | 0x400 => some 0 | 0x401 => some 0 | 0x403 => some s.faultNext
      | _ =>
        if 0x014 ≤ n ∧ n < 0x018 then
          some ((mapGetD i.g.aw (n - 0x014) {}).len.toNat * 65536 + (mapGetD i.g.aw (n - 0x014) {}).base.toNat)
        else if n / 16 = 0x11 then up k.lcr.base else if n / 16 = 0x12 then up k.lcr.lim
        else if n / 16 = 0x13 then up k.lcr.act else if n / 16 = 0x14 then up k.lcr.div
        else if n / 16 = 0x15 then up k.lcr.prd else if n / 16 = 0x16 then up k.lcr.abs else none
    let done (t : State) (is : BitVec 64 → Prop) : Prop := exec (.csrr f) s = .next t
      ∧ (∃ h, groupIn t i.t.ref i.g.id = some h ∧ ∃ b, is b ∧ ScalarHolds i.g h (f.d.toNat - 0x40) b)
      ∧ Delivers s t i (fun _ _ _ => 0#128) ∧ ScalarFrame s t i
    (∀ v, known = some v → ∃ t, done t (fun b => b = BitVec.ofNat 64 v))
    ∧ (∀ j, j < 5 → n = 0x01C + j → (i.g.lanes.map Prod.fst).Nodup →
      ∃ t, done t (fun b => ∀ m l, i.lane m = some l → m < 32 → b.getLsbD m = l.flags.getLsbD j))

/-- 20 R328: what CSRW writes. -/
def Obligations.CsrWritesChangeWhatTheyMay : Prop :=
  ∀ (f : Form) (s : State) (i : Issue), Clean s .csrw f i →
    let n := (f.imm.extractLsb' 0 12).toNat
    let v := low64 (scalarSrcs s i).a
    let plain (t : State) : Prop := Delivers s t i (fun _ _ _ => 0#128)
    let firm := isFirmwareSlot i.g.part i.g.slot
    (n = 0x00C → ∃ t u, exec (.csrw f) s = .next t ∧ plain t ∧ teamAt t i.t.ref = some u ∧ u.fpxenNext = some (v.setWidth 5)
        ∧ u.fpxen = i.t.fpxen ∧ MemoryKept s t)
    ∧ (n = 0x019 → ∃ t h, exec (.csrw f) s = .next t ∧ plain t ∧ groupIn t i.t.ref i.g.id = some h
        ∧ h.spinLim = (if v.extractLsb' 0 16 < 16#16 then 16#16 else v.extractLsb' 0 16) ∧ MemoryKept s t)
    ∧ (∀ j, j < 5 → n = 0x01C + j → ∃ t, exec (.csrw f) s = .next t ∧ MemoryKept s t ∧ ∀ m l, i.lane m = some l →
        ∃ l', laneIn t i.t.ref i.g.id m = some l'
          ∧ (hasLane i.m m = true → l'.pc = i.nextPc) ∧ (hasLane i.m m = false → l'.pc = l.pc)
          ∧ (∀ b, l'.flags.getLsbD b = (l.flags.getLsbD b && !(v.getLsbD m && b == j)))
          ∧ (∀ r, readReg l' r = readReg l r) ∧ (∀ q, predOf l' q = predOf l q))
    ∧ ((n < 0x00C ∨ (n = 0x00D ∧ firm = true) ∨ (0x010 ≤ n ∧ n ≤ 0x018) ∨ n = 0x01A ∨ n = 0x01B ∨ n = 0x403 ∨ n = 0x176) →
        ∃ t, exec (.csrw f) s = .next t ∧ plain t ∧ ComputeFrame s t i)
    ∧ (firm = true → isDeviceRegister n = true →
        ∃ t, exec (.csrw f) s = .next t ∧ plain t ∧ RegisterHolds t i.t.core n v)
    ∧ (firm = true → n = 0x402 → s.faultBaseSet = false →
        ∃ t, exec (.csrw f) s = .next t ∧ plain t ∧ t.faultBaseSet = true ∧ t.faultBase = v.extractLsb' 16 32)

/-- 20 R328 and R329 with 07 R99: CSR accesses that fault. -/
def Obligations.CsrAccessesThatFault : Prop :=
  ∀ (f : Form) (s : State) (i : Issue),
    let n := (f.imm.extractLsb' 0 12).toNat
    let firm := isFirmwareSlot i.g.part i.g.slot
    let stops (j : Instr) (c : Code) : Prop := ∃ t, exec j s = .next t ∧ WholeHeld s t i c
    ((namesCsr n = false ∨ (0x500 ≤ n ∧ firm = false)) →
      (issueOf s .csrr f = some i → stops (.csrr f) cIllegalOperand) ∧ (issueOf s .csrw f = some i → stops (.csrw f) cIllegalOperand))
    ∧ (0x520 ≤ n → n ≤ 0x532 → issueOf s .csrw f = some i → stops (.csrw f) cIllegalOperand)
    ∧ (Clean s .csrw f i → firm = false → isPrivilegedCsr n = true → stops (.csrw f) cPriv)
    ∧ (Clean s .csrw f i → firm = true → n = 0x402 → s.faultBaseSet = true → stops (.csrw f) cPriv)
    ∧ (Clean s .csrr f i → firm = false → (n = 0x404 ∨ (0x420 ≤ n ∧ n < 0x438)) → stops (.csrr f) cPriv)

/-- 15 R251, R252 and R258. -/
def Obligations.EngineOperationsAreQueuedOrRefused : Prop :=
  ∀ (f : Form) (s : State) (i : Issue),
    let addr := low32 (electSrcs s i).a + BitVec.ofInt 32 f.imm.toInt
    let who := (i.g.part, i.g.id, lowest i.on, i.pc)
    let queue (s : State) := (coreAt s i.t.core).engine
    let plain (t : State) : Prop := Delivers s t i (fun _ _ _ => 0#128) ∧ MemoryKept s t
    let block (c o : Nat) : Nat := bytesNat (sramRead s c o 64)
    let runs (j : Instr) (o : Op) (mxv : Bool) (check : Except MxFault EngineOp) : Prop := Clean s o f i →
      (8 ≤ (queue s).length → exec j s = .next s)
      ∧ ((queue s).length < 8 → i.on = 0#32 → ∃ t, exec j s = .next t ∧ plain t ∧ queue t = queue s)
      ∧ ((queue s).length < 8 → i.on ≠ 0#32 →
        (∀ op, check = .ok op → ∃ t c p, exec j s = .next t ∧ plain t ∧ queue t = queue s ++ [op]
          ∧ sramCheck s i.t addr 64 false = .ok (c, p)
          ∧ op.mxv = mxv ∧ op.k = bits (block c p) 95 64 ∧ op.afmt = bits (block c p) 12 8 ∧ op.acc = bit (block c p) 4
          ∧ op.sa = bit (block c p) 6 ∧ op.dtile = bits (block c p) 27 24 ∧ op.bar = BitVec.ofNat 32 (bits (block c p) 351 320)
          ∧ (mxv = false → op.bfmt = bits (block c p) 20 16 ∧ op.sb = bit (block c p) 7)
          ∧ (mxv = true → ∃ h, mapGet i.t.handles (bits (block c p) 197 192) = some h ∧ op.bfmt = h.fmt ∧ op.sb = (h.scblk == 32))
          ∧ op.running = false ∧ op.atStep = 0 ∧ op.atGroup = 0 ∧ op.lane = lowest i.on ∧ op.ref = i.t.ref)
        ∧ (∀ e, check = .error e → ∃ t, exec j s = .next t ∧ (queue t).length ≤ (queue s).length
          ∧ ∀ n, hasLane i.m n = true → HeldAt s t i n e.code))
    runs (.mxgo f) .mxgo false (mxgoCheck s i.t addr who) ∧ runs (.mxv f) .mxv true (mxvCheck s i.t addr who)

/-- 15 R245, R252, R254 and R255. The clock from which a step may commit, for MXV by the array's passes too, is the model's bound (DESIGN CHOICE,
log 8). -/
def Obligations.EngineTakesItsHead : Prop :=
  ∀ (s : State) (core : Nat) (op : EngineOp) (r : List EngineOp), (coreAt s core).engine = op :: r →
    let empty (g : Nat) : Prop := ∀ y, op.rows[g]? = some y → y.1 = 0
    (op.running = true → exec (.engineOpStart core) s = .next s)
    ∧ (op.running = false → teamAt s op.ref = none → ∃ t, exec (.engineOpStart core) s = .next t ∧ (coreAt t core).engine = r)
    ∧ (∀ u, op.running = false → teamAt s op.ref = some u → teamStops u = true → exec (.engineOpStart core) s = .next s)
    ∧ (∀ u, op.running = false → teamAt s op.ref = some u → teamStops u = false → u.core = core →
      (∀ g m b spn, op.atGroup ≤ g → op.rows[g]? = some (m, b, spn) → m ≠ 0 → (∀ k, op.atGroup ≤ k → k < g → empty k) →
        let narrow (c : Nat) : Bool := c ∈ [5, 6, 7, 8, 9, 11]
        let pass := if op.afmt = 1 ∨ op.afmt = 2 then 32 else if narrow op.afmt && narrow op.bfmt then 8 else 16
        ∃ t, exec (.engineOpStart core) s = .next t
          ∧ (op.interrupted = false → { t with cores := s.cores } = s)
          ∧ (op.interrupted = true → ∀ c o, sramPlace s u op.block = some (c, o) → WroteSram s t c (o + 0x38) 8 0)
          ∧ (coreAt t core).engine = { op with
              running := true, interrupted := false, atGroup := g
              due := s.clk + (m + 63) / 64 * (if spn = 0 then pass else pass / 2) } :: r)
      ∧ ((∀ k, op.atGroup ≤ k → empty k) → op.interrupted = false →
        (∀ c o, sramPlace s u op.bar = some (c, o) → barWord s u c o / 2 ^ 33 % 2 ^ 15 < barWord s u c o / 2 ^ 48 % 2 ^ 15) →
        ∃ t, exec (.engineOpStart core) s = .next t ∧ (coreAt t core).engine = r))

/-- 15 R249, R250 and R253 with 08 R122, for INT8 by INT8; the next step's clock is the model's bound (DESIGN CHOICE, log 8). -/
def Obligations.IntegerStepsAccumulateExactly : Prop :=
  ∀ (s : State) (core : Nat) (op : EngineOp) (r : List EngineOp) (u : Team) (m boff : Nat),
    (coreAt s core).engine = op :: r → op.running = true → (∀ o ∈ r, o.running = false) → op.stop = false → op.holdSet = none →
    op.due ≤ s.clk → teamAt s op.ref = some u → u.core = core → teamStops u = false → u.tiles.Nodup →
    op.mxv = false → op.afmt = 0x0A → op.bfmt = 0x0A → op.sa = false → op.sb = false → op.aHandle = none → op.bHandle = none →
    op.rows = [(m, boff, 0)] → op.atGroup = 0 → op.dtile + (m + 63) / 64 ≤ u.tiles.length →
    let signed (b : BitVec 8) : Int := b.toInt
    let a (row j : Nat) : Int := signed (readByte (coreAt s core).sram (op.a + row * op.k + 64 * op.atStep + j))
    let b (j col : Nat) : Int := signed ((wbRead s u (boff + (64 * op.atStep + j) * 64) 64)[col]?.getD 0#8)
    let old (row col : Nat) : BitVec 32 :=
      if op.atStep = 0 ∧ op.acc = false then 0#32 else accGet s u (op.dtile + row / 64) (row % 64) col
    ∃ t, exec (.engineStepCommit core) s = .next t
      ∧ (∀ row col, row < m → col < 64 → accGet t u (op.dtile + row / 64) (row % 64) col
          = old row col + BitVec.ofInt 32 ((List.range 64).map (fun j => a row j * b j col)).sum)
      ∧ (op.atStep + 1 < op.k / 64 → (coreAt t core).engine
          = { op with atStep := op.atStep + 1, due := s.clk + (m + 63) / 64 * 16 } :: r)

/-- 15 R260 to R262. -/
def Obligations.AccumulatorAccesses : Prop :=
  ∀ (f : Form) (s : State) (i : Issue),
    let size := i.t.tiles.length * 4096
    let at' (p : Nat × Lane) : Nat := (low32 (i.srcs (launchOf s i.t) p.1 p.2).a).toNat
    let key (e : Nat) : Nat := accKey i.t (e / 4096) (e / 64 % 64) (e % 64)
    let element (s : State) (e : Nat) : BitVec 32 := mapGetD (coreAt s i.t.core).acc (key e) 0#32
    let inside : Prop := ∀ p ∈ i.active, at' p < size
    let data (p : Nat × Lane) : BitVec 32 :=
      let x := (i.srcs (launchOf s i.t) p.1 p.2).b
      if f.ty = 1#5 ∨ f.ty = 2#5 then BitVec.ofNat 32 (widen f.ty.toNat (floatBits f.ty.toNat x)) else low32 x
    (Quiet s .accrd f i → inside → ∃ t, exec (.accrd f) s = .next t
      ∧ IssueFrame (fun g h => GroupKept { g with ctr := h.ctr } h) LaneKept s t i ∧
      (if f.ty = 0x00#5 ∨ f.ty = 0x0C#5 then Delivers s t i (fun n l _ => (element s (at' (n, l))).setWidth 128)
       else
        let res (n : Nat) (l : Lane) : FRes :=
          fCvt f.ty.toNat 0 f.rm.toNat f.sat (laneHash i n l 0) (codeVal 0 (element s (at' (n, l))).toNat)
        DeliversF s t i (fun n l _ => BitVec.ofNat 128 (res n l).bits) (fun n l _ => (res n l).flags)))
    ∧ (Clean s .accrd f i → ∃ t, exec (.accrd f) s = .next t
      ∧ ∀ n l, i.lane n = some l → hasLane i.on n = true → size ≤ at' (n, l) → i.t.fpxen = 0#5 → HeldAt s t i n cMxBounds)
    ∧ (Clean s .accwr f i → inside → ∃ t, exec (.accwr f) s = .next t ∧ Delivers s t i (fun _ _ _ => 0#128) ∧ MemoryKept s t
      ∧ (∀ before p after, i.active = before ++ p :: after → (∀ q ∈ after, key (at' q) ≠ key (at' p)) →
          mapGetD (coreAt t i.t.core).acc (key (at' p)) 0#32 = data p)
      ∧ (∀ k, (∀ p ∈ i.active, key (at' p) ≠ k) →
          mapGetD (coreAt t i.t.core).acc k 0#32 = mapGetD (coreAt s i.t.core).acc k 0#32))
    ∧ (Clean s .accwr f i → ∃ t, exec (.accwr f) s = .next t
      ∧ ∀ n l, i.lane n = some l → hasLane i.on n = true → size ≤ at' (n, l) → HeldAt s t i n cMxBounds)
    ∧ (Clean s .acczero f i → i.on ≠ 0#32 → (∀ n, n < 16 → f.imm.getLsbD n = true → n < i.t.tiles.length) →
      let zeroed (tile : Nat) : Prop := ∃ n, n < 16 ∧ f.imm.getLsbD n = true ∧ i.t.tiles[n]? = some tile
      ∃ t, exec (.acczero f) s = .next t ∧ Delivers s t i (fun _ _ _ => 0#128) ∧ MemoryKept s t
        ∧ (∀ p, p ∈ (coreAt t i.t.core).acc ↔ p ∈ (coreAt s i.t.core).acc ∧ ¬ zeroed (p.1 / 4096))
        ∧ (∀ k, zeroed (k / 4096) → mapGetD (coreAt t i.t.core).acc k 0#32 = 0#32))
    ∧ (Clean s .acczero f i → i.on ≠ 0#32 → (∃ n, n < 16 ∧ f.imm.getLsbD n = true ∧ i.t.tiles.length ≤ n) →
      ∃ t, exec (.acczero f) s = .next t ∧ WholeHeld s t i cMxBounds)

/-- 16 R284 and R285 with 11 R171. -/
def Obligations.ProgramsAreStartedAndSignalled : Prop :=
  ∀ (f : Form) (s : State) (i : Issue) (x : XProg),
    let p := (f.imm.extractLsb' 0 2).toNat
    let others (t : State) : Prop := ∀ q, q ≠ p → progIn t i.t.ref q = progIn s i.t.ref q
    let masks := i.active.foldl (fun (m : BitVec 16) q => m ||| (i.srcs (launchOf s i.t) q.1 q.2).b.setWidth 16) 0#16
    (progIn s i.t.ref p = some x →
      (Clean s .xstart f i → x.state = 4 → i.on ≠ 0#32 → ∃ t y, exec (.xstart f) s = .next t ∧ others t ∧ MemoryKept s t
        ∧ Delivers s t i (fun _ _ _ => 1#128) ∧ progIn t i.t.ref p = some y
        ∧ y.state = 1 ∧ y.xpc = 0 ∧ y.signal = 0#16 ∧ y.post = 0#32 ∧ y.wait = .none ∧ y.queue = x.queue
        ∧ (∀ k, kReg y k = 0#32)
        ∧ (∀ c : BitVec 4, cReg y c = if c = 0#4 then BitVec.ofNat 64 (0xFFE00000 + i.t.winOff)
            else if c = 1#4 then BitVec.ofNat 64 (poolOf s (launchOf s i.t)).1
            else if c = 2#4 then low64 (electSrcs s i).a else 0#64))
      ∧ (Clean s .xstart f i → (x.state ≠ 4 ∨ i.on = 0#32) → ∃ t, exec (.xstart f) s = .next t ∧ ComputeFrame s t i
        ∧ Delivers s t i (fun _ _ _ => 0#128))
      ∧ (Clean s .xsig f i → ∃ t y, exec (.xsig f) s = .next t ∧ others t ∧ MemoryKept s t ∧ Delivers s t i (fun _ _ _ => 0#128)
        ∧ progIn t i.t.ref p = some y ∧
          match x.wait with
          | .signal d m =>
            if (x.signal ||| masks) &&& m = 0#16 then y.signal = x.signal ||| masks ∧ y.wait = x.wait ∧ y.state = x.state
            else y.signal = (x.signal ||| masks) &&& ~~~m ∧ y.wait = .none ∧ y.state = 1
              ∧ cReg y (BitVec.ofNat 4 d) = ((x.signal ||| masks) &&& m).setWidth 64
          | w => y.signal = x.signal ||| masks ∧ y.wait = w ∧ y.state = x.state)
      ∧ (Clean s .xstat f i → ∃ t, exec (.xstat f) s = .next t ∧ ComputeFrame s t i
        ∧ Delivers s t i (fun _ _ _ =>
            BitVec.ofNat 128 (x.post.toNat * 4294967296 + x.signal.toNat * 65536 + x.queue.length * 256 + x.state))))
    ∧ (progIn s i.t.ref p = none →
      (issueOf s .xstart f = some i → ∃ t, exec (.xstart f) s = .next t ∧ WholeHeld s t i cIllegalOperand)
      ∧ (issueOf s .xsig f = some i → ∃ t, exec (.xsig f) s = .next t ∧ WholeHeld s t i cIllegalOperand)
      ∧ (issueOf s .xstat f = some i → ∃ t, exec (.xstat f) s = .next t ∧ WholeHeld s t i cIllegalOperand))

/-- 16 R271: every format-A instruction, for every operand. -/
def Obligations.TransferArithmetic : Prop :=
  ∀ (f : AForm) (s : State) (u : Team) (x : XProg), Runs s u x → x.xpc < 1023 →
    let a := cReg x f.a
    let b := if f.i then f.m.signExtend 64 else cReg x (f.m.extractLsb' 13 4)
    let gives (j : Instr) (v : BitVec 64) : Prop := ∃ t, exec j s = .next t ∧ Advances s t u x (x.xpc + 1) (regSet x f.d v) (kReg x)
    gives (.xadd f) (a + b) ∧ gives (.xsub f) (a - b) ∧ gives (.xmul f) (a * b) ∧ gives (.xand f) (a &&& b) ∧ gives (.xior f) (a ||| b)
      ∧ gives (.xxor f) (a ^^^ b) ∧ gives (.xshl f) (a <<< b) ∧ gives (.xshr f) (a >>> b) ∧ gives (.xsar f) (a.sshiftRight b.toNat)

/-- 16 R272 and R273. -/
def Obligations.TransferConstantsLoopsAndBranches : Prop :=
  ∀ (s : State) (u : Team) (x : XProg), Runs s u x →
    let goes (j : Instr) (next : Int) (creg : BitVec 4 → BitVec 64) (kreg : BitVec 2 → BitVec 32) : Prop :=
      (0 ≤ next → next ≤ 1023 → ∃ t, exec j s = .next t ∧ Advances s t u x next creg kreg)
      ∧ ((next < 0 ∨ 1023 < next) → ∃ t, exec j s = .next t ∧ ProgEnds s t u x cIllegalForm)
    let word : Int := x.xpc
    (∀ (d : BitVec 4) (h : BitVec 2) (v : BitVec 16),
      let field := v.setWidth 64 <<< (16 * h.toNat)
      goes (.xmov d h v) (word + 1) (regSet x d field) (kReg x)
      ∧ goes (.xmovk d h v) (word + 1) (regSet x d ((cReg x d &&& ~~~(0xFFFF#64 <<< (16 * h.toNat))) ||| field)) (kReg x))
    ∧ (∀ (n : BitVec 2) (i : Bool) (m : BitVec 23),
      goes (.xsetk n i m) (word + 1) (cReg x)
        (fun k => if k = n then (if i then (cReg x (m.setWidth 4)).setWidth 32 else m.setWidth 32) else kReg x k))
    ∧ (∀ (d : BitVec 4) (n : BitVec 2), goes (.xrdk d n) (word + 1) (regSet x d ((kReg x n).setWidth 64)) (kReg x))
    ∧ (∀ (a b : BitVec 4) (cond : BitVec 3) (o : BitVec 11), cond ≠ 7#3 →
      let p := cReg x a
      let q := cReg x b
      let holds : Prop := match cond.toNat with
        | 0 => True | 1 => p = q | 2 => p ≠ q | 3 => p.toInt < q.toInt | 4 => q.toInt ≤ p.toInt | 5 => p.toNat < q.toNat | _ => q.toNat ≤ p.toNat
      (holds → goes (.xb a b cond o) (word + o.toInt) (cReg x) (kReg x)) ∧ (¬ holds → goes (.xb a b cond o) (word + 1) (cReg x) (kReg x)))
    ∧ (∀ (n : BitVec 2) (o : BitVec 11),
      let left := (kReg x n).toNat - 1
      goes (.xloop n o) (if left = 0 then word + 1 else word + o.toInt) (cReg x) (fun k => if k = n then BitVec.ofNat 32 left else kReg x k))
    ∧ goes .xnop (word + 1) (cReg x) (kReg x)

/-- 16 R274, R275 and R282. The 20 clk, and the clocks by distance on a grid whose numbering the model chose, are its lower bounds for the
arrival (DESIGN CHOICE, logs 8 and 60). -/
def Obligations.TransferLoadsAndStores : Prop :=
  ∀ (s : State) (u : Team) (x : XProg), Runs s u x → x.xpc < 1023 →
    let loaded' (t : State) (d : BitVec 4) (v due : Nat) : Prop := MemoryKept s t ∧ ∃ y,
      ProgAt t u x y (x.xpc + 1) (regSet x d (BitVec.ofNat 64 v)) ∧ (d.toNat, s.clk + due) ∈ y.loads
    let loads (j : Instr) (sp : Bool) (a w : Nat) (d : BitVec 4) : Prop :=
      if sp then
        (∀ c o, sramCheck s u (BitVec.ofNat 32 a) w false = .ok (c, o) →
          if queueWrites s u x (sliceUnit c o) then exec j s = .next s
          else ∃ t, exec j s = .next t ∧ loaded' t d (bytesNat (sramRead s c o w)) (sliceDelay u.core c))
        ∧ (∀ c, sramCheck s u (BitVec.ofNat 32 a) w false = .error c → c ≠ cDetAtomic → c ≠ cXlate →
          ∃ t, exec j s = .next t ∧ ProgEnds s t u x c)
      else
        (∀ pa, globalCheck s u a w .read = .ok (.hbm pa) →
          if queueWrites s u x (xlUnit (.hbm pa)) then exec j s = .next s
          else ∃ t, exec j s = .next t ∧ loaded' t d (bytesNat (hbmRead s (ownerOf s u) pa w)) 20)
        ∧ (globalCheck s u a w .read = .error cXlate → ∃ t, exec j s = .next t ∧ ProgHeld s t u x cXlate (BitVec.ofNat 57 a))
        ∧ (∀ c, globalCheck s u a w .read = .error c → c ≠ cDetAtomic → c ≠ cXlate → ∃ t, exec j s = .next t ∧ ProgEnds s t u x c)
    let space (sp : Bool) (a : Int) : Nat := (a % (if sp then 2 ^ 32 else 2 ^ 57 : Nat)).toNat
    (∀ f : MForm, loads (.xld f) f.sp (space f.sp ((cReg x f.b).toNat + f.o.toInt)) (2 ^ f.w.toNat) f.c)
    ∧ (∀ (c b : BitVec 4) (w : BitVec 2) (sp : Bool) (ix : BitVec 4),
      loads (.xldx c b w sp ix) sp (space sp ((cReg x b).toNat + (cReg x ix).toNat * 2 ^ w.toNat)) (2 ^ w.toNat) c)
    ∧ (∀ f : MForm,
      let a := space f.sp ((cReg x f.b).toNat + f.o.toInt)
      let w := 2 ^ f.w.toNat
      let on (t : State) : Prop := ∃ y, ProgAt t u x y (x.xpc + 1) (cReg x)
      let waits (p : Option (Nat × Nat × Nat)) : Bool := queueWrites s u x p || queueReads s u x p
      (f.sp = true → ∀ c o, sramCheck s u (BitVec.ofNat 32 a) w true = .ok (c, o) →
        if waits (sliceUnit c o) then exec (.xst f) s = .next s
        else ∃ t, exec (.xst f) s = .next t ∧ on t ∧ WroteSram s t c o w (cReg x f.c).toNat ∧ HbmKept s t)
      ∧ (f.sp = false → ∀ pa, globalCheck s u a w .write = .ok (.hbm pa) →
        if waits (xlUnit (.hbm pa)) then exec (.xst f) s = .next s
        else ∃ t, exec (.xst f) s = .next t ∧ on t ∧ WroteHbm s t (ownerOf s u) pa w (cReg x f.c).toNat ∧ SramKept s t))
    ∧ (∀ (d : BitVec 4) (h : BitVec 6) (i : BitVec 4) (n : BitVec 3) (hd : Handle), mapGet u.handles h.toNat = some hd →
      let ix (j : Nat) : Nat := (cReg x (i + BitVec.ofNat 4 j)).toNat
      let e := ((List.range n.toNat).map (fun j => ix j * (hd.stride[j]?.getD 0))).sum
      let group := if hd.fmt = 5 ∨ hd.fmt = 6 ∨ hd.fmt = 8 then 4 else if hd.fmt = 7 ∨ hd.fmt = 11 then 2 else if hd.fmt = 9 then 5 else 1
      (∀ j, j < n.toNat → ix j < hd.size[j]?.getD 0) → e % group = 0 →
      let offset := if hd.fmt = 9 then e / 5 else e * formatBits hd.fmt / 8
      ∃ t, exec (.xaddr d h i n) s = .next t
        ∧ Advances s t u x (x.xpc + 1) (regSet x d (BitVec.ofNat 64 ((hd.base.toNat + offset) % 2 ^ 57))) (kReg x))

/-- 16 R276 to R278, with 13 R194 for the index reads. -/
def Obligations.BulkOperationsAreQueued : Prop :=
  ∀ (s : State) (u : Team) (x : XProg) (f : XForm), Runs s u x → x.xpc < 1022 →
    let bar := (cReg x f.bar).setWidth 32 + BitVec.ofNat 32 (8 * f.off.toNat)
    let barOk : Prop := ∃ p, sramCheck s u bar 8 true = .ok p
    let srcSpace := if f.mode = 2#3 ∨ 3 ≤ f.mode.toNat then 1 else 0
    let dstSpace := if f.mode = 0#3 ∨ f.mode = 2#3 then 1 else if f.mode = 1#3 then 2 else 0
    let reduce (space : Nat) (a : Int) : Nat := (a % (if space = 0 then 2 ^ 57 else 2 ^ 32 : Nat)).toNat
    let unit (src dst : Int) (k : Nat) : Nat × Nat :=
      (reduce srcSpace (reduce srcSpace src + 16 * k), reduce dstSpace (reduce dstSpace dst + 16 * k))
    let queues (j : Instr) (units : List (Nat × Nat)) : Prop := ∃ t y, exec j s = .next t ∧ MemoryKept s t
      ∧ ProgAt t u x y (x.xpc + 2) (cReg x) ∧ y.state = x.state
      ∧ (units = [] → y.queue = x.queue)
      ∧ (units ≠ [] → ∃ op, y.queue = x.queue ++ [op] ∧ op.units = units ∧ op.bar = bar ∧ op.num = x.bulkNext
          ∧ op.srcSpace = srcSpace ∧ op.dstSpace = dstSpace ∧ op.xpc = x.xpc ∧ op.waiting = none)
    (∀ g : CopyWord,
      let len := if g.lr then (cReg x (g.len.setWidth 4)).toNat else 64 * g.len.toNat
      let base : Option Nat := (mapGet u.handles (g.soff.setWidth 6).toNat).map (fun h => h.base.toNat)
      let dst : Int := (if g.dz then 0 else (cReg x f.dst).toNat) + 16 * g.doff.toInt
      let src : Int := (cReg x f.src).toNat + (if g.sh then (base.getD 0 : Int) else 16 * g.soff.toInt)
      (8 ≤ x.queue.length → exec (.xcopy f g) s = .next s)
      ∧ (x.queue.length < 8 → barOk → (g.sh = true → base.isSome = true) → src % 16 = 0 → dst % 16 = 0 → len % 16 = 0 →
        (dstSpace = 2 → 0 ≤ dst ∧ dst + len ≤ (wbGrant u : Int)) →
        queues (.xcopy f g) ((List.range (len / 16)).map (unit src dst))))
    ∧ (∀ (g : RowWord) (is : List Nat),
      let row := 16 * g.row.toNat
      let src := (cReg x f.src).toNat
      let dst := (cReg x f.dst).toNat
      (8 ≤ x.queue.length → exec (.xgath f g) s = .next s ∧ exec (.xscat f g) s = .next s)
      ∧ (x.queue.length < 8 → barOk → src % 16 = 0 → dst % 16 = 0 →
        readIndices s u (cReg x g.idx) (cReg x g.cnt).toNat = .ok is →
        if indexWaits s u x (cReg x g.idx) (cReg x g.cnt).toNat then exec (.xgath f g) s = .next s ∧ exec (.xscat f g) s = .next s
        else queues (.xgath f g) (is.zipIdx.flatMap (fun p => (List.range g.row.toNat).map (unit (src + p.1 * row : Nat) (dst + p.2 * row : Nat))))
          ∧ queues (.xscat f g)
            (is.zipIdx.flatMap (fun p => (List.range g.row.toNat).map (unit (src + p.2 * row : Nat) (dst + p.1 * row : Nat))))))

/-- 16 R277 with 11 R170 and 12 R187: a unit of every mode. That 16 bytes land and are credited in one step is DESIGN CHOICE, log 38; a peer device's
bytes are free values (log 3). -/
def Obligations.BulkUnitsMoveAndCredit : Prop :=
  ∀ (s : State) (xr : ProgRef) (u : Team) (x : XProg) (op : BulkOp) (num unit a d : Nat),
    progAt s xr = some (u, x) → x.queue.find? (fun q => q.num == num) = some op → op.units[unit]? = some (a, d) →
    (∀ q ∈ x.queue, q.num = num → q = op) → op.waiting = none → u.ended = none →
    (teamStops u = true → exec (.bulkByteCredit xr num unit) s = .next s) ∧
    (teamStops u = false → op.start ≤ s.clk → (∀ q ∈ x.promos, q.tag ≠ num + 1) →
    sourceReady s u x op a = true → earlierUnit s u x op unit d = false →
    let owner := ownerOf s u
    let from' := bulkSource s u (opFronts s op) a
    let slice (v : Nat) (write : Bool) := sramCheck s u (BitVec.ofNat 32 v) 16 write
    let source (k : Nat) (b : Byte) : Prop :=
      if op.srcSpace = 0 then ∃ pa, from' = .hbm pa ∧ b = hbmByte s owner (pa + k)
      else ∃ c o, slice a false = .ok (c, o) ∧ b = readByte (coreAt s c).sram (o + k)
    let readable : Prop := if op.srcSpace = 0 then ∀ c, from' ≠ .fault c else ∃ q, slice a false = .ok q
    let writable : Prop :=
      match op.dstSpace with
      | 0 => (∀ c, teamTranslate s u d .write ≠ .fault c) ∧ detPeer s u (teamTranslate s u d .write) = false
      | 1 => ∃ q, slice d true = .ok q
      | _ => True
    readable → writable →
    ∃ t y, exec (.bulkByteCredit xr num unit) s = .next t ∧ progIn t u.ref x.n = some y
      ∧ (∀ q ∈ y.queue, q.num = num → q.units = listDrop op.units unit)
      ∧ ∀ cb ob, sramPlace s u op.bar = some (cb, ob) → vacatedAt s u cb ob = none →
        (op.dstSpace = 1 → ∀ c o, slice d true = .ok (c, o) → cb ≠ c ∨ ob + 8 ≤ o ∨ o + 16 ≤ ob) →
        let word (s : State) : Nat := bytesNat (sramRead s cb ob 8)
        let expected := word s / 2 ^ 48 % 2 ^ 15
        let arrived := word s / 2 ^ 33 % 2 ^ 15
        let pending := word s % 2 ^ 33
        let phase := word s / 2 ^ 63
        16 ≤ pending →
        (word t = if pending = 16 ∧ arrived = expected then (1 - phase) * 2 ^ 63 + expected * 2 ^ 48 else word s - 16)
        ∧ (op.dstSpace = 0 → SramKeptBut s t cb ob 8 ∧ ∀ pa k b, teamTranslate s u d .write = .hbm pa → k < 16 → source k b →
            hbmByte t owner (pa + k) = b)
        ∧ (op.dstSpace = 1 → HbmKept s t ∧ ∀ c o, slice d true = .ok (c, o) →
            (∀ k b, k < 16 → source k b → readByte (coreAt t c).sram (o + k) = b)
            ∧ (granuleFull t c o = true ∨ ∃ r id n l e w g h p, laneIn s r id n = some l ∧ l.wait = .ldfe e w true g h p)
            ∧ (∀ k e, (k ≠ c ∨ e < o ∨ o + 16 ≤ e) → (k ≠ cb ∨ e < ob ∨ ob + 8 ≤ e) →
                readByte (coreAt t k).sram e = readByte (coreAt s k).sram e))
        ∧ (2 ≤ op.dstSpace → HbmKept s t ∧ SramKeptBut s t cb ob 8
            ∧ ∀ k b, k < 16 → source k b → readByte (coreAt t u.core).wb (wbPhys u d + k) = b))

/-- 16 R268, R279 and R281 with 11 R170 and 13 R194. -/
def Obligations.TransferArrivalsAndWaits : Prop :=
  ∀ (s : State) (u : Team) (x : XProg),
    let done (scope : Nat) (stores : Bool) : Prop :=
      ∀ a ∈ x.ctr.accs, a.plain = false ∨ (stores = true ∧ a.store = false) ∨ a.perf.getLsbD scope = true
    let scope (c : Nat) : Nat := if c = u.core then 3 else 4
    let writes (c o : Nat) : Bool := queueWrites s u x (sliceUnit c o)
    let ready (c o : Nat) : Prop := done (scope c) false ∧ writes c o = false ∧ queueReads s u x (sliceUnit c o) = false
    let word (s : State) (c o : Nat) : Nat := bytesNat (sramRead s c o 8)
    let arrivesIn (t : State) (c o n : Nat) : Prop := vacatedAt s u c o = none →
      word s c o / 2 ^ 33 % 2 ^ 15 < word s c o / 2 ^ 48 % 2 ^ 15 → word s c o % 2 ^ 33 + n < 2 ^ 33 →
      HbmKept s t ∧ word t c o =
        if word s c o / 2 ^ 33 % 2 ^ 15 + 1 = word s c o / 2 ^ 48 % 2 ^ 15 ∧ word s c o % 2 ^ 33 + n = 0 then
          (1 - word s c o / 2 ^ 63) * 2 ^ 63 + word s c o / 2 ^ 48 % 2 ^ 15 * 2 ^ 48
        else word s c o + 2 ^ 33 + n
    (Runs s u x → x.xpc < 1023 →
      (∀ (f : VForm) (c o : Nat),
        let a := (cReg x f.b).setWidth 32 + BitVec.ofNat 32 (8 * f.o.toNat)
        let n := if f.i then (cReg x (f.m.setWidth 4)).toNat else 64 * f.m.toNat
        let v := if f.i then cReg x (f.m.setWidth 4) else f.m.setWidth 64
        (sramCheck s u a 8 true = .ok (c, o) →
          (ready c o → ∃ t y, exec (.xarv f) s = .next t ∧ ProgAt t u x y (x.xpc + 1) (cReg x) ∧ arrivesIn t c o n)
          ∧ (¬ ready c o → ∃ t y, exec (.xarv f) s = .next t ∧ ProgAt t u x y (x.xpc + 1) (cReg x) ∧ MemoryKept s t
              ∧ y.state = 2 ∧ y.wait = .arrive a (BitVec.ofNat 64 n)))
        ∧ (sramCheck s u a 8 false = .ok (c, o) → writes c o = true → exec (.xwait f) s = .next s)
        ∧ (sramCheck s u a 8 false = .ok (c, o) → writes c o = false → ∃ t y, exec (.xwait f) s = .next t ∧ ProgAt t u x y (x.xpc + 1) (cReg x)
          ∧ MemoryKept s t
          ∧ if (barWord s u c o / 2 ^ 63 % 2 = 1) = (v.getLsbD 0 = true) then y.state = 2 ∧ y.wait = .barrier a (v.getLsbD 0)
            else y.state = x.state ∧ y.wait = x.wait))
      ∧ (∀ (d : BitVec 4) (m : BitVec 16), ∃ t y, exec (.xswait d m) s = .next t ∧ MemoryKept s t ∧ progIn t u.ref x.n = some y
        ∧ y.xpc = x.xpc + 1 ∧
        if x.signal &&& m = 0#16 then y.state = 2 ∧ y.wait = .signal d.toNat m ∧ y.signal = x.signal
        else cReg y d = (x.signal &&& m).setWidth 64 ∧ y.signal = x.signal &&& ~~~m ∧ y.state = 1 ∧ y.wait = .none)
      ∧ (∀ a : BitVec 4, (done 1 false → ∃ t y, exec (.xpost a) s = .next t ∧ MemoryKept s t ∧ progIn t u.ref x.n = some y
          ∧ y.xpc = x.xpc + 1 ∧ y.post = (cReg x a).setWidth 32) ∧ (¬ done 1 false → exec (.xpost a) s = .next s))
      ∧ (∀ (b : BitVec 4) (o : BitVec 13) (g : BitVec 9) (place : Nat → Nat × Nat),
        let a (k : Nat) : BitVec 32 := (cReg x b).setWidth 32 + BitVec.ofInt 32 (16 * o.toInt) + BitVec.ofNat 32 (16 * k)
        (∀ k, k < g.toNat → sramCheck s u (a k) 16 true = .ok (place k)) →
        ((∀ k, k < g.toNat → done (scope (place k).1) true) → ∃ t y, exec (.xfe b o g) s = .next t ∧ MemoryKept s t
          ∧ ProgAt t u x y (x.xpc + 1) (cReg x)
          ∧ ∀ k, k < g.toNat → granuleFull t (place k).1 (place k).2 = true
              ∨ ∃ r id n l e w p h d, laneIn s r id n = some l ∧ l.wait = .ldfe e w true p h d)
        ∧ ((∃ k, k < g.toNat ∧ ¬ done (scope (place k).1) true) → exec (.xfe b o g) s = .next s)))
    ∧ (∀ (xr : ProgRef) (a : BitVec 32) (n : BitVec 64) (c o : Nat), progAt s xr = some (u, x) → x.wait = .arrive a n →
      sramPlace s u a = some (c, o) → u.ended = none →
      (ready c o → ∃ t y, exec (.xarvApply xr) s = .next t ∧ progIn t u.ref x.n = some y ∧ y.state = 1 ∧ y.wait = .none
        ∧ arrivesIn t c o n.toNat)
      ∧ (¬ ready c o → exec (.xarvApply xr) s = .next s))
    ∧ (∀ (xr : ProgRef) (c due : Nat), progAt s xr = some (u, x) → (c, due) ∈ x.loads → due ≤ s.clk →
      ∃ t y, exec (.transferLoadReturn xr c) s = .next t ∧ progIn t u.ref x.n = some y ∧ MemoryKept s t ∧ y.c = x.c
        ∧ ∀ q, q ∈ y.loads ↔ q ∈ x.loads ∧ q.1 ≠ c)

/-- 16 R270, R280 to R282, with 14 R233 and R235. -/
def Obligations.TransferFencesTrapsAndEnds : Prop :=
  ∀ (s : State) (u : Team) (x : XProg),
    let puts (t : State) (k : FenceKind) (scope : BitVec 3) : Prop := ∃ y, progIn t u.ref x.n = some y ∧ y.xpc = x.xpc + 1
      ∧ y.fences = x.fences ++ [⟨k, scope.toNat⟩] ∧ (∀ c, cReg y c = cReg x c) ∧ MemoryKept s t
    (Runs s u x → x.xpc < 1023 →
      (∀ f : FenceForm, f.r = false → ∃ t, exec (.xfence f) s = .next t ∧ puts t .plain f.scope)
      ∧ (∀ (f : FenceForm) (g0 g1 : Handle), f.r = true → (f.v0 = true → mapGet u.handles f.h0.toNat = some g0) →
        (f.v1 = true → mapGet u.handles f.h1.toNat = some g1) → (f.vr = true → (rangeOf (cReg x f.rr).toNat).isSome = true) →
        ∃ t rs, exec (.xfence f) s = .next t ∧ puts t (.ranged rs) f.scope
          ∧ (f.v0 = true → handleTag g0 ∈ rs) ∧ (f.v1 = true → handleTag g1 ∈ rs)
          ∧ (f.vr = true → ∀ r, rangeOf (cReg x f.rr).toNat = some r → r ∈ rs))
      ∧ (∀ f : FenceForm, f.r = true →
        let badHandle : Prop := (f.v0 = true ∧ mapGet u.handles f.h0.toNat = none) ∨ (f.v1 = true ∧ mapGet u.handles f.h1.toNat = none)
        let badRange : Prop := f.vr = true ∧ rangeOf (cReg x f.rr).toNat = none
        (badRange → ∃ t, exec (.xfence f) s = .next t ∧ ProgEnds s t u x cIllegalOperand)
        ∧ (badHandle → ¬ badRange → ∃ t, exec (.xfence f) s = .next t ∧ ProgEnds s t u x cHandle))
      ∧ (∀ (h : BitVec 6) (scope : BitVec 3),
        (∀ g e, mapGet u.handles h.toNat = some g → publishedOf s u g = some e →
          ∃ t, exec (.xpub h scope) s = .next t ∧ puts t (.publish e) scope)
        ∧ ((mapGet u.handles h.toNat).bind (publishedOf s u) = none → ∃ t, exec (.xpub h scope) s = .next t ∧ ProgEnds s t u x cHandle))
      ∧ (∃ t y, exec .xend s = .next t ∧ progIn t u.ref x.n = some y ∧ y.state = 4 ∧ y.queue = x.queue ∧ y.c = x.c ∧ MemoryKept s t)
      ∧ (∀ code : BitVec 16, ∃ t y, exec (.xtrap code) s = .next t ∧ progIn t u.ref x.n = some y ∧ y.state = 3
        ∧ y.holdSet.isSome = true ∧ y.xpc = x.xpc + 1 ∧ y.c = x.c
        ∧ Recorded s t (fun r => r.code = cTrap ∧ r.kind = 6 ∧ r.xp = some x.n ∧ r.pc = BitVec.ofNat 57 x.xpc
            ∧ r.addr = code.setWidth 57)))
    ∧ (∀ xr, progAt s xr = some (u, x) → x.state = 1 → u.ended = none →
      (∀ r, fetchX s u x = .bad r → ∃ t, exec (.transferIllegalWord xr) s = .next t
        ∧ ProgEnds s t u x (match r with | .illegalOp => cIllegalOp | .illegalOperand => cIllegalOperand | _ => cIllegalForm))
      ∧ (∀ i, fetchX s u x = .instr i → exec (.transferIllegalWord xr) s = .next s))

/-- 03 R43, 12 R191, 13 R193 to R203, 14 R231 to R235. That a promotion performs every counted access of the core's groups to this device, and not
only those its releases cover, is DEDUCED (log 41). -/
def Obligations.ResultsAccessesAndFencesComplete : Prop :=
  ∀ (s : State) (p : GroupRef) (u : Team) (g : Group), groupAt s p = some (u, g) → placeGroups s p = [(u, g)] →
    let becomes (j : Instr) (is : Group → Prop) : Prop :=
      ∃ t h, exec j s = .next t ∧ groupIn t u.ref g.id = some h ∧ is h ∧ h.lanes = g.lanes ∧ MemoryKept s t
    let left (tag cls : Nat) (h : Group) : Prop := ∀ b, b ∈ h.sb ↔ b ∈ g.sb ∧ ¬ (b.tag = tag ∧ b.cls = cls ∧ b.due ≤ s.clk)
    (∀ tag, becomes (.scoreboardResultArrival p tag) (left tag 0) ∧ becomes (.loadResultReturn p tag) (left tag 1)
      ∧ becomes (.overflowReadFill p tag) (left tag 2))
    ∧ (∀ n a, g.ctr.accs[n]? = some a → a.due ≤ s.clk →
      becomes (.accessPerformed (.group p) n 5) (fun h => h.ctr.accs = listDrop g.ctr.accs n)
      ∧ (∀ sc, sc < 5 → a.peer = false → a.perf.getLsbD 5 = false →
        becomes (.accessPerformed (.group p) n sc) (fun h => ∃ b, h.ctr.accs[n]? = some b ∧ b.perf.getLsbD sc = true ∧ b.ctr = a.ctr)))
    ∧ (∀ f rest, g.fences = f :: rest →
      let met (sc : Nat) (a : Access) : Prop := a.perf.getLsbD sc = true ∨ (a.peer = true ∧ sc < 5)
      let all (sc : Nat) : Prop := ∀ a ∈ g.ctr.accs, met sc a
      let fenced (h : Group) : Prop := h.fences = rest ∧ ∀ k, k ∈ h.fenced ↔ k = f.scope ∨ k ∈ g.fenced
      (f.kind = .plain → (all f.scope → becomes (.fenceComplete (.group p)) fenced)
        ∧ (¬ all f.scope → exec (.fenceComplete (.group p)) s = .next s))
      ∧ (∀ rs, f.kind = .ranged rs →
        (∀ a ∈ g.ctr.accs, met f.scope a ∨ ∀ tg, mapGet g.ctr.tags a.ctr = some tg → ∀ r ∈ rs, tagMeets tg r = false) →
        becomes (.fenceComplete (.group p)) fenced)
      ∧ (f.kind = .drain → (∀ a ∈ g.ctr.nt, met f.scope a) →
        becomes (.ntdrainComplete (.group p)) (fun h => h.fences = rest ∧ h.ctr.nt = []))
      ∧ (∀ e q, f.kind = .publish e → mapGet s.published e = some q → all f.scope →
        ∃ t h q', exec (.publishSwap (.group p)) s = .next t ∧ groupIn t u.ref g.id = some h ∧ h.fences = rest ∧ MemoryKept s t
          ∧ mapGet t.published e = some q' ∧ q'.front = q.back ∧ q'.back = q.front ∧ q'.gen = q.gen + 1 ∧ q'.owner = q.owner
          ∧ ∀ k, k ≠ e → mapGet t.published k = mapGet s.published k))
    ∧ (∀ n q, g.promos[n]? = some q →
      (q.served = false → ∃ t h, exec (.promoteRequest (.group p) n) s = .next t ∧ groupIn t u.ref g.id = some h ∧ MemoryKept s t
        ∧ (∃ q', h.promos[n]? = some q' ∧ q'.served = true)
        ∧ (∀ e ∈ t.tags, ¬ (e.1 = q.key ∧ e.2.1 = q.core ∧ e.2.2 ≤ q.epoch))
        ∧ ∀ r v id k, teamAt s r = some v → v.core = q.core → groupIn t r id = some k → ∀ a ∈ k.ctr.accs,
            a.peer = false → a.perf.getLsbD 4 = true)
      ∧ (q.served = true → becomes (.promoteReply (.group p) n) (fun h => h.promos = listDrop g.promos n)))

/-- 03 R39, 04 R53 and R54, 20 R311, R314 and R317, 21 R343, 25 R389 and R390. The model's choices in it: which credential grants a halt or a step
(log 61), rows granted in place and how a partition packs (log 43), one record for an FPX window of several teams (log 47), and when a halt acts
(log 50). -/
def Obligations.SelectionBreakpointsRowsAndRecords : Prop :=
  ∀ (s : State) (p : GroupRef) (u : Team) (g : Group), groupAt s p = some (u, g) →
    let after (j : Instr) (is : State → Group → Prop) : Prop := ∃ t h, exec j s = .next t ∧ groupIn t u.ref g.id = some h ∧ is t h
    let held (t : State) (m : Mask) (c : Code) : Prop := ∀ n l, mapGet g.lanes n = some l → hasLane m n = true →
      ∃ h w, laneIn t u.ref g.id n = some { l with st := .hold, hold := some h, completed := false, wait := w } ∧ h.code = c
        ∧ (l.wait = .none → w = .none)
    (∀ k0 ks, keysOf (runLanesOf g) = k0 :: ks → k0.2 ≤ g.spinPc.toNat → g.spinLim.toNat ≤ g.spinCnt.toNat →
      ∃ k, pick g = some k ∧ k.expiry = true ∧ k.rot = BitVec.ofNat 5 ((g.spinRot.toNat + 1) % (ks.length + 1))
        ∧ k.pc = BitVec.ofNat 64 ((k0 :: ks).getD ((g.spinRot.toNat + 1) % (ks.length + 1)) k0).2
        ∧ (g.lease = none → g.fetching = none → startOk s u g k = true → traceHit s u k = true →
          after (.spinExpiry p) (fun _ h => h.spinCnt = 0#16 ∧ h.spinRot = k.rot ∧
            ∃ le, h.lease = some le ∧ le.start = k.pc ∧ le.mask = k.mask)))
    ∧ (∀ k, pick g = some k → g.fetching.isSome = true →
      (fetchFault s u k.pc = none → after (.traceCacheFill p) (fun t h => h.fetching = none ∧ h.lanes = g.lanes
        ∧ traceKey s u k ∈ (coreAt t u.core).trace))
      ∧ (∀ c a, fetchFault s u k.pc = some (c, a) → ∃ t, exec (.traceCacheFill p) s = .next t ∧ held t k.mask c
        ∧ (k.mask ≠ 0#32 → Recorded s t (fun r => r.code = c ∧ r.kind = 7 ∧ r.lanes = k.mask ∧ r.addr = a ∧ r.pc = k.pc.extractLsb' 0 57))))
    ∧ (∀ n m pc, breakpointAt s u g = some (n, m, pc) → m ≠ 0#32 → ∃ t, exec (.breakpointHit p) s = .next t ∧ held t m cBreak
      ∧ Recorded s t (fun r => r.code = cBreak ∧ r.lanes = m ∧ r.addr = BitVec.ofNat 57 (2 ^ 55 + n) ∧ r.pc = pc.extractLsb' 0 57))
    ∧ (∀ (cred : Cred) (team : BitVec 64), (s.teams.map Team.ref).Nodup → (u.groups.map Group.id).Nodup → u.ref.launch ≠ 0 → team.toNat = u.ref.team →
      (coreAt s u.core).dbgLtag ≠ 0#16 → (coreAt s u.core).dbgLtag.toNat = (launchOf s u).ltag →
      if credTag s cred (coreAt s u.core).dbgLtag.toNat then
        ((∃ le, g.lease = some le ∧ le.susp = false ∧ le.atHalt = false) → after (.dbgHalt ⟨cred, u.core⟩ team) (fun _ h => h.halt = true ∧ h.lanes = g.lanes))
        ∧ (g.lease = none → ∃ t, exec (.dbgHalt ⟨cred, u.core⟩ team) s = .next t ∧ held t (runMask g &&& ~~~g.step) cBreak)
      else exec (.dbgHalt ⟨cred, u.core⟩ team) s = .next s)
    ∧ (∀ (cred : Cred) (seq : BitVec 64) r, s.faultQ.find? (fun r => r.seq == seq.toNat && r.core == u.core && !r.resolved && r.code == cBreak) = some r →
      r.ref = u.ref → r.group = g.id →
      if hostResolves s cred u.core seq.toNat then
        after (.dbgStep ⟨cred, u.core⟩ seq) (fun t h => (∀ n, hasLane r.lanes n = true → hasLane h.step n = true)
          ∧ ∀ q ∈ t.faultQ, q.seq = seq.toNat → q.resolved = true)
      else exec (.dbgStep ⟨cred, u.core⟩ seq) s = .next s)
    ∧ (∀ d, g.checking = some d → (∀ r ∈ s.faultWait, ¬ (r.ref = u.ref ∧ r.group = g.id ∧ r.xp = none)) →
      (d ≤ s.clk → after (.maybeFaultCheckDone p) (fun _ h => h.checking = none ∧ h.lanes = g.lanes))
      ∧ (s.clk < d → exec (.maybeFaultCheckDone p) s = .next s))
    ∧ (∀ r rest, s.faultWait = r :: rest → faultPlaceFree s = true → ∃ t, exec .faultRecordDeferred s = .next t
      ∧ t.faultWait = rest ∧ t.faultNext = s.faultNext + 1 ∧ { r with seq := s.faultNext, time := s.time } ∈ t.faultQ
      ∧ (s.faultBaseSet = true → hbmRead t 0 (s.faultBase.toNat * 65536 + 64 * (s.faultNext % 1024)) 64
          = recordBytes { r with seq := s.faultNext, time := s.time }))
    ∧ (∀ c n w, (coreAt s c).windows.find? (fun w => w.launch == n) = some w →
      (s.clk < w.opened + 64 → exec (.fpxWindowClose c n) s = .next s)
      ∧ (w.opened + 64 ≤ s.clk → (∃ x ∈ w.lanes, x.flags ≠ 0#5) → ∃ t x, exec (.fpxWindowClose c n) s = .next t ∧ x ∈ w.lanes
        ∧ x.flags ≠ 0#5 ∧ (∀ y ∈ w.lanes, y.flags ≠ 0#5 → fpxThread s x ≤ fpxThread s y)
        ∧ (∀ v ∈ (coreAt t c).windows, v.launch ≠ n)
        ∧ Recorded s t (fun r => r.code = cFpx ∧ r.lanes = laneBit x.lane ∧ r.set = w.set ∧ r.cmask = x.cmask
            ∧ r.addr = BitVec.ofNat 57 (x.flags.toNat * 2 ^ 32 + (w.lanes.length - 1)))))
    ∧ (requester s u.core g.part = some (u, g) → g.req ≤ g.alloc + freeRows s u.core g.part →
      after (.reggrowGrant u.core g.part) (fun _ h => h.alloc = g.req ∧ h.req = 0 ∧ h.lanes = g.lanes))
    ∧ ((s.teams.map Team.ref).Nodup → (∀ v ∈ s.teams, (v.groups.map Group.id).Nodup) → requester s u.core g.part = some (u, g) →
      g.req ≤ partRows g.part → g.alloc ≤ partRows g.part → g.alloc + freeRows s u.core g.part < g.req →
      (∀ q ∈ partGroups s u.core g.part, q.2.req ≠ 0 ∨ ∀ l ∈ q.2.lanes, l.2.st ≠ .run) →
      after (.registerReclaim u.core g.part) (fun _ h => h.alloc = g.req ∧ h.req = 0))

/-- 02 R21 and R24, 18 R300, 20 R319 to R325. The model's choices in it: clusters relaunched whole by Forage and the count of a relaunch (log 49),
when teams leave and contexts are written (log 50), which refusals count (log 30), and what a context holds and where (log 44). -/
def Obligations.TeamsRetireEndAndMove : Prop :=
  ∀ s : State,
    let cluster (t : State) (n key : Nat) (is : Cluster → Prop) : Prop :=
      ∃ l q, mapGet t.launches n = some l ∧ l.clusters.find? (fun q => q.key == key) = some q ∧ is q
    (∀ r u, teamAt s r = some u → r.launch ≠ 0 → u.retired = false → u.ended = none → (∀ g ∈ u.groups, g.freed = true) →
      (∀ x ∈ u.progs, x.state = 4) → teamPerformed u = true → hasEngineOp s u = false →
      (∃ t, exec (.teamRetire r) s = .next t ∧ ∀ v, teamAt t r = some v → v.retired = true)
        ∧ ((∀ v ∈ clusterResident s r.launch (clusterKey (launchOf s u) r.team), v.ref = r) →
          ∃ t, exec (.teamRetire r) s = .next t ∧ teamAt t r = none
            ∧ (∀ l, mapGet t.launches r.launch = some l → ∀ q ∈ l.clusters, q.key = clusterKey (launchOf s u) r.team → q.state = 4)))
    ∧ (∀ n key l q, mapGet s.launches n = some l → l.clusters.find? (fun q => q.key == key) = some q → q.state = 3 →
      (∀ v ∈ clusterResident s n key, teamPerformed v = true ∧ hasEngineOp s v = false) →
      ∃ t, exec (.clusterFree n key) s = .next t ∧ clusterResident t n key = []
        ∧ cluster t n key (fun q' => if l.idem = true ∧ q.relaunches < l.retry then q'.state = 5 ∧ q'.relaunches = q.relaunches + 1
            else q'.state = 7 ∧ q'.relaunches = q.relaunches))
    ∧ (∀ n key l h cs, mapGet s.launches n = some l → headCluster s = some (n, key) → clusterState l key = 5 →
      (List.range herdCount).findSome? (fun h => (clusterCores s l (countScans s n key) h).map (fun cs => (h, cs))) = some (h, cs) →
      ∃ t, exec (.clusterRelaunch n key) s = .next t ∧ ∀ l', mapGet t.launches n = some l' →
        cluster t n key (fun q => q.state = placedState l' ∧ q.cores = cs ∧ q.herd = h))
    ∧ (∀ n l, mapGet s.launches n = some l → launchOver l = true → l.clusters.any (forageAgain l) = true →
      ∃ t l', exec (.forageRelaunch n) s = .next t ∧ mapGet t.launches n = some l' ∧ l'.withdrawnS = false ∧ l'.withdrawnE = []
        ∧ l'.relaunches = l.relaunches
        ∧ ∀ q ∈ l.clusters, forageAgain l q = true → ∃ q' ∈ l'.clusters, q'.key = q.key ∧ q'.state = 5 ∧ q'.relaunches = q.relaunches
          ∧ (l.withdrawnS = true → q.usedS = true → q'.barredS = true) ∧ ∀ e ∈ l.withdrawnE, e ∈ q'.barred)
    ∧ (∀ r u, teamAt s r = some u → r.launch ≠ 0 → u.ended = none → u.retired = false →
      let limit := if (launchOf s u).wdog = 0 then 2 ^ 32 else 2 ^ (launchOf s u).wdog
      (limit ≤ u.stalled → ∃ t, exec (.watchdogExpiry r) s = .next t ∧ EndedWith t r cWatchdog
        ∧ Recorded s t (fun k => k.code = cWatchdog ∧ k.kind = 9 ∧ k.lanes = 0#32 ∧ k.team = BitVec.ofNat 32 r.team))
      ∧ (u.stalled < limit → exec (.watchdogExpiry r) s = .next s))
    ∧ (∀ r u, teamAt s r = some u → canVacate s u = true →
      ∃ t v, exec (.vacateTeam r) s = .next t ∧ teamAt t r = some v ∧ v.stopped = true
        ∧ ∀ o ∈ (coreAt t u.core).engine, o.ref ≠ r)
    ∧ (∀ r u l q, teamAt s r = some u → u.ended = none → u.stopped = true →
      mapGet s.launches r.launch = some l → l.clusters.find? (fun q => q.key == clusterKey l r.team) = some q →
      (∀ v ∈ clusterResident s r.launch (clusterKey l r.team), v.stopped = true ∨ v.retired = true) →
      ∃ t, exec (.contextWrite r) s = .next t ∧ teamAt t r = none ∧ cluster t r.launch (clusterKey l r.team) (fun q' =>
        ∃ v, q'.saved = q.saved ++ [v] ∧ v.ref = r ∧ v.groups.map Group.lanes = u.groups.map Group.lanes
          ∧ v.progs = u.progs.map (fun x => { x with ctr := {} }) ∧ hbmRead t l.owner (contextPlace u 37) 512 = teamRecord l u
          ∧ v.handles = u.handles ∧ ∀ o b, (o, b) ∈ v.win ↔ (u.winOff + o, b) ∈ (coreAt s u.core).sram ∧ o < u.winLen))
    ∧ (∀ n key cs l q, mapGet s.launches n = some l → l.clusters.find? (fun q => q.key == key) = some q → q.state = 2 →
      let turn := herdTurn s n key (cs.headD 0 / Config.coresPerHerd)
      (turn = none → exec (.contextRestore n key cs) s = .next s)
      ∧ (∀ head, turn = some head → restoreFits s l q (head && countScans s n key) cs = true →
        ∃ t, exec (.contextRestore n key cs) s = .next t ∧ ∀ l', mapGet t.launches n = some l' →
          cluster t n key (fun q' => q'.state = placedState l' ∧ q'.saved = [] ∧ q'.cores = cs))
      ∧ (∀ head, turn = some head → restoreFits s l q (head && countScans s n key) cs = false →
        exec (.contextRestore n key cs) s = .next (if head then { s with ctxRefused := s.ctxRefused + 1 } else s)))
    ∧ (∀ n l k, mapGet s.launches n = some l → 240000 ≤ l.idleFor → launchIdle s n = true → (nextCluster l).isSome = true →
      (∃ q ∈ l.clusters, q.state = 1 ∧ q.key = k) → (∀ q ∈ l.clusters, q.state = 1 → q.key ≤ k) →
      ∃ t, exec (.stallVacate n) s = .next t ∧ ∀ r u, teamAt s r = some u → r.launch = n → clusterKey l r.team = k → u.ended = none →
        ∃ v, teamAt t r = some v ∧ v.vacating = true)
    ∧ (∀ n l, mapGet s.launches n = some l → (l.idleFor < 240000 ∨ launchIdle s n = false) → exec (.stallVacate n) s = .next s)
    ∧ (∀ n l, mapGet s.launches n = some l → l.preemptPending = true →
      (enoughClusters s l (preemptOrder s l) = none → exec (.spatialPreemption n) s = .next s)
      ∧ (∀ gone, enoughClusters s l (preemptOrder s l) = some gone →
        let scans := takenScans s l
        ∃ t l' opened, exec (.spatialPreemption n) s = .next (opened.foldl (placeOn n) (opened.foldl abortScan t))
          ∧ mapGet t.launches n = some l' ∧ l'.preemptPending = false ∧ t.cores = s.cores
          ∧ (∀ c ∈ opened, c ∈ scans ∧ coreTeams s c = [] ∧ scanYields s c l.prio = true
            ∧ ((coreAt (opened.foldl abortScan t) c).scan.state = 0 ∨ (coreAt (opened.foldl abortScan t) c).scan.state = 6)
            ∧ ∃ v ∈ coreTeams (opened.foldl (placeOn n) (opened.foldl abortScan t)) c, v.ref.launch = n)
          ∧ ((∀ c ∈ scans, ∃ v ∈ coreTeams (scans.foldl (placeOn n) (scans.foldl abortScan t)) c, v.ref.launch = n) → opened = scans)
          ∧ (∀ r u, teamAt s r = some u → u.ended = none → (r.launch, clusterKey (launchOf s u) r.team) ∈ gone →
            ∃ v, teamAt t r = some v ∧ v.vacating = true)
          ∧ ∀ r u, teamAt s r = some u → (r.launch, clusterKey (launchOf s u) r.team) ∉ gone →
            ∃ v, teamAt t r = some v ∧ v.vacating = u.vacating))

/-- 03 R44 to R46, 18 R290 to R305, 22 R349. The model's choices in it: the candidate is the event's argument, and `acceptable` says which come from
the rewrites (log 34); when an entry goes on (log 48); the Forage counters count whatever LCR_CTL.EN holds (log 65). -/
def Obligations.ForageCountsComparesAndClears : Prop :=
  ∀ (s : State) (c : Nat),
    let k := coreAt s c
    let core (j : Instr) (is : Core → Prop) : Prop := ∃ t, exec j s = .next t ∧ { t with cores := s.cores } = s ∧ is (coreAt t c)
    core (.lcrClear c) (fun k' => k'.lcr = { en := k.lcr.en, base := k.lcr.base, lim := k.lcr.lim } ∧ { k' with lcr := k.lcr } = k)
    ∧ core (.forageBlacklistClear c) (fun k' => (∀ h ∈ k'.hot, h.2.black = 0) ∧ { k' with hot := k.hot } = k)
    ∧ core (.forageDisable c) (fun k' => k'.forageEn = false ∧ k'.overlays = [] ∧ k'.searching = none ∧ k'.lcr = k.lcr ∧ k'.sram = k.sram)
    ∧ (∀ e h b, mapGet k.hot e = some h → h.epoch = some b → (h.progress = 0 ∨ h.progress = 4) →
      (b + 2 ^ 20 ≤ s.clk → core (.hotEpochEnd c e) (fun k' => ∃ h', mapGet k'.hot e = some h' ∧ h'.count = 0 ∧ h'.epoch = none
        ∧ h'.progress = 0 ∧ h'.black = (if h.black = 1 then 0 else h.black) ∧ h'.pc = h.pc ∧ h'.launch = h.launch))
      ∧ (s.clk < b + 2 ^ 20 → exec (.hotEpochEnd c e) s = .next s))
    ∧ (∀ e h, mapGet k.hot e = some h → (h.epoch = none ∨ (h.progress ≠ 0 ∧ h.progress ≠ 4)) → exec (.hotEpochEnd c e) s = .next s)
    ∧ (k.scan.state = 3 → ∀ part f, exec (.idleIssuePosition c part f) s = .next s)
    ∧ (k.scan.state ≠ 3 → ∀ part, core (.idleIssuePosition c part false) (fun k' =>
        k'.lcr.idle = (if k.lcr.en then k.lcr.idle + 32 else k.lcr.idle) ∧ { k' with lcr := { k'.lcr with idle := k.lcr.idle } } = k)
      ∧ (forageReady s c part = true → core (.idleIssuePosition c part true) (fun k' =>
        k'.lcr.forage = (if k.lcr.en then k.lcr.forage + 32 else k.lcr.forage) ∧ k'.lcr.idle = k.lcr.idle
          ∧ (partAt k' part).forageAt = some s.clk))
      ∧ (forageReady s c part = false → exec (.idleIssuePosition c part true) s = .next s))
    ∧ (k.forageEn = false → ∀ e cand, exec (.forageSearchDone c e cand) s = .next s)
    ∧ (∀ e h, k.forageEn = true → k.searching = some e → mapGet k.hot e = some h →
      (2 ^ 16 ≤ k.searchDone → core (.forageSearchDone c e none) (fun k' => ∃ h', mapGet k'.hot e = some h' ∧ h'.progress = 4
        ∧ k'.overlays = k.overlays))
      ∧ (k.searchDone < 2 ^ 16 → exec (.forageSearchDone c e none) s = .next s)
      ∧ (∀ cand la body term, mapGet s.launches h.launch = some la → segmentBody s la h.pc = some (body, term) →
        let classE := proven body cand.body && derives [] body cand.body && !cand.sampled
        let barred := !classE && (!la.forageSpec || la.det)
        (acceptable k e body cand.body = false → exec (.forageSearchDone c e (some cand)) s = .next s)
        ∧ (acceptable k e body cand.body = true → (barred = true ∨ overlayRoom s k = none) →
          core (.forageSearchDone c e (some cand)) (fun k' => (∃ h', mapGet k'.hot e = some h' ∧ h'.progress = 4 ∧ h'.black = h.black)
            ∧ k'.overlays = k.overlays))
        ∧ (∀ n, acceptable k e body cand.body = true → barred = false → overlayRoom s k = some n →
          core (.forageSearchDone c e (some cand)) (fun k' => ∃ o, mapGet k'.overlays n = some o ∧ o.body = cand.body ∧ o.classS = !classE
            ∧ o.promoted = false ∧ o.launch = h.launch ∧ o.pc = h.pc ∧ k'.lcr.inst = k.lcr.inst + 1
            ∧ ∃ h', mapGet k'.hot e = some h' ∧ h'.progress = 3))))
    ∧ (∀ n o chk la, readyCheck s c n false = some (o, chk, la) →
      (checkAgrees s la o chk = true → core (.tetherCompare c n) (fun k' => ∃ o', mapGet k'.overlays n = some o' ∧ o'.agree = o.agree + 1
        ∧ o'.promoted = decide (7 ≤ o.agree) ∧ o'.check = none
        ∧ k'.lcr.promo = (if 7 ≤ o.agree then k.lcr.promo + 1 else k.lcr.promo)))
      ∧ (checkAgrees s la o chk = false → o.classS = true → core (.tetherCompare c n) (fun k' => mapGet k'.overlays n = none
        ∧ k'.lcr.disc = k.lcr.disc + 1))
      ∧ (checkAgrees s la o chk = false → o.classS = false → ∃ t l', exec (.tetherCompare c n) s = .next t
        ∧ mapGet (coreAt t c).overlays n = none ∧ (coreAt t c).lcr.disc = k.lcr.disc + 1 ∧ (coreAt t c).lcr.emiss = k.lcr.emiss + 1
        ∧ mapGet t.launches o.launch = some l' ∧ o.pc.toNat ∈ l'.withdrawnE))
    ∧ (∀ n o chk la, readyCheck s c n true = some (o, chk, la) →
      (checkAgrees s la o chk = true → core (.forageAuditCompare c n) (fun k' => ∃ o', mapGet k'.overlays n = some o' ∧ o'.check = none
        ∧ o'.promoted = o.promoted))
      ∧ (checkAgrees s la o chk = false → o.classS = true → ∃ t l', exec (.forageAuditCompare c n) s = .next t
        ∧ mapGet (coreAt t c).overlays n = none ∧ (coreAt t c).lcr.wdraw = k.lcr.wdraw + 1
        ∧ mapGet t.launches o.launch = some l' ∧ l'.escaped = true ∧ l'.withdrawnS = true
        ∧ Recorded s t (fun r => r.code = cEscaped ∧ r.kind = 9 ∧ r.lanes = chk.mask ∧ r.addr = BitVec.ofNat 57 chk.count))
      ∧ (checkAgrees s la o chk = false → o.classS = false → ∃ t l', exec (.forageAuditCompare c n) s = .next t
        ∧ mapGet (coreAt t c).overlays n = none ∧ (coreAt t c).lcr.disc = k.lcr.disc ∧ (coreAt t c).lcr.emiss = k.lcr.emiss + 1
        ∧ mapGet t.launches o.launch = some l' ∧ o.pc.toNat ∈ l'.withdrawnE))

/-- 23 R352 to R356. That a queue's accesses are its session's is DESIGN CHOICE, log 21; that the lowest free slot is taken, and what a ticket is after
a rewrite or an unmap, are DESIGN CHOICE, log 51. -/
def Obligations.QueuesSlotsAndClaims : Prop :=
  ∀ s : State,
    (∀ (q owner : Nat) (secure : Bool) (r : List Byte), q < 4096 →
      let w (o : Nat) : Nat := bytesNat ((r.drop o).take 8)
      let good : Prop := w 0 < 2 ^ 57 ∧ w 0 % 64 = 0 ∧ w 8 < 2 ^ 11 ∧ w 8 / 32 % 8 = 0 ∧ 4 ≤ w 8 % 32 ∧ w 8 % 32 ≤ 16
        ∧ w 0x10 < 2 ^ 57 ∧ w 0x10 % 8 = 0 ∧ w 0x20 < 256 ∧ w 0x28 < 2 ^ 57 ∧ w 0x38 = 0
      ∃ t x, exec (.queueRecordWrite q owner secure r) s = .next t ∧ mapGet t.queues q = some x ∧ x.owner = owner ∧ x.secure = secure
        ∧ x.ring = w 0 % 2 ^ 57 ∧ x.log2 = w 8 % 32 ∧ x.prio = w 8 / 256 % 8 ∧ x.sigva = w 0x10 % 2 ^ 57
        ∧ x.read = BitVec.ofNat 64 (w 0x18) ∧ x.ticket = BitVec.ofNat 64 (w 0x30)
        ∧ (good → x.bad = false ∧ x.err = w 0x20 ∧ ∀ n h, slotOf s q = some (n, h) → ∃ h', mapGet t.slots n = some h' ∧ h'.ticket = x.ticket)
        ∧ (¬ good → x.bad = true ∧ x.err = 1)
        ∧ MemoryKept s t ∧ ∀ k, k ≠ q → mapGet t.queues k = mapGet s.queues k)
    ∧ (∀ q owner secure r, 4096 ≤ q → exec (.queueRecordWrite q owner secure r) s = .next s)
    ∧ (∀ q r (w : BitVec 64), mapGet s.queues q = some r → r.bad = false →
      (vaWritable s r.owner r.secure r.sigva 8 = false → exec (.signalStore q w) s = .next s)
      ∧ (∀ pa, vaWritable s r.owner r.secure r.sigva 8 = true → r.sigva % 8 = 0 → signalPlace s r = some pa → s.rung = [] →
        (∀ e ∈ s.queues, e.1 ≠ q → ∀ a, signalPlace s e.2 = some a → a + 8 ≤ pa ∨ pa + 8 ≤ a) →
        ∃ t, exec (.signalStore q w) s = .next t ∧ t.clk = s.clk ∧ t.rung = []
          ∧ let busy (e : Nat × HwSlot) : Prop := ∃ x, mapGet s.queues e.2.queue = some x ∧ queueW t x e.2.ticket ≠ e.2.ticket.toNat
          (∀ n h, slotOf s q = some (n, h) → mapGet s.slots n = some h →
            ∃ h', mapGet t.slots n = some h' ∧ h'.queue = q ∧ h'.signalled = s.clk ∧ h'.ticket = h.ticket)
          ∧ (slotOf s q = none → q ∈ s.pendingQ → t.pendingQ = s.pendingQ ∧ t.slots = s.slots)
          ∧ (slotOf s q = none → q ∉ s.pendingQ → ∀ n, n < 64 → mapGet s.slots n = none → (∀ m, m < n → mapGet s.slots m ≠ none) →
            ∃ h', mapGet t.slots n = some h' ∧ h'.queue = q ∧ h'.ticket = r.ticket)
          ∧ (slotOf s q = none → q ∉ s.pendingQ → (∀ n, n < 64 → mapGet s.slots n ≠ none) → (∃ e ∈ s.slots, ¬ busy e) →
            ∃ n h', mapGet t.slots n = some h' ∧ h'.queue = q ∧ h'.ticket = r.ticket)
          ∧ (slotOf s q = none → q ∉ s.pendingQ → (∀ n, n < 64 → mapGet s.slots n ≠ none) → (∀ e ∈ s.slots, busy e) →
            t.pendingQ = s.pendingQ ++ [q] ∧ t.slots = s.slots)))
    ∧ (∀ n h r, mapGet s.slots n = some h → mapGet s.queues h.queue = some r →
      (max h.signalled h.claimed + s.qidle.toNat * 2400 < s.clk → queueW s r h.ticket = h.ticket.toNat →
        ∃ t r', exec (.queueUnmap n) s = .next t ∧ mapGet t.queues h.queue = some r' ∧ r'.ticket = h.ticket ∧ r'.read = r.read
          ∧ (s.pendingQ = [] → mapGet t.slots n = none)
          ∧ (∀ k x rest, s.pendingQ = k :: rest → k ≠ h.queue → mapGet s.queues k = some x → x.bad = false →
            ∃ h', mapGet t.slots n = some h' ∧ h'.queue = k ∧ h'.ticket = x.ticket))
      ∧ ((s.clk ≤ max h.signalled h.claimed + s.qidle.toNat * 2400 ∨ queueW s r h.ticket ≠ h.ticket.toNat) →
        exec (.queueUnmap n) s = .next s))
    ∧ (∀ c n, agentFree s c = false → exec (.packetClaim c n) s = .next s)
    ∧ (∀ c n h r, nextClaim s = some (n, h, r) → agentFree s c = true → mapGet s.queues h.queue = some r →
      (∀ m, m ≠ n → exec (.packetClaim c m) s = .next s)
      ∧ ∃ t h', exec (.packetClaim c n) s = .next t ∧ mapGet t.slots n = some h' ∧ h'.ticket = h.ticket + 1 ∧ h'.queue = h.queue
        ∧ h'.claimed = s.clk
        ∧ ∀ p : Packet, p.queue = h.queue → p.index = h.ticket → PacketRead s t c p r (r.ring + 64 * (h.ticket.toNat % 2 ^ r.log2)) [])

/-- 23 R355 to R358 and R366, 24 R377, R381 and R382, 22 R345 and R347. That a report holds the first 114 bytes of the signature (log 18), whose a
queue's accesses are (log 21), the corners of queues and of a TTSET over an active run (log 51), and when a SCAN completes (log 52) are the model's
choices. -/
def Obligations.CommandsRunAndComplete : Prop :=
  (∀ (u : State) (c : Nat) (p : Packet) (r : Queue), mapGet u.queues p.queue = some r →
    let t := packetDone u c p
    (p.chain = [] → (coreAt t c).cmd = none ∧ (∃ r', mapGet t.queues p.queue = some r' ∧ r'.err = r.err
        ∧ (p.index = r.read → r.doneSet = [] → r'.read = r.read + 1))
      ∧ ∀ pa, recWord p.bytes 0x38 ≠ 0 →
        (∀ k, k < 8 → translate u r.owner (some r.secure) ((recWord p.bytes 0x38 + k) % 2 ^ 57) .write = .hbm (pa + k)) →
        WroteHbm u t r.owner pa 8 1)
    ∧ (∀ f rest, p.chain = f :: rest → recWord p.bytes 0x38 = 0 → f.next < f.count →
      PacketRead u t c p r (f.base + 64 * f.next) ({ f with next := f.next + 1 } :: rest)))
  ∧ ∀ (s : State) (c : Nat) (p : Packet) (r : Queue), (coreAt s c).cmd = some p → mapGet s.queues p.queue = some r →
    let w := recWord p.bytes
    let ready (ty : Nat) : Prop := readyPacket s c ty = some (p, r) ∧ packetCsigOk s p r = true
    let running (ty : Nat) : Prop := runningPacket s c ty = some (p, r)
    let completes (j : Instr) (is : State → Prop) : Prop := ∃ u, exec j s = .next (packetDone u c p) ∧ is u
    let stops (j : Instr) (err : Nat) : Prop := ∃ t, exec j s = .next t ∧ QueueStopped t c p.queue r err p.va
    let placed (kind : AccKind) (a n pa : Nat) : Prop :=
      ∀ k, k < n → translate s r.owner (some r.secure) ((a + k) % 2 ^ 57) kind = .hbm (pa + k)
    let wrote (u : State) (pa : Nat) (b : List Byte) : Prop := ∀ k, k < b.length → hbmByte u r.owner (pa + k) = b[k]?.getD 0#8
    (∀ j ty, (j, ty) ∈ [(.signal c, 2), (.wait c, 3), (.indirect c, 4), (.ttset c, 5), (.attest c, 6), (.manifest c, 7), (.scan c, 8),
        (.queueFence c, 9)] →
      readyPacket s c ty = some (p, r) → packetCsigOk s p r = false → stops j 3)
    ∧ (ready 2 → match translate s r.owner (some r.secure) (w 8) (if w 0x18 = 1 then .atomic else .write) with
      | .hbm pa => ∃ u, exec (.signal c) s = .next (signalCatch (packetDone u c p)) ∧ WroteHbm s u r.owner pa 8
          (if w 0x18 = 1 then (bytesNat (hbmRead s r.owner pa 8) + w 0x10) % 2 ^ 64 else w 0x10)
      | .peer _ _ _ => completes (.signal c) (fun u => u = s)
      | .fault _ => stops (.signal c) 3)
    ∧ (ready 3 →
      ((vaRead s r.owner r.secure (w 8) 8).isSome = true → ∃ t p', exec (.wait c) s = .next t ∧ (coreAt t c).cmd = some p'
        ∧ p'.running = true ∧ p'.deadline = (if w 0x20 = 0 then none else some (s.clk + 2400 * w 0x20))
        ∧ { p' with running := p.running, deadline := p.deadline } = p)
      ∧ (vaRead s r.owner r.secure (w 8) 8 = none → stops (.wait c) 3))
    ∧ (running 3 → vaRead s r.owner r.secure (w 8) 8 = none → stops (.waitSatisfied c) 3)
    ∧ (∀ b, running 3 → vaRead s r.owner r.secure (w 8) 8 = some b →
      let met : Prop := if w 0x18 % 4 = 0 then w 0x10 ≤ bytesNat b else if w 0x18 % 4 = 1 then bytesNat b = w 0x10 else bytesNat b ≠ w 0x10
      (met → completes (.waitSatisfied c) (fun u => u = s) ∧ exec (.waitTimeout c) s = .next s)
      ∧ (¬ met → exec (.waitSatisfied c) s = .next s
        ∧ (∀ d, p.deadline = some d → d ≤ s.clk → stops (.waitTimeout c) 4)
        ∧ ((∀ d, p.deadline = some d → s.clk < d) → exec (.waitTimeout c) s = .next s)))
    ∧ (ready 4 →
      let base := w 8
      let count := w 0x10 % 2 ^ 16
      let meets (a n : Nat) : Prop := base < a + n ∧ a < base + 64 * count
      let nest : Prop := 4 ≤ p.chain.length ∨ (∃ f ∈ p.chain, meets f.base (64 * f.count)) ∨ meets r.ring (64 * 2 ^ r.log2)
      (nest → stops (.indirect c) 2)
      ∧ (¬ nest → 0 < count → ∃ t, exec (.indirect c) s = .next t ∧ ∃ f : Frame, f.base = base ∧ f.count = count ∧ f.next = 1
        ∧ f.va = p.va ∧ f.csig = w 0x38 ∧ f.open' = 0 ∧ PacketRead s t c p r base (f :: p.chain)))
    ∧ (ready 5 → completes (.ttset c) (fun u => { u with triggers := s.triggers } = s ∧ ∃ e, mapGet u.triggers (w 8 % 256) = some e
      ∧ e.start = w 0x10 ∧ e.period = w 0x18 ∧ e.lpb = w 0x20 ∧ e.skip = 0#32 ∧ e.catchup = bit (w 0x28) 1 ∧ e.pending = false
      ∧ e.en = bit (w 0x28) 0 ∧ e.spent = (decide (w 0x10 < s.time) && w 0x18 == 0) ∧ e.owner = r.owner ∧ e.secure = r.secure
      ∧ e.active = (mapGet s.triggers (w 8 % 256)).bind Trigger.active))
    ∧ (ready 6 → match vaRead s r.owner r.secure (w 8) 64 with
      | none => stops (.attest c) 3
      | some nonce =>
        (vaWritable s r.owner r.secure (w 0x10) 512 = false → stops (.attest c) 3)
        ∧ ∀ pa, p.block.length = 208 → placed .write (w 0x10) 512 pa →
          let body := p.block.take 16 ++ nonce ++ p.block.drop 16
          completes (.attest c) (fun u => wrote u pa (body ++ (Config.ed448Sign body).take 114)))
    ∧ (ready 7 → match vaRead s r.owner r.secure (w 8) 256 with
      | none => stops (.manifest c) 3
      | some b =>
        (vaWritable s r.owner r.secure (w 0x10) 264 = false → stops (.manifest c) 3)
        ∧ ∀ pa, placed .write (w 0x10) 264 pa →
          completes (.manifest c) (fun u => wrote u (pa + 8) (manifestBytes s)
            ∧ (b = manifestBytes s → wrote u pa (natBytes 0 8))
            ∧ ∀ n, manifestField (manifestFields s) b 1 = some n → wrote u pa (natBytes (n * 256 + 1) 8)))
    ∧ (ready 8 →
      let l := w 8 % 2 ^ 11
      let d := physOfLogical s s.epoch l
      let j : ScanJob := { agent := c, prio := BitVec.ofNat 8 (w 8 / 2 ^ 24), pat := BitVec.ofNat 8 (w 8 / 2 ^ 16) }
      (logicalCount s s.epoch ≤ l → completes (.scan c) (fun u => u = s))
      ∧ (l < logicalCount s s.epoch → ∃ u, exec (.scan c) s = .next (agentSettle u) ∧ (coreAt u d).scans = (coreAt s d).scans ++ [j]
        ∧ (coreAt u c).cmd = some { p with running := true } ∧ (coreAt u d).scan = (coreAt s d).scan)
      ∧ (l < logicalCount s s.epoch → (∀ k ∈ s.cores, k.2.scanJob = none ∧ k.2.scans = []) → (∀ e ∈ s.selftests, isDatapath e = false) →
        (d ≠ c → (coreAt s d).cmd = none) → ((coreAt s d).scan.state = 0 ∨ (coreAt s d).scan.state = 6) → s.removed.contains d = false →
        firmwareTeam s d = none → ∃ t, exec (.scan c) s = .next t ∧ (coreAt t d).scanJob = some j ∧ (coreAt t d).scan.prio = j.prio ∧ (coreAt t d).scan.pat = j.pat))
    ∧ (ready 9 →
      let ended : Prop := p.index.toNat ≤ r.read.toNat ∧ ∀ f ∈ p.chain, f.open' = 0
      (ended → completes (.queueFence c) (fun u => u = s)) ∧ (¬ ended → exec (.queueFence c) s = .next s))

/-- 23 R357 to R367. The order of a block's errors (log 32), what an unusable trigger block and a CSIG the owner may not write do (log 33), the FSEQ of
a rejected launch (log 56), and which of several places and clusters is taken (logs 22, 66 and 67) are the model's choices. -/
def Obligations.LaunchesAreEnteredPlacedAndEnd : Prop :=
  ∀ (s : State),
    let placed (owner : Nat) (secure : Bool) (a n pa : Nat) : Prop :=
      ∀ k, k < n → translate s owner (some secure) ((a + k) % 2 ^ 57) .write = .hbm (pa + k)
    let read (t : State) (q : Nat) (r : Queue) (i : BitVec 64) : Prop := ∃ r', mapGet t.queues q = some r' ∧ r'.err = r.err
      ∧ (i = r.read → r.doneSet = [] → r'.read = r.read + 1)
    let entered (t : State) (c : Nat) (p : Packet) (l : Launch) : Prop := t.launchNext = s.launchNext + 1
      ∧ (p.chain = [] → (coreAt t c).cmd = none)
      ∧ mapGet t.launches s.launchNext = some { l with
          order := p.order, admitted := true, queue := some p.queue, packet := some p.index, trigger := none
          frame := if p.chain = [] then none else some (c, p.chain.length) }
    let rejected (t : State) (c : Nat) (p : Packet) (r : Queue) (n : Nat) : Prop := t.launches = s.launches
      ∧ (p.chain = [] → (coreAt t c).cmd = none ∧ read t p.queue r p.index
        ∧ ∀ pa, let a := blockCsig p.block
          a.1 ≠ 0 → placed a.2.1 a.2.2 a.1 8 pa → WroteHbm s t a.2.1 pa 8 (0xFFFFFFFF * 2 ^ 32 + n))
    (∀ c p r, readyPacket s c 1 = some (p, r) →
      let x : Except Nat Launch := if bit (recWord p.block 0x48) 56 then .error 0x11 else checkBlock s p.block
      (∀ l, x = .ok l → activeCount s < 256 → ∃ t, exec (.launch c) s = .next t ∧ entered t c p l)
      ∧ (∀ l, x = .ok l → 256 ≤ activeCount s → ∃ t, exec (.launch c) s = .next t ∧ t.launches = s.launches
        ∧ (coreAt t c).cmd = some { p with running := true })
      ∧ (∀ n, x = .error n → ∃ t, exec (.launch c) s = .next t ∧ rejected t c p r n))
    ∧ (∀ c p r, runningPacket s c 1 = some (p, r) →
      (256 ≤ activeCount s → exec (.launchTableAdmit c) s = .next s)
      ∧ (activeCount s < 256 → ∃ t, exec (.launchTableAdmit c) s = .next t
        ∧ match checkBlock s p.block with | .ok l => entered t c p l | .error n => rejected t c p r n))
    ∧ (∀ n l, mapGet s.launches n = some l →
      ((launchOver l = false ∨ ∃ k ∈ l.clusters, forageAgain l k = true) → exec (.launchComplete n) s = .next s)
      ∧ (launchOver l = true → (∀ k ∈ l.clusters, forageAgain l k = false) → n < s.launchNext →
        ∃ t, exec (.launchComplete n) s = .next t ∧ mapGet t.launches n = none)
      ∧ (∀ q r i, launchOver l = true → (∀ k ∈ l.clusters, forageAgain l k = false) → l.detBuf = [] → l.trigger = none → l.frame = none →
        l.queue = some q → l.packet = some i → mapGet s.queues q = some r →
        ∃ t, exec (.launchComplete n) s = .next t ∧ mapGet t.launches n = none ∧ read t q r i
          ∧ ∀ pa, l.csig ≠ 0 → placed l.owner l.secure l.csig 8 pa → WroteHbm s t l.owner pa 8
            (l.fseq.toNat * 2 ^ 32 + l.fcode.toNat * 2 ^ 24 + min l.relaunches 255 * 2 ^ 16 + l.escaped.toNat * 2 ^ 8
              + (if ∃ k ∈ l.clusters, k.state = 7 then 2 else 1))))
    ∧ (∀ e g, mapGet s.triggers e = some g →
      let n := if g.period = 0 then 0 else (s.time - g.next) / g.period
      let due := g.en = true ∧ g.spent = false ∧ g.next ≤ s.time
      let fired (is : State → Trigger → Prop) : Prop := ∃ t h, exec (.timeTriggerFire e) s = .next t ∧ mapGet t.triggers e = some h
        ∧ h.next = g.next + (n + 1) * g.period ∧ is t h
      let opened (b : List Byte) : Prop := vaRead s g.owner g.secure g.lpb 256 = some b ∧ csigAligned b = true ∧ csigOk s b = true
      let names (b : List Byte) : Prop := bit (recWord b 0x48) 56 = true ∧ bits (recWord b 0x48) 55 48 = e
      let refused (b : List Byte) (c : Nat) (t : State) : Prop := t.launches = s.launches ∧ ∀ pa, let a := blockCsig b
        a.1 ≠ 0 → placed a.2.1 a.2.2 a.1 8 pa → WroteHbm s t a.2.1 pa 8 (0xFFFFFFFF * 2 ^ 32 + c)
      (¬ due → exec (.timeTriggerFire e) s = .next s)
      ∧ (∀ a, due → g.active = some a → fired (fun _ h => h.en = (g.period != 0) ∧ h.active = some a
        ∧ (g.catchup = true → g.pending = false → h.pending = true ∧ h.skip = g.skip + BitVec.ofNat 32 n)
        ∧ ((g.catchup = false ∨ g.pending = true) → h.pending = g.pending ∧ h.skip = g.skip + BitVec.ofNat 32 n + 1#32)))
      ∧ (due → g.active = none → (¬ ∃ b, opened b) → fired (fun t h => h.en = false ∧ h.active = none ∧ t.launches = s.launches))
      ∧ (∀ b, due → g.active = none → opened b → ¬ names b → fired (fun t h => h.en = false ∧ h.active = none ∧ refused b 0x11 t))
      ∧ (∀ b c, due → g.active = none → opened b → names b → checkBlock s b = .error c →
        fired (fun t h => h.en = (g.period != 0) ∧ h.active = none ∧ refused b c t))
      ∧ (∀ b l, due → g.active = none → opened b → names b → checkBlock s b = .ok l → fired (fun t h => h.en = (g.period != 0)
        ∧ h.active = some s.launchNext ∧ t.claims = s.claims + 1 ∧ mapGet t.launches s.launchNext = some
          { l with order := s.claims, admitted := decide (activeCount s < 256), queue := none, packet := none, frame := none
                   trigger := some e })))
    ∧ (∀ herd off,
      let stands (t : State) (n key h : Nat) (cs : List Nat) (dispatched : Nat) : Prop := ∃ m q, mapGet t.launches n = some m
        ∧ m.clusters.find? (fun q => q.key == key) = some q ∧ q.cores = cs ∧ q.herd = h ∧ q.state = placedState m
        ∧ m.dispatched = dispatched
      (headCluster s = none → exec (.placementDecision herd off) s = .next s)
      ∧ (∀ n key l, headCluster s = some (n, key) → mapGet s.launches n = some l →
        let fit := fitInHerd s n key (countScans s n key) herd
        let vacated := l.clusters.find? (fun q => q.key == key && q.state == 2)
        (fit = none → (s.reserved = some herd ∨ backfill s (n, key) herd = none) → exec (.placementDecision herd off) s = .next s)
        ∧ (∀ l' cs, fit = some (l', cs) → vacated = none →
          cs.length = l.cx * l.cy * l.cz ∧ (∀ c ∈ cs, c ∈ herdCores s l herd)
          ∧ ∃ t, exec (.placementDecision herd off) s = .next t
            ∧ stands t n key herd cs (l.dispatched + (if clusterState l key = 0 then 1 else 0)))
        ∧ (∀ l' cs, fit = some (l', cs) → vacated.isSome = true → clusterState l key = 2 →
          ∃ t, exec (.placementDecision herd off) s = .next t ∧ stands t n key (cs.headD 0 / 8) cs l.dispatched)
        ∧ (∀ m k l' cs, fit = none → s.reserved ≠ some herd → backfill s (n, key) herd = some (m, k) →
          fitInHerd s m k false herd = some (l', cs) → ∃ u, exec (.placementDecision herd off) s = .next { u with backfills := u.backfills + 1 }
            ∧ (l'.clusters.find? (fun q => q.key == k && q.state == 2) = none →
              stands u m k herd cs (l'.dispatched + (if clusterState l' k = 0 then 1 else 0))))))
    ∧ (s.reserved ≠ none → exec .headAgeExpiry s = .next s)
    ∧ ((s.headOf = none ∨ (s.clk < s.headSince + s.age.toNat * 2400 ∧ s.backfills < 4)) → exec .headAgeExpiry s = .next s)
    ∧ (∀ n key l, s.headOf = some (n, key) → mapGet s.launches n = some l → s.reserved = none →
      (s.headSince + s.age.toNat * 2400 ≤ s.clk ∨ 4 ≤ s.backfills) →
      let lacks := herdLacks s l (l.clusters.find? (fun q => q.key == key))
      ∃ t, exec .headAgeExpiry s = .next t ∧ ∀ h, t.reserved = some h → h < 192 ∧ herdCores s l h ≠ []
        ∧ ∀ k, k < 192 → herdCores s l k ≠ [] → lacks h < lacks k ∨ (lacks h = lacks k ∧ h ≤ k))

/-- 22 R346 to R351; 20 R327 and R328. Which credential a host session's write needs is DESIGN CHOICE, log 61; CLOSE drains a core with unwritten
lines through DRAINING (DEDUCED, log 39); the value of SCAN_REF is an open constant (DESIGN CHOICE, log 15). -/
def Obligations.ScanCommandsAndRegisterWrites : Prop :=
  ∀ (s : State) (c : Nat),
    let k := coreAt s c
    let n := k.scan
    let ends (j : Instr) (is : Scan → Prop) : Prop := ∃ t, exec j s = .next t ∧ is (coreAt t c).scan
      ∧ (scanStat (coreAt t c).scan ≠ scanStat n → ∀ b, b < 8 →
          readByte (coreAt t c).sram (0x1F4000 + b) = BitVec.ofNat 8 (scanStat (coreAt t c).scan / 2 ^ (8 * b)))
    let takes (v : BitVec 64) (m : Scan) : Prop := m.prio = v.extractLsb' 24 8 ∧ m.pat = v.extractLsb' 16 8
      ∧ m.ref = Config.scanSignature m.pat.toNat c
    let bad (m : Scan) : Prop := m = { n with badcmd := true }
    (∀ v : BitVec 64,
      let open' := n.state = 0 ∨ n.state = 6
      let clean := coreDrained s c = true ∧ k.dirty = false
      ((n.state = 4 ∨ (open' ∧ clean)) → ends (.scanClose c v) (fun m => takes v m ∧ m.state = 2 ∧ m.badcmd = false))
      ∧ (open' → ¬ clean → ends (.scanClose c v) (fun m => takes v m ∧ m.state = 1 ∧ m.badcmd = false))
      ∧ (¬ open' → n.state ≠ 4 → ends (.scanClose c v) bad)
      ∧ (n.state = 2 → (v.extractLsb' 16 8).toNat ≤ 15 →
        ends (.scanStart c v) (fun m => takes v m ∧ m.state = 3 ∧ m.time = 0#16 ∧ m.badcmd = false ∧ m.started = s.clk))
      ∧ ((n.state ≠ 2 ∨ 15 < (v.extractLsb' 16 8).toNat) → ends (.scanStart c v) bad)
      ∧ ((n.state = 2 ∨ n.state = 4) → ends (.scanOpen c v) (fun m => takes v m ∧ m.state = 0 ∧ m.badcmd = false))
      ∧ (n.state ≠ 2 → n.state ≠ 4 → ends (.scanOpen c v) bad)
      ∧ (n.state ≠ 5 → ends (.scanRemove c v) bad)
      ∧ (n.state = 5 → ends (.scanRemove c v) (fun m => takes v m ∧ m.state = 7 ∧ m.badcmd = false)
        ∧ ∃ t, exec (.scanRemove c v) s = .next t ∧ c ∈ t.removed
          ∧ (c ∉ s.removed → t.epoch = s.epoch + 1 ∧ mapGet t.epochs t.epoch = some t.removed
            ∧ ∀ e, e ≠ t.epoch → mapGet t.epochs e = mapGet s.epochs e)
          ∧ (s.errWait = [] → mapGet s.errQ (s.errNext % 4096) = none → ∃ e, mapGet t.errQ (s.errNext % 4096) = some e ∧ e.cls = 3
            ∧ e.core = c ∧ e.die = c / 48 ∧ e.det1 = n.sig ∧ e.det2 = n.ref ∧ e.seq = s.errNext))
      ∧ ends (.scanCtlNoCommand c v) (fun m => takes v m ∧ { m with prio := n.prio, pat := n.pat, ref := n.ref } = n))
    ∧ ((n.state ≠ 1 ∨ coreDrained s c = false) → exec (.scanDrained c) s = .next s)
    ∧ (n.state = 1 → coreDrained s c = true →
      ends (.scanDrained c) (fun m => m = { n with state := 2, faildom := 0#8 })
      ∧ ∃ t, exec (.scanDrained c) s = .next t ∧ (coreAt t c).dirty = false ∧ (coreAt t c).overlays = [])
    ∧ (∀ sig dom,
      ((n.state ≠ 3 ∨ s.clk ≠ n.started + 480000 ∨ scanDomain dom = false) → exec (.scanPatternEnd c sig dom) s = .next s)
      ∧ (n.state = 3 → s.clk = n.started + 480000 → scanDomain dom = true →
        ends (.scanPatternEnd c sig dom) (fun m => m.sig = sig ∧ m.time = 200#16 ∧ m.prio = n.prio ∧ m.pat = n.pat
          ∧ (sig = n.ref → m.state = 4 ∧ m.faildom = 0#8) ∧ (sig ≠ n.ref → m.state = 5 ∧ m.faildom = dom))
        ∧ ∃ t, exec (.scanPatternEnd c sig dom) s = .next t ∧ ∀ a, a < 0x1F4000 → readByte (coreAt t c).sram a = 0#8))
    ∧ (∀ (host : Option Cred) csr v, isDeviceRegister csr = true → ∃ t, exec (.registerWrite host c csr v) s = .next t
        ∧ RegisterHolds t c csr v)
    ∧ (∀ (cred : Cred) csr (v : BitVec 64),
      (hostGrants s cred c csr v.toNat = false → exec (.registerWrite (some cred) c csr v) s = .next s)
      ∧ (∀ i, csr = 0x520 + i → i < 16 → hostGrants s cred c csr v.toNat = true →
        ∃ t, exec (.registerWrite (some cred) c csr v) s = .next t ∧ mapGetD (coreAt t c).bps i 0#64 = v &&& 0x81FFFFFFFFFFFFFF#64)
      ∧ (csr = 0x530 → hostGrants s cred c csr v.toNat = true →
        ∃ t, exec (.registerWrite (some cred) c csr v) s = .next t ∧ (coreAt t c).dbgLtag = v.setWidth 16))
    ∧ (∀ v : BitVec 64,
      (s.faultBaseSet = false → exec (.registerWrite none c 0x402 v) s = .next
        { s with faultBase := v.extractLsb' 16 32, faultBaseSet := true })
      ∧ (s.faultBaseSet = true → exec (.registerWrite none c 0x402 v) s = .next s)
      ∧ exec (.registerWrite none c 0x400 v) s = exec (.faultAck ⟨none, c⟩ v) s
      ∧ exec (.registerWrite none c 0x401 v) s = exec (.faultKill ⟨none, c⟩ v) s
      ∧ (∀ csr, csr ∈ [0x403, 0x501, 0x502, 0x503, 0x512] → exec (.registerWrite none c csr v) s = .next s)
      ∧ ∃ t, exec (.registerWrite none c 0x404 v) s = .next t ∧ (coreAt t c).hgrpSel = v &&& 0x807F#64)
    ∧ (∀ p u g csr v, groupAt s p = some (u, g) → (∃ b ∈ g.sb, b.fp = true) → exec (.fpFlagClear p csr v) s = .next s)
    ∧ (∀ p u g j v, groupAt s p = some (u, g) → j < 5 → (∀ b ∈ g.sb, b.fp = false) →
      ∃ t, exec (.fpFlagClear p (0x01C + j) v) s = .next t ∧ MemoryKept s t ∧ ∀ m l, laneIn s u.ref g.id m = some l →
        ∃ l', laneIn t u.ref g.id m = some l' ∧ (∀ b, l'.flags.getLsbD b = (l.flags.getLsbD b && !(v.getLsbD m && b == j)))
          ∧ { l' with flags := l.flags } = l)

/-- 24 R369 to R382 and 25 R392. The classes of units and the UE record of the staging memory (log 53), PREDICT at the interval's end and a slot
loaded again (log 54), the bytes of an unreadable line (log 16) and a port's retrain record (log 64) are the model's choices. -/
def Obligations.ErrorsHeatPowerAndKeys : Prop :=
  ∀ (s : State),
    let record (t : State) (is : ErrorRec → Prop) : Prop := s.errWait = [] → mapGet s.errQ (s.errNext % 4096) = none →
      ∃ e, mapGet t.errQ (s.errNext % 4096) = some e ∧ e.seq = s.errNext ∧ e.time = s.time ∧ is e
    let kind (p : Nat × Nat) : Nat := p.1 / 2 ^ 64
    let limit (p : Nat × Nat) : Option Nat :=
      if kind p = 8 then some (1024 * s.linkLim.toNat) else if kind p = 11 then some s.bankLim.toNat
      else if kind p = 12 then some s.rowLim.toNat else none
    let unread (t : State) (slot : Nat) : Prop :=
      (∀ pa, lineKey s pa = some slot → ∀ o, o < 64 → hbmByte t o pa = Config.foreignByte pa)
      ∧ ∀ pa o, lineKey s pa ≠ some slot → hbmByte t o pa = hbmByte s o pa
    (∀ e : ErrorInput, ([5, 8, 9, 10, 11, 14, 15, 20].contains e.unit = true ∨ (e.unit = 13 ∧ e.corrected = true)
        ∨ (e.unit = 19 ∧ e.corrected = false)) →
      ∃ t, exec (.errorDetected e) s = .next t ∧ t.selftests.length = s.selftests.length + 1
        ∧ record t (fun x => x.cls = (if e.corrected then 1 else 2) ∧ x.unit = e.unit ∧ x.part = e.part ∧ x.die = e.die ∧ x.core = e.core
          ∧ x.row = BitVec.ofNat 32 e.row ∧ x.col = BitVec.ofNat 16 e.col ∧ x.idx = BitVec.ofNat 16 e.idx ∧ x.det1 = e.det1)
        ∧ (∀ p how u g, e.corrected = false → e.consumer = some (.group p how) → groupAt s p = some (u, g) → readingLanes g ≠ 0#32 →
          u.ended = none → EndedWith t u.ref 0x16#8)
        ∧ (∀ r u x, e.corrected = false → e.consumer = some (.prog r) → progAt s r = some (u, x) → u.ended = none →
          EndedWith t u.ref 0x15#8)
        ∧ (∀ r n u x, e.corrected = false → e.consumer = some (.bulk r n) → progAt s r = some (u, x) → (∃ o ∈ x.queue, o.num = n) →
          u.ended = none → EndedWith t u.ref 0x15#8)
        ∧ (∀ c o u, e.corrected = false → e.consumer = some (.engine c) → (coreAt s c).engine.find? EngineOp.running = some o →
          teamAt s o.ref = some u → u.ended = none → EndedWith t u.ref 0x16#8)
        ∧ ((e.corrected = true ∨ e.consumer = none) → t.teams = s.teams))
    ∧ (∀ e : ErrorInput, isLink e.unit = true →
        let count (t : State) (kind : Nat) : Nat := mapGetD t.counts (countKey kind e.unit (linkDie e.unit e.die) e.idx 0) 0
        ∃ t, exec (.errorDetected e) s = .next t ∧ t.errQ = s.errQ ∧ t.teams = s.teams
        ∧ (e.corrected = false → count t 1 = (count s 1 + 1) % 2 ^ 64)
        ∧ (e.corrected = true → count t 0 = (count s 0 + max 1 e.det1.toNat) % 2 ^ 64 ∧ count t 8 = (count s 8 + max 1 e.det1.toNat) % 2 ^ 64))
    ∧ (∀ unit die idx, exec (.linkCrcError unit die idx false) s = .next s
        ∧ (isLink unit = false → exec (.linkCrcError unit die idx true) s = .next s)
        ∧ (isLink unit = true → ∃ t, exec (.linkCrcError unit die idx true) s = .next t
          ∧ record t (fun x => x.cls = 5 ∧ x.unit = unit ∧ x.die = linkDie unit die ∧ x.idx = BitVec.ofNat 16 idx)
          ∧ let key := countKey 2 unit (linkDie unit die) idx 0
          mapGetD t.counts key 0 = (mapGetD s.counts key 0 + 1) % 2 ^ 64))
    ∧ (∀ e rest, s.errWait = e :: rest →
        (mapGet s.errQ (s.errNext % 4096) ≠ none → exec .errorRecordDeferred s = .next s)
        ∧ (mapGet s.errQ (s.errNext % 4096) = none → ∃ t, exec .errorRecordDeferred s = .next t ∧ t.errWait = rest ∧ t.errNext = s.errNext + 1
          ∧ t.errLost = 0 ∧ mapGet t.errQ (s.errNext % 4096) = some { e with seq := s.errNext, time := s.time, lost := s.errLost % 2 ^ 32 }))
    ∧ (∀ n, ∃ t, exec (.errorQueueFree n) s = .next t ∧ mapGet t.errQ (n % 4096) = none
        ∧ ∀ k, k ≠ n % 4096 → mapGet t.errQ k = mapGet s.errQ k)
    ∧ (∀ n e outcome, s.selftests[n]? = some e →
        (isDatapath e = false → e.unit = 15 → 2 ≤ outcome → retireReady s (e.det1.toNat / 65536) = false → exec (.selftestDone n outcome) s = .next s)
        ∧ (isDatapath e = false → (e.unit = 15 → 2 ≤ outcome → retireReady s (e.det1.toNat / 65536) = true) → ∃ t, exec (.selftestDone n outcome) s = .next t ∧ t.selftests = listDrop s.selftests n
          ∧ record t (fun x => x.cls = 7 ∧ x.unit = e.unit ∧ x.core = e.core ∧ x.idx = e.idx ∧ (outcome = 0 → x.outcome = 0)
            ∧ (outcome ≠ 0 → x.outcome = 1 ∨ x.outcome = 2))
          ∧ (outcome ≠ 0 → isLink e.unit = true → (e.unit * 256 + e.die, e.idx.toNat) ∈ t.retiredLinks
            ∧ (e.unit = 18 → e.idx.toNat ∈ t.portReports))
          ∧ (2 ≤ outcome → e.unit = 15 → e.det1.toNat / 65536 ∈ t.retiredPages)
          ∧ let spares := countKey 16 e.unit e.die (e.core * 8 + e.part) e.idx.toNat
          (outcome ≠ 0 → isLink e.unit = false → e.unit ≠ 15 →
            (mapGetD s.counts spares 0 < 32 → mapGetD t.counts spares 0 = mapGetD s.counts spares 0 + 1)
            ∧ (32 ≤ mapGetD s.counts spares 0 → e.core < 1536 → e.core ∈ t.removed)))
        ∧ (isDatapath e = true →
          let c := (coreAt s e.core).scan
          (c.state = 4 → e.testing = true → ∃ t, exec (.selftestDone n outcome) s = .next t
            ∧ t.selftests = listDrop s.selftests n ∧ (coreAt t e.core).scan.state = 0 ∧ record t (fun x => x.cls = 7 ∧ x.outcome = 0))
          ∧ (c.state = 5 → e.testing = true → ∃ t, exec (.selftestDone n outcome) s = .next t
            ∧ t.selftests = listDrop s.selftests n ∧ (coreAt t e.core).scan.state = 7 ∧ e.core ∈ t.removed ∧ record t (fun x => x.cls = 3))
          ∧ (c.state = 7 → ∃ t, exec (.selftestDone n outcome) s = .next t ∧ record t (fun x => x.cls = 7 ∧ x.outcome = 2))
          ∧ (c.state ≠ 7 → (c.state = 4 ∨ c.state = 5 → e.testing = false) → exec (.selftestDone n outcome) s = .next s)))
    ∧ (s.clk < s.intervalFrom + 2 ^ s.logInt.toNat → exec .predictIntervalEnd s = .next s)
    ∧ (s.intervalFrom + 2 ^ s.logInt.toNat ≤ s.clk → ∃ t, exec .predictIntervalEnd s = .next t
        ∧ t.intervalFrom = s.intervalFrom + 2 ^ s.logInt.toNat
        ∧ (∀ p, p ∈ t.counts ↔ p ∈ s.counts ∧ ¬ (8 ≤ kind p ∧ kind p < 16))
        ∧ ∀ p m, s.counts.filter (fun p => decide (8 ≤ kind p) && decide (kind p < 16)) = [p] → limit p = some m →
          (m < p.2 → record t (fun x => x.cls = 6 ∧ x.det1 = BitVec.ofNat 64 p.2 ∧ x.det2 = BitVec.ofNat 64 m))
          ∧ (p.2 ≤ m → t.errQ = s.errQ))
    ∧ (∀ die, ((32 ≤ die ∨ die ∈ s.hotDies) → exec (.dieThermalTrip die) s = .next s)
        ∧ (die < 32 → die ∉ s.hotDies → ∃ t, exec (.dieThermalTrip die) s = .next t ∧ t.hotDies = s.hotDies ++ [die]
          ∧ (∀ c, c / 48 = die → coreOpen t c = false)
          ∧ ∀ r u, teamAt s r = some u → r.launch ≠ 0 → u.core / 48 = die → u.ended = none → ∃ v, teamAt t r = some v ∧ v.vacating = true)
        ∧ ∃ t, exec (.dieThermalReopen die) s = .next t ∧ ∀ d, d ∈ t.hotDies ↔ d ∈ s.hotDies ∧ d ≠ die)
    ∧ (∀ meas : BitVec 16, exec (.powerCapCheck meas) s = .next { s with meas := meas, throttled := decide (s.cap < meas) })
    ∧ (∀ secure slot, (secure = false ∨ 64 ≤ slot) →
        exec (.keySlotLoad ⟨secure, slot⟩) s = .next s ∧ exec (.keySlotClear ⟨secure, slot⟩) s = .next s)
    ∧ (∀ slot, slot < 64 →
        (slot ∉ s.keys → exec (.keySlotLoad ⟨true, slot⟩) s = .next { s with keys := s.keys ++ [slot] })
        ∧ (slot ∈ s.keys → ∃ t, exec (.keySlotLoad ⟨true, slot⟩) s = .next t ∧ unread t slot)
        ∧ ∃ t, exec (.keySlotClear ⟨true, slot⟩) s = .next t ∧ unread t slot ∧ ∀ k, k ∈ t.keys ↔ k ∈ s.keys ∧ k ≠ slot)
    ∧ (∀ m, (s.pendingFw = none → exec (.firmwareHandoverStart m) s = .next { s with pendingFw := some m })
        ∧ (s.pendingFw ≠ none → exec (.firmwareHandoverStart m) s = .next s)
        ∧ (s.pendingFw = some m → exec .firmwareHandoverCommit s = .next
            { s with pendingFw := none, firmware := some m, stages := s.stages ++ [m] })
        ∧ (s.pendingFw = none → exec .firmwareHandoverCommit s = .next s))
    ∧ exec .firmwareHandoverAbandon s = .next { s with pendingFw := none }

/-- 12 R177 and R190, 20 R318, 21 R333, R338 and R340, 24 R374, 25 R385 to R387. What HBM and the registers without a reset value hold after a module
reset (logs 4 and 12), the numbers of objects (log 20), which failure of a load is reported (log 31), and the first PTP message and the accesses a
shootdown waits for (log 54) are the model's choices. -/
def Obligations.MemoryMapsHostTimeAndObjects : Prop :=
  ∀ (s : State),
    let at' (owner : Nat) (world : Option Bool) (va n : Nat) (k : AccKind) (pa : Nat → Nat) : Prop :=
      ∀ i, i < n → translate s owner world ((va + i) % 2 ^ 57) k = .hbm (pa i)
    let first (owner : Nat) (world : Option Bool) (va n : Nat) (k : AccKind) (c : Code) : Prop :=
      ∃ i, i < n ∧ translate s owner world ((va + i) % 2 ^ 57) k = .fault c ∧ ∀ j, j < i → ∀ d, translate s owner world ((va + j) % 2 ^ 57) k ≠ .fault d
    let halfOnText (front back len : Nat) : Prop := ∃ b ∈ [front, back], ∃ r ∈ textRanges s, b < r.1 + r.2 ∧ r.1 < b + 65536 * len
    (∀ owner secure va n,
      (∀ pa, at' owner (some secure) va n .read pa → exec (.hostMemoryRead owner secure va n) s = .next
        { s with hostReply := (List.range n).map (fun i => hbmByte s owner (pa i)), hostStatus := 0 })
      ∧ (∀ c, first owner (some secure) va n .read c →
        exec (.hostMemoryRead owner secure va n) s = .next { s with hostReply := [], hostStatus := c.toNat }))
    ∧ (∀ owner secure va bytes,
      (∀ pa, at' owner (some secure) va bytes.length .write (fun i => pa + i) → ∃ t, exec (.hostMemoryWrite owner secure va bytes) s = .next t
        ∧ t.hostStatus = 0 ∧ WroteHbm s t owner pa bytes.length (bytesNat bytes))
      ∧ (∀ c, first owner (some secure) va bytes.length .write c →
        exec (.hostMemoryWrite owner secure va bytes) s = .next { s with hostReply := [], hostStatus := c.toNat }))
    ∧ (∀ a : PeerInput,
      let f : Form := { sub := BitVec.ofNat 8 ((a.kind - 2) % 16), ty := BitVec.ofNat 5 ((a.kind - 2) / 16) }
      let w := intWidth f.ty / 8
      let value (n : Nat) : BitVec (intWidth f.ty) := BitVec.ofNat _ n
      let granted (n : Nat) : Prop := ∀ i, i < n → (findPage s a.owner ((a.va + i) % 2 ^ 57)).any (fun p => p.peers.contains a.device) = true
      let size := if a.kind ≤ 1 then a.bytes.length else w
      let shaped : Prop := a.kind ≤ 1 ∨ ((w = 4 ∨ w = 8) ∧ a.va % w = 0 ∧ f.sub.toNat ≤ 8)
      let refused (c : Code) : Prop := exec (.peerAccess a) s = .next { s with hostReply := [], hostStatus := c.toNat }
      (¬ shaped → refused cAlign) ∧ (shaped → ¬ granted size → refused cXlate)
      ∧ (∀ c, shaped → granted size →
        first a.owner none a.va size (if a.kind = 0 then .read else if a.kind = 1 then .write else .atomic) c → refused c)
      ∧ (∀ pa, a.kind = 0 → granted size → at' a.owner none a.va a.bytes.length .read (fun i => pa + i) → ∃ t, exec (.peerAccess a) s = .next t
        ∧ t.hostStatus = 0 ∧ t.hostReply = hbmRead s a.owner pa a.bytes.length ∧ MemoryKept s t)
      ∧ (∀ pa, a.kind = 1 → granted size → at' a.owner none a.va a.bytes.length .write (fun i => pa + i) → ∃ t, exec (.peerAccess a) s = .next t
        ∧ t.hostStatus = 0 ∧ WroteHbm s t a.owner pa a.bytes.length (bytesNat a.bytes))
      ∧ (∀ pa, 2 ≤ a.kind → shaped → granted size → at' a.owner none a.va w .atomic (fun i => pa + i) →
        ∃ t, exec (.peerAccess a) s = .next t ∧ t.hostStatus = 0 ∧ t.hostReply = hbmRead s a.owner pa w
          ∧ WroteHbm s t a.owner pa w (atomicResult f (value (bytesNat (hbmRead s a.owner pa w))) (value (bytesNat (a.bytes.take w)))
            (value (bytesNat ((a.bytes.drop w).take w))))))
    ∧ (∀ (old : Option (Nat × Nat)) (page : Option PageMap),
      let gone (q : PageMap) : Prop := old = some (q.owner, q.va)
      let fits (p : PageMap) : Prop := pageOk p = true ∧ (∀ q ∈ s.pages, ¬ gone q → pagesMeet p q = false) ∧ writesText (textRanges s) p = false
      ((∃ q ∈ s.pages, gone q ∧ pageQuiet s q = false) → exec (.tlbShootdown old page) s = .next s)
      ∧ ((∀ q ∈ s.pages, gone q → pageQuiet s q = true) →
        (∀ p, page = some p → ¬ fits p → exec (.tlbShootdown old page) s = .next s)
        ∧ ((∀ p, page = some p → fits p) → ∃ t, exec (.tlbShootdown old page) s = .next t
          ∧ ∀ q, q ∈ t.pages ↔ page = some q ∨ (q ∈ s.pages ∧ ¬ gone q))))
    ∧ (∀ owner va,
      ∃ t, exec (.peerPageUnreachable owner va) s = .next t
        ∧ ∀ p ∈ t.pages, p.owner = owner → p.va = va → (∃ d l b, p.target = .peer d l b) → p.valid = false)
    ∧ (∀ n front back owner len, (4096 ≤ n ∨ mapGet s.published n ≠ none ∨ halfOnText front back len) → exec (.publishedBufferCreate n front back owner len) s = .next s)
    ∧ (∀ n front back owner len, n < 4096 → mapGet s.published n = none → ¬ halfOnText front back len → ∃ t, exec (.publishedBufferCreate n front back owner len) s = .next t
        ∧ mapGet t.published n = some ⟨front, back, owner, len, 0#64⟩ ∧ ∀ k, k ≠ n → mapGet t.published k = mapGet s.published k)
    ∧ (∀ n, ∃ t, exec (.publishedBufferFree n) s = .next t ∧ mapGet t.published n = none
        ∧ ∀ k, k ≠ n → mapGet t.published k = mapGet s.published k)
    ∧ (∀ (d : Int) (port : BitVec 8),
      (d ≤ 1000000 → exec (.ptpMessage d port) s = .next { s with ptpPort := port &&& 0x3F#8, ptpState := 1, slew := d })
      ∧ (1000000 < d → ∃ t, exec (.ptpMessage d port) s = .next t ∧ (t.time : Int) = s.time + d ∧ t.ptpState = 1 ∧ t.slew = 0
        ∧ t.ptpSteps.toNat = min 255 (s.ptpSteps.toNat + 1)))
    ∧ exec .ptpHoldover s = .next { s with ptpState := if s.ptpState = 1 then 2 else s.ptpState }
    ∧ (∃ t, exec .moduleReset s = .next t ∧ { t with agenda := [], freeCtr := 0 } =
        { State.reset with removed := s.removed, epochs := [(0, s.removed)] })
    ∧ (∀ r : RegisterInput,
      let x := loadResult r.file
      (x.status ≠ 0 → exec (.objectRegister r) s = .next { s with hostReply := resultBytes x, hostStatus := 0 })
      ∧ (x.status = 0 → placesOk s r = false → exec (.objectRegister r) s = .next s)
      ∧ (x.status = 0 → placesOk s r = true → ∃ t n o, exec (.objectRegister r) s = .next t ∧ mapGet t.objects n = some o
        ∧ (n = s.objNext ∨ (n = 0 ∧ r.owner = 0)) ∧ o.owner = r.owner ∧ o.textVa = r.textVa ∧ o.measure = measureOf (secBytes r.file 8)
        ∧ (∀ k, k ≠ n → mapGet t.objects k = mapGet s.objects k) ∧ t.pages = s.pages ++ objectPages r ∧ t.hostReply = resultBytes x
        ∧ t.stages = s.stages ++ [measureOf (secBytes r.file 8)]
        ∧ ∀ k, k < (secBytes r.file 0).length →
          (r.textPa + k < r.poolPa ∨ r.poolPa + (patched s r).1.length ≤ r.textPa + k) →
          (r.textPa + k < r.dataPa ∨ r.dataPa + (patched s r).2.length ≤ r.textPa + k) →
          hbmByte t r.owner (r.textPa + k) = (secBytes r.file 0)[k]?.getD 0#8))
    ∧ (∀ n o, mapGet s.objects n = some o → n ∉ s.unregistering →
      let held : Prop := (∃ p ∈ s.launches, p.2.obj = n) ∨ (∃ c ∈ s.cores, heldObject c.2 = some n)
        ∨ (∃ q ∈ s.queues, queuedObject s q.1 q.2 n = true) ∨ objectQuiet s o = false
      (¬ held → ∃ t, exec (.objectUnregister n) s = .next t
        ∧ mapGet t.objects n = none ∧ (∀ p ∈ t.pages, ¬ (p.owner = o.owner ∧ p.va ∈ o.pages)))
      ∧ (held → exec (.objectUnregister n) s = .next { s with unregistering := s.unregistering ++ [n] }))

/-- The tables of encodings of 07, 09, 10 and 16. -/
def Obligations.SpecWordsDecode : Prop :=
  decodeWords [0xB10C3000#32] = .instr (.iadd { d := 0x0C#7, a := 0x43#7, b := 0x58#7 })
  ∧ decodeWords [0xD5145002#32, 0xFFFFFFE0#32, 0xFFFFFFFF#32] = .instr
      (.iadd { d := 0x14#7, a := 0x45#7, b := 0x6A#7, lit := some 0xFFFFFFFFFFFFFFE0#64 })
  ∧ decodeWords [0xF2202001#32, 0x00039F64#32, 0#32] = .instr
      (.iadd { ext := true, d := 0x08#7, a := 0x08#7, b := 0x79#7, dx := 3#2, ax := 3#2 })
  ∧ decodeWords [0x04041A0D#32, 0x00058203#32, 0x00000001#32] = .instr
      (.ffma { ext := true, d := 0x06#7, dx := 1#2, a := 0x01#7, b := 0x02#7, c := 3#9, pred := 3#3, neg := true, rm := 1#3 })
  ∧ decodeWords [0x28001465#32, 0x00138164#32, 0#32] = .instr (.icmp { ext := true, d := 5#7, a := 0#7, b := 0x14#7, sub := 2#8 })
  ∧ decodeWords [0xC8181E81#32, 0x18038164#32, 0x00000008#32] = .instr
      (.fcvt { ext := true, d := 7#7, a := 6#7, ty := 3#5, sat := true })
  ∧ decodeWords [0xC99191A4#32] = .instr (.nop {})
  ∧ decodeWords [0x000003FC#32] = .instr (.udf 0#7 0#7 false 0#7 0#2)
  ∧ decodeWords [0xC99191A6#32, 0#32, 0#32] = .bad .illegalForm
  ∧ decodeWords [0xD9900000#32] = .bad .illegalOperand
  ∧ decodeWords [0xC8021400#32] = .bad .illegalForm
  ∧ decodeXWord 0x2A300001#32 0#32 = .instr (.xmov 8#4 3#2 1#16)
  ∧ decodeXWord 0x46038400#32 0#32 = .instr (.xst { c := 8#4, b := 0#4, w := 3#2, sp := true, o := 0x400#15 })
  ∧ decodeXWord 0xA0818080#32 0x08080000#32 = .instr
      (.xcopy { mode := 1#3, dst := 0#4, src := 3#4, bar := 0#4, off := 0x80#11 }
        { lr := false, len := 128#11, dz := true, sh := false, doff := 0#9, soff := 0#9 })
  ∧ decodeXWord 0xE0000000#32 0#32 = .instr .xend

/-- 07 R85 to R99, 16 R269 and R270. -/
def Obligations.DecodingAndEncodingAgree : Prop :=
  (∀ (i : Instr) (rest : List Word), isCompute i = true → i.wellFormed = true → decodeWords (encode i ++ rest) = .instr i)
  ∧ (∀ (i : Instr) (w next : Word) (rest : List Word), isTransfer i = true → i.wellFormed = true → encode i = w :: rest →
      decodeXWord w (rest.headD next) = .instr i ∧ rest.length = (if xHasOperandWord w then 1 else 0))
  ∧ (∀ (ws : List Word) (i : Instr), decodeWords ws = .instr i → i.wellFormed = true ∧ isCompute i = true ∧ ∃ rest, ws = encode i ++ rest)
  ∧ (∀ (w w2 : Word) (i : Instr), decodeXWord w w2 = .instr i → i.wellFormed = true ∧ isTransfer i = true
      ∧ encode i = w :: (if xHasOperandWord w then [w2] else []))

/-- 03 R41, 07 R99, 16 R267 and R270, 25 R386, R391 and R392; the order of turns (log 2), the form of a debug answer and what shows that the endpoints answer (log
61) are the model's (DESIGN CHOICE). -/
def Obligations.AStepRunsTheDecodedInstruction : Prop :=
  ∀ s : State,
    let answers (rest : List Item) : Bool := endpointsAnswer { s with agenda := rest }
    (∀ i rest, s.agenda = .event i :: rest → encode i = [] →
      ((viaEndpoint i = false ∨ answers rest = true) → step s = thenDo (exec i { s with agenda := rest }) settle)
      ∧ (viaEndpoint i = true → answers rest = false → step s = .next { s with agenda := rest }))
    ∧ (∀ r rest, s.agenda = .debugRead r :: rest → answers rest = false → step s = .next { s with agenda := rest })
    ∧ (∀ r rest, s.agenda = .debugRead r :: rest → answers rest = true → ∃ t, step s = .next (settle t)
      ∧ { t with hostReply := s.hostReply, hostStatus := s.hostStatus, freeCtr := s.freeCtr } = { s with agenda := rest }
      ∧ (∀ c, r = .lcr c → t.hostStatus = 0
          ∧ t.hostReply = (List.range 0x47).flatMap (fun k => natBytes ((coreCsr s (coreAt s c) (0x130 + k)).getD 0) 8))
      ∧ (∀ n, r = .csr n → (∀ v, devCsr s n = some v → t.hostStatus = 0 ∧ t.hostReply = natBytes v 8)
          ∧ (devCsr s n = none → t.hostReply = [] ∧ t.hostStatus = cIllegalOperand.toNat)))
    ∧ (∀ (rest : List Item) (c slot k : Nat) (s1 : State) (t : Team) (g : Group) (le : Lease) (o : Obj),
      let s0 := { s with agenda := rest }
      let p : GroupRef := ⟨c, s.turn.part, slot⟩
      s.agenda = .barrel :: rest → s.turn.core = some c → s.turn.part < 6 → (coreAt s0 c).scan.state ≠ 3 →
      (partAt (coreAt s0 c) s.turn.part).fp64Till ≤ s.clk → withheld s0 s.turn.part s.turn.pos = false →
      scanRing exec s0 c = some (slot, k, s1) → groupAt s1 p = some (t, g) → g.lease = some le → breakpointAt s1 t g = none →
      le.overlay = none → objOf s1 (launchOf s1 t) = some o →
      let after (ender : Bool) (u : State) : State :=
        settle (groupTurn c slot k (leaseUnits s1 p) (some (t.ref, g.id)) (afterIssue t g le ender u))
      match decodeBytes (hbmRead s1 o.owner (o.textPa + (le.pc.toNat - o.textVa)) 20) with
      | .instr i => step s = thenDo (exec i { s1 with cur := .group p })
          (after (match i.opForm with | some q => isTerminator q.1 | none => false))
      | .bad r => ∀ is, issueOf { s1 with cur := .group p } .nop {} = some is →
          step s = .next (after false (holdWhole { s1 with cur := .group p } is is.m (decodeCode r) 7 0#57)))
    ∧ (∀ (rest : List Item) (c : Nat) (t : Team) (x : XProg),
      let s0 := { s with agenda := rest }
      let r : ProgRef := ⟨c, s.turn.pos⟩
      s.agenda = .barrel :: rest → s.turn.core = some c → 6 ≤ s.turn.part → progAt s0 r = some (t, x) → progReady s0 t x = true →
      let turned (u : State) : State :=
        settle { u with turn := if s.turn.pos < 3 then { u.turn with pos := s.turn.pos + 1 } else coreDone u.turn }
      match fetchX s0 t x with
      | .instr i => step s = thenDo (exec i { s0 with cur := .prog r }) (fun u =>
          turned (updTeam { u with cur := .none } t.ref (fun v =>
            { v with moved := v.moved || v.progs.any (fun y => y.n == x.n && y.lastIssue == some s.clk) })))
      | .bad _ => step s = thenDo (exec (.transferIllegalWord r) s0) turned)
    ∧ (s.agenda = [] → s.turn ≠ {} → step s = thenDo (barrel exec s) settle)
    ∧ (s.agenda = [] → s.turn = {} → (dueItems s).findSome? (dueState exec s) = none → agentServes s = none → nextCore s = none →
      step s = .next (settle (clockStep s)) ∧ (clockStep s).clk = s.clk + 1 ∧ s.time ≤ (clockStep s).time)

/-- The reset values of 03 R46, 12 R182, 18 R304, 20 R314, 22 R347, 23 R365, 24 R373 and 25 R388 and R392; logs 4, 6 and 12. -/
def Obligations.ResetLeavesTheResetValues : Prop :=
  let s := State.reset
  s.teams = [] ∧ s.launches = [] ∧ s.queues = [] ∧ s.slots = [] ∧ s.objects = [] ∧ s.pages = [] ∧ s.published = [] ∧ s.faultQ = []
  ∧ s.faultNext = 0 ∧ s.faultBaseSet = false ∧ s.errQ = [] ∧ s.errNext = 0
  ∧ (∀ c, (coreAt s c).lcr = {} ∧ (coreAt s c).lcr.en = true ∧ (coreAt s c).forageEn = true ∧ (coreAt s c).overlays = []
      ∧ (coreAt s c).scan.state = 0 ∧ (coreAt s c).scan.ref = 0#64 ∧ (coreAt s c).bps = [] ∧ (coreAt s c).expTable = [] ∧ (coreAt s c).engine = [])
  ∧ s.qidle = 100#16 ∧ s.age = 50#16 ∧ s.linkLim = 1024#16 ∧ s.bankLim = 256#16 ∧ s.rowLim = 4#16 ∧ s.logInt = 36#6 ∧ s.cap = 1150#16
  ∧ logicalCount s s.epoch = 1536 ∧ Canonical s ∧ (∀ o pa, hbmByte s o pa = 0#8)
  ∧ ∃ t, step s = .next t ∧ t.clk = 1

/-- The canonical form is the model's; 12 R179 and R187 say what holds bytes. -/
def Obligations.EveryStepKeepsMemoryCanonical : Prop :=
  ∀ s t : State, Canonical s → step s = .next t → Canonical t
end

