-- ==== Sys2Proof/Laws/Maps.lean ====
section
/-! SUPPORT. Laws of sparse maps, of memories, of byte strings and of lane masks: a read after a write, what a write leaves alone, and the
canonical form, which every operation keeps. -/
namespace Sys2Proof.Machine

/-! ## Maps -/

theorem mapGet_dropWhile_le {α : Type} (r : List (Nat × α)) (k k' : Nat) (h : k < k') :
    mapGet (r.dropWhile (fun q => decide (q.1 ≤ k))) k' = mapGet r k' := by
  induction r with
  | nil => rfl
  | cons p r ih =>
    by_cases hp : p.1 ≤ k
    · have : ¬ p.1 = k' := by omega
      have h2 : ¬ k' < p.1 := by omega
      simp [List.dropWhile, hp, mapGet, this, h2, ih]
    · simp [List.dropWhile, hp]

theorem mapGet_lt_head {α : Type} (r : List (Nat × α)) (k k' : Nat) (h : k' ≤ k) :
    mapGet (r.dropWhile (fun q => decide (q.1 ≤ k))) k' = none := by
  induction r with
  | nil => rfl
  | cons p r ih =>
    by_cases hp : p.1 ≤ k
    · simpa [List.dropWhile, hp] using ih
    · have h1 : ¬ p.1 = k' := by omega
      have h2 : k' < p.1 := by omega
      simp [List.dropWhile, hp, mapGet, h1, h2]

/-- A number put is the number got. -/
theorem mapGet_mapPut_same {α : Type} (m : List (Nat × α)) (k : Nat) (x : α) : mapGet (mapPut m k x) k = some x := by
  induction m with
  | nil => simp [mapPut, mapGet]
  | cons p r ih =>
    simp only [mapPut]
    split
    · simp [mapGet]
    · split
      · simp [mapGet]
      · rename_i h1 h2
        simp [mapGet, h1, h2, ih]

/-- A put leaves every other number alone. -/
theorem mapGet_mapPut_other {α : Type} (m : List (Nat × α)) (k k' : Nat) (x : α) (h : k' ≠ k) :
    mapGet (mapPut m k x) k' = mapGet m k' := by
  induction m with
  | nil => by_cases hk : k' < k <;> simp [mapPut, mapGet, Ne.symm h, hk]
  | cons p r ih =>
    simp only [mapPut]
    split
    · rename_i h1
      by_cases hk : k' < k <;> simp [mapGet, h1, Ne.symm h, hk]
    · split
      · by_cases hk : k' < k
        · have h2 : ¬ p.1 = k' := by omega
          have h3 : k' < p.1 := by omega
          simp [mapGet, Ne.symm h, hk, h2, h3]
        · simp [mapGet, Ne.symm h, hk]
      · simp [mapGet, ih]

theorem mapGet_mapPut {α : Type} (m : List (Nat × α)) (k k' : Nat) (x : α) :
    mapGet (mapPut m k x) k' = if k' = k then some x else mapGet m k' := by
  split
  · rename_i h; rw [h, mapGet_mapPut_same]
  · rename_i h; exact mapGet_mapPut_other m k k' x h

/-- A number deleted is unlisted, and every other number is left alone. -/
theorem mapGet_mapDel {α : Type} (m : List (Nat × α)) (k k' : Nat) :
    mapGet (mapDel m k) k' = if k' = k then none else mapGet m k' := by
  induction m with
  | nil => simp [mapDel, mapGet]
  | cons p r ih =>
    simp only [mapDel]
    split
    · rename_i h1
      by_cases hk : k' ≤ k
      · rw [mapGet_lt_head r k k' hk]
        by_cases he : k' = k
        · simp [he]
        · have h2 : ¬ p.1 = k' := by omega
          have h3 : k' < p.1 := by omega
          simp [mapGet, he, h2, h3]
      · rw [mapGet_dropWhile_le r k k' (by omega)]
        have h2 : ¬ p.1 = k' := by omega
        have h3 : ¬ k' < p.1 := by omega
        have h4 : ¬ k' = k := by omega
        simp [mapGet, h2, h3, h4]
    · split
      · rename_i h1 h2
        by_cases he : k' = k
        · have h3 : ¬ p.1 = k' := by omega
          have h4 : k' < p.1 := by omega
          simp [mapGet, he, h1, h2]
        · simp [he]
      · rename_i h1 h2
        by_cases he : k' = k
        · subst he
          simp [mapGet, h1, h2, ih]
        · simp only [mapGet, ih, he, if_false]

/-- A value set is the value read, and every other number reads as before. -/
theorem mapGetD_mapSet {α : Type} [DecidableEq α] (m : List (Nat × α)) (k k' : Nat) (x d : α) :
    mapGetD (mapSet m k x d) k' d = if k' = k then x else mapGetD m k' d := by
  unfold mapGetD mapSet
  split
  · rename_i h
    rw [mapGet_mapDel]
    split <;> simp [h]
  · rw [mapGet_mapPut]
    split <;> simp

/-- A map over the values keeps which numbers are listed. -/
theorem mapGet_map {α β : Type} (m : List (Nat × α)) (f : Nat → α → β) (k : Nat) :
    mapGet (m.map (fun p => (p.1, f p.1 p.2))) k = (mapGet m k).map (f k) := by
  induction m with
  | nil => rfl
  | cons p r ih =>
    simp only [List.map_cons, mapGet]
    by_cases h1 : p.1 = k
    · simp [h1]
    · by_cases h2 : k < p.1 <;> simp [h1, h2, ih]

/-! ## The canonical form -/

/-- Numbers rise strictly from above `k`. -/
def risesAbove {α : Type} (k : Nat) (m : List (Nat × α)) : Bool := match m with | [] => true | (j, _) :: _ => decide (k < j)

theorem mapWf_cons {α : Type} [DecidableEq α] (d : α) (p : Nat × α) (r : List (Nat × α)) :
    mapWf d (p :: r) = (decide (p.2 ≠ d) && risesAbove p.1 r && mapWf d r) := by
  cases r <;> rfl

theorem risesAbove_mapPut {α : Type} (m : List (Nat × α)) (j k : Nat) (x : α) (h : risesAbove j m = true) (hk : j < k) :
    risesAbove j (mapPut m k x) = true := by
  cases m with
  | nil => simpa [mapPut, risesAbove] using hk
  | cons p r =>
    simp only [mapPut]
    split
    · simpa [risesAbove] using hk
    · split
      · simpa [risesAbove] using hk
      · simpa [risesAbove] using h

theorem mapWf_mapPut {α : Type} [DecidableEq α] (d : α) (m : List (Nat × α)) (k : Nat) (x : α) (hx : x ≠ d)
    (h : mapWf d m = true) : mapWf d (mapPut m k x) = true := by
  induction m with
  | nil => simp [mapPut, mapWf, hx]
  | cons p r ih =>
    rw [mapWf_cons] at h
    simp only [Bool.and_eq_true, decide_eq_true_eq] at h
    simp only [mapPut]
    split
    · rename_i h1
      rw [mapWf_cons]
      subst h1
      simp [hx, h.1.2, h.2]
    · split
      · rename_i h1 h2
        rw [mapWf_cons, mapWf_cons]
        have h3 : risesAbove k (p :: r) = true := by simpa [risesAbove] using h2
        simp [hx, h.1.1, h.1.2, h.2, h3]
      · rename_i h1 h2
        rw [mapWf_cons]
        have hlt : p.1 < k := by omega
        simp [h.1.1, ih h.2, risesAbove_mapPut r p.1 k x h.1.2 hlt]

theorem dropWhile_le_of_rises {α : Type} (r : List (Nat × α)) (k : Nat) (h : risesAbove k r = true) :
    r.dropWhile (fun q => decide (q.1 ≤ k)) = r := by
  cases r with
  | nil => rfl
  | cons p r =>
    have : ¬ p.1 ≤ k := by simp [risesAbove] at h; omega
    simp [List.dropWhile, this]

theorem risesAbove_trans {α : Type} (r : List (Nat × α)) (j k : Nat) (h : risesAbove k r = true)
    (hj : j ≤ k) : risesAbove j r = true := by
  cases r with
  | nil => rfl
  | cons p r => simp [risesAbove] at h ⊢; omega

theorem risesAbove_mapDel {α : Type} [DecidableEq α] (d : α) (m : List (Nat × α)) (j k : Nat) (h : risesAbove j m = true)
    (hw : mapWf d m = true) : risesAbove j (mapDel m k) = true := by
  cases m with
  | nil => rfl
  | cons p r =>
    rw [mapWf_cons] at hw
    simp only [Bool.and_eq_true, decide_eq_true_eq] at hw
    simp only [mapDel]
    split
    · rename_i h1
      rw [dropWhile_le_of_rises r k (h1 ▸ hw.1.2)]
      refine risesAbove_trans r j p.1 hw.1.2 ?_
      simp [risesAbove] at h; omega
    · split
      · exact h
      · simpa [risesAbove] using h

theorem mapWf_mapDel {α : Type} [DecidableEq α] (d : α) (m : List (Nat × α)) (k : Nat) (h : mapWf d m = true) :
    mapWf d (mapDel m k) = true := by
  induction m with
  | nil => rfl
  | cons p r ih =>
    have h0 := h
    rw [mapWf_cons] at h
    simp only [Bool.and_eq_true, decide_eq_true_eq] at h
    simp only [mapDel]
    split
    · rename_i h1
      rw [dropWhile_le_of_rises r k (h1 ▸ h.1.2)]
      exact h.2
    · split
      · exact h0
      · rw [mapWf_cons]
        simp [h.1.1, ih h.2, risesAbove_mapDel d r p.1 k h.1.2 h.2]

/-- A set keeps the canonical form. -/
theorem mapWf_mapSet {α : Type} [DecidableEq α] (d : α) (m : List (Nat × α)) (k : Nat) (x : α) (h : mapWf d m = true) :
    mapWf d (mapSet m k x d) = true := by
  unfold mapSet
  split
  · exact mapWf_mapDel d m k h
  · rename_i hx; exact mapWf_mapPut d m k x hx h

/-- A number below the listed ones reads as unlisted. -/
theorem mapGetD_lt {α : Type} (d : α) (m : List (Nat × α)) (k j : Nat) (h : risesAbove k m = true) (hj : j ≤ k) :
    mapGetD m j d = d := by
  cases m with
  | nil => rfl
  | cons p r =>
    simp [risesAbove] at h
    have h1 : ¬ p.1 = j := by omega
    have h2 : j < p.1 := by omega
    simp [mapGetD, mapGet, h1, h2]

/-! ## Memories -/

/-- A byte written is the byte read; every other byte is left alone. -/
theorem readByte_writeByte (m : List Host.Cell) (a b : Nat) (x : Byte) :
    readByte (writeByte m a x) b = if b = a then x else readByte m b :=
  mapGetD_mapSet m a b x unlistedByte

/-- Writing a byte keeps the canonical form. -/
theorem writeByte_wf (m : List Host.Cell) (a : Nat) (x : Byte) (h : Memory.wf m = true) : Memory.wf (writeByte m a x) = true :=
  mapWf_mapSet unlistedByte m a x h

/-- Writing bytes keeps the canonical form. -/
theorem writeBytes_wf (m : List Host.Cell) (a : Nat) (bs : List Byte) (h : Memory.wf m = true) :
    Memory.wf (writeBytes m a bs) = true := by
  induction bs generalizing m a with
  | nil => exact h
  | cons b r ih => exact ih _ _ (writeByte_wf m a b h)

/-- Bytes written read back, and bytes outside them are left alone. -/
theorem readByte_writeBytes (m : List Host.Cell) (a : Nat) (bs : List Byte) (b : Nat) :
    readByte (writeBytes m a bs) b = if a ≤ b ∧ b < a + bs.length then (bs[b - a]?).getD unlistedByte else readByte m b := by
  induction bs generalizing m a with
  | nil =>
    have : ¬ (a ≤ b ∧ b < a + ([] : List Byte).length) := by simp
    rw [if_neg this]
    rfl
  | cons x r ih =>
    simp only [writeBytes, ih, readByte_writeByte, List.length_cons]
    by_cases h1 : a + 1 ≤ b ∧ b < a + 1 + r.length
    · have h2 : a ≤ b ∧ b < a + (r.length + 1) := by omega
      have h3 : b - a = (b - (a + 1)) + 1 := by omega
      simp [h1, h2, h3]
    · by_cases h2 : b = a
      · have h3 : ¬ (a + 1 ≤ b ∧ b < a + 1 + r.length) := h1
        subst h2
        rw [if_neg h3, if_pos rfl, if_pos (by omega)]
        simp
      · have h3 : ¬ (a ≤ b ∧ b < a + (r.length + 1)) := by omega
        rw [if_neg h1, if_neg h2, if_neg h3]

theorem readBytes_eq (m : List Host.Cell) (a n : Nat) : readBytes m a n = (List.range n).map (fun k => readByte m (a + k)) := by
  induction n generalizing a with
  | zero => rfl
  | succ n ih =>
    rw [readBytes, ih, List.range_succ_eq_map]
    simp [Function.comp_def, Nat.add_assoc, Nat.add_comm 1]

theorem readBytes_length (m : List Host.Cell) (a n : Nat) : (readBytes m a n).length = n := by simp [readBytes_eq]

/-- Bytes read where bytes were written are those bytes. -/
theorem readBytes_writeBytes (m : List Host.Cell) (a : Nat) (bs : List Byte) : readBytes (writeBytes m a bs) a bs.length = bs := by
  apply List.ext_getElem?
  intro k
  rw [readBytes_eq]
  by_cases hk : k < bs.length
  · have h1 : a ≤ a + k ∧ a + k < a + bs.length := by omega
    simp only [List.getElem?_map, List.getElem?_range hk, Option.map_some, readByte_writeBytes, h1, and_self, if_true]
    have : bs[k]? = some bs[k] := List.getElem?_eq_getElem hk
    simp [this]
  · have h1 : bs[k]? = none := List.getElem?_eq_none (by omega)
    rw [h1, List.getElem?_eq_none]
    simp; omega

/-! ## Bytes and numbers -/

theorem natBytes_length (x n : Nat) : (natBytes x n).length = n := by
  induction n generalizing x with
  | zero => rfl
  | succ n ih => simp [natBytes, ih]

/-- The number that little-endian bytes of a number hold is that number modulo their width. -/
theorem bytesNat_natBytes (x n : Nat) : bytesNat (natBytes x n) = x % 2 ^ (8 * n) := by
  induction n generalizing x with
  | zero => simp [natBytes, bytesNat, Nat.mod_one]
  | succ n ih =>
    have h : 2 ^ (8 * (n + 1)) = 256 * 2 ^ (8 * n) := by
      rw [show 8 * (n + 1) = 8 * n + 8 from by omega, Nat.pow_add, Nat.mul_comm]
    simp only [natBytes, bytesNat, ih, BitVec.toNat_ofNat, h]
    rw [Nat.mod_mul]
    omega

/-! ## Lane masks -/

theorem hasLane_laneBit (l n : Nat) : hasLane (laneBit l) n = (decide (n < 32) && decide (n = l)) := by
  simp only [hasLane, laneBit, BitVec.getLsbD_ofNat, Nat.testBit_two_pow]
  congr 1
  exact decide_eq_decide.mpr eq_comm

theorem hasLane_or (a b : Mask) (n : Nat) : hasLane (a ||| b) n = (hasLane a n || hasLane b n) := by
  simp [hasLane]

theorem hasLane_foldl (ls : List Nat) (m : Mask) (n : Nat) :
    hasLane (ls.foldl (fun m l => m ||| laneBit l) m) n = (hasLane m n || (decide (n < 32) && decide (n ∈ ls))) := by
  induction ls generalizing m with
  | nil => simp
  | cons l r ih =>
    rw [List.foldl_cons, ih, hasLane_or, hasLane_laneBit]
    by_cases h2 : n = l
    · subst h2
      by_cases h1 : n < 32 <;> simp [h1]
    · simp [h2]

/-- The mask of a list of lanes names exactly the lanes below 32 of the list. -/
theorem hasLane_maskOf (ls : List Nat) (n : Nat) : hasLane (maskOf ls) n = (decide (n < 32) && decide (n ∈ ls)) := by
  have h : hasLane 0#32 n = false := by simp [hasLane]
  simp [maskOf, hasLane_foldl, h]

theorem hasLane_lt {m : Mask} {n : Nat} (h : hasLane m n = true) : n < 32 := by
  rcases Nat.lt_or_ge n 32 with hn | hn
  · exact hn
  · simp [hasLane, BitVec.getLsbD_of_ge m n hn] at h

/-- The lanes of a mask are the lanes it names. -/
theorem mem_lanesOf (m : Mask) (n : Nat) : n ∈ lanesOf m ↔ hasLane m n = true := by
  simp only [lanesOf, List.mem_filter, List.mem_range]
  exact ⟨fun h => h.2, fun h => ⟨hasLane_lt h, h⟩⟩

end Sys2Proof.Machine
end

