-- ==== Sys2Proof/Laws/Lane.lean ====
section
/-! SUPPORT. Laws of a lane's registers and result window: what a register, a predicate and a latch read after an entry is pushed, written
back or flushed (04 R61 to R64). -/
namespace Sys2Proof.Machine

/-- The word an entry forwards to a v register. -/
def entryWord (e : Latch) (n : Nat) : Option (BitVec 32) :=
  if e.pending then
    match e.dest with
    | .v d w => if d ≤ n ∧ n < d + w then some ((e.val >>> (32 * (n - d))).extractLsb' 0 32) else none
    | _ => none
  else none

/-- The bit an entry forwards to a predicate. -/
def entryPred (e : Latch) (n : Nat) : Option Bool := if e.pending && e.dest == .p n then some (e.val.getLsbD 0) else none

theorem readReg_eq (l : Lane) (n : Nat) : readReg l n = (l.win.findSome? (fun e => entryWord e n)).getD (mapGetD l.v n 0#32) := rfl

theorem predOf_eq (l : Lane) (n : Nat) :
    predOf l n = if n ≥ 7 then true else (l.win.findSome? (fun e => entryPred e n)).getD (l.p.getLsbD n) := rfl

/-- Words put read back, and every other register is left alone. -/
theorem mapGetD_putWords (v : List (Nat × BitVec 32)) (n : Nat) (x : QWord) (w r : Nat) :
    mapGetD (putWords v n x w) r 0#32 =
      if n ≤ r ∧ r < n + w then (x >>> (32 * (r - n))).extractLsb' 0 32 else mapGetD v r 0#32 := by
  induction w generalizing v n x with
  | zero =>
    have : ¬ (n ≤ r ∧ r < n + 0) := by omega
    rw [if_neg this, putWords]
  | succ w ih =>
    simp only [putWords, ih, mapGetD_mapSet]
    by_cases h1 : n + 1 ≤ r ∧ r < n + 1 + w
    · have h2 : n ≤ r ∧ r < n + (w + 1) := by omega
      have h3 : 32 * (r - n) = 32 + 32 * (r - (n + 1)) := by omega
      rw [if_pos h1, if_pos h2, h3, BitVec.shiftRight_add]
    · rw [if_neg h1]
      by_cases h2 : r = n
      · subst h2
        have h3 : r ≤ r ∧ r < r + (w + 1) := by omega
        simp [h3]
      · have h3 : ¬ (n ≤ r ∧ r < n + (w + 1)) := by omega
        rw [if_neg h3, if_neg h2]

theorem getLsbD_ofNat_two_pow (w n m : Nat) : (BitVec.ofNat w (2 ^ n)).getLsbD m = (decide (m < w) && decide (n = m)) := by
  rw [BitVec.getLsbD_ofNat, Nat.testBit_two_pow]

theorem getLsbD_putPred (p : BitVec 7) (n m : Nat) (b : Bool) (hn : n < 7) :
    (putPred p n b).getLsbD m = if m = n then b else p.getLsbD m := by
  have h : (putPred p n b).getLsbD m = if b then p.getLsbD m || (decide (m < 7) && decide (n = m))
      else p.getLsbD m && (decide (m < 7) && !(decide (m < 7) && decide (n = m))) := by
    unfold putPred
    rw [if_pos hn]
    cases b
    · simp only [Bool.false_eq_true, if_false, BitVec.getLsbD_and, BitVec.getLsbD_not, getLsbD_ofNat_two_pow]
    · simp only [if_true, BitVec.getLsbD_or, getLsbD_ofNat_two_pow]
  rw [h]
  rcases Nat.lt_or_ge m 7 with hm | hm
  · by_cases he : m = n
    · subst he; cases b <;> simp [hm]
    · cases b <;> simp [hm, he, Ne.symm he]
  · have he : m ≠ n := by omega
    simp [he, BitVec.getLsbD_of_ge p m hm, Ne.symm he]

/-- A register after an entry is written back to the file. -/
theorem writeBack_v (l : Lane) (e : Latch) (n : Nat) :
    mapGetD (writeBack l e).v n 0#32 = (entryWord e n).getD (mapGetD l.v n 0#32) := by
  unfold writeBack entryWord
  cases e.pending with
  | false => simp
  | true =>
    cases e.dest with
    | none => simp
    | p k => simp
    | v d w =>
      simp only [if_true, mapGetD_putWords]
      split <;> simp

theorem writeBack_p (l : Lane) (e : Latch) (n : Nat) (hn : n < 7) :
    (writeBack l e).p.getLsbD n = (entryPred e n).getD (l.p.getLsbD n) := by
  unfold writeBack entryPred
  cases e.pending with
  | false => simp
  | true =>
    cases e.dest with
    | none => simp
    | v d w => simp
    | p k =>
      by_cases hk : k < 7
      · simp only [if_true, getLsbD_putPred _ _ _ _ hk, Bool.true_and]
        by_cases h : n = k
        · subst h; simp
        · have h2 : ¬ (Dest.p k == Dest.p n) = true := by simp; omega
          simp [h, h2]
      · have h2 : ¬ (Dest.p k == Dest.p n) = true := by simp; omega
        simp [putPred, hk, h2]

@[simp] theorem writeBack_win (l : Lane) (e : Latch) : (writeBack l e).win = l.win := by
  unfold writeBack
  split
  · split <;> rfl
  · rfl

/-- Writing an entry back touches the registers and predicates only. -/
theorem writeBack_keeps (l : Lane) (e : Latch) : { writeBack l e with v := l.v, p := l.p } = l := by
  unfold writeBack
  split
  · split <;> rfl
  · rfl

theorem writeBackAll_cons (l : Lane) (e : Latch) (es : List Latch) : writeBackAll l (e :: es) = writeBack (writeBackAll l es) e := rfl

theorem writeBackAll_keeps (l : Lane) (es : List Latch) : { writeBackAll l es with v := l.v, p := l.p } = l := by
  induction es with
  | nil => rfl
  | cons e r ih =>
    have h1 := writeBack_keeps (writeBackAll l r) e
    rw [writeBackAll_cons]
    generalize writeBack (writeBackAll l r) e = y at h1 ⊢
    generalize writeBackAll l r = x at h1 ih
    have h2 : { y with v := l.v, p := l.p } = { ({ y with v := x.v, p := x.p } : Lane) with v := l.v, p := l.p } := rfl
    rw [h2, h1, ih]

theorem writeBackAll_v (l : Lane) (es : List Latch) (n : Nat) :
    mapGetD (writeBackAll l es).v n 0#32 = (es.findSome? (fun e => entryWord e n)).getD (mapGetD l.v n 0#32) := by
  induction es with
  | nil => rfl
  | cons e r ih =>
    rw [writeBackAll_cons, writeBack_v, ih, List.findSome?_cons]
    cases entryWord e n <;> rfl

theorem writeBackAll_p (l : Lane) (es : List Latch) (n : Nat) (hn : n < 7) :
    (writeBackAll l es).p.getLsbD n = (es.findSome? (fun e => entryPred e n)).getD (l.p.getLsbD n) := by
  induction es with
  | nil => rfl
  | cons e r ih =>
    rw [writeBackAll_cons, writeBack_p _ _ _ hn, ih, List.findSome?_cons]
    cases entryPred e n <;> rfl

theorem findSome?_take_drop {α β : Type} (l : List α) (f : α → Option β) (k : Nat) (d : β) :
    ((l.take k).findSome? f).getD (((l.drop k).findSome? f).getD d) = (l.findSome? f).getD d := by
  conv => rhs; rw [← List.take_append_drop k l, List.findSome?_append]
  cases (l.take k).findSome? f <;> rfl

/-- A register after a push: the new entry's word, else what it was. -/
theorem readReg_pushLatch (l : Lane) (e : Latch) (n : Nat) : readReg (pushLatch l e) n = (entryWord e n).getD (readReg l n) := by
  have h : readReg (pushLatch l e) n = (((e :: l.win).take 8).findSome? (fun e => entryWord e n)).getD
      (mapGetD (writeBackAll l ((e :: l.win).drop 8)).v n 0#32) := rfl
  rw [h, writeBackAll_v, findSome?_take_drop, List.findSome?_cons, readReg_eq]
  cases entryWord e n <;> rfl

/-- A predicate after a push: the new entry's bit, else what it was; p7 stays 1. -/
theorem predOf_pushLatch (l : Lane) (e : Latch) (n : Nat) :
    predOf (pushLatch l e) n = if n ≥ 7 then true else (entryPred e n).getD (predOf l n) := by
  rw [predOf_eq]
  split
  · rfl
  · rename_i hn
    have h : (pushLatch l e).win = (e :: l.win).take 8 := rfl
    have h2 : (pushLatch l e).p = (writeBackAll l ((e :: l.win).drop 8)).p := rfl
    rw [h, h2, writeBackAll_p _ _ _ (by omega), findSome?_take_drop, List.findSome?_cons, predOf_eq, if_neg hn]
    cases entryPred e n <;> rfl

/-- A push touches the registers, the predicates and the window only. -/
theorem pushLatch_keeps (l : Lane) (e : Latch) : { pushLatch l e with v := l.v, p := l.p, win := l.win } = l := by
  have h := writeBackAll_keeps l ((e :: l.win).drop 8)
  have h2 : { pushLatch l e with v := l.v, p := l.p, win := l.win } =
      { ({ writeBackAll l ((e :: l.win).drop 8) with v := l.v, p := l.p } : Lane) with win := l.win } := rfl
  rw [h2, h]

/-- The newest latch of a lane after a push. -/
theorem pushLatch_head (l : Lane) (e : Latch) : (pushLatch l e).win.head? = some e := rfl

/-- The window holds at most eight entries after a push. -/
theorem pushLatch_length (l : Lane) (e : Latch) : (pushLatch l e).win.length ≤ 8 := by
  have h : (pushLatch l e).win = (e :: l.win).take 8 := rfl
  rw [h, List.length_take]
  omega

/-- The end of a segment changes no register's value (04 R63). -/
theorem readReg_flushWindow (l : Lane) (n : Nat) : readReg (flushWindow l) n = readReg l n := by
  have h : readReg (flushWindow l) n = mapGetD (writeBackAll l l.win).v n 0#32 := rfl
  rw [h, writeBackAll_v, readReg_eq]

theorem predOf_flushWindow (l : Lane) (n : Nat) : predOf (flushWindow l) n = predOf l n := by
  have h : predOf (flushWindow l) n = if n ≥ 7 then true else (writeBackAll l l.win).p.getLsbD n := rfl
  rw [h, predOf_eq]
  split
  · rfl
  · rw [writeBackAll_p _ _ _ (by omega)]

theorem flushWindow_keeps (l : Lane) : { flushWindow l with v := l.v, p := l.p, win := l.win } = l := by
  have h := writeBackAll_keeps l l.win
  have h2 : { flushWindow l with v := l.v, p := l.p, win := l.win } =
      { ({ writeBackAll l l.win with v := l.v, p := l.p } : Lane) with win := l.win } := rfl
  rw [h2, h]

@[simp] theorem flushWindow_win (l : Lane) : (flushWindow l).win = [] := rfl

/-- Settling a window writes its entries back and changes no register's value (04 R52). -/
theorem readReg_settleWindow (l : Lane) (n : Nat) : readReg (settleWindow l) n = readReg l n := by
  have h : readReg (settleWindow l) n = (((l.win.map (fun e => { e with pending := false })).findSome? (fun e => entryWord e n))).getD
      (mapGetD (writeBackAll l l.win).v n 0#32) := rfl
  have h2 : (l.win.map (fun e => { e with pending := false })).findSome? (fun e => entryWord e n) = none := by
    rw [List.findSome?_eq_none_iff]
    intro x hx
    obtain ⟨y, _, rfl⟩ := List.mem_map.mp hx
    rfl
  rw [h, h2, writeBackAll_v, readReg_eq]
  rfl

end Sys2Proof.Machine
end

