-- ==== Sys2Proof/Laws/State.lean ====
section
/-! SUPPORT. What each shared update of the state leaves in each field: one lemma per field, so that no proof unfolds an update. -/
namespace Sys2Proof.Machine

/-! ## `setCore` -/

@[simp] theorem setCore_mem (s : State) (c : Nat) (k : Core) : (setCore s c k).mem = s.mem := rfl
@[simp] theorem setCore_lineKeys (s : State) (c : Nat) (k : Core) : (setCore s c k).lineKeys = s.lineKeys := rfl
@[simp] theorem setCore_tags (s : State) (c : Nat) (k : Core) : (setCore s c k).tags = s.tags := rfl
@[simp] theorem setCore_teams (s : State) (c : Nat) (k : Core) : (setCore s c k).teams = s.teams := rfl
@[simp] theorem setCore_pages (s : State) (c : Nat) (k : Core) : (setCore s c k).pages = s.pages := rfl
@[simp] theorem setCore_published (s : State) (c : Nat) (k : Core) : (setCore s c k).published = s.published := rfl
@[simp] theorem setCore_removed (s : State) (c : Nat) (k : Core) : (setCore s c k).removed = s.removed := rfl
@[simp] theorem setCore_epochs (s : State) (c : Nat) (k : Core) : (setCore s c k).epochs = s.epochs := rfl
@[simp] theorem setCore_epoch (s : State) (c : Nat) (k : Core) : (setCore s c k).epoch = s.epoch := rfl
@[simp] theorem setCore_clk (s : State) (c : Nat) (k : Core) : (setCore s c k).clk = s.clk := rfl
@[simp] theorem setCore_time (s : State) (c : Nat) (k : Core) : (setCore s c k).time = s.time := rfl
@[simp] theorem setCore_faultBase (s : State) (c : Nat) (k : Core) : (setCore s c k).faultBase = s.faultBase := rfl
@[simp] theorem setCore_faultBaseSet (s : State) (c : Nat) (k : Core) : (setCore s c k).faultBaseSet = s.faultBaseSet := rfl
@[simp] theorem setCore_faultNext (s : State) (c : Nat) (k : Core) : (setCore s c k).faultNext = s.faultNext := rfl
@[simp] theorem setCore_faultQ (s : State) (c : Nat) (k : Core) : (setCore s c k).faultQ = s.faultQ := rfl
@[simp] theorem setCore_faultWait (s : State) (c : Nat) (k : Core) : (setCore s c k).faultWait = s.faultWait := rfl
@[simp] theorem setCore_holdSets (s : State) (c : Nat) (k : Core) : (setCore s c k).holdSets = s.holdSets := rfl
@[simp] theorem setCore_errNext (s : State) (c : Nat) (k : Core) : (setCore s c k).errNext = s.errNext := rfl
@[simp] theorem setCore_errQ (s : State) (c : Nat) (k : Core) : (setCore s c k).errQ = s.errQ := rfl
@[simp] theorem setCore_errWait (s : State) (c : Nat) (k : Core) : (setCore s c k).errWait = s.errWait := rfl
@[simp] theorem setCore_errLost (s : State) (c : Nat) (k : Core) : (setCore s c k).errLost = s.errLost := rfl
@[simp] theorem setCore_selftests (s : State) (c : Nat) (k : Core) : (setCore s c k).selftests = s.selftests := rfl
@[simp] theorem setCore_counts (s : State) (c : Nat) (k : Core) : (setCore s c k).counts = s.counts := rfl
@[simp] theorem setCore_intervalFrom (s : State) (c : Nat) (k : Core) : (setCore s c k).intervalFrom = s.intervalFrom := rfl
@[simp] theorem setCore_queues (s : State) (c : Nat) (k : Core) : (setCore s c k).queues = s.queues := rfl
@[simp] theorem setCore_slots (s : State) (c : Nat) (k : Core) : (setCore s c k).slots = s.slots := rfl
@[simp] theorem setCore_pendingQ (s : State) (c : Nat) (k : Core) : (setCore s c k).pendingQ = s.pendingQ := rfl
@[simp] theorem setCore_launches (s : State) (c : Nat) (k : Core) : (setCore s c k).launches = s.launches := rfl
@[simp] theorem setCore_launchNext (s : State) (c : Nat) (k : Core) : (setCore s c k).launchNext = s.launchNext := rfl
@[simp] theorem setCore_headSince (s : State) (c : Nat) (k : Core) : (setCore s c k).headSince = s.headSince := rfl
@[simp] theorem setCore_headOf (s : State) (c : Nat) (k : Core) : (setCore s c k).headOf = s.headOf := rfl
@[simp] theorem setCore_backfills (s : State) (c : Nat) (k : Core) : (setCore s c k).backfills = s.backfills := rfl
@[simp] theorem setCore_reserved (s : State) (c : Nat) (k : Core) : (setCore s c k).reserved = s.reserved := rfl
@[simp] theorem setCore_triggers (s : State) (c : Nat) (k : Core) : (setCore s c k).triggers = s.triggers := rfl
@[simp] theorem setCore_objects (s : State) (c : Nat) (k : Core) : (setCore s c k).objects = s.objects := rfl
@[simp] theorem setCore_objNext (s : State) (c : Nat) (k : Core) : (setCore s c k).objNext = s.objNext := rfl
@[simp] theorem setCore_unregistering (s : State) (c : Nat) (k : Core) : (setCore s c k).unregistering = s.unregistering := rfl
@[simp] theorem setCore_ctxRefused (s : State) (c : Nat) (k : Core) : (setCore s c k).ctxRefused = s.ctxRefused := rfl
@[simp] theorem setCore_qidle (s : State) (c : Nat) (k : Core) : (setCore s c k).qidle = s.qidle := rfl
@[simp] theorem setCore_age (s : State) (c : Nat) (k : Core) : (setCore s c k).age = s.age := rfl
@[simp] theorem setCore_linkLim (s : State) (c : Nat) (k : Core) : (setCore s c k).linkLim = s.linkLim := rfl
@[simp] theorem setCore_bankLim (s : State) (c : Nat) (k : Core) : (setCore s c k).bankLim = s.bankLim := rfl
@[simp] theorem setCore_rowLim (s : State) (c : Nat) (k : Core) : (setCore s c k).rowLim = s.rowLim := rfl
@[simp] theorem setCore_logInt (s : State) (c : Nat) (k : Core) : (setCore s c k).logInt = s.logInt := rfl
@[simp] theorem setCore_ptpPort (s : State) (c : Nat) (k : Core) : (setCore s c k).ptpPort = s.ptpPort := rfl
@[simp] theorem setCore_ptpState (s : State) (c : Nat) (k : Core) : (setCore s c k).ptpState = s.ptpState := rfl
@[simp] theorem setCore_ptpSteps (s : State) (c : Nat) (k : Core) : (setCore s c k).ptpSteps = s.ptpSteps := rfl
@[simp] theorem setCore_slew (s : State) (c : Nat) (k : Core) : (setCore s c k).slew = s.slew := rfl
@[simp] theorem setCore_cap (s : State) (c : Nat) (k : Core) : (setCore s c k).cap = s.cap := rfl
@[simp] theorem setCore_throttled (s : State) (c : Nat) (k : Core) : (setCore s c k).throttled = s.throttled := rfl
@[simp] theorem setCore_meas (s : State) (c : Nat) (k : Core) : (setCore s c k).meas = s.meas := rfl
@[simp] theorem setCore_hotDies (s : State) (c : Nat) (k : Core) : (setCore s c k).hotDies = s.hotDies := rfl
@[simp] theorem setCore_retiredLinks (s : State) (c : Nat) (k : Core) : (setCore s c k).retiredLinks = s.retiredLinks := rfl
@[simp] theorem setCore_keys (s : State) (c : Nat) (k : Core) : (setCore s c k).keys = s.keys := rfl
@[simp] theorem setCore_claims (s : State) (c : Nat) (k : Core) : (setCore s c k).claims = s.claims := rfl
@[simp] theorem setCore_rung (s : State) (c : Nat) (k : Core) : (setCore s c k).rung = s.rung := rfl
@[simp] theorem setCore_retiredPages (s : State) (c : Nat) (k : Core) : (setCore s c k).retiredPages = s.retiredPages := rfl
@[simp] theorem setCore_portReports (s : State) (c : Nat) (k : Core) : (setCore s c k).portReports = s.portReports := rfl
@[simp] theorem setCore_stages (s : State) (c : Nat) (k : Core) : (setCore s c k).stages = s.stages := rfl
@[simp] theorem setCore_firmware (s : State) (c : Nat) (k : Core) : (setCore s c k).firmware = s.firmware := rfl
@[simp] theorem setCore_pendingFw (s : State) (c : Nat) (k : Core) : (setCore s c k).pendingFw = s.pendingFw := rfl
@[simp] theorem setCore_reports (s : State) (c : Nat) (k : Core) : (setCore s c k).reports = s.reports := rfl
@[simp] theorem setCore_hostReply (s : State) (c : Nat) (k : Core) : (setCore s c k).hostReply = s.hostReply := rfl
@[simp] theorem setCore_hostStatus (s : State) (c : Nat) (k : Core) : (setCore s c k).hostStatus = s.hostStatus := rfl
@[simp] theorem setCore_agenda (s : State) (c : Nat) (k : Core) : (setCore s c k).agenda = s.agenda := rfl
@[simp] theorem setCore_turn (s : State) (c : Nat) (k : Core) : (setCore s c k).turn = s.turn := rfl
@[simp] theorem setCore_cur (s : State) (c : Nat) (k : Core) : (setCore s c k).cur = s.cur := rfl
@[simp] theorem setCore_freeCtr (s : State) (c : Nat) (k : Core) : (setCore s c k).freeCtr = s.freeCtr := rfl

/-! ## `updCore` -/

@[simp] theorem updCore_mem (s : State) (c : Nat) (f : Core → Core) : (updCore s c f).mem = s.mem := rfl
@[simp] theorem updCore_lineKeys (s : State) (c : Nat) (f : Core → Core) : (updCore s c f).lineKeys = s.lineKeys := rfl
@[simp] theorem updCore_tags (s : State) (c : Nat) (f : Core → Core) : (updCore s c f).tags = s.tags := rfl
@[simp] theorem updCore_teams (s : State) (c : Nat) (f : Core → Core) : (updCore s c f).teams = s.teams := rfl
@[simp] theorem updCore_pages (s : State) (c : Nat) (f : Core → Core) : (updCore s c f).pages = s.pages := rfl
@[simp] theorem updCore_published (s : State) (c : Nat) (f : Core → Core) : (updCore s c f).published = s.published := rfl
@[simp] theorem updCore_removed (s : State) (c : Nat) (f : Core → Core) : (updCore s c f).removed = s.removed := rfl
@[simp] theorem updCore_epochs (s : State) (c : Nat) (f : Core → Core) : (updCore s c f).epochs = s.epochs := rfl
@[simp] theorem updCore_epoch (s : State) (c : Nat) (f : Core → Core) : (updCore s c f).epoch = s.epoch := rfl
@[simp] theorem updCore_clk (s : State) (c : Nat) (f : Core → Core) : (updCore s c f).clk = s.clk := rfl
@[simp] theorem updCore_time (s : State) (c : Nat) (f : Core → Core) : (updCore s c f).time = s.time := rfl
@[simp] theorem updCore_faultBase (s : State) (c : Nat) (f : Core → Core) : (updCore s c f).faultBase = s.faultBase := rfl
@[simp] theorem updCore_faultBaseSet (s : State) (c : Nat) (f : Core → Core) : (updCore s c f).faultBaseSet = s.faultBaseSet := rfl
@[simp] theorem updCore_faultNext (s : State) (c : Nat) (f : Core → Core) : (updCore s c f).faultNext = s.faultNext := rfl
@[simp] theorem updCore_faultQ (s : State) (c : Nat) (f : Core → Core) : (updCore s c f).faultQ = s.faultQ := rfl
@[simp] theorem updCore_faultWait (s : State) (c : Nat) (f : Core → Core) : (updCore s c f).faultWait = s.faultWait := rfl
@[simp] theorem updCore_holdSets (s : State) (c : Nat) (f : Core → Core) : (updCore s c f).holdSets = s.holdSets := rfl
@[simp] theorem updCore_errNext (s : State) (c : Nat) (f : Core → Core) : (updCore s c f).errNext = s.errNext := rfl
@[simp] theorem updCore_errQ (s : State) (c : Nat) (f : Core → Core) : (updCore s c f).errQ = s.errQ := rfl
@[simp] theorem updCore_errWait (s : State) (c : Nat) (f : Core → Core) : (updCore s c f).errWait = s.errWait := rfl
@[simp] theorem updCore_errLost (s : State) (c : Nat) (f : Core → Core) : (updCore s c f).errLost = s.errLost := rfl
@[simp] theorem updCore_selftests (s : State) (c : Nat) (f : Core → Core) : (updCore s c f).selftests = s.selftests := rfl
@[simp] theorem updCore_counts (s : State) (c : Nat) (f : Core → Core) : (updCore s c f).counts = s.counts := rfl
@[simp] theorem updCore_intervalFrom (s : State) (c : Nat) (f : Core → Core) : (updCore s c f).intervalFrom = s.intervalFrom := rfl
@[simp] theorem updCore_queues (s : State) (c : Nat) (f : Core → Core) : (updCore s c f).queues = s.queues := rfl
@[simp] theorem updCore_slots (s : State) (c : Nat) (f : Core → Core) : (updCore s c f).slots = s.slots := rfl
@[simp] theorem updCore_pendingQ (s : State) (c : Nat) (f : Core → Core) : (updCore s c f).pendingQ = s.pendingQ := rfl
@[simp] theorem updCore_launches (s : State) (c : Nat) (f : Core → Core) : (updCore s c f).launches = s.launches := rfl
@[simp] theorem updCore_launchNext (s : State) (c : Nat) (f : Core → Core) : (updCore s c f).launchNext = s.launchNext := rfl
@[simp] theorem updCore_headSince (s : State) (c : Nat) (f : Core → Core) : (updCore s c f).headSince = s.headSince := rfl
@[simp] theorem updCore_headOf (s : State) (c : Nat) (f : Core → Core) : (updCore s c f).headOf = s.headOf := rfl
@[simp] theorem updCore_backfills (s : State) (c : Nat) (f : Core → Core) : (updCore s c f).backfills = s.backfills := rfl
@[simp] theorem updCore_reserved (s : State) (c : Nat) (f : Core → Core) : (updCore s c f).reserved = s.reserved := rfl
@[simp] theorem updCore_triggers (s : State) (c : Nat) (f : Core → Core) : (updCore s c f).triggers = s.triggers := rfl
@[simp] theorem updCore_objects (s : State) (c : Nat) (f : Core → Core) : (updCore s c f).objects = s.objects := rfl
@[simp] theorem updCore_objNext (s : State) (c : Nat) (f : Core → Core) : (updCore s c f).objNext = s.objNext := rfl
@[simp] theorem updCore_unregistering (s : State) (c : Nat) (f : Core → Core) : (updCore s c f).unregistering = s.unregistering := rfl
@[simp] theorem updCore_ctxRefused (s : State) (c : Nat) (f : Core → Core) : (updCore s c f).ctxRefused = s.ctxRefused := rfl
@[simp] theorem updCore_qidle (s : State) (c : Nat) (f : Core → Core) : (updCore s c f).qidle = s.qidle := rfl
@[simp] theorem updCore_age (s : State) (c : Nat) (f : Core → Core) : (updCore s c f).age = s.age := rfl
@[simp] theorem updCore_linkLim (s : State) (c : Nat) (f : Core → Core) : (updCore s c f).linkLim = s.linkLim := rfl
@[simp] theorem updCore_bankLim (s : State) (c : Nat) (f : Core → Core) : (updCore s c f).bankLim = s.bankLim := rfl
@[simp] theorem updCore_rowLim (s : State) (c : Nat) (f : Core → Core) : (updCore s c f).rowLim = s.rowLim := rfl
@[simp] theorem updCore_logInt (s : State) (c : Nat) (f : Core → Core) : (updCore s c f).logInt = s.logInt := rfl
@[simp] theorem updCore_ptpPort (s : State) (c : Nat) (f : Core → Core) : (updCore s c f).ptpPort = s.ptpPort := rfl
@[simp] theorem updCore_ptpState (s : State) (c : Nat) (f : Core → Core) : (updCore s c f).ptpState = s.ptpState := rfl
@[simp] theorem updCore_ptpSteps (s : State) (c : Nat) (f : Core → Core) : (updCore s c f).ptpSteps = s.ptpSteps := rfl
@[simp] theorem updCore_slew (s : State) (c : Nat) (f : Core → Core) : (updCore s c f).slew = s.slew := rfl
@[simp] theorem updCore_cap (s : State) (c : Nat) (f : Core → Core) : (updCore s c f).cap = s.cap := rfl
@[simp] theorem updCore_throttled (s : State) (c : Nat) (f : Core → Core) : (updCore s c f).throttled = s.throttled := rfl
@[simp] theorem updCore_meas (s : State) (c : Nat) (f : Core → Core) : (updCore s c f).meas = s.meas := rfl
@[simp] theorem updCore_hotDies (s : State) (c : Nat) (f : Core → Core) : (updCore s c f).hotDies = s.hotDies := rfl
@[simp] theorem updCore_retiredLinks (s : State) (c : Nat) (f : Core → Core) : (updCore s c f).retiredLinks = s.retiredLinks := rfl
@[simp] theorem updCore_keys (s : State) (c : Nat) (f : Core → Core) : (updCore s c f).keys = s.keys := rfl
@[simp] theorem updCore_claims (s : State) (c : Nat) (f : Core → Core) : (updCore s c f).claims = s.claims := rfl
@[simp] theorem updCore_rung (s : State) (c : Nat) (f : Core → Core) : (updCore s c f).rung = s.rung := rfl
@[simp] theorem updCore_retiredPages (s : State) (c : Nat) (f : Core → Core) : (updCore s c f).retiredPages = s.retiredPages := rfl
@[simp] theorem updCore_portReports (s : State) (c : Nat) (f : Core → Core) : (updCore s c f).portReports = s.portReports := rfl
@[simp] theorem updCore_stages (s : State) (c : Nat) (f : Core → Core) : (updCore s c f).stages = s.stages := rfl
@[simp] theorem updCore_firmware (s : State) (c : Nat) (f : Core → Core) : (updCore s c f).firmware = s.firmware := rfl
@[simp] theorem updCore_pendingFw (s : State) (c : Nat) (f : Core → Core) : (updCore s c f).pendingFw = s.pendingFw := rfl
@[simp] theorem updCore_reports (s : State) (c : Nat) (f : Core → Core) : (updCore s c f).reports = s.reports := rfl
@[simp] theorem updCore_hostReply (s : State) (c : Nat) (f : Core → Core) : (updCore s c f).hostReply = s.hostReply := rfl
@[simp] theorem updCore_hostStatus (s : State) (c : Nat) (f : Core → Core) : (updCore s c f).hostStatus = s.hostStatus := rfl
@[simp] theorem updCore_agenda (s : State) (c : Nat) (f : Core → Core) : (updCore s c f).agenda = s.agenda := rfl
@[simp] theorem updCore_turn (s : State) (c : Nat) (f : Core → Core) : (updCore s c f).turn = s.turn := rfl
@[simp] theorem updCore_cur (s : State) (c : Nat) (f : Core → Core) : (updCore s c f).cur = s.cur := rfl
@[simp] theorem updCore_freeCtr (s : State) (c : Nat) (f : Core → Core) : (updCore s c f).freeCtr = s.freeCtr := rfl

/-! ## `updPart` -/

@[simp] theorem updPart_mem (s : State) (c p : Nat) (f : Part → Part) : (updPart s c p f).mem = s.mem := rfl
@[simp] theorem updPart_lineKeys (s : State) (c p : Nat) (f : Part → Part) : (updPart s c p f).lineKeys = s.lineKeys := rfl
@[simp] theorem updPart_tags (s : State) (c p : Nat) (f : Part → Part) : (updPart s c p f).tags = s.tags := rfl
@[simp] theorem updPart_teams (s : State) (c p : Nat) (f : Part → Part) : (updPart s c p f).teams = s.teams := rfl
@[simp] theorem updPart_pages (s : State) (c p : Nat) (f : Part → Part) : (updPart s c p f).pages = s.pages := rfl
@[simp] theorem updPart_published (s : State) (c p : Nat) (f : Part → Part) : (updPart s c p f).published = s.published := rfl
@[simp] theorem updPart_removed (s : State) (c p : Nat) (f : Part → Part) : (updPart s c p f).removed = s.removed := rfl
@[simp] theorem updPart_epochs (s : State) (c p : Nat) (f : Part → Part) : (updPart s c p f).epochs = s.epochs := rfl
@[simp] theorem updPart_epoch (s : State) (c p : Nat) (f : Part → Part) : (updPart s c p f).epoch = s.epoch := rfl
@[simp] theorem updPart_clk (s : State) (c p : Nat) (f : Part → Part) : (updPart s c p f).clk = s.clk := rfl
@[simp] theorem updPart_time (s : State) (c p : Nat) (f : Part → Part) : (updPart s c p f).time = s.time := rfl
@[simp] theorem updPart_faultBase (s : State) (c p : Nat) (f : Part → Part) : (updPart s c p f).faultBase = s.faultBase := rfl
@[simp] theorem updPart_faultBaseSet (s : State) (c p : Nat) (f : Part → Part) : (updPart s c p f).faultBaseSet = s.faultBaseSet := rfl
@[simp] theorem updPart_faultNext (s : State) (c p : Nat) (f : Part → Part) : (updPart s c p f).faultNext = s.faultNext := rfl
@[simp] theorem updPart_faultQ (s : State) (c p : Nat) (f : Part → Part) : (updPart s c p f).faultQ = s.faultQ := rfl
@[simp] theorem updPart_faultWait (s : State) (c p : Nat) (f : Part → Part) : (updPart s c p f).faultWait = s.faultWait := rfl
@[simp] theorem updPart_holdSets (s : State) (c p : Nat) (f : Part → Part) : (updPart s c p f).holdSets = s.holdSets := rfl
@[simp] theorem updPart_errNext (s : State) (c p : Nat) (f : Part → Part) : (updPart s c p f).errNext = s.errNext := rfl
@[simp] theorem updPart_errQ (s : State) (c p : Nat) (f : Part → Part) : (updPart s c p f).errQ = s.errQ := rfl
@[simp] theorem updPart_errWait (s : State) (c p : Nat) (f : Part → Part) : (updPart s c p f).errWait = s.errWait := rfl
@[simp] theorem updPart_errLost (s : State) (c p : Nat) (f : Part → Part) : (updPart s c p f).errLost = s.errLost := rfl
@[simp] theorem updPart_selftests (s : State) (c p : Nat) (f : Part → Part) : (updPart s c p f).selftests = s.selftests := rfl
@[simp] theorem updPart_counts (s : State) (c p : Nat) (f : Part → Part) : (updPart s c p f).counts = s.counts := rfl
@[simp] theorem updPart_intervalFrom (s : State) (c p : Nat) (f : Part → Part) : (updPart s c p f).intervalFrom = s.intervalFrom := rfl
@[simp] theorem updPart_queues (s : State) (c p : Nat) (f : Part → Part) : (updPart s c p f).queues = s.queues := rfl
@[simp] theorem updPart_slots (s : State) (c p : Nat) (f : Part → Part) : (updPart s c p f).slots = s.slots := rfl
@[simp] theorem updPart_pendingQ (s : State) (c p : Nat) (f : Part → Part) : (updPart s c p f).pendingQ = s.pendingQ := rfl
@[simp] theorem updPart_launches (s : State) (c p : Nat) (f : Part → Part) : (updPart s c p f).launches = s.launches := rfl
@[simp] theorem updPart_launchNext (s : State) (c p : Nat) (f : Part → Part) : (updPart s c p f).launchNext = s.launchNext := rfl
@[simp] theorem updPart_headSince (s : State) (c p : Nat) (f : Part → Part) : (updPart s c p f).headSince = s.headSince := rfl
@[simp] theorem updPart_headOf (s : State) (c p : Nat) (f : Part → Part) : (updPart s c p f).headOf = s.headOf := rfl
@[simp] theorem updPart_backfills (s : State) (c p : Nat) (f : Part → Part) : (updPart s c p f).backfills = s.backfills := rfl
@[simp] theorem updPart_reserved (s : State) (c p : Nat) (f : Part → Part) : (updPart s c p f).reserved = s.reserved := rfl
@[simp] theorem updPart_triggers (s : State) (c p : Nat) (f : Part → Part) : (updPart s c p f).triggers = s.triggers := rfl
@[simp] theorem updPart_objects (s : State) (c p : Nat) (f : Part → Part) : (updPart s c p f).objects = s.objects := rfl
@[simp] theorem updPart_objNext (s : State) (c p : Nat) (f : Part → Part) : (updPart s c p f).objNext = s.objNext := rfl
@[simp] theorem updPart_unregistering (s : State) (c p : Nat) (f : Part → Part) : (updPart s c p f).unregistering = s.unregistering := rfl
@[simp] theorem updPart_ctxRefused (s : State) (c p : Nat) (f : Part → Part) : (updPart s c p f).ctxRefused = s.ctxRefused := rfl
@[simp] theorem updPart_qidle (s : State) (c p : Nat) (f : Part → Part) : (updPart s c p f).qidle = s.qidle := rfl
@[simp] theorem updPart_age (s : State) (c p : Nat) (f : Part → Part) : (updPart s c p f).age = s.age := rfl
@[simp] theorem updPart_linkLim (s : State) (c p : Nat) (f : Part → Part) : (updPart s c p f).linkLim = s.linkLim := rfl
@[simp] theorem updPart_bankLim (s : State) (c p : Nat) (f : Part → Part) : (updPart s c p f).bankLim = s.bankLim := rfl
@[simp] theorem updPart_rowLim (s : State) (c p : Nat) (f : Part → Part) : (updPart s c p f).rowLim = s.rowLim := rfl
@[simp] theorem updPart_logInt (s : State) (c p : Nat) (f : Part → Part) : (updPart s c p f).logInt = s.logInt := rfl
@[simp] theorem updPart_ptpPort (s : State) (c p : Nat) (f : Part → Part) : (updPart s c p f).ptpPort = s.ptpPort := rfl
@[simp] theorem updPart_ptpState (s : State) (c p : Nat) (f : Part → Part) : (updPart s c p f).ptpState = s.ptpState := rfl
@[simp] theorem updPart_ptpSteps (s : State) (c p : Nat) (f : Part → Part) : (updPart s c p f).ptpSteps = s.ptpSteps := rfl
@[simp] theorem updPart_slew (s : State) (c p : Nat) (f : Part → Part) : (updPart s c p f).slew = s.slew := rfl
@[simp] theorem updPart_cap (s : State) (c p : Nat) (f : Part → Part) : (updPart s c p f).cap = s.cap := rfl
@[simp] theorem updPart_throttled (s : State) (c p : Nat) (f : Part → Part) : (updPart s c p f).throttled = s.throttled := rfl
@[simp] theorem updPart_meas (s : State) (c p : Nat) (f : Part → Part) : (updPart s c p f).meas = s.meas := rfl
@[simp] theorem updPart_hotDies (s : State) (c p : Nat) (f : Part → Part) : (updPart s c p f).hotDies = s.hotDies := rfl
@[simp] theorem updPart_retiredLinks (s : State) (c p : Nat) (f : Part → Part) : (updPart s c p f).retiredLinks = s.retiredLinks := rfl
@[simp] theorem updPart_keys (s : State) (c p : Nat) (f : Part → Part) : (updPart s c p f).keys = s.keys := rfl
@[simp] theorem updPart_claims (s : State) (c p : Nat) (f : Part → Part) : (updPart s c p f).claims = s.claims := rfl
@[simp] theorem updPart_rung (s : State) (c p : Nat) (f : Part → Part) : (updPart s c p f).rung = s.rung := rfl
@[simp] theorem updPart_retiredPages (s : State) (c p : Nat) (f : Part → Part) : (updPart s c p f).retiredPages = s.retiredPages := rfl
@[simp] theorem updPart_portReports (s : State) (c p : Nat) (f : Part → Part) : (updPart s c p f).portReports = s.portReports := rfl
@[simp] theorem updPart_stages (s : State) (c p : Nat) (f : Part → Part) : (updPart s c p f).stages = s.stages := rfl
@[simp] theorem updPart_firmware (s : State) (c p : Nat) (f : Part → Part) : (updPart s c p f).firmware = s.firmware := rfl
@[simp] theorem updPart_pendingFw (s : State) (c p : Nat) (f : Part → Part) : (updPart s c p f).pendingFw = s.pendingFw := rfl
@[simp] theorem updPart_reports (s : State) (c p : Nat) (f : Part → Part) : (updPart s c p f).reports = s.reports := rfl
@[simp] theorem updPart_hostReply (s : State) (c p : Nat) (f : Part → Part) : (updPart s c p f).hostReply = s.hostReply := rfl
@[simp] theorem updPart_hostStatus (s : State) (c p : Nat) (f : Part → Part) : (updPart s c p f).hostStatus = s.hostStatus := rfl
@[simp] theorem updPart_agenda (s : State) (c p : Nat) (f : Part → Part) : (updPart s c p f).agenda = s.agenda := rfl
@[simp] theorem updPart_turn (s : State) (c p : Nat) (f : Part → Part) : (updPart s c p f).turn = s.turn := rfl
@[simp] theorem updPart_cur (s : State) (c p : Nat) (f : Part → Part) : (updPart s c p f).cur = s.cur := rfl
@[simp] theorem updPart_freeCtr (s : State) (c p : Nat) (f : Part → Part) : (updPart s c p f).freeCtr = s.freeCtr := rfl

/-! ## `updTeam` -/

@[simp] theorem updTeam_mem (s : State) (r : TeamRef) (f : Team → Team) : (updTeam s r f).mem = s.mem := rfl
@[simp] theorem updTeam_lineKeys (s : State) (r : TeamRef) (f : Team → Team) : (updTeam s r f).lineKeys = s.lineKeys := rfl
@[simp] theorem updTeam_tags (s : State) (r : TeamRef) (f : Team → Team) : (updTeam s r f).tags = s.tags := rfl
@[simp] theorem updTeam_cores (s : State) (r : TeamRef) (f : Team → Team) : (updTeam s r f).cores = s.cores := rfl
@[simp] theorem updTeam_pages (s : State) (r : TeamRef) (f : Team → Team) : (updTeam s r f).pages = s.pages := rfl
@[simp] theorem updTeam_published (s : State) (r : TeamRef) (f : Team → Team) : (updTeam s r f).published = s.published := rfl
@[simp] theorem updTeam_removed (s : State) (r : TeamRef) (f : Team → Team) : (updTeam s r f).removed = s.removed := rfl
@[simp] theorem updTeam_epochs (s : State) (r : TeamRef) (f : Team → Team) : (updTeam s r f).epochs = s.epochs := rfl
@[simp] theorem updTeam_epoch (s : State) (r : TeamRef) (f : Team → Team) : (updTeam s r f).epoch = s.epoch := rfl
@[simp] theorem updTeam_clk (s : State) (r : TeamRef) (f : Team → Team) : (updTeam s r f).clk = s.clk := rfl
@[simp] theorem updTeam_time (s : State) (r : TeamRef) (f : Team → Team) : (updTeam s r f).time = s.time := rfl
@[simp] theorem updTeam_faultBase (s : State) (r : TeamRef) (f : Team → Team) : (updTeam s r f).faultBase = s.faultBase := rfl
@[simp] theorem updTeam_faultBaseSet (s : State) (r : TeamRef) (f : Team → Team) : (updTeam s r f).faultBaseSet = s.faultBaseSet := rfl
@[simp] theorem updTeam_faultNext (s : State) (r : TeamRef) (f : Team → Team) : (updTeam s r f).faultNext = s.faultNext := rfl
@[simp] theorem updTeam_faultQ (s : State) (r : TeamRef) (f : Team → Team) : (updTeam s r f).faultQ = s.faultQ := rfl
@[simp] theorem updTeam_faultWait (s : State) (r : TeamRef) (f : Team → Team) : (updTeam s r f).faultWait = s.faultWait := rfl
@[simp] theorem updTeam_holdSets (s : State) (r : TeamRef) (f : Team → Team) : (updTeam s r f).holdSets = s.holdSets := rfl
@[simp] theorem updTeam_errNext (s : State) (r : TeamRef) (f : Team → Team) : (updTeam s r f).errNext = s.errNext := rfl
@[simp] theorem updTeam_errQ (s : State) (r : TeamRef) (f : Team → Team) : (updTeam s r f).errQ = s.errQ := rfl
@[simp] theorem updTeam_errWait (s : State) (r : TeamRef) (f : Team → Team) : (updTeam s r f).errWait = s.errWait := rfl
@[simp] theorem updTeam_errLost (s : State) (r : TeamRef) (f : Team → Team) : (updTeam s r f).errLost = s.errLost := rfl
@[simp] theorem updTeam_selftests (s : State) (r : TeamRef) (f : Team → Team) : (updTeam s r f).selftests = s.selftests := rfl
@[simp] theorem updTeam_counts (s : State) (r : TeamRef) (f : Team → Team) : (updTeam s r f).counts = s.counts := rfl
@[simp] theorem updTeam_intervalFrom (s : State) (r : TeamRef) (f : Team → Team) : (updTeam s r f).intervalFrom = s.intervalFrom := rfl
@[simp] theorem updTeam_queues (s : State) (r : TeamRef) (f : Team → Team) : (updTeam s r f).queues = s.queues := rfl
@[simp] theorem updTeam_slots (s : State) (r : TeamRef) (f : Team → Team) : (updTeam s r f).slots = s.slots := rfl
@[simp] theorem updTeam_pendingQ (s : State) (r : TeamRef) (f : Team → Team) : (updTeam s r f).pendingQ = s.pendingQ := rfl
@[simp] theorem updTeam_launches (s : State) (r : TeamRef) (f : Team → Team) : (updTeam s r f).launches = s.launches := rfl
@[simp] theorem updTeam_launchNext (s : State) (r : TeamRef) (f : Team → Team) : (updTeam s r f).launchNext = s.launchNext := rfl
@[simp] theorem updTeam_headSince (s : State) (r : TeamRef) (f : Team → Team) : (updTeam s r f).headSince = s.headSince := rfl
@[simp] theorem updTeam_headOf (s : State) (r : TeamRef) (f : Team → Team) : (updTeam s r f).headOf = s.headOf := rfl
@[simp] theorem updTeam_backfills (s : State) (r : TeamRef) (f : Team → Team) : (updTeam s r f).backfills = s.backfills := rfl
@[simp] theorem updTeam_reserved (s : State) (r : TeamRef) (f : Team → Team) : (updTeam s r f).reserved = s.reserved := rfl
@[simp] theorem updTeam_triggers (s : State) (r : TeamRef) (f : Team → Team) : (updTeam s r f).triggers = s.triggers := rfl
@[simp] theorem updTeam_objects (s : State) (r : TeamRef) (f : Team → Team) : (updTeam s r f).objects = s.objects := rfl
@[simp] theorem updTeam_objNext (s : State) (r : TeamRef) (f : Team → Team) : (updTeam s r f).objNext = s.objNext := rfl
@[simp] theorem updTeam_unregistering (s : State) (r : TeamRef) (f : Team → Team) : (updTeam s r f).unregistering = s.unregistering := rfl
@[simp] theorem updTeam_ctxRefused (s : State) (r : TeamRef) (f : Team → Team) : (updTeam s r f).ctxRefused = s.ctxRefused := rfl
@[simp] theorem updTeam_qidle (s : State) (r : TeamRef) (f : Team → Team) : (updTeam s r f).qidle = s.qidle := rfl
@[simp] theorem updTeam_age (s : State) (r : TeamRef) (f : Team → Team) : (updTeam s r f).age = s.age := rfl
@[simp] theorem updTeam_linkLim (s : State) (r : TeamRef) (f : Team → Team) : (updTeam s r f).linkLim = s.linkLim := rfl
@[simp] theorem updTeam_bankLim (s : State) (r : TeamRef) (f : Team → Team) : (updTeam s r f).bankLim = s.bankLim := rfl
@[simp] theorem updTeam_rowLim (s : State) (r : TeamRef) (f : Team → Team) : (updTeam s r f).rowLim = s.rowLim := rfl
@[simp] theorem updTeam_logInt (s : State) (r : TeamRef) (f : Team → Team) : (updTeam s r f).logInt = s.logInt := rfl
@[simp] theorem updTeam_ptpPort (s : State) (r : TeamRef) (f : Team → Team) : (updTeam s r f).ptpPort = s.ptpPort := rfl
@[simp] theorem updTeam_ptpState (s : State) (r : TeamRef) (f : Team → Team) : (updTeam s r f).ptpState = s.ptpState := rfl
@[simp] theorem updTeam_ptpSteps (s : State) (r : TeamRef) (f : Team → Team) : (updTeam s r f).ptpSteps = s.ptpSteps := rfl
@[simp] theorem updTeam_slew (s : State) (r : TeamRef) (f : Team → Team) : (updTeam s r f).slew = s.slew := rfl
@[simp] theorem updTeam_cap (s : State) (r : TeamRef) (f : Team → Team) : (updTeam s r f).cap = s.cap := rfl
@[simp] theorem updTeam_throttled (s : State) (r : TeamRef) (f : Team → Team) : (updTeam s r f).throttled = s.throttled := rfl
@[simp] theorem updTeam_meas (s : State) (r : TeamRef) (f : Team → Team) : (updTeam s r f).meas = s.meas := rfl
@[simp] theorem updTeam_hotDies (s : State) (r : TeamRef) (f : Team → Team) : (updTeam s r f).hotDies = s.hotDies := rfl
@[simp] theorem updTeam_retiredLinks (s : State) (r : TeamRef) (f : Team → Team) : (updTeam s r f).retiredLinks = s.retiredLinks := rfl
@[simp] theorem updTeam_keys (s : State) (r : TeamRef) (f : Team → Team) : (updTeam s r f).keys = s.keys := rfl
@[simp] theorem updTeam_claims (s : State) (r : TeamRef) (f : Team → Team) : (updTeam s r f).claims = s.claims := rfl
@[simp] theorem updTeam_rung (s : State) (r : TeamRef) (f : Team → Team) : (updTeam s r f).rung = s.rung := rfl
@[simp] theorem updTeam_retiredPages (s : State) (r : TeamRef) (f : Team → Team) : (updTeam s r f).retiredPages = s.retiredPages := rfl
@[simp] theorem updTeam_portReports (s : State) (r : TeamRef) (f : Team → Team) : (updTeam s r f).portReports = s.portReports := rfl
@[simp] theorem updTeam_stages (s : State) (r : TeamRef) (f : Team → Team) : (updTeam s r f).stages = s.stages := rfl
@[simp] theorem updTeam_firmware (s : State) (r : TeamRef) (f : Team → Team) : (updTeam s r f).firmware = s.firmware := rfl
@[simp] theorem updTeam_pendingFw (s : State) (r : TeamRef) (f : Team → Team) : (updTeam s r f).pendingFw = s.pendingFw := rfl
@[simp] theorem updTeam_reports (s : State) (r : TeamRef) (f : Team → Team) : (updTeam s r f).reports = s.reports := rfl
@[simp] theorem updTeam_hostReply (s : State) (r : TeamRef) (f : Team → Team) : (updTeam s r f).hostReply = s.hostReply := rfl
@[simp] theorem updTeam_hostStatus (s : State) (r : TeamRef) (f : Team → Team) : (updTeam s r f).hostStatus = s.hostStatus := rfl
@[simp] theorem updTeam_agenda (s : State) (r : TeamRef) (f : Team → Team) : (updTeam s r f).agenda = s.agenda := rfl
@[simp] theorem updTeam_turn (s : State) (r : TeamRef) (f : Team → Team) : (updTeam s r f).turn = s.turn := rfl
@[simp] theorem updTeam_cur (s : State) (r : TeamRef) (f : Team → Team) : (updTeam s r f).cur = s.cur := rfl
@[simp] theorem updTeam_freeCtr (s : State) (r : TeamRef) (f : Team → Team) : (updTeam s r f).freeCtr = s.freeCtr := rfl

/-! ## `updGroup` -/

@[simp] theorem updGroup_mem (s : State) (r : TeamRef) (n : Nat) (f : Group → Group) : (updGroup s r n f).mem = s.mem := rfl
@[simp] theorem updGroup_lineKeys (s : State) (r : TeamRef) (n : Nat) (f : Group → Group) : (updGroup s r n f).lineKeys = s.lineKeys := rfl
@[simp] theorem updGroup_tags (s : State) (r : TeamRef) (n : Nat) (f : Group → Group) : (updGroup s r n f).tags = s.tags := rfl
@[simp] theorem updGroup_cores (s : State) (r : TeamRef) (n : Nat) (f : Group → Group) : (updGroup s r n f).cores = s.cores := rfl
@[simp] theorem updGroup_pages (s : State) (r : TeamRef) (n : Nat) (f : Group → Group) : (updGroup s r n f).pages = s.pages := rfl
@[simp] theorem updGroup_published (s : State) (r : TeamRef) (n : Nat) (f : Group → Group) : (updGroup s r n f).published = s.published := rfl
@[simp] theorem updGroup_removed (s : State) (r : TeamRef) (n : Nat) (f : Group → Group) : (updGroup s r n f).removed = s.removed := rfl
@[simp] theorem updGroup_epochs (s : State) (r : TeamRef) (n : Nat) (f : Group → Group) : (updGroup s r n f).epochs = s.epochs := rfl
@[simp] theorem updGroup_epoch (s : State) (r : TeamRef) (n : Nat) (f : Group → Group) : (updGroup s r n f).epoch = s.epoch := rfl
@[simp] theorem updGroup_clk (s : State) (r : TeamRef) (n : Nat) (f : Group → Group) : (updGroup s r n f).clk = s.clk := rfl
@[simp] theorem updGroup_time (s : State) (r : TeamRef) (n : Nat) (f : Group → Group) : (updGroup s r n f).time = s.time := rfl
@[simp] theorem updGroup_faultBase (s : State) (r : TeamRef) (n : Nat) (f : Group → Group) : (updGroup s r n f).faultBase = s.faultBase := rfl
@[simp] theorem updGroup_faultBaseSet (s : State) (r : TeamRef) (n : Nat) (f : Group → Group) : (updGroup s r n f).faultBaseSet = s.faultBaseSet := rfl
@[simp] theorem updGroup_faultNext (s : State) (r : TeamRef) (n : Nat) (f : Group → Group) : (updGroup s r n f).faultNext = s.faultNext := rfl
@[simp] theorem updGroup_faultQ (s : State) (r : TeamRef) (n : Nat) (f : Group → Group) : (updGroup s r n f).faultQ = s.faultQ := rfl
@[simp] theorem updGroup_faultWait (s : State) (r : TeamRef) (n : Nat) (f : Group → Group) : (updGroup s r n f).faultWait = s.faultWait := rfl
@[simp] theorem updGroup_holdSets (s : State) (r : TeamRef) (n : Nat) (f : Group → Group) : (updGroup s r n f).holdSets = s.holdSets := rfl
@[simp] theorem updGroup_errNext (s : State) (r : TeamRef) (n : Nat) (f : Group → Group) : (updGroup s r n f).errNext = s.errNext := rfl
@[simp] theorem updGroup_errQ (s : State) (r : TeamRef) (n : Nat) (f : Group → Group) : (updGroup s r n f).errQ = s.errQ := rfl
@[simp] theorem updGroup_errWait (s : State) (r : TeamRef) (n : Nat) (f : Group → Group) : (updGroup s r n f).errWait = s.errWait := rfl
@[simp] theorem updGroup_errLost (s : State) (r : TeamRef) (n : Nat) (f : Group → Group) : (updGroup s r n f).errLost = s.errLost := rfl
@[simp] theorem updGroup_selftests (s : State) (r : TeamRef) (n : Nat) (f : Group → Group) : (updGroup s r n f).selftests = s.selftests := rfl
@[simp] theorem updGroup_counts (s : State) (r : TeamRef) (n : Nat) (f : Group → Group) : (updGroup s r n f).counts = s.counts := rfl
@[simp] theorem updGroup_intervalFrom (s : State) (r : TeamRef) (n : Nat) (f : Group → Group) : (updGroup s r n f).intervalFrom = s.intervalFrom := rfl
@[simp] theorem updGroup_queues (s : State) (r : TeamRef) (n : Nat) (f : Group → Group) : (updGroup s r n f).queues = s.queues := rfl
@[simp] theorem updGroup_slots (s : State) (r : TeamRef) (n : Nat) (f : Group → Group) : (updGroup s r n f).slots = s.slots := rfl
@[simp] theorem updGroup_pendingQ (s : State) (r : TeamRef) (n : Nat) (f : Group → Group) : (updGroup s r n f).pendingQ = s.pendingQ := rfl
@[simp] theorem updGroup_launches (s : State) (r : TeamRef) (n : Nat) (f : Group → Group) : (updGroup s r n f).launches = s.launches := rfl
@[simp] theorem updGroup_launchNext (s : State) (r : TeamRef) (n : Nat) (f : Group → Group) : (updGroup s r n f).launchNext = s.launchNext := rfl
@[simp] theorem updGroup_headSince (s : State) (r : TeamRef) (n : Nat) (f : Group → Group) : (updGroup s r n f).headSince = s.headSince := rfl
@[simp] theorem updGroup_headOf (s : State) (r : TeamRef) (n : Nat) (f : Group → Group) : (updGroup s r n f).headOf = s.headOf := rfl
@[simp] theorem updGroup_backfills (s : State) (r : TeamRef) (n : Nat) (f : Group → Group) : (updGroup s r n f).backfills = s.backfills := rfl
@[simp] theorem updGroup_reserved (s : State) (r : TeamRef) (n : Nat) (f : Group → Group) : (updGroup s r n f).reserved = s.reserved := rfl
@[simp] theorem updGroup_triggers (s : State) (r : TeamRef) (n : Nat) (f : Group → Group) : (updGroup s r n f).triggers = s.triggers := rfl
@[simp] theorem updGroup_objects (s : State) (r : TeamRef) (n : Nat) (f : Group → Group) : (updGroup s r n f).objects = s.objects := rfl
@[simp] theorem updGroup_objNext (s : State) (r : TeamRef) (n : Nat) (f : Group → Group) : (updGroup s r n f).objNext = s.objNext := rfl
@[simp] theorem updGroup_unregistering (s : State) (r : TeamRef) (n : Nat) (f : Group → Group) : (updGroup s r n f).unregistering = s.unregistering := rfl
@[simp] theorem updGroup_ctxRefused (s : State) (r : TeamRef) (n : Nat) (f : Group → Group) : (updGroup s r n f).ctxRefused = s.ctxRefused := rfl
@[simp] theorem updGroup_qidle (s : State) (r : TeamRef) (n : Nat) (f : Group → Group) : (updGroup s r n f).qidle = s.qidle := rfl
@[simp] theorem updGroup_age (s : State) (r : TeamRef) (n : Nat) (f : Group → Group) : (updGroup s r n f).age = s.age := rfl
@[simp] theorem updGroup_linkLim (s : State) (r : TeamRef) (n : Nat) (f : Group → Group) : (updGroup s r n f).linkLim = s.linkLim := rfl
@[simp] theorem updGroup_bankLim (s : State) (r : TeamRef) (n : Nat) (f : Group → Group) : (updGroup s r n f).bankLim = s.bankLim := rfl
@[simp] theorem updGroup_rowLim (s : State) (r : TeamRef) (n : Nat) (f : Group → Group) : (updGroup s r n f).rowLim = s.rowLim := rfl
@[simp] theorem updGroup_logInt (s : State) (r : TeamRef) (n : Nat) (f : Group → Group) : (updGroup s r n f).logInt = s.logInt := rfl
@[simp] theorem updGroup_ptpPort (s : State) (r : TeamRef) (n : Nat) (f : Group → Group) : (updGroup s r n f).ptpPort = s.ptpPort := rfl
@[simp] theorem updGroup_ptpState (s : State) (r : TeamRef) (n : Nat) (f : Group → Group) : (updGroup s r n f).ptpState = s.ptpState := rfl
@[simp] theorem updGroup_ptpSteps (s : State) (r : TeamRef) (n : Nat) (f : Group → Group) : (updGroup s r n f).ptpSteps = s.ptpSteps := rfl
@[simp] theorem updGroup_slew (s : State) (r : TeamRef) (n : Nat) (f : Group → Group) : (updGroup s r n f).slew = s.slew := rfl
@[simp] theorem updGroup_cap (s : State) (r : TeamRef) (n : Nat) (f : Group → Group) : (updGroup s r n f).cap = s.cap := rfl
@[simp] theorem updGroup_throttled (s : State) (r : TeamRef) (n : Nat) (f : Group → Group) : (updGroup s r n f).throttled = s.throttled := rfl
@[simp] theorem updGroup_meas (s : State) (r : TeamRef) (n : Nat) (f : Group → Group) : (updGroup s r n f).meas = s.meas := rfl
@[simp] theorem updGroup_hotDies (s : State) (r : TeamRef) (n : Nat) (f : Group → Group) : (updGroup s r n f).hotDies = s.hotDies := rfl
@[simp] theorem updGroup_retiredLinks (s : State) (r : TeamRef) (n : Nat) (f : Group → Group) : (updGroup s r n f).retiredLinks = s.retiredLinks := rfl
@[simp] theorem updGroup_keys (s : State) (r : TeamRef) (n : Nat) (f : Group → Group) : (updGroup s r n f).keys = s.keys := rfl
@[simp] theorem updGroup_claims (s : State) (r : TeamRef) (n : Nat) (f : Group → Group) : (updGroup s r n f).claims = s.claims := rfl
@[simp] theorem updGroup_rung (s : State) (r : TeamRef) (n : Nat) (f : Group → Group) : (updGroup s r n f).rung = s.rung := rfl
@[simp] theorem updGroup_retiredPages (s : State) (r : TeamRef) (n : Nat) (f : Group → Group) : (updGroup s r n f).retiredPages = s.retiredPages := rfl
@[simp] theorem updGroup_portReports (s : State) (r : TeamRef) (n : Nat) (f : Group → Group) : (updGroup s r n f).portReports = s.portReports := rfl
@[simp] theorem updGroup_stages (s : State) (r : TeamRef) (n : Nat) (f : Group → Group) : (updGroup s r n f).stages = s.stages := rfl
@[simp] theorem updGroup_firmware (s : State) (r : TeamRef) (n : Nat) (f : Group → Group) : (updGroup s r n f).firmware = s.firmware := rfl
@[simp] theorem updGroup_pendingFw (s : State) (r : TeamRef) (n : Nat) (f : Group → Group) : (updGroup s r n f).pendingFw = s.pendingFw := rfl
@[simp] theorem updGroup_reports (s : State) (r : TeamRef) (n : Nat) (f : Group → Group) : (updGroup s r n f).reports = s.reports := rfl
@[simp] theorem updGroup_hostReply (s : State) (r : TeamRef) (n : Nat) (f : Group → Group) : (updGroup s r n f).hostReply = s.hostReply := rfl
@[simp] theorem updGroup_hostStatus (s : State) (r : TeamRef) (n : Nat) (f : Group → Group) : (updGroup s r n f).hostStatus = s.hostStatus := rfl
@[simp] theorem updGroup_agenda (s : State) (r : TeamRef) (n : Nat) (f : Group → Group) : (updGroup s r n f).agenda = s.agenda := rfl
@[simp] theorem updGroup_turn (s : State) (r : TeamRef) (n : Nat) (f : Group → Group) : (updGroup s r n f).turn = s.turn := rfl
@[simp] theorem updGroup_cur (s : State) (r : TeamRef) (n : Nat) (f : Group → Group) : (updGroup s r n f).cur = s.cur := rfl
@[simp] theorem updGroup_freeCtr (s : State) (r : TeamRef) (n : Nat) (f : Group → Group) : (updGroup s r n f).freeCtr = s.freeCtr := rfl

/-! ## `updProg` -/

@[simp] theorem updProg_mem (s : State) (r : TeamRef) (n : Nat) (f : XProg → XProg) : (updProg s r n f).mem = s.mem := rfl
@[simp] theorem updProg_lineKeys (s : State) (r : TeamRef) (n : Nat) (f : XProg → XProg) : (updProg s r n f).lineKeys = s.lineKeys := rfl
@[simp] theorem updProg_tags (s : State) (r : TeamRef) (n : Nat) (f : XProg → XProg) : (updProg s r n f).tags = s.tags := rfl
@[simp] theorem updProg_cores (s : State) (r : TeamRef) (n : Nat) (f : XProg → XProg) : (updProg s r n f).cores = s.cores := rfl
@[simp] theorem updProg_pages (s : State) (r : TeamRef) (n : Nat) (f : XProg → XProg) : (updProg s r n f).pages = s.pages := rfl
@[simp] theorem updProg_published (s : State) (r : TeamRef) (n : Nat) (f : XProg → XProg) : (updProg s r n f).published = s.published := rfl
@[simp] theorem updProg_removed (s : State) (r : TeamRef) (n : Nat) (f : XProg → XProg) : (updProg s r n f).removed = s.removed := rfl
@[simp] theorem updProg_epochs (s : State) (r : TeamRef) (n : Nat) (f : XProg → XProg) : (updProg s r n f).epochs = s.epochs := rfl
@[simp] theorem updProg_epoch (s : State) (r : TeamRef) (n : Nat) (f : XProg → XProg) : (updProg s r n f).epoch = s.epoch := rfl
@[simp] theorem updProg_clk (s : State) (r : TeamRef) (n : Nat) (f : XProg → XProg) : (updProg s r n f).clk = s.clk := rfl
@[simp] theorem updProg_time (s : State) (r : TeamRef) (n : Nat) (f : XProg → XProg) : (updProg s r n f).time = s.time := rfl
@[simp] theorem updProg_faultBase (s : State) (r : TeamRef) (n : Nat) (f : XProg → XProg) : (updProg s r n f).faultBase = s.faultBase := rfl
@[simp] theorem updProg_faultBaseSet (s : State) (r : TeamRef) (n : Nat) (f : XProg → XProg) : (updProg s r n f).faultBaseSet = s.faultBaseSet := rfl
@[simp] theorem updProg_faultNext (s : State) (r : TeamRef) (n : Nat) (f : XProg → XProg) : (updProg s r n f).faultNext = s.faultNext := rfl
@[simp] theorem updProg_faultQ (s : State) (r : TeamRef) (n : Nat) (f : XProg → XProg) : (updProg s r n f).faultQ = s.faultQ := rfl
@[simp] theorem updProg_faultWait (s : State) (r : TeamRef) (n : Nat) (f : XProg → XProg) : (updProg s r n f).faultWait = s.faultWait := rfl
@[simp] theorem updProg_holdSets (s : State) (r : TeamRef) (n : Nat) (f : XProg → XProg) : (updProg s r n f).holdSets = s.holdSets := rfl
@[simp] theorem updProg_errNext (s : State) (r : TeamRef) (n : Nat) (f : XProg → XProg) : (updProg s r n f).errNext = s.errNext := rfl
@[simp] theorem updProg_errQ (s : State) (r : TeamRef) (n : Nat) (f : XProg → XProg) : (updProg s r n f).errQ = s.errQ := rfl
@[simp] theorem updProg_errWait (s : State) (r : TeamRef) (n : Nat) (f : XProg → XProg) : (updProg s r n f).errWait = s.errWait := rfl
@[simp] theorem updProg_errLost (s : State) (r : TeamRef) (n : Nat) (f : XProg → XProg) : (updProg s r n f).errLost = s.errLost := rfl
@[simp] theorem updProg_selftests (s : State) (r : TeamRef) (n : Nat) (f : XProg → XProg) : (updProg s r n f).selftests = s.selftests := rfl
@[simp] theorem updProg_counts (s : State) (r : TeamRef) (n : Nat) (f : XProg → XProg) : (updProg s r n f).counts = s.counts := rfl
@[simp] theorem updProg_intervalFrom (s : State) (r : TeamRef) (n : Nat) (f : XProg → XProg) : (updProg s r n f).intervalFrom = s.intervalFrom := rfl
@[simp] theorem updProg_queues (s : State) (r : TeamRef) (n : Nat) (f : XProg → XProg) : (updProg s r n f).queues = s.queues := rfl
@[simp] theorem updProg_slots (s : State) (r : TeamRef) (n : Nat) (f : XProg → XProg) : (updProg s r n f).slots = s.slots := rfl
@[simp] theorem updProg_pendingQ (s : State) (r : TeamRef) (n : Nat) (f : XProg → XProg) : (updProg s r n f).pendingQ = s.pendingQ := rfl
@[simp] theorem updProg_launches (s : State) (r : TeamRef) (n : Nat) (f : XProg → XProg) : (updProg s r n f).launches = s.launches := rfl
@[simp] theorem updProg_launchNext (s : State) (r : TeamRef) (n : Nat) (f : XProg → XProg) : (updProg s r n f).launchNext = s.launchNext := rfl
@[simp] theorem updProg_headSince (s : State) (r : TeamRef) (n : Nat) (f : XProg → XProg) : (updProg s r n f).headSince = s.headSince := rfl
@[simp] theorem updProg_headOf (s : State) (r : TeamRef) (n : Nat) (f : XProg → XProg) : (updProg s r n f).headOf = s.headOf := rfl
@[simp] theorem updProg_backfills (s : State) (r : TeamRef) (n : Nat) (f : XProg → XProg) : (updProg s r n f).backfills = s.backfills := rfl
@[simp] theorem updProg_reserved (s : State) (r : TeamRef) (n : Nat) (f : XProg → XProg) : (updProg s r n f).reserved = s.reserved := rfl
@[simp] theorem updProg_triggers (s : State) (r : TeamRef) (n : Nat) (f : XProg → XProg) : (updProg s r n f).triggers = s.triggers := rfl
@[simp] theorem updProg_objects (s : State) (r : TeamRef) (n : Nat) (f : XProg → XProg) : (updProg s r n f).objects = s.objects := rfl
@[simp] theorem updProg_objNext (s : State) (r : TeamRef) (n : Nat) (f : XProg → XProg) : (updProg s r n f).objNext = s.objNext := rfl
@[simp] theorem updProg_unregistering (s : State) (r : TeamRef) (n : Nat) (f : XProg → XProg) : (updProg s r n f).unregistering = s.unregistering := rfl
@[simp] theorem updProg_ctxRefused (s : State) (r : TeamRef) (n : Nat) (f : XProg → XProg) : (updProg s r n f).ctxRefused = s.ctxRefused := rfl
@[simp] theorem updProg_qidle (s : State) (r : TeamRef) (n : Nat) (f : XProg → XProg) : (updProg s r n f).qidle = s.qidle := rfl
@[simp] theorem updProg_age (s : State) (r : TeamRef) (n : Nat) (f : XProg → XProg) : (updProg s r n f).age = s.age := rfl
@[simp] theorem updProg_linkLim (s : State) (r : TeamRef) (n : Nat) (f : XProg → XProg) : (updProg s r n f).linkLim = s.linkLim := rfl
@[simp] theorem updProg_bankLim (s : State) (r : TeamRef) (n : Nat) (f : XProg → XProg) : (updProg s r n f).bankLim = s.bankLim := rfl
@[simp] theorem updProg_rowLim (s : State) (r : TeamRef) (n : Nat) (f : XProg → XProg) : (updProg s r n f).rowLim = s.rowLim := rfl
@[simp] theorem updProg_logInt (s : State) (r : TeamRef) (n : Nat) (f : XProg → XProg) : (updProg s r n f).logInt = s.logInt := rfl
@[simp] theorem updProg_ptpPort (s : State) (r : TeamRef) (n : Nat) (f : XProg → XProg) : (updProg s r n f).ptpPort = s.ptpPort := rfl
@[simp] theorem updProg_ptpState (s : State) (r : TeamRef) (n : Nat) (f : XProg → XProg) : (updProg s r n f).ptpState = s.ptpState := rfl
@[simp] theorem updProg_ptpSteps (s : State) (r : TeamRef) (n : Nat) (f : XProg → XProg) : (updProg s r n f).ptpSteps = s.ptpSteps := rfl
@[simp] theorem updProg_slew (s : State) (r : TeamRef) (n : Nat) (f : XProg → XProg) : (updProg s r n f).slew = s.slew := rfl
@[simp] theorem updProg_cap (s : State) (r : TeamRef) (n : Nat) (f : XProg → XProg) : (updProg s r n f).cap = s.cap := rfl
@[simp] theorem updProg_throttled (s : State) (r : TeamRef) (n : Nat) (f : XProg → XProg) : (updProg s r n f).throttled = s.throttled := rfl
@[simp] theorem updProg_meas (s : State) (r : TeamRef) (n : Nat) (f : XProg → XProg) : (updProg s r n f).meas = s.meas := rfl
@[simp] theorem updProg_hotDies (s : State) (r : TeamRef) (n : Nat) (f : XProg → XProg) : (updProg s r n f).hotDies = s.hotDies := rfl
@[simp] theorem updProg_retiredLinks (s : State) (r : TeamRef) (n : Nat) (f : XProg → XProg) : (updProg s r n f).retiredLinks = s.retiredLinks := rfl
@[simp] theorem updProg_keys (s : State) (r : TeamRef) (n : Nat) (f : XProg → XProg) : (updProg s r n f).keys = s.keys := rfl
@[simp] theorem updProg_claims (s : State) (r : TeamRef) (n : Nat) (f : XProg → XProg) : (updProg s r n f).claims = s.claims := rfl
@[simp] theorem updProg_rung (s : State) (r : TeamRef) (n : Nat) (f : XProg → XProg) : (updProg s r n f).rung = s.rung := rfl
@[simp] theorem updProg_retiredPages (s : State) (r : TeamRef) (n : Nat) (f : XProg → XProg) : (updProg s r n f).retiredPages = s.retiredPages := rfl
@[simp] theorem updProg_portReports (s : State) (r : TeamRef) (n : Nat) (f : XProg → XProg) : (updProg s r n f).portReports = s.portReports := rfl
@[simp] theorem updProg_stages (s : State) (r : TeamRef) (n : Nat) (f : XProg → XProg) : (updProg s r n f).stages = s.stages := rfl
@[simp] theorem updProg_firmware (s : State) (r : TeamRef) (n : Nat) (f : XProg → XProg) : (updProg s r n f).firmware = s.firmware := rfl
@[simp] theorem updProg_pendingFw (s : State) (r : TeamRef) (n : Nat) (f : XProg → XProg) : (updProg s r n f).pendingFw = s.pendingFw := rfl
@[simp] theorem updProg_reports (s : State) (r : TeamRef) (n : Nat) (f : XProg → XProg) : (updProg s r n f).reports = s.reports := rfl
@[simp] theorem updProg_hostReply (s : State) (r : TeamRef) (n : Nat) (f : XProg → XProg) : (updProg s r n f).hostReply = s.hostReply := rfl
@[simp] theorem updProg_hostStatus (s : State) (r : TeamRef) (n : Nat) (f : XProg → XProg) : (updProg s r n f).hostStatus = s.hostStatus := rfl
@[simp] theorem updProg_agenda (s : State) (r : TeamRef) (n : Nat) (f : XProg → XProg) : (updProg s r n f).agenda = s.agenda := rfl
@[simp] theorem updProg_turn (s : State) (r : TeamRef) (n : Nat) (f : XProg → XProg) : (updProg s r n f).turn = s.turn := rfl
@[simp] theorem updProg_cur (s : State) (r : TeamRef) (n : Nat) (f : XProg → XProg) : (updProg s r n f).cur = s.cur := rfl
@[simp] theorem updProg_freeCtr (s : State) (r : TeamRef) (n : Nat) (f : XProg → XProg) : (updProg s r n f).freeCtr = s.freeCtr := rfl

/-! ## `updLaunch` -/

@[simp] theorem updLaunch_mem (s : State) (n : Nat) (f : Launch → Launch) : (updLaunch s n f).mem = s.mem := by
  unfold updLaunch; split <;> rfl
@[simp] theorem updLaunch_lineKeys (s : State) (n : Nat) (f : Launch → Launch) : (updLaunch s n f).lineKeys = s.lineKeys := by
  unfold updLaunch; split <;> rfl
@[simp] theorem updLaunch_tags (s : State) (n : Nat) (f : Launch → Launch) : (updLaunch s n f).tags = s.tags := by
  unfold updLaunch; split <;> rfl
@[simp] theorem updLaunch_cores (s : State) (n : Nat) (f : Launch → Launch) : (updLaunch s n f).cores = s.cores := by
  unfold updLaunch; split <;> rfl
@[simp] theorem updLaunch_teams (s : State) (n : Nat) (f : Launch → Launch) : (updLaunch s n f).teams = s.teams := by
  unfold updLaunch; split <;> rfl
@[simp] theorem updLaunch_pages (s : State) (n : Nat) (f : Launch → Launch) : (updLaunch s n f).pages = s.pages := by
  unfold updLaunch; split <;> rfl
@[simp] theorem updLaunch_published (s : State) (n : Nat) (f : Launch → Launch) : (updLaunch s n f).published = s.published := by
  unfold updLaunch; split <;> rfl
@[simp] theorem updLaunch_removed (s : State) (n : Nat) (f : Launch → Launch) : (updLaunch s n f).removed = s.removed := by
  unfold updLaunch; split <;> rfl
@[simp] theorem updLaunch_epochs (s : State) (n : Nat) (f : Launch → Launch) : (updLaunch s n f).epochs = s.epochs := by
  unfold updLaunch; split <;> rfl
@[simp] theorem updLaunch_epoch (s : State) (n : Nat) (f : Launch → Launch) : (updLaunch s n f).epoch = s.epoch := by
  unfold updLaunch; split <;> rfl
@[simp] theorem updLaunch_clk (s : State) (n : Nat) (f : Launch → Launch) : (updLaunch s n f).clk = s.clk := by
  unfold updLaunch; split <;> rfl
@[simp] theorem updLaunch_time (s : State) (n : Nat) (f : Launch → Launch) : (updLaunch s n f).time = s.time := by
  unfold updLaunch; split <;> rfl
@[simp] theorem updLaunch_faultBase (s : State) (n : Nat) (f : Launch → Launch) : (updLaunch s n f).faultBase = s.faultBase := by
  unfold updLaunch; split <;> rfl
@[simp] theorem updLaunch_faultBaseSet (s : State) (n : Nat) (f : Launch → Launch) : (updLaunch s n f).faultBaseSet = s.faultBaseSet := by
  unfold updLaunch; split <;> rfl
@[simp] theorem updLaunch_faultNext (s : State) (n : Nat) (f : Launch → Launch) : (updLaunch s n f).faultNext = s.faultNext := by
  unfold updLaunch; split <;> rfl
@[simp] theorem updLaunch_faultQ (s : State) (n : Nat) (f : Launch → Launch) : (updLaunch s n f).faultQ = s.faultQ := by
  unfold updLaunch; split <;> rfl
@[simp] theorem updLaunch_faultWait (s : State) (n : Nat) (f : Launch → Launch) : (updLaunch s n f).faultWait = s.faultWait := by
  unfold updLaunch; split <;> rfl
@[simp] theorem updLaunch_holdSets (s : State) (n : Nat) (f : Launch → Launch) : (updLaunch s n f).holdSets = s.holdSets := by
  unfold updLaunch; split <;> rfl
@[simp] theorem updLaunch_errNext (s : State) (n : Nat) (f : Launch → Launch) : (updLaunch s n f).errNext = s.errNext := by
  unfold updLaunch; split <;> rfl
@[simp] theorem updLaunch_errQ (s : State) (n : Nat) (f : Launch → Launch) : (updLaunch s n f).errQ = s.errQ := by
  unfold updLaunch; split <;> rfl
@[simp] theorem updLaunch_errWait (s : State) (n : Nat) (f : Launch → Launch) : (updLaunch s n f).errWait = s.errWait := by
  unfold updLaunch; split <;> rfl
@[simp] theorem updLaunch_errLost (s : State) (n : Nat) (f : Launch → Launch) : (updLaunch s n f).errLost = s.errLost := by
  unfold updLaunch; split <;> rfl
@[simp] theorem updLaunch_selftests (s : State) (n : Nat) (f : Launch → Launch) : (updLaunch s n f).selftests = s.selftests := by
  unfold updLaunch; split <;> rfl
@[simp] theorem updLaunch_counts (s : State) (n : Nat) (f : Launch → Launch) : (updLaunch s n f).counts = s.counts := by
  unfold updLaunch; split <;> rfl
@[simp] theorem updLaunch_intervalFrom (s : State) (n : Nat) (f : Launch → Launch) : (updLaunch s n f).intervalFrom = s.intervalFrom := by
  unfold updLaunch; split <;> rfl
@[simp] theorem updLaunch_queues (s : State) (n : Nat) (f : Launch → Launch) : (updLaunch s n f).queues = s.queues := by
  unfold updLaunch; split <;> rfl
@[simp] theorem updLaunch_slots (s : State) (n : Nat) (f : Launch → Launch) : (updLaunch s n f).slots = s.slots := by
  unfold updLaunch; split <;> rfl
@[simp] theorem updLaunch_pendingQ (s : State) (n : Nat) (f : Launch → Launch) : (updLaunch s n f).pendingQ = s.pendingQ := by
  unfold updLaunch; split <;> rfl
@[simp] theorem updLaunch_launchNext (s : State) (n : Nat) (f : Launch → Launch) : (updLaunch s n f).launchNext = s.launchNext := by
  unfold updLaunch; split <;> rfl
@[simp] theorem updLaunch_headSince (s : State) (n : Nat) (f : Launch → Launch) : (updLaunch s n f).headSince = s.headSince := by
  unfold updLaunch; split <;> rfl
@[simp] theorem updLaunch_headOf (s : State) (n : Nat) (f : Launch → Launch) : (updLaunch s n f).headOf = s.headOf := by
  unfold updLaunch; split <;> rfl
@[simp] theorem updLaunch_backfills (s : State) (n : Nat) (f : Launch → Launch) : (updLaunch s n f).backfills = s.backfills := by
  unfold updLaunch; split <;> rfl
@[simp] theorem updLaunch_reserved (s : State) (n : Nat) (f : Launch → Launch) : (updLaunch s n f).reserved = s.reserved := by
  unfold updLaunch; split <;> rfl
@[simp] theorem updLaunch_triggers (s : State) (n : Nat) (f : Launch → Launch) : (updLaunch s n f).triggers = s.triggers := by
  unfold updLaunch; split <;> rfl
@[simp] theorem updLaunch_objects (s : State) (n : Nat) (f : Launch → Launch) : (updLaunch s n f).objects = s.objects := by
  unfold updLaunch; split <;> rfl
@[simp] theorem updLaunch_objNext (s : State) (n : Nat) (f : Launch → Launch) : (updLaunch s n f).objNext = s.objNext := by
  unfold updLaunch; split <;> rfl
@[simp] theorem updLaunch_unregistering (s : State) (n : Nat) (f : Launch → Launch) : (updLaunch s n f).unregistering = s.unregistering := by
  unfold updLaunch; split <;> rfl
@[simp] theorem updLaunch_ctxRefused (s : State) (n : Nat) (f : Launch → Launch) : (updLaunch s n f).ctxRefused = s.ctxRefused := by
  unfold updLaunch; split <;> rfl
@[simp] theorem updLaunch_qidle (s : State) (n : Nat) (f : Launch → Launch) : (updLaunch s n f).qidle = s.qidle := by
  unfold updLaunch; split <;> rfl
@[simp] theorem updLaunch_age (s : State) (n : Nat) (f : Launch → Launch) : (updLaunch s n f).age = s.age := by
  unfold updLaunch; split <;> rfl
@[simp] theorem updLaunch_linkLim (s : State) (n : Nat) (f : Launch → Launch) : (updLaunch s n f).linkLim = s.linkLim := by
  unfold updLaunch; split <;> rfl
@[simp] theorem updLaunch_bankLim (s : State) (n : Nat) (f : Launch → Launch) : (updLaunch s n f).bankLim = s.bankLim := by
  unfold updLaunch; split <;> rfl
@[simp] theorem updLaunch_rowLim (s : State) (n : Nat) (f : Launch → Launch) : (updLaunch s n f).rowLim = s.rowLim := by
  unfold updLaunch; split <;> rfl
@[simp] theorem updLaunch_logInt (s : State) (n : Nat) (f : Launch → Launch) : (updLaunch s n f).logInt = s.logInt := by
  unfold updLaunch; split <;> rfl
@[simp] theorem updLaunch_ptpPort (s : State) (n : Nat) (f : Launch → Launch) : (updLaunch s n f).ptpPort = s.ptpPort := by
  unfold updLaunch; split <;> rfl
@[simp] theorem updLaunch_ptpState (s : State) (n : Nat) (f : Launch → Launch) : (updLaunch s n f).ptpState = s.ptpState := by
  unfold updLaunch; split <;> rfl
@[simp] theorem updLaunch_ptpSteps (s : State) (n : Nat) (f : Launch → Launch) : (updLaunch s n f).ptpSteps = s.ptpSteps := by
  unfold updLaunch; split <;> rfl
@[simp] theorem updLaunch_slew (s : State) (n : Nat) (f : Launch → Launch) : (updLaunch s n f).slew = s.slew := by
  unfold updLaunch; split <;> rfl
@[simp] theorem updLaunch_cap (s : State) (n : Nat) (f : Launch → Launch) : (updLaunch s n f).cap = s.cap := by
  unfold updLaunch; split <;> rfl
@[simp] theorem updLaunch_throttled (s : State) (n : Nat) (f : Launch → Launch) : (updLaunch s n f).throttled = s.throttled := by
  unfold updLaunch; split <;> rfl
@[simp] theorem updLaunch_meas (s : State) (n : Nat) (f : Launch → Launch) : (updLaunch s n f).meas = s.meas := by
  unfold updLaunch; split <;> rfl
@[simp] theorem updLaunch_hotDies (s : State) (n : Nat) (f : Launch → Launch) : (updLaunch s n f).hotDies = s.hotDies := by
  unfold updLaunch; split <;> rfl
@[simp] theorem updLaunch_retiredLinks (s : State) (n : Nat) (f : Launch → Launch) : (updLaunch s n f).retiredLinks = s.retiredLinks := by
  unfold updLaunch; split <;> rfl
@[simp] theorem updLaunch_keys (s : State) (n : Nat) (f : Launch → Launch) : (updLaunch s n f).keys = s.keys := by
  unfold updLaunch; split <;> rfl
@[simp] theorem updLaunch_claims (s : State) (n : Nat) (f : Launch → Launch) : (updLaunch s n f).claims = s.claims := by
  unfold updLaunch; split <;> rfl
@[simp] theorem updLaunch_rung (s : State) (n : Nat) (f : Launch → Launch) : (updLaunch s n f).rung = s.rung := by
  unfold updLaunch; split <;> rfl
@[simp] theorem updLaunch_retiredPages (s : State) (n : Nat) (f : Launch → Launch) : (updLaunch s n f).retiredPages = s.retiredPages := by
  unfold updLaunch; split <;> rfl
@[simp] theorem updLaunch_portReports (s : State) (n : Nat) (f : Launch → Launch) : (updLaunch s n f).portReports = s.portReports := by
  unfold updLaunch; split <;> rfl
@[simp] theorem updLaunch_stages (s : State) (n : Nat) (f : Launch → Launch) : (updLaunch s n f).stages = s.stages := by
  unfold updLaunch; split <;> rfl
@[simp] theorem updLaunch_firmware (s : State) (n : Nat) (f : Launch → Launch) : (updLaunch s n f).firmware = s.firmware := by
  unfold updLaunch; split <;> rfl
@[simp] theorem updLaunch_pendingFw (s : State) (n : Nat) (f : Launch → Launch) : (updLaunch s n f).pendingFw = s.pendingFw := by
  unfold updLaunch; split <;> rfl
@[simp] theorem updLaunch_reports (s : State) (n : Nat) (f : Launch → Launch) : (updLaunch s n f).reports = s.reports := by
  unfold updLaunch; split <;> rfl
@[simp] theorem updLaunch_hostReply (s : State) (n : Nat) (f : Launch → Launch) : (updLaunch s n f).hostReply = s.hostReply := by
  unfold updLaunch; split <;> rfl
@[simp] theorem updLaunch_hostStatus (s : State) (n : Nat) (f : Launch → Launch) : (updLaunch s n f).hostStatus = s.hostStatus := by
  unfold updLaunch; split <;> rfl
@[simp] theorem updLaunch_agenda (s : State) (n : Nat) (f : Launch → Launch) : (updLaunch s n f).agenda = s.agenda := by
  unfold updLaunch; split <;> rfl
@[simp] theorem updLaunch_turn (s : State) (n : Nat) (f : Launch → Launch) : (updLaunch s n f).turn = s.turn := by
  unfold updLaunch; split <;> rfl
@[simp] theorem updLaunch_cur (s : State) (n : Nat) (f : Launch → Launch) : (updLaunch s n f).cur = s.cur := by
  unfold updLaunch; split <;> rfl
@[simp] theorem updLaunch_freeCtr (s : State) (n : Nat) (f : Launch → Launch) : (updLaunch s n f).freeCtr = s.freeCtr := by
  unfold updLaunch; split <;> rfl

end Sys2Proof.Machine
end

