-- ==== Sys2Proof/Laws/Issue.lean ====
section
/-! SUPPORT. What a clean issue does, once for every instruction that shares it: `finishIssue`, `runLanes`, `runAlu`. -/
namespace Sys2Proof.Machine

/-! ## Names -/

theorem teamAt_ref {s : State} {r : TeamRef} {t : Team} (h : teamAt s r = some t) : t.ref = r := by
  have := List.find?_some h
  simpa using this

theorem groupOf_id {t : Team} {n : Nat} {g : Group} (h : groupOf t n = some g) : g.id = n := by
  have := List.find?_some h
  simpa using this

/-- Finding by a key after the elements of one key are changed, when the change keeps the key. -/
theorem find?_map_key {α κ : Type} [DecidableEq κ] (key : α → κ) (f : α → α) (hf : ∀ x, key (f x) = key x) (a b : κ) (xs : List α) :
    (xs.map (fun x => if key x == a then f x else x)).find? (fun x => key x == b) =
      if b = a then (xs.find? (fun x => key x == b)).map f else xs.find? (fun x => key x == b) := by
  have hk : ∀ x, key (if key x == a then f x else x) = key x := by
    intro x; split
    · exact hf x
    · rfl
  induction xs with
  | nil => simp
  | cons x r ih =>
    rw [List.map_cons, List.find?_cons, List.find?_cons, hk, ih]
    by_cases hb : key x = b
    · by_cases ha : b = a
      · simp [hb, ha]
      · have h3 : ¬ key x = a := by rw [hb]; exact ha
        simp [hb, ha]
    · have h3 : (key x == b) = false := by simpa using hb
      simp [h3]

/-- A team after every team of one name is changed. -/
theorem teamAt_updTeam (s : State) (r r' : TeamRef) (f : Team → Team) (hf : ∀ t, (f t).ref = t.ref) :
    teamAt (updTeam s r f) r' = if r' = r then (teamAt s r').map f else teamAt s r' :=
  find?_map_key Team.ref f hf r r' s.teams

theorem groupOf_teamUpdGroup (t : Team) (n k : Nat) (f : Group → Group) (hf : ∀ g, (f g).id = g.id) :
    groupOf (teamUpdGroup t n f) k = if k = n then (groupOf t k).map f else groupOf t k :=
  find?_map_key Group.id f hf n k t.groups

/-- A group after the group of one name is changed. -/
theorem groupIn_updGroup (s : State) (r r' : TeamRef) (n k : Nat) (f : Group → Group) (hf : ∀ g, (f g).id = g.id) :
    groupIn (updGroup s r n f) r' k = if r' = r ∧ k = n then (groupIn s r' k).map f else groupIn s r' k := by
  unfold groupIn updGroup
  rw [teamAt_updTeam s r r' (fun t => teamUpdGroup t n f) (fun _ => rfl)]
  by_cases h1 : r' = r
  · subst h1
    cases h : teamAt s r' with
    | none => simp
    | some t =>
      simp only [if_true, Option.map_some, Option.bind_some, true_and]
      rw [groupOf_teamUpdGroup t n k f hf]
  · simp [h1]

theorem groupIn_of_teams {s t : State} (h : t.teams = s.teams) (r : TeamRef) (n : Nat) : groupIn t r n = groupIn s r n := by
  simp [groupIn, teamAt, h]

/-- The group and lanes of an issue are those the state names. -/
theorem issueOf_group {s : State} {o : Op} {f : Form} {i : Issue} (h : issueOf s o f = some i) :
    teamAt s i.t.ref = some i.t ∧ groupOf i.t i.g.id = some i.g ∧ i.o = o ∧ i.f = f := by
  unfold issueOf at h
  split at h
  · rename_i p hc
    split at h
    · cases h
    · rename_i t g hg
      split at h
      · cases h
      · simp only [Option.some.injEq] at h
        subst h
        simp only [and_self, and_true]
        unfold groupAt namedGroup at hg
        cases h1 : slotHolder s p with
        | none => simp [h1] at hg
        | some q =>
          simp only [h1, Option.bind_some] at hg
          cases h2 : teamAt s q.1 with
          | none => simp [h2] at hg
          | some t' =>
            simp only [h2, Option.bind_some] at hg
            cases h3 : groupOf t' q.2 with
            | none => simp [h3] at hg
            | some g' =>
              simp only [h3, Option.map_some, Option.some.injEq, Prod.mk.injEq] at hg
              obtain ⟨rfl, rfl⟩ := hg
              rw [teamAt_ref h2, groupOf_id h3]
              exact ⟨h2, h3⟩
  · cases h

theorem issueOf_groupIn {s : State} {o : Op} {f : Form} {i : Issue} (h : issueOf s o f = some i) :
    groupIn s i.t.ref i.g.id = some i.g := by
  obtain ⟨h1, h2, _, _⟩ := issueOf_group h
  simp [groupIn, h1, h2]

theorem coreAt_setCore (s : State) (c c' : Nat) (k : Core) : coreAt (setCore s c k) c' = if c' = c then k else coreAt s c' := by
  unfold coreAt setCore
  simp only [mapGet_mapPut]
  split <;> rfl

theorem coreAt_updCore (s : State) (c c' : Nat) (f : Core → Core) :
    coreAt (updCore s c f) c' = if c' = c then f (coreAt s c) else coreAt s c' := coreAt_setCore s c c' _

/-! ## The end of an issue without faults -/

/-- A state whose groups and cores differ from another's only as an issue's bookkeeping does, with its group changed by `f`. -/
structure IssueStep (s t : State) (i : Issue) (f : Group → Group) : Prop where
  rest : { t with teams := s.teams, cores := s.cores } = s
  core : ∀ c, { coreAt t c with lcr := (coreAt s c).lcr, parts := (coreAt s c).parts } = coreAt s c
  otherCores : ∀ c, c ≠ i.t.core → coreAt t c = coreAt s c
  teams : ∀ r, teamAt t r = if r = i.t.ref then (teamAt s r).map (fun u => teamUpdGroup u i.g.id f) else teamAt s r
  keepsId : ∀ g, (f g).id = g.id

theorem IssueStep.refl (s : State) (i : Issue) : IssueStep s s i id where
  rest := rfl
  core := fun _ => rfl
  otherCores := fun _ _ => rfl
  teams := fun r => by
    split
    · have h : (fun u => teamUpdGroup u i.g.id id) = (id : Team → Team) := by
        funext u
        simp [teamUpdGroup]
      rw [h, Option.map_id, id]
    · rfl
  keepsId := fun _ => rfl

theorem teamUpdGroup_comp (t : Team) (n : Nat) (f g : Group → Group) (hf : ∀ x, (f x).id = x.id) :
    teamUpdGroup (teamUpdGroup t n f) n g = teamUpdGroup t n (g ∘ f) := by
  simp only [teamUpdGroup, List.map_map]
  congr 1
  apply List.map_congr_left
  intro x _
  simp only [Function.comp_apply]
  by_cases h : x.id = n <;> simp [h, hf]

/-- A change of the issue's group after such a step. -/
theorem IssueStep.group {s t : State} {i : Issue} {f : Group → Group} (h : IssueStep s t i f) (g : Group → Group)
    (hg : ∀ x, (g x).id = x.id) : IssueStep s (updGroup t i.t.ref i.g.id g) i (g ∘ f) where
  rest := h.rest
  core := h.core
  otherCores := h.otherCores
  teams := fun r => by
    have h1 := teamAt_updTeam t i.t.ref r (fun u => teamUpdGroup u i.g.id g) (fun _ => rfl)
    unfold updGroup
    rw [h1, h.teams]
    split
    · rw [Option.map_map]
      congr 1
      funext u
      exact teamUpdGroup_comp u i.g.id f g h.keepsId
    · rfl
  keepsId := fun x => by rw [Function.comp_apply, hg, h.keepsId]

/-- A change of the record or the partitions of the issue's core after such a step. -/
theorem IssueStep.updCore {s t : State} {i : Issue} {f : Group → Group} (h : IssueStep s t i f) (k : Core → Core)
    (hk : ∀ c, { k c with lcr := c.lcr, parts := c.parts } = c) : IssueStep s (updCore t i.t.core k) i f where
  rest := h.rest
  core := fun c => by
    rw [coreAt_updCore]
    split
    · rename_i hc
      subst hc
      have h1 := h.core i.t.core
      have h2 := hk (coreAt t i.t.core)
      generalize k (coreAt t i.t.core) = a at h2 ⊢
      generalize coreAt t i.t.core = b at h1 h2
      have h3 : { a with lcr := (coreAt s i.t.core).lcr, parts := (coreAt s i.t.core).parts } =
        { ({ a with lcr := b.lcr, parts := b.parts } : Core) with
          lcr := (coreAt s i.t.core).lcr, parts := (coreAt s i.t.core).parts } := rfl
      rw [h3, h2, h1]
    · exact h.core c
  otherCores := fun c hc => by
    rw [coreAt_updCore, if_neg hc]
    exact h.otherCores c hc
  teams := h.teams
  keepsId := h.keepsId

/-- A group's overflow counters may move; the rest of it stays. -/
def OvfOnly (f : Group → Group) : Prop := ∀ g, { f g with ovfRd := g.ovfRd, ovfWr := g.ovfWr, ovfMiss := g.ovfMiss } = g

/-- Counting an issue's overflow rows moves the counters and the cache of its own group and core only (04 R50, R51). -/
theorem countOverflow_step (s : State) (i : Issue) (wr : List (Nat × Nat)) :
    ∃ f, OvfOnly f ∧ IssueStep s (countOverflow s i wr).1 i f := by
  have h0 : ∃ f, OvfOnly f ∧ IssueStep s s i f := ⟨id, fun _ => rfl, .refl s i⟩
  unfold countOverflow
  split
  · exact h0
  · split
    · exact h0
    · rename_i t g _
      simp only
      generalize overflowReads (partAt (coreAt s i.t.core) i.g.part) g (i.rowsRead (launchOf s i.t)) = r
      generalize overflowWrites r.1 r.2.1 _ = w
      refine ⟨(fun g => { g with ovfRd := w.2.ovfRd, ovfWr := w.2.ovfWr, ovfMiss := w.2.ovfMiss }), fun _ => rfl, ?_⟩
      exact ((IssueStep.refl s i).updCore (fun k => { k with parts := mapPut k.parts i.g.part w.1 }) (fun _ => rfl)).group
        (fun g => { g with ovfRd := w.2.ovfRd, ovfWr := w.2.ovfWr, ovfMiss := w.2.ovfMiss }) (fun _ => rfl)

/-- What the end of an issue without faults does to its group. -/
def endOfIssue (s : State) (i : Issue) (outs : List (Nat × LaneOut)) (miss : Bool) (g : Group) : Group :=
  issued s i (doneLanes i outs) miss
    { g with
      lanes := g.lanes.map (fun p => (p.1, issueLane i outs p.1 p.2))
      lease := g.lease.bind (leaseAfter i 0#32) }

/-- THE END OF AN ISSUE WITHOUT FAULTS: its lanes move as `issueLane` says, and nothing else but the issue's bookkeeping changes. -/
theorem finishIssue_step (s : State) (i : Issue) (outs : List (Nat × LaneOut)) (hf : outFaults i outs = []) :
    ∃ f miss, OvfOnly f ∧ IssueStep s (finishIssue s i outs) i (endOfIssue s i outs miss ∘ f) := by
  obtain ⟨f, h1, h2⟩ := countOverflow_step s i (rowsLeaving i 0#32)
  refine ⟨f, (countOverflow s i (rowsLeaving i 0#32)).2, h1, ?_⟩
  have h3 : finishIssue s i outs =
      accountIssue (updGroup (countOverflow s i (rowsLeaving i 0#32)).1 i.t.ref i.g.id
        (endOfIssue s i outs (countOverflow s i (rowsLeaving i 0#32)).2)) i := by
    unfold finishIssue
    simp only [hf]
    rfl
  rw [h3]
  exact (h2.group (endOfIssue s i outs (countOverflow s i (rowsLeaving i 0#32)).2) (fun _ => rfl)).updCore
    (fun k => { k with lcr := lcrCount k.lcr (binPc i) (if isFp64 i.o then 4 else 1) (laneClasses i.g i.m i.on) }) (fun _ => rfl)

/-! ## What the lanes answer -/

/-- A listed number in the part of a map that a test of numbers keeps. -/
theorem mapGet_filter_key {α : Type} (m : List (Nat × α)) (q : Nat → Bool) (n : Nat) (x : α) (h : mapGet m n = some x) :
    mapGet (m.filter (fun p => q p.1)) n = if q n then some x else none := by
  induction m with
  | nil => cases h
  | cons p r ih =>
    simp only [mapGet] at h
    by_cases h1 : p.1 = n
    · rw [if_pos h1] at h
      cases hq : q n with
      | true =>
        have : q p.1 = true := by rw [h1]; exact hq
        rw [List.filter_cons, if_pos this]
        simp only [mapGet, if_true]
        rw [if_pos h1]
        exact h
      | false =>
        have h2 : q p.1 = false := by rw [h1]; exact hq
        have h3 : ∀ l : List (Nat × α), mapGet (l.filter (fun p => q p.1)) n = none := by
          intro l
          induction l with
          | nil => rfl
          | cons y l ih =>
            by_cases hy : q y.1 = true
            · have h4 : ¬ y.1 = n := by intro he; rw [he, hq] at hy; cases hy
              simp only [List.filter_cons, hy, if_true, mapGet, h4, if_false]
              split
              · rfl
              · exact ih
            · simpa [List.filter_cons, hy] using ih
        rw [h3]; rfl
    · rw [if_neg h1] at h
      by_cases h2 : n < p.1
      · rw [if_pos h2] at h; cases h
      · rw [if_neg h2] at h
        by_cases hp : q p.1 = true
        · simp only [List.filter_cons, hp, if_true, mapGet, h1, h2, if_false]
          exact ih h
        · simpa [List.filter_cons, hp] using ih h

/-- The guard-true lanes of an issue are its lanes whose guard holds. -/
theorem mapGet_active (i : Issue) (n : Nat) (l : Lane) (h : i.lane n = some l) :
    mapGet i.active n = if hasLane i.on n then some l else none :=
  mapGet_filter_key i.g.lanes (hasLane i.on) n l h

/-- The answers of an instruction whose guard-true lanes all complete. -/
def doneOuts (i : Issue) (res : Nat → Lane → FRes) : List (Nat × LaneOut) := i.active.map (fun p => (p.1, .done (res p.1 p.2)))

theorem mapGet_doneOuts (i : Issue) (res : Nat → Lane → FRes) (n : Nat) (l : Lane) (h : i.lane n = some l) :
    mapGet (doneOuts i res) n = if hasLane i.on n then some (.done (res n l)) else none := by
  unfold doneOuts
  rw [mapGet_map i.active (fun k x => LaneOut.done (res k x)) n, mapGet_active i n l h]
  split <;> rfl

/-- No enabled flag is raised by the answers of the guard-true lanes. -/
def NoTraps (i : Issue) (res : Nat → Lane → FRes) : Prop :=
  ∀ p ∈ i.active, ∀ l, i.lane p.1 = some l → trapped i.t.fpxen l (res p.1 p.2).flags = 0#5

theorem trapped_zero (l : Lane) (x : BitVec 5) : trapped 0#5 l x = 0#5 := by
  unfold trapped; split <;> simp

theorem trapped_noFlags (en : BitVec 5) (l : Lane) : trapped en l 0#5 = 0#5 := by
  unfold trapped; split <;> simp

theorem outFaults_doneOuts (i : Issue) (res : Nat → Lane → FRes) (h : NoTraps i res) : outFaults i (doneOuts i res) = [] := by
  unfold outFaults doneOuts
  rw [List.filterMap_eq_nil_iff]
  intro p hp
  obtain ⟨q, hq, rfl⟩ := List.mem_map.mp hp
  simp only
  cases hl : i.lane q.1 with
  | none => rfl
  | some l => simp [h q hq l hl]

/-- A lane after a completed issue: its result delivered, everything else kept. -/
theorem doneLane_after (i : Issue) (l : Lane) (r : FRes) (hd : i.pushesEmpty = true → i.dest l = .none) :
    LaneAfter i.nextPc l (doneLane i l r) (i.dest l) (BitVec.ofNat 128 r.bits) r.flags := by
  have hb : ∀ (x : Lane) (f : Form) (k : Nat), (∀ n, readReg (advanceSr f x k) n = readReg x n) ∧ (∀ n, predOf (advanceSr f x k) n = predOf x n)
      ∧ (advanceSr f x k).flags = x.flags := by
    intro x f k
    unfold advanceSr
    split <;> exact ⟨fun _ => rfl, fun _ => rfl, rfl⟩
  obtain ⟨b1, b2, b3⟩ := hb (raise l r.flags) i.f r.rounds
  let e : Latch := ⟨if i.pushesEmpty then 0#128 else BitVec.ofNat 128 r.bits, i.pushesEmpty, i.dest l, i.dest l != .none, i.g.issues⟩
  have hr : ∀ n, readReg (doneLane i l r) n = (entryWord e n).getD (readReg l n) := by
    intro n
    have h1 : readReg (doneLane i l r) n = readReg (pushLatch (advanceSr i.f (raise l r.flags) r.rounds) e) n := rfl
    rw [h1, readReg_pushLatch, b1]
    rfl
  have hp : ∀ n, predOf (doneLane i l r) n = if n ≥ 7 then true else (entryPred e n).getD (predOf l n) := by
    intro n
    have h1 : predOf (doneLane i l r) n = predOf (pushLatch (advanceSr i.f (raise l r.flags) r.rounds) e) n := rfl
    rw [h1, predOf_pushLatch, b2]
    rfl
  have hv : i.dest l ≠ .none → e.val = BitVec.ofNat 128 r.bits := by
    intro hne
    have : i.pushesEmpty = false := by
      cases hpe : i.pushesEmpty with
      | false => rfl
      | true => exact absurd (hd hpe) hne
    simp [e, this]
  refine ⟨rfl, ?_, ?_, ?_, ?_⟩
  · cases hdest : i.dest l with
    | none => trivial
    | v n w =>
      intro k hk
      rw [hr]
      have h1 : n ≤ n + k ∧ n + k < n + w := by omega
      have h2 : entryWord e (n + k) = some ((e.val >>> (32 * (n + k - n))).extractLsb' 0 32) := by
        simp [entryWord, e, hdest, h1]
      rw [h2, hv (by rw [hdest]; intro h; cases h), Option.getD_some, show n + k - n = k by omega]
    | p n =>
      intro hn
      rw [hp, if_neg (by omega)]
      have h2 : entryPred e n = some (e.val.getLsbD 0) := by simp [entryPred, e, hdest]
      rw [h2, hv (by rw [hdest]; intro h; cases h)]
      rfl
  · have h1 : (doneLane i l r).flags = (pushLatch (advanceSr i.f (raise l r.flags) r.rounds) e).flags := rfl
    have h2 := congrArg Lane.flags (pushLatch_keeps (advanceSr i.f (raise l r.flags) r.rounds) e)
    rw [h1]
    exact h2.trans b3
  · intro n hn
    rw [hr]
    have : entryWord e n = none := by
      cases hdest : i.dest l with
      | none => simp [entryWord, e, hdest]
      | p k => simp [entryWord, e, hdest]
      | v d w =>
        rw [hdest] at hn
        simp only [Dest.takes, Bool.and_eq_false_iff, decide_eq_false_iff_not] at hn
        have h3 : ¬ (d ≤ n ∧ n < d + w) := by omega
        simp [entryWord, e, hdest, h3]
    rw [this]; rfl
  · intro n hn
    rw [hp]
    split
    · rename_i h7; rw [predOf_eq, if_pos h7]
    · have h3 : (e.dest == Dest.p n) = false := by simpa using hn
      have : entryPred e n = none := by simp [entryPred, h3]
      rw [this]; rfl

/-- A guard-false lane after an issue: nothing but the PC (04 R60, R61). -/
theorem offLane_after (i : Issue) (l : Lane) : LaneAfter i.nextPc l (offLane i l) .none 0#128 0#5 := by
  let e : Latch := ⟨if i.pushesEmpty then 0#128 else destNow l (i.dest l), i.pushesEmpty, .none, false, i.g.issues⟩
  refine ⟨rfl, trivial, ?_, ?_, ?_⟩
  · have h1 := by have h := congrArg Lane.flags (pushLatch_keeps l e); exact h
    have h2 : (offLane i l).flags = l.flags := h1
    rw [h2]; simp
  · intro n _
    have h1 : readReg (offLane i l) n = readReg (pushLatch l e) n := rfl
    rw [h1, readReg_pushLatch]
    rfl
  · intro n _
    have h1 : predOf (offLane i l) n = predOf (pushLatch l e) n := rfl
    rw [h1, predOf_pushLatch]
    split
    · rename_i h7; rw [predOf_eq, if_pos h7]
    · rfl

/-- An empty entry has no destination. -/
theorem dest_of_empty (i : Issue) (l : Lane) (h : i.pushesEmpty = true) : i.dest l = .none := by
  unfold Issue.pushesEmpty at h
  unfold Issue.dest
  cases hd : i.shape.d <;> simp [hd] at h ⊢

/-- The group of an issue's team after an issue's step. -/
theorem IssueStep.groupIn {s t : State} {i : Issue} {f : Group → Group} (h : IssueStep s t i f)
    (hi : groupIn s i.t.ref i.g.id = some i.g) : groupIn t i.t.ref i.g.id = some (f i.g) := by
  unfold Machine.groupIn at hi ⊢
  rw [h.teams, if_pos rfl]
  cases ht : teamAt s i.t.ref with
  | none => simp [ht] at hi
  | some u =>
    simp only [ht, Option.bind_some, Option.map_some] at hi ⊢
    rw [groupOf_teamUpdGroup u i.g.id i.g.id f h.keepsId, if_pos rfl, hi]
    rfl

/-- AN INSTRUCTION WHOSE GUARD-TRUE LANES ALL COMPLETE delivers their results. -/
theorem finishIssue_delivers (s : State) (i : Issue) (res : Nat → Lane → FRes) (hi : groupIn s i.t.ref i.g.id = some i.g)
    (ht : NoTraps i res) (n : Nat) (l : Lane) (hl : i.lane n = some l) (hm : hasLane i.m n = true) :
    ∃ l', laneIn (finishIssue s i (doneOuts i res)) i.t.ref i.g.id n = some l' ∧
      if hasLane i.on n then LaneAfter i.nextPc l l' (i.dest l) (BitVec.ofNat 128 (res n l).bits) (res n l).flags
      else LaneAfter i.nextPc l l' .none 0#128 0#5 := by
  obtain ⟨f, miss, hf, hs⟩ := finishIssue_step s i (doneOuts i res) (outFaults_doneOuts i res ht)
  have hg := hs.groupIn hi
  have hlanes : (f i.g).lanes = i.g.lanes := by have h := congrArg Group.lanes (hf i.g); exact h
  have hlane : laneIn (finishIssue s i (doneOuts i res)) i.t.ref i.g.id n = some (issueLane i (doneOuts i res) n l) := by
    unfold laneIn
    rw [hg]
    have h1 : ((endOfIssue s i (doneOuts i res) miss ∘ f) i.g).lanes =
        (f i.g).lanes.map (fun p => (p.1, issueLane i (doneOuts i res) p.1 p.2)) := rfl
    rw [Option.bind_some, h1, hlanes, mapGet_map i.g.lanes (issueLane i (doneOuts i res)) n]
    have h2 : mapGet i.g.lanes n = some l := hl
    rw [h2]
    rfl
  refine ⟨_, hlane, ?_⟩
  unfold issueLane
  rw [hm, mapGet_doneOuts i res n l hl]
  cases hon : hasLane i.on n with
  | false => exact offLane_after i l
  | true =>
    have hact : (n, l) ∈ i.active := by
      have h1 : mapGet i.g.lanes n = some l := hl
      have h2 : ∀ m : List (Nat × Lane), mapGet m n = some l → (n, l) ∈ m := by
        intro m
        induction m with
        | nil => intro h; cases h
        | cons p r ih =>
          intro h
          simp only [mapGet] at h
          split at h
          · rename_i he
            cases h
            cases p
            simp only at he
            subst he
            exact List.mem_cons_self
          · split at h
            · cases h
            · exact List.mem_cons_of_mem _ (ih h)
      exact List.mem_filter.mpr ⟨h2 _ h1, hon⟩
    have h3 := ht (n, l) hact l hl
    simp only [if_true, Bool.not_true, Bool.false_eq_true, if_false]
    rw [if_pos h3]
    exact doneLane_after i l (res n l) (dest_of_empty i l)

/-- The frame of an issue's step. -/
theorem finishIssue_frame (s : State) (i : Issue) (res : Nat → Lane → FRes) (hi : teamAt s i.t.ref = some i.t)
    (hg : groupOf i.t i.g.id = some i.g) (ht : NoTraps i res) : ComputeFrame s (finishIssue s i (doneOuts i res)) i := by
  obtain ⟨f, miss, hf, hs⟩ := finishIssue_step s i (doneOuts i res) (outFaults_doneOuts i res ht)
  have hgi : groupIn s i.t.ref i.g.id = some i.g := by simp [groupIn, hi, hg]
  have hgo := hs.groupIn hgi
  generalize finishIssue s i (doneOuts i res) = t at hs hgo
  have hlanes : (f i.g).lanes = i.g.lanes := by have h := congrArg Group.lanes (hf i.g); exact h
  have hlane : ∀ n, laneIn t i.t.ref i.g.id n = (mapGet i.g.lanes n).map (issueLane i (doneOuts i res) n) := by
    intro n
    unfold laneIn
    rw [hgo]
    have h1 : ((endOfIssue s i (doneOuts i res) miss ∘ f) i.g).lanes =
        (f i.g).lanes.map (fun p => (p.1, issueLane i (doneOuts i res) p.1 p.2)) := rfl
    rw [Option.bind_some, h1, hlanes, mapGet_map i.g.lanes (issueLane i (doneOuts i res)) n]
  refine ⟨⟨hs.rest, ⟨?_, ?_⟩, hs.core, ?_, ?_⟩, hs.otherCores, ?_, ?_, ?_, ?_⟩
  · intro owner pa
    have h1 : t.mem = s.mem := by have h := congrArg State.mem hs.rest; exact h
    have h2 : t.lineKeys = s.lineKeys := by have h := congrArg State.lineKeys hs.rest; exact h
    simp [hbmByte, lineKey, h1, h2]
  · intro c o
    have h1 : (coreAt t c).sram = (coreAt s c).sram := by have h := congrArg Core.sram (hs.core c); exact h
    rw [h1]
  · intro r hr
    rw [hs.teams, if_neg hr]
  · refine ⟨teamUpdGroup i.t i.g.id (endOfIssue s i (doneOuts i res) miss ∘ f), ?_, rfl⟩
    rw [hs.teams, if_pos rfl, hi]
    rfl
  · intro n hn
    unfold groupIn
    rw [hs.teams, if_pos rfl, hi]
    simp only [Option.map_some, Option.bind_some]
    rw [groupOf_teamUpdGroup i.t i.g.id n _ hs.keepsId, if_neg hn]
  · refine ⟨_, hgo, ?_⟩
    have h1 := hf i.g
    unfold GroupKept
    generalize f i.g = y at h1
    have h2 : { (endOfIssue s i (doneOuts i res) miss ∘ f) i.g with
        lanes := i.g.lanes, lease := i.g.lease, issues := i.g.issues, lastIssue := i.g.lastIssue, checking := i.g.checking
        sb := i.g.sb, ovfRd := i.g.ovfRd, ovfWr := i.g.ovfWr, ovfMiss := i.g.ovfMiss } =
      { ({ f i.g with ovfRd := i.g.ovfRd, ovfWr := i.g.ovfWr, ovfMiss := i.g.ovfMiss } : Group) with
        lanes := i.g.lanes, lease := i.g.lease, issues := i.g.issues, lastIssue := i.g.lastIssue, checking := i.g.checking
        sb := i.g.sb } := rfl
    rw [h2, hf i.g]
  · intro n hn
    rw [hlane]
    have h1 : laneIn s i.t.ref i.g.id n = mapGet i.g.lanes n := by simp [laneIn, hgi]
    rw [h1]
    cases mapGet i.g.lanes n with
    | none => rfl
    | some l => simp [issueLane, hn]
  · intro n l hn hl
    have h2 : mapGet i.g.lanes n = some l := hl
    refine ⟨_, by rw [hlane, h2]; rfl, ?_⟩
    unfold issueLane
    rw [hn, mapGet_doneOuts i res n l hl]
    have hpush : ∀ (x : Lane) (e : Latch), LaneKept x (pushLatch x e) := by
      intro x e
      have h3 := pushLatch_keeps x e
      unfold LaneKept
      generalize pushLatch x e = y at h3
      have h4 : { y with
          pc := x.pc, v := x.v, p := x.p, win := x.win, flags := x.flags, sr := x.sr, skipTrap := x.skipTrap, skipBreak := x.skipBreak
          replay := x.replay, completed := x.completed } =
        { ({ y with v := x.v, p := x.p, win := x.win } : Lane) with
          pc := x.pc, flags := x.flags, sr := x.sr, skipTrap := x.skipTrap, skipBreak := x.skipBreak
          replay := x.replay, completed := x.completed } := rfl
      rw [h4, h3]
    cases hon : hasLane i.on n with
    | false => exact hpush l _
    | true =>
      simp only [if_true, Bool.not_true, Bool.false_eq_true, if_false]
      split
      · have h5 : ∀ (x : Lane), LaneKept l x → ∀ e, LaneKept l (pushLatch x e) := by
          intro x hx e
          have h6 := hpush x e
          unfold LaneKept at hx h6 ⊢
          generalize pushLatch x e = y at h6
          have h7 : { y with
              pc := l.pc, v := l.v, p := l.p, win := l.win, flags := l.flags, sr := l.sr, skipTrap := l.skipTrap
              skipBreak := l.skipBreak, replay := l.replay, completed := l.completed } =
            { ({ y with
                pc := x.pc, v := x.v, p := x.p, win := x.win, flags := x.flags, sr := x.sr, skipTrap := x.skipTrap
                skipBreak := x.skipBreak, replay := x.replay, completed := x.completed } : Lane) with
              pc := l.pc, v := l.v, p := l.p, win := l.win, flags := l.flags, sr := l.sr, skipTrap := l.skipTrap
              skipBreak := l.skipBreak, replay := l.replay, completed := l.completed } := rfl
          rw [h7, h6, hx]
        have h8 : LaneKept l (advanceSr i.f (raise l (res n l).flags) (res n l).rounds) := by
          unfold advanceSr
          split <;> rfl
        exact h5 _ h8 _
      · rfl

/-! ## The shared runs -/

theorem withIssue_clean {s : State} {o : Op} {f : Form} {i : Issue} (h : issueOf s o f = some i) (hw : i.wholeFault = none)
    (k : Issue → State) : withIssue o f s k = .next (k i) := by
  unfold withIssue
  rw [h]
  simp [hw]

theorem pureOuts_clean (la : Launch) (i : Issue) (hx : ∀ p ∈ i.active, i.indexBad p.2 = false) (fn : Nat → Lane → Srcs → FRes) :
    pureOuts la i (fun n l x => .done (fn n l x)) = doneOuts i (fun n l => fn n l (i.srcs la n l)) := by
  unfold pureOuts doneOuts
  apply List.map_congr_left
  intro p hp
  simp [laneOut, hx p hp]

/-- AN INSTRUCTION THAT COMPUTES completes in every clean issue that raises no enabled flag: it delivers its results and its frame holds. -/
theorem runAlu_clean {s : State} {o : Op} {f : Form} {i : Issue} (h : Clean s o f i) (fn : Issue → Nat → Lane → Srcs → FRes)
    (ht : NoTraps i (fun n l => fn i n l (i.srcs (launchOf s i.t) n l))) :
    ∃ t, runAlu o f s fn = .next t ∧
      DeliversF s t i (fun n l x => BitVec.ofNat 128 (fn i n l x).bits) (fun n l x => (fn i n l x).flags) ∧ ComputeFrame s t i := by
  refine ⟨finishIssue s i (doneOuts i (fun n l => fn i n l (i.srcs (launchOf s i.t) n l))), ?_, ?_, ?_⟩
  · unfold runAlu runLanes
    rw [withIssue_clean h.issue h.whole, pureOuts_clean _ _ h.index]
  · intro n l hl hm
    exact finishIssue_delivers s i _ (issueOf_groupIn h.issue) ht n l hl hm
  · obtain ⟨h1, h2, _, _⟩ := issueOf_group h.issue
    exact finishIssue_frame s i _ h1 h2 ht

/-- Results without flags raise no enabled flag. -/
theorem noTraps_of_noFlags (i : Issue) (res : Nat → Lane → FRes) (h : ∀ n l, (res n l).flags = 0#5) : NoTraps i res :=
  fun p _ l _ => by simp [h, trapped_noFlags]

/-- A team that enables no flag takes no trap. -/
theorem noTraps_of_quiet {s : State} {o : Op} {f : Form} {i : Issue} (h : Quiet s o f i) (res : Nat → Lane → FRes) : NoTraps i res :=
  fun p _ l _ => by simp [h.noTrap, trapped_zero]

end Sys2Proof.Machine
end

