-- ==== Sys2Proof/Laws/Memory.lean ====
section
/-! SUPPORT. What the operations over memory do: HBM under its keys, slices, and the canonical form that every one of them keeps. -/
namespace Sys2Proof.Machine

/-! ## The canonical form -/

theorem risesAbove_filter {α : Type} [DecidableEq α] (d : α) (m : List (Nat × α)) (q : Nat × α → Bool) (k : Nat) (h : risesAbove k m = true)
    (hw : mapWf d m = true) : risesAbove k (m.filter q) = true := by
  induction m with
  | nil => rfl
  | cons p r ih =>
    rw [mapWf_cons] at hw
    simp only [Bool.and_eq_true, decide_eq_true_eq] at hw
    rw [List.filter_cons]
    split
    · simpa [risesAbove] using h
    · refine ih (risesAbove_trans r k p.1 hw.1.2 ?_) hw.2
      simp [risesAbove] at h; omega

/-- A part of a memory in canonical form is in canonical form. -/
theorem mapWf_filter {α : Type} [DecidableEq α] (d : α) (m : List (Nat × α)) (q : Nat × α → Bool) (h : mapWf d m = true) :
    mapWf d (m.filter q) = true := by
  induction m with
  | nil => rfl
  | cons p r ih =>
    rw [mapWf_cons] at h
    simp only [Bool.and_eq_true, decide_eq_true_eq] at h
    rw [List.filter_cons]
    split
    · rw [mapWf_cons]
      simp [h.1.1, ih h.2, risesAbove_filter d r q p.1 h.1.2 h.2]
    · exact ih h.2

/-- Clearing a range keeps the canonical form. -/
theorem clearRange_wf (m : List Host.Cell) (lo n : Nat) (h : Memory.wf m = true) : Memory.wf (clearRange m lo n) = true :=
  mapWf_filter unlistedByte m _ h

theorem rekeyBytes_wf (s : State) (m : List Host.Cell) (owner pa n : Nat) (h : Memory.wf m = true) :
    Memory.wf (rekeyBytes s m owner pa n) = true := by
  induction n generalizing m pa with
  | zero => exact h
  | succ n ih => exact ih _ _ (writeByte_wf m pa _ h)

theorem ownLine_wf (s : State) (owner pa : Nat) (h : Memory.wf s.mem = true) : Memory.wf (ownLine s owner pa).mem = true := by
  unfold ownLine
  split
  · exact h
  · split
    · exact h
    · exact rekeyBytes_wf s s.mem owner _ 64 h

theorem hbmWriteByte_wf (s : State) (owner pa : Nat) (x : Byte) (h : Memory.wf s.mem = true) :
    Memory.wf (hbmWriteByte s owner pa x).mem = true :=
  writeByte_wf _ _ _ (ownLine_wf s owner pa h)

/-- A write to HBM keeps the canonical form. -/
theorem hbmWrite_wf (s : State) (owner pa : Nat) (bs : List Byte) (h : Memory.wf s.mem = true) :
    Memory.wf (hbmWrite s owner pa bs).mem = true := by
  induction bs generalizing s pa with
  | nil => exact h
  | cons b r ih => exact ih _ _ (hbmWriteByte_wf s owner pa b h)

/-- The memory after reset has the canonical form. -/
theorem reset_memory_wf : Memory.wf State.reset.mem = true := rfl

/-- The whole device after reset has the canonical form. -/
theorem reset_canonical : Canonical State.reset := ⟨rfl, fun _ h => by cases h⟩

theorem mem_mapPut {α : Type} (m : List (Nat × α)) (k : Nat) (x : α) (p : Nat × α) (h : p ∈ mapPut m k x) : p = (k, x) ∨ p ∈ m := by
  induction m with
  | nil => exact .inl (by simpa [mapPut] using h)
  | cons q r ih =>
    simp only [mapPut] at h
    split at h
    · rcases List.mem_cons.1 h with h | h
      · exact .inl h
      · exact .inr (List.mem_cons_of_mem _ h)
    · split at h
      · rcases List.mem_cons.1 h with h | h
        · exact .inl h
        · exact .inr h
      · rcases List.mem_cons.1 h with h | h
        · exact .inr (h ▸ List.mem_cons_self)
        · rcases ih h with h | h
          · exact .inl h
          · exact .inr (List.mem_cons_of_mem _ h)

theorem mem_of_mapGet {α : Type} (m : List (Nat × α)) (k : Nat) (x : α) (h : mapGet m k = some x) : (k, x) ∈ m := by
  induction m with
  | nil => cases h
  | cons p r ih =>
    simp only [mapGet] at h
    split at h
    · rename_i h1
      cases h
      exact h1 ▸ List.mem_cons_self
    · split at h
      · cases h
      · exact List.mem_cons_of_mem _ (ih h)

/-- The slice of every core is canonical, listed or not. -/
theorem Canonical.slice {s : State} (h : Canonical s) (c : Nat) : Memory.wf (coreAt s c).sram = true := by
  unfold coreAt
  cases hc : mapGet s.cores c with
  | none => rfl
  | some k => exact h.2 _ (mem_of_mapGet _ _ _ hc)

/-- A core changed so that its slice stays canonical leaves the device canonical. -/
theorem Canonical.updCore {s : State} (h : Canonical s) (c : Nat) (f : Core → Core)
    (hf : Memory.wf (f (coreAt s c)).sram = true) : Canonical (Machine.updCore s c f) := by
  refine ⟨h.1, fun p hp => ?_⟩
  rcases mem_mapPut _ _ _ _ hp with rfl | hp
  · exact hf
  · exact h.2 p hp

/-- A store to a slice keeps the canonical form. -/
theorem Canonical.sramStore {s : State} (h : Canonical s) (c o : Nat) (bs : List Byte) : Canonical (Machine.sramStore s c o bs) := by
  have h1 := h.updCore c (fun k => { k with sram := writeBytes k.sram o bs }) (writeBytes_wf _ _ _ (h.slice c))
  exact ⟨h1.1, h1.2⟩

theorem ownLine_keeps (s : State) (owner pa : Nat) : { ownLine s owner pa with mem := s.mem, lineKeys := s.lineKeys } = s := by
  unfold ownLine
  split
  · rfl
  · split <;> rfl

theorem hbmWriteByte_keeps (s : State) (owner pa : Nat) (x : Byte) :
    { hbmWriteByte s owner pa x with mem := s.mem, lineKeys := s.lineKeys } = s := ownLine_keeps s owner pa

/-- A write to HBM changes memory and its keys, nothing else. -/
theorem hbmWrite_keeps (s : State) (owner pa : Nat) (bs : List Byte) :
    { hbmWrite s owner pa bs with mem := s.mem, lineKeys := s.lineKeys } = s := by
  induction bs generalizing s pa with
  | nil => rfl
  | cons b r ih =>
    have h1 := ih (hbmWriteByte s owner pa b) (pa + 1)
    have h2 := hbmWriteByte_keeps s owner pa b
    exact (congrArg (fun x : State => { x with mem := s.mem, lineKeys := s.lineKeys }) h1).trans h2

/-- A write to HBM keeps the device canonical. -/
theorem Canonical.hbmWrite {s : State} (h : Canonical s) (owner pa : Nat) (bs : List Byte) : Canonical (Machine.hbmWrite s owner pa bs) := by
  refine ⟨hbmWrite_wf s owner pa bs h.1, ?_⟩
  have hk : (Machine.hbmWrite s owner pa bs).cores = s.cores := by
    have h1 := congrArg State.cores (hbmWrite_keeps s owner pa bs)
    exact h1
  rw [hk]; exact h.2

/-! ## Bytes of HBM (24 R380) -/

theorem readByte_rekeyBytes (s : State) (m : List Host.Cell) (owner pa n b : Nat) :
    readByte (rekeyBytes s m owner pa n) b = if pa ≤ b ∧ b < pa + n then hbmByte s owner b else readByte m b := by
  induction n generalizing m pa with
  | zero => rw [if_neg (by omega)]; rfl
  | succ n ih =>
    rw [rekeyBytes, ih, readByte_writeByte]
    by_cases h1 : pa + 1 ≤ b ∧ b < pa + 1 + n
    · rw [if_pos h1, if_pos (by omega)]
    · by_cases h2 : b = pa
      · rw [if_neg h1, if_pos h2, if_pos (by omega), h2]
      · rw [if_neg h1, if_neg h2, if_neg (by omega)]

/-- Taking a line over leaves every byte as its owner reads it. -/
theorem hbmByte_ownLine (s : State) (owner pa b : Nat) : hbmByte (ownLine s owner pa) owner b = hbmByte s owner b := by
  unfold ownLine
  cases hk : lineKey s pa with
  | none =>
    have hp : mapGet s.lineKeys (pa / 64) = none := hk
    simp only [hbmByte, lineKey]
    rw [mapGet_mapPut]
    by_cases h1 : b / 64 = pa / 64
    · simp [h1, hp]
    · simp [h1]
  | some k =>
    by_cases h0 : k = owner
    · simp [h0]
    · simp only [h0, if_false]
      have hp : mapGet s.lineKeys (pa / 64) = some k := hk
      have e (x : Nat) : hbmByte { s with mem := rekeyBytes s s.mem owner (pa / 64 * 64) 64, lineKeys := mapPut s.lineKeys (pa / 64) owner } owner x
          = (match mapGet (mapPut s.lineKeys (pa / 64) owner) (x / 64) with
            | none => readByte (rekeyBytes s s.mem owner (pa / 64 * 64) 64) x
            | some j => if j = owner then readByte (rekeyBytes s s.mem owner (pa / 64 * 64) 64) x else Config.foreignByte x) := rfl
      rw [e, mapGet_mapPut]
      by_cases h1 : b / 64 = pa / 64
      · have h2 : pa / 64 * 64 ≤ b ∧ b < pa / 64 * 64 + 64 := by omega
        simp only [h1, if_true, readByte_rekeyBytes, h2, and_self, if_true]
      · have h2 : ¬ (pa / 64 * 64 ≤ b ∧ b < pa / 64 * 64 + 64) := by omega
        simp only [h1, if_false, readByte_rekeyBytes, h2]
        rfl

theorem lineKey_ownLine (s : State) (owner pa : Nat) : lineKey (ownLine s owner pa) pa = some owner := by
  unfold ownLine
  cases hk : lineKey s pa with
  | none => simp [lineKey, mapGet_mapPut]
  | some k =>
    by_cases h0 : k = owner
    · simp [h0, hk]
    · simp [h0, lineKey, mapGet_mapPut]

/-- A byte written is the byte its owner reads; every other byte reads as before under the owner's key. -/
theorem hbmByte_hbmWriteByte (s : State) (owner pa b : Nat) (x : Byte) :
    hbmByte (hbmWriteByte s owner pa x) owner b = if b = pa then x else hbmByte s owner b := by
  have e : hbmByte (hbmWriteByte s owner pa x) owner b =
      (match lineKey (ownLine s owner pa) b with
        | none => readByte (writeByte (ownLine s owner pa).mem pa x) b
        | some j => if j = owner then readByte (writeByte (ownLine s owner pa).mem pa x) b else Config.foreignByte b) := rfl
  have e2 : hbmByte (ownLine s owner pa) owner b =
      (match lineKey (ownLine s owner pa) b with
        | none => readByte (ownLine s owner pa).mem b
        | some j => if j = owner then readByte (ownLine s owner pa).mem b else Config.foreignByte b) := rfl
  rw [e, readByte_writeByte]
  by_cases h1 : b = pa
  · subst h1; simp [lineKey_ownLine]
  · rw [if_neg h1, if_neg h1, ← hbmByte_ownLine s owner pa b, e2]

/-- Bytes written to HBM read back under their owner's key, and every other byte reads as before under it. -/
theorem hbmByte_hbmWrite (s : State) (owner pa : Nat) (bs : List Byte) (b : Nat) :
    hbmByte (hbmWrite s owner pa bs) owner b = if pa ≤ b ∧ b < pa + bs.length then bs[b - pa]?.getD 0#8 else hbmByte s owner b := by
  induction bs generalizing s pa with
  | nil => rw [if_neg (by simp)]; rfl
  | cons x r ih =>
    rw [hbmWrite, ih, hbmByte_hbmWriteByte, List.length_cons]
    by_cases h1 : pa + 1 ≤ b ∧ b < pa + 1 + r.length
    · have h3 : b - pa = (b - (pa + 1)) + 1 := by omega
      rw [if_pos h1, if_pos (by omega), h3]; rfl
    · by_cases h2 : b = pa
      · subst h2
        rw [if_neg h1, if_pos rfl, if_pos (by omega)]
        simp
      · rw [if_neg h1, if_neg h2, if_neg (by omega)]

/-- A write to HBM puts its number's bytes in place. -/
theorem wroteHbm_hbmWrite (s : State) (owner pa n v : Nat) : WroteHbm s (hbmWrite s owner pa (natBytes v n)) owner pa n v := by
  have hb (n v k : Nat) (hk : k < n) : (natBytes v n)[k]?.getD 0#8 = BitVec.ofNat 8 (v / 2 ^ (8 * k)) := by
    induction n generalizing v k with
    | zero => omega
    | succ n ih =>
      cases k with
      | zero =>
        apply BitVec.eq_of_toNat_eq
        simp [natBytes]
      | succ k =>
        have h := ih (v / 256) k (by omega)
        have h8 : v / 256 / 2 ^ (8 * k) = v / 2 ^ (8 * (k + 1)) := by
          rw [Nat.div_div_eq_div_mul, Nat.mul_succ, Nat.add_comm, Nat.pow_add]
        simpa [natBytes, h8] using h
  refine ⟨fun k hk => ?_, fun a ha => ?_⟩
  · rw [hbmByte_hbmWrite, natBytes_length, if_pos (by omega), show pa + k - pa = k by omega, hb n v k hk]
  · rw [hbmByte_hbmWrite, natBytes_length, if_neg (by omega)]

/-! ## Slices -/

/-- Bytes stored to a slice read back, and every other byte of every slice is left alone. -/
theorem readByte_sramStore (s : State) (c o : Nat) (bs : List Byte) (c' a : Nat) :
    readByte (coreAt (sramStore s c o bs) c').sram a =
      if c' = c ∧ o ≤ a ∧ a < o + bs.length then bs[a - o]?.getD 0#8 else readByte (coreAt s c').sram a := by
  have e : coreAt (sramStore s c o bs) c' = coreAt (updCore s c (fun k => { k with sram := writeBytes k.sram o bs })) c' := rfl
  rw [e, coreAt_updCore]
  by_cases h : c' = c
  · subst h
    simp only [if_true, readByte_writeBytes, true_and]
    rfl
  · simp [h]

/-- A store to a slice changes its core, and the lanes and programs of teams that it wakes. -/
theorem sramStore_keeps (s : State) (c o : Nat) (bs : List Byte) : { sramStore s c o bs with teams := s.teams, cores := s.cores } = s := rfl

end Sys2Proof.Machine
end

