-- ==== Sys2Proof/Laws/Exceptions.lean ====
section
/-! SUPPORT. What taking an exception and resolving a record may change, said once for each operation of 20 R314 to R319, and that each keeps
the canonical form. -/
namespace Sys2Proof.Machine

/-- What an exception may change besides teams, cores and launches: the fault queue, the hold-set count, and the bytes of the ring. -/
def FaultFrame (s t : State) : Prop :=
  { t with
    teams := s.teams, cores := s.cores, launches := s.launches, faultQ := s.faultQ, faultNext := s.faultNext, faultWait := s.faultWait
    holdSets := s.holdSets, mem := s.mem, lineKeys := s.lineKeys } = s

theorem FaultFrame.refl (s : State) : FaultFrame s s := rfl

theorem FaultFrame.trans {s t u : State} (h1 : FaultFrame s t) (h2 : FaultFrame t u) : FaultFrame s u := by
  have h3 := congrArg (fun x : State =>
    { x with
      teams := s.teams, cores := s.cores, launches := s.launches, faultQ := s.faultQ, faultNext := s.faultNext, faultWait := s.faultWait
      holdSets := s.holdSets, mem := s.mem, lineKeys := s.lineKeys }) h2
  exact h3.trans h1

/-- The fields a frame allows, changed. -/
theorem FaultFrame.upd {s u : State} (h : FaultFrame s u) (teams : List Team) (cores : List (Nat × Core)) (launches : List (Nat × Launch))
    (faultQ : List FaultRec) (faultNext : Nat) (faultWait : List FaultRec) (holdSets : Nat) (mem : List Host.Cell)
    (lineKeys : List (Nat × Nat)) :
    FaultFrame s { u with
      teams := teams, cores := cores, launches := launches, faultQ := faultQ, faultNext := faultNext, faultWait := faultWait
      holdSets := holdSets, mem := mem, lineKeys := lineKeys } := h

/-- A step that keeps all but what a frame allows, folded over a list. -/
theorem FaultFrame.foldl {α : Type} (f : State → α → State) (hf : ∀ s x, FaultFrame s (f s x)) (l : List α) (s : State) :
    FaultFrame s (l.foldl f s) := by
  induction l generalizing s with
  | nil => exact .refl s
  | cons x r ih => exact (hf s x).trans (ih _)

theorem hbmWrite_frame (s : State) (owner pa : Nat) (bs : List Byte) : FaultFrame s (hbmWrite s owner pa bs) := by
  have h3 := congrArg (fun x : State =>
    { x with
      teams := s.teams, cores := s.cores, launches := s.launches, faultQ := s.faultQ, faultNext := s.faultNext, faultWait := s.faultWait
      holdSets := s.holdSets, mem := s.mem, lineKeys := s.lineKeys }) (hbmWrite_keeps s owner pa bs)
  exact h3

theorem hbmWrite_faultNext (s : State) (owner pa : Nat) (bs : List Byte) : (hbmWrite s owner pa bs).faultNext = s.faultNext := by
  have h := congrArg State.faultNext (hbmWrite_keeps s owner pa bs)
  exact h

theorem hbmWrite_faultQ (s : State) (owner pa : Nat) (bs : List Byte) : (hbmWrite s owner pa bs).faultQ = s.faultQ := by
  have h := congrArg State.faultQ (hbmWrite_keeps s owner pa bs)
  exact h

/-- A record put in the queue takes the next sequence number, and stands last (20 R314). -/
theorem putRecord_queue (s : State) (r : FaultRec) :
    (putRecord s r).faultNext = s.faultNext + 1 ∧ { r with seq := s.faultNext, time := s.time } ∈ (putRecord s r).faultQ := by
  unfold putRecord
  dsimp only
  split
  · rw [hbmWrite_faultNext, hbmWrite_faultQ]
    exact ⟨rfl, List.mem_append_right _ List.mem_cons_self⟩
  · exact ⟨rfl, List.mem_append_right _ List.mem_cons_self⟩

theorem putRecord_frame (s : State) (r : FaultRec) : FaultFrame s (putRecord s r) := by
  unfold putRecord
  dsimp only
  split
  · exact ((FaultFrame.refl s).upd _ _ _ _ _ _ _ _ _).trans (hbmWrite_frame _ _ _ _)
  · exact (FaultFrame.refl s).upd _ _ _ _ _ _ _ _ _

theorem postRecord_frame (s : State) (r : FaultRec) : FaultFrame s (postRecord s r) := by
  unfold postRecord
  split
  · exact putRecord_frame s _
  · exact (FaultFrame.refl s).upd _ _ _ _ _ _ _ _ _

theorem updLaunch_frame (s : State) (n : Nat) (f : Launch → Launch) : FaultFrame s (updLaunch s n f) := by
  unfold updLaunch
  split
  · exact .refl s
  · exact (FaultFrame.refl s).upd _ _ _ _ _ _ _ _ _

theorem updCore_frame (s : State) (c : Nat) (f : Core → Core) : FaultFrame s (updCore s c f) :=
  (FaultFrame.refl s).upd _ _ _ _ _ _ _ _ _

theorem updGroup_frame (s : State) (r : TeamRef) (n : Nat) (f : Group → Group) : FaultFrame s (updGroup s r n f) :=
  (FaultFrame.refl s).upd _ _ _ _ _ _ _ _ _

/-- Ending a team changes teams, engine queues and the launch. -/
theorem endTeam_frame (s : State) (r : TeamRef) (c : Code) (seq : Nat) : FaultFrame s (endTeam s r c seq) := by
  unfold endTeam
  dsimp only
  refine FaultFrame.trans (FaultFrame.trans ?_ (updLaunch_frame _ _ _)) (updLaunch_frame _ _ _)
  exact ((FaultFrame.refl s).upd _ _ _ _ _ _ _ _ _).trans (FaultFrame.foldl _ (fun s t => updCore_frame s _ _) _ _)

theorem joinFpx_frame (s : State) (t : Team) (g : Group) (pc : Pc) (cm : Mask) (fs : List LaneFault) :
    FaultFrame s (joinFpx s t g pc cm fs) := by
  cases fs with
  | nil => exact .refl s
  | cons f r =>
    unfold joinFpx
    dsimp only
    exact (((FaultFrame.refl s).upd _ _ _ _ _ _ _ _ _).trans (updCore_frame _ _ _)).trans (updGroup_frame _ _ _ _)

/-- TAKING AN EXCEPTION changes lanes, records, the FPX window, and what ending a team changes; nothing else of the device. -/
theorem takeFaults_frame (s : State) (t : Team) (g : Group) (pc : Pc) (m cm : Mask) (fs : List LaneFault) :
    FaultFrame s (takeFaults s t g pc m cm fs) := by
  unfold takeFaults
  dsimp only
  have h4 (n : Nat) (f : Group → Group) (rs : List FaultRec) :
      FaultFrame s (joinFpx (rs.foldl postRecord (updGroup { s with holdSets := n } t.ref g.id f)) t g pc cm (fs.filter (fun f => f.code == cFpx))) :=
    ((((FaultFrame.refl s).upd _ _ _ _ _ _ _ _ _).trans (updGroup_frame _ _ _ _)).trans (FaultFrame.foldl _ postRecord_frame rs _)).trans
      (joinFpx_frame _ _ _ _ _ _)
  split
  · exact h4 _ _ _
  · exact (h4 _ _ _).trans (endTeam_frame _ _ _ _)

theorem takeWhole_frame (s : State) (t : Team) (g : Group) (pc : Pc) (m : Mask) (code : Code) (kind : Nat) (addr : BitVec 57) :
    FaultFrame s (takeWhole s t g pc m code kind addr) := takeFaults_frame _ _ _ _ _ _ _

theorem takeProgFault_frame (s : State) (t : Team) (x : XProg) (xpc : Nat) (code cause : Code) (addr : BitVec 57) :
    FaultFrame s (takeProgFault s t x xpc code cause addr) := by
  unfold takeProgFault
  exact (((FaultFrame.refl s).upd _ _ _ _ _ _ _ _ _).trans (postRecord_frame _ _)).trans (endTeam_frame _ _ _ _)

theorem holdProg_frame (s : State) (t : Team) (x : XProg) (code : Code) (addr : BitVec 57) : FaultFrame s (holdProg s t x code addr) := by
  unfold holdProg
  exact (((FaultFrame.refl s).upd _ _ _ _ _ _ _ _ _).trans (postRecord_frame _ _)).upd _ _ _ _ _ _ _ _ _

theorem releaseSet_frame (s : State) (set : Nat) : FaultFrame s (releaseSet s set) :=
  (FaultFrame.refl s).upd _ _ _ _ _ _ _ _ _

/-- RETURN FROM AN EXCEPTION changes the record, the lanes, programs and operations it releases, or the team it ends; nothing else. -/
theorem resolveRecord_frame (s : State) (core seq : Nat) (kill : Bool) : FaultFrame s (resolveRecord s core seq kill) := by
  have h1 (q : List FaultRec) : FaultFrame s { s with faultQ := q } := (FaultFrame.refl s).upd _ _ _ _ _ _ _ _ _
  unfold resolveRecord
  dsimp only
  repeat' split
  all_goals first
    | exact .refl s
    | exact h1 _
    | exact (h1 _).trans (releaseSet_frame _ _)
    | exact (h1 _).trans (endTeam_frame _ _ _ _)
    | exact (h1 _).trans (FaultFrame.foldl _ (fun s t => endTeam_frame s t _ _) _ _)

/-- A number that names no outstanding record of the core is ignored (19 R308). -/
theorem resolveRecord_none (s : State) (core seq : Nat) (kill : Bool)
    (h : ∀ r ∈ s.faultQ, r.seq = seq → r.core = core → r.resolved = true) : resolveRecord s core seq kill = s := by
  unfold resolveRecord
  have hn : s.faultQ.find? (fun r => r.seq == seq && r.core == core && !r.resolved) = none := by
    rw [List.find?_eq_none]
    intro r hr hq
    simp only [Bool.and_eq_true, beq_iff_eq, Bool.not_eq_true'] at hq
    rw [h r hr hq.1.1 hq.1.2] at hq
    cases hq.2
  rw [hn]

/-! ## The canonical form -/

/-- Changing nothing but fields that hold no bytes keeps the canonical form. -/
theorem Canonical.of_same {s t : State} (h : Canonical s) (hm : t.mem = s.mem) (hc : t.cores = s.cores) : Canonical t :=
  ⟨hm ▸ h.1, hc ▸ h.2⟩

theorem Canonical.foldl {α : Type} (f : State → α → State) (hf : ∀ s x, Canonical s → Canonical (f s x)) (l : List α) {s : State}
    (h : Canonical s) : Canonical (l.foldl f s) := by
  induction l generalizing s with
  | nil => exact h
  | cons x r ih => exact ih (hf s x h)

theorem Canonical.putRecord {s : State} (h : Canonical s) (r : FaultRec) : Canonical (Machine.putRecord s r) := by
  unfold Machine.putRecord
  split
  · exact Canonical.hbmWrite (s := { s with
      faultQ := s.faultQ.filter (fun q => !(q.seq + 1024 == s.faultNext)) ++ [{ r with seq := s.faultNext, time := s.time }]
      faultNext := s.faultNext + 1 }) ⟨h.1, h.2⟩ _ _ _
  · exact ⟨h.1, h.2⟩

theorem Canonical.postRecord {s : State} (h : Canonical s) (r : FaultRec) : Canonical (Machine.postRecord s r) := by
  unfold Machine.postRecord
  split
  · exact h.putRecord _
  · exact ⟨h.1, h.2⟩

theorem Canonical.updLaunch {s : State} (h : Canonical s) (n : Nat) (f : Launch → Launch) : Canonical (Machine.updLaunch s n f) := by
  unfold Machine.updLaunch
  split
  · exact h
  · exact ⟨h.1, h.2⟩

theorem Canonical.endTeam {s : State} (h : Canonical s) (r : TeamRef) (c : Code) (seq : Nat) : Canonical (Machine.endTeam s r c seq) := by
  unfold Machine.endTeam
  refine Canonical.updLaunch (Canonical.updLaunch (Canonical.foldl _ (fun s t hs => hs.updCore _ _ (hs.slice _)) _ ?_) _ _) _ _
  exact ⟨h.1, h.2⟩

theorem Canonical.counted {s : State} (h : Canonical s) (n : Nat) : Canonical { s with holdSets := n } := ⟨h.1, h.2⟩

theorem Canonical.updGroup {s : State} (h : Canonical s) (r : TeamRef) (n : Nat) (f : Group → Group) :
    Canonical (Machine.updGroup s r n f) := ⟨h.1, h.2⟩

/-- A core changed in fields that hold no bytes of its slice leaves the device canonical. -/
theorem Canonical.updCoreSame {s : State} (h : Canonical s) (c : Nat) (f : Core → Core) (hf : (f (coreAt s c)).sram = (coreAt s c).sram) :
    Canonical (Machine.updCore s c f) := h.updCore c f (hf ▸ h.slice c)

theorem Canonical.joinFpx {s : State} (h : Canonical s) (t : Team) (g : Group) (pc : Pc) (cm : Mask) (fs : List LaneFault) :
    Canonical (Machine.joinFpx s t g pc cm fs) := by
  cases fs with
  | nil => exact h
  | cons f r =>
    unfold Machine.joinFpx
    dsimp only
    exact (((h.counted _).updCoreSame _ _ rfl)).updGroup _ _ _

/-- Taking an exception keeps the canonical form. -/
theorem Canonical.takeFaults {s : State} (h : Canonical s) (t : Team) (g : Group) (pc : Pc) (m cm : Mask) (fs : List LaneFault) :
    Canonical (Machine.takeFaults s t g pc m cm fs) := by
  unfold Machine.takeFaults
  dsimp only
  have h4 (n : Nat) (f : Group → Group) (rs : List FaultRec) :
      Canonical (Machine.joinFpx (rs.foldl Machine.postRecord (Machine.updGroup { s with holdSets := n } t.ref g.id f)) t g pc cm
        (fs.filter (fun f => f.code == cFpx))) :=
    (Canonical.foldl _ (fun s r hs => hs.postRecord r) rs ((h.counted n).updGroup _ _ f)).joinFpx t g pc cm _
  split
  · exact h4 _ _ _
  · exact (h4 _ _ _).endTeam _ _ _

end Sys2Proof.Machine
end

