-- ==== Sys2Proof/Laws/PerInstr.lean ====
section
/-! SUPPORT. What holds of every instruction as syntax, one lemma per constructor: a compute instruction is its operation with its form, and its
well-formedness and words are those of the form; UDF is one word, a transfer instruction one or two, an event none. -/
namespace Sys2Proof.Laws.Shape

/-- An instruction with a form is that form under its operation, and so are its check and its words; any other has at most two words. -/
def Statement (i : Instr) : Prop :=
  match i.opForm with
  | some q => i = Instr.ofOp q.1 q.2 ∧ i.wellFormed = q.2.wellFormed q.1 ∧ encode i = encodeForm (Machine.opCode q.1) q.2
  | none => (encode i).length ≤ 2

theorem iadd (f : Form) : Statement (.iadd f) := ⟨rfl, rfl, rfl⟩
theorem isub (f : Form) : Statement (.isub f) := ⟨rfl, rfl, rfl⟩
theorem imul (f : Form) : Statement (.imul f) := ⟨rfl, rfl, rfl⟩
theorem imad (f : Form) : Statement (.imad f) := ⟨rfl, rfl, rfl⟩
theorem imin (f : Form) : Statement (.imin f) := ⟨rfl, rfl, rfl⟩
theorem imax (f : Form) : Statement (.imax f) := ⟨rfl, rfl, rfl⟩
theorem iabs (f : Form) : Statement (.iabs f) := ⟨rfl, rfl, rfl⟩
theorem ineg (f : Form) : Statement (.ineg f) := ⟨rfl, rfl, rfl⟩
theorem and (f : Form) : Statement (.and f) := ⟨rfl, rfl, rfl⟩
theorem or (f : Form) : Statement (.or f) := ⟨rfl, rfl, rfl⟩
theorem xor (f : Form) : Statement (.xor f) := ⟨rfl, rfl, rfl⟩
theorem andn (f : Form) : Statement (.andn f) := ⟨rfl, rfl, rfl⟩
theorem not (f : Form) : Statement (.not f) := ⟨rfl, rfl, rfl⟩
theorem shl (f : Form) : Statement (.shl f) := ⟨rfl, rfl, rfl⟩
theorem shr (f : Form) : Statement (.shr f) := ⟨rfl, rfl, rfl⟩
theorem sar (f : Form) : Statement (.sar f) := ⟨rfl, rfl, rfl⟩
theorem rot (f : Form) : Statement (.rot f) := ⟨rfl, rfl, rfl⟩
theorem popc (f : Form) : Statement (.popc f) := ⟨rfl, rfl, rfl⟩
theorem clz (f : Form) : Statement (.clz f) := ⟨rfl, rfl, rfl⟩
theorem ctz (f : Form) : Statement (.ctz f) := ⟨rfl, rfl, rfl⟩
theorem brev (f : Form) : Statement (.brev f) := ⟨rfl, rfl, rfl⟩
theorem bfx (f : Form) : Statement (.bfx f) := ⟨rfl, rfl, rfl⟩
theorem bfi (f : Form) : Statement (.bfi f) := ⟨rfl, rfl, rfl⟩
theorem perm (f : Form) : Statement (.perm f) := ⟨rfl, rfl, rfl⟩
theorem sel (f : Form) : Statement (.sel f) := ⟨rfl, rfl, rfl⟩
theorem icmp (f : Form) : Statement (.icmp f) := ⟨rfl, rfl, rfl⟩
theorem lea (f : Form) : Statement (.lea f) := ⟨rfl, rfl, rfl⟩
theorem pand (f : Form) : Statement (.pand f) := ⟨rfl, rfl, rfl⟩
theorem por (f : Form) : Statement (.por f) := ⟨rfl, rfl, rfl⟩
theorem pxor (f : Form) : Statement (.pxor f) := ⟨rfl, rfl, rfl⟩
theorem pnot (f : Form) : Statement (.pnot f) := ⟨rfl, rfl, rfl⟩
theorem pmov (f : Form) : Statement (.pmov f) := ⟨rfl, rfl, rfl⟩
theorem awset (f : Form) : Statement (.awset f) := ⟨rfl, rfl, rfl⟩
theorem reggrow (f : Form) : Statement (.reggrow f) := ⟨rfl, rfl, rfl⟩
theorem regshrink (f : Form) : Statement (.regshrink f) := ⟨rfl, rfl, rfl⟩
theorem sadd (f : Form) : Statement (.sadd f) := ⟨rfl, rfl, rfl⟩
theorem ssub (f : Form) : Statement (.ssub f) := ⟨rfl, rfl, rfl⟩
theorem smul (f : Form) : Statement (.smul f) := ⟨rfl, rfl, rfl⟩
theorem sand (f : Form) : Statement (.sand f) := ⟨rfl, rfl, rfl⟩
theorem sor (f : Form) : Statement (.sor f) := ⟨rfl, rfl, rfl⟩
theorem sxor (f : Form) : Statement (.sxor f) := ⟨rfl, rfl, rfl⟩
theorem sshl (f : Form) : Statement (.sshl f) := ⟨rfl, rfl, rfl⟩
theorem sshr (f : Form) : Statement (.sshr f) := ⟨rfl, rfl, rfl⟩
theorem scmp (f : Form) : Statement (.scmp f) := ⟨rfl, rfl, rfl⟩
theorem smov (f : Form) : Statement (.smov f) := ⟨rfl, rfl, rfl⟩
theorem sld (f : Form) : Statement (.sld f) := ⟨rfl, rfl, rfl⟩
theorem bcast (f : Form) : Statement (.bcast f) := ⟨rfl, rfl, rfl⟩
theorem readlane (f : Form) : Statement (.readlane f) := ⟨rfl, rfl, rfl⟩
theorem br (f : Form) : Statement (.br f) := ⟨rfl, rfl, rfl⟩
theorem jmpDirect (f : Form) : Statement (.jmpDirect f) := ⟨rfl, rfl, rfl⟩
theorem jmpRegister (f : Form) : Statement (.jmpRegister f) := ⟨rfl, rfl, rfl⟩
theorem call (f : Form) : Statement (.call f) := ⟨rfl, rfl, rfl⟩
theorem calli (f : Form) : Statement (.calli f) := ⟨rfl, rfl, rfl⟩
theorem ret (f : Form) : Statement (.ret f) := ⟨rfl, rfl, rfl⟩
theorem exit (f : Form) : Statement (.exit f) := ⟨rfl, rfl, rfl⟩
theorem next (f : Form) : Statement (.next f) := ⟨rfl, rfl, rfl⟩
theorem park (f : Form) : Statement (.park f) := ⟨rfl, rfl, rfl⟩
theorem parkFull (f : Form) : Statement (.parkFull f) := ⟨rfl, rfl, rfl⟩
theorem yield (f : Form) : Statement (.yield f) := ⟨rfl, rfl, rfl⟩
theorem nop (f : Form) : Statement (.nop f) := ⟨rfl, rfl, rfl⟩
theorem udf (b a : BitVec 7) (k : Bool) (d : BitVec 7) (l : BitVec 2) : Statement (.udf b a k d l) := Nat.le_of_ble_eq_true rfl
theorem shfl (f : Form) : Statement (.shfl f) := ⟨rfl, rfl, rfl⟩
theorem vote (f : Form) : Statement (.vote f) := ⟨rfl, rfl, rfl⟩
theorem redux (f : Form) : Statement (.redux f) := ⟨rfl, rfl, rfl⟩
theorem scanx (f : Form) : Statement (.scanx f) := ⟨rfl, rfl, rfl⟩
theorem matchLanes (f : Form) : Statement (.matchLanes f) := ⟨rfl, rfl, rfl⟩
theorem elect (f : Form) : Statement (.elect f) := ⟨rfl, rfl, rfl⟩
theorem barsync (f : Form) : Statement (.barsync f) := ⟨rfl, rfl, rfl⟩
theorem barinit (f : Form) : Statement (.barinit f) := ⟨rfl, rfl, rfl⟩
theorem bararv (f : Form) : Statement (.bararv f) := ⟨rfl, rfl, rfl⟩
theorem barwait (f : Form) : Statement (.barwait f) := ⟨rfl, rfl, rfl⟩
theorem syncm (f : Form) : Statement (.syncm f) := ⟨rfl, rfl, rfl⟩
theorem csrr (f : Form) : Statement (.csrr f) := ⟨rfl, rfl, rfl⟩
theorem csrw (f : Form) : Statement (.csrw f) := ⟨rfl, rfl, rfl⟩
theorem syscall (f : Form) : Statement (.syscall f) := ⟨rfl, rfl, rfl⟩
theorem eret (f : Form) : Statement (.eret f) := ⟨rfl, rfl, rfl⟩
theorem trap (f : Form) : Statement (.trap f) := ⟨rfl, rfl, rfl⟩
theorem brk (f : Form) : Statement (.brk f) := ⟨rfl, rfl, rfl⟩
theorem fadd (f : Form) : Statement (.fadd f) := ⟨rfl, rfl, rfl⟩
theorem fsub (f : Form) : Statement (.fsub f) := ⟨rfl, rfl, rfl⟩
theorem fmul (f : Form) : Statement (.fmul f) := ⟨rfl, rfl, rfl⟩
theorem ffma (f : Form) : Statement (.ffma f) := ⟨rfl, rfl, rfl⟩
theorem fmin (f : Form) : Statement (.fmin f) := ⟨rfl, rfl, rfl⟩
theorem fmax (f : Form) : Statement (.fmax f) := ⟨rfl, rfl, rfl⟩
theorem fcmp (f : Form) : Statement (.fcmp f) := ⟨rfl, rfl, rfl⟩
theorem fclass (f : Form) : Statement (.fclass f) := ⟨rfl, rfl, rfl⟩
theorem frcp (f : Form) : Statement (.frcp f) := ⟨rfl, rfl, rfl⟩
theorem frsq (f : Form) : Statement (.frsq f) := ⟨rfl, rfl, rfl⟩
theorem fsqrt (f : Form) : Statement (.fsqrt f) := ⟨rfl, rfl, rfl⟩
theorem fexp2 (f : Form) : Statement (.fexp2 f) := ⟨rfl, rfl, rfl⟩
theorem flog2 (f : Form) : Statement (.flog2 f) := ⟨rfl, rfl, rfl⟩
theorem fsin (f : Form) : Statement (.fsin f) := ⟨rfl, rfl, rfl⟩
theorem fcos (f : Form) : Statement (.fcos f) := ⟨rfl, rfl, rfl⟩
theorem ftanh (f : Form) : Statement (.ftanh f) := ⟨rfl, rfl, rfl⟩
theorem dadd (f : Form) : Statement (.dadd f) := ⟨rfl, rfl, rfl⟩
theorem dmul (f : Form) : Statement (.dmul f) := ⟨rfl, rfl, rfl⟩
theorem dfma (f : Form) : Statement (.dfma f) := ⟨rfl, rfl, rfl⟩
theorem hadd2 (f : Form) : Statement (.hadd2 f) := ⟨rfl, rfl, rfl⟩
theorem hfma2 (f : Form) : Statement (.hfma2 f) := ⟨rfl, rfl, rfl⟩
theorem fcvt (f : Form) : Statement (.fcvt f) := ⟨rfl, rfl, rfl⟩
theorem f2i (f : Form) : Statement (.f2i f) := ⟨rfl, rfl, rfl⟩
theorem i2f (f : Form) : Statement (.i2f f) := ⟨rfl, rfl, rfl⟩
theorem qdot4 (f : Form) : Statement (.qdot4 f) := ⟨rfl, rfl, rfl⟩
theorem pack (f : Form) : Statement (.pack f) := ⟨rfl, rfl, rfl⟩
theorem unpack (f : Form) : Statement (.unpack f) := ⟨rfl, rfl, rfl⟩
theorem ld (f : Form) : Statement (.ld f) := ⟨rfl, rfl, rfl⟩
theorem st (f : Form) : Statement (.st f) := ⟨rfl, rfl, rfl⟩
theorem ldm (f : Form) : Statement (.ldm f) := ⟨rfl, rfl, rfl⟩
theorem stm (f : Form) : Statement (.stm f) := ⟨rfl, rfl, rfl⟩
theorem ldfe (f : Form) : Statement (.ldfe f) := ⟨rfl, rfl, rfl⟩
theorem stfe (f : Form) : Statement (.stfe f) := ⟨rfl, rfl, rfl⟩
theorem atom (f : Form) : Statement (.atom f) := ⟨rfl, rfl, rfl⟩
theorem red (f : Form) : Statement (.red f) := ⟨rfl, rfl, rfl⟩
theorem ldnt (f : Form) : Statement (.ldnt f) := ⟨rfl, rfl, rfl⟩
theorem stnt (f : Form) : Statement (.stnt f) := ⟨rfl, rfl, rfl⟩
theorem prefetch (f : Form) : Statement (.prefetch f) := ⟨rfl, rfl, rfl⟩
theorem cctl (f : Form) : Statement (.cctl f) := ⟨rfl, rfl, rfl⟩
theorem pld (f : Form) : Statement (.pld f) := ⟨rfl, rfl, rfl⟩
theorem fence (f : Form) : Statement (.fence f) := ⟨rfl, rfl, rfl⟩
theorem fenceR (f : Form) : Statement (.fenceR f) := ⟨rfl, rfl, rfl⟩
theorem ntdrain (f : Form) : Statement (.ntdrain f) := ⟨rfl, rfl, rfl⟩
theorem publish (f : Form) : Statement (.publish f) := ⟨rfl, rfl, rfl⟩
theorem ldgen (f : Form) : Statement (.ldgen f) := ⟨rfl, rfl, rfl⟩
theorem tdld (f : Form) : Statement (.tdld f) := ⟨rfl, rfl, rfl⟩
theorem tdst (f : Form) : Statement (.tdst f) := ⟨rfl, rfl, rfl⟩
theorem tdset (f : Form) : Statement (.tdset f) := ⟨rfl, rfl, rfl⟩
theorem mxgo (f : Form) : Statement (.mxgo f) := ⟨rfl, rfl, rfl⟩
theorem mxv (f : Form) : Statement (.mxv f) := ⟨rfl, rfl, rfl⟩
theorem accrd (f : Form) : Statement (.accrd f) := ⟨rfl, rfl, rfl⟩
theorem accwr (f : Form) : Statement (.accwr f) := ⟨rfl, rfl, rfl⟩
theorem acczero (f : Form) : Statement (.acczero f) := ⟨rfl, rfl, rfl⟩
theorem xstart (f : Form) : Statement (.xstart f) := ⟨rfl, rfl, rfl⟩
theorem xsig (f : Form) : Statement (.xsig f) := ⟨rfl, rfl, rfl⟩
theorem xstat (f : Form) : Statement (.xstat f) := ⟨rfl, rfl, rfl⟩
theorem worknext (f : Form) : Statement (.worknext f) := ⟨rfl, rfl, rfl⟩
theorem xadd (f : AForm) : Statement (.xadd f) := Nat.le_of_ble_eq_true rfl
theorem xsub (f : AForm) : Statement (.xsub f) := Nat.le_of_ble_eq_true rfl
theorem xmul (f : AForm) : Statement (.xmul f) := Nat.le_of_ble_eq_true rfl
theorem xand (f : AForm) : Statement (.xand f) := Nat.le_of_ble_eq_true rfl
theorem xior (f : AForm) : Statement (.xior f) := Nat.le_of_ble_eq_true rfl
theorem xxor (f : AForm) : Statement (.xxor f) := Nat.le_of_ble_eq_true rfl
theorem xshl (f : AForm) : Statement (.xshl f) := Nat.le_of_ble_eq_true rfl
theorem xshr (f : AForm) : Statement (.xshr f) := Nat.le_of_ble_eq_true rfl
theorem xsar (f : AForm) : Statement (.xsar f) := Nat.le_of_ble_eq_true rfl
theorem xmov (d : BitVec 4) (h : BitVec 2) (v : BitVec 16) : Statement (.xmov d h v) := Nat.le_of_ble_eq_true rfl
theorem xmovk (d : BitVec 4) (h : BitVec 2) (v : BitVec 16) : Statement (.xmovk d h v) := Nat.le_of_ble_eq_true rfl
theorem xsetk (n : BitVec 2) (i : Bool) (m : BitVec 23) : Statement (.xsetk n i m) := Nat.le_of_ble_eq_true rfl
theorem xrdk (d : BitVec 4) (n : BitVec 2) : Statement (.xrdk d n) := Nat.le_of_ble_eq_true rfl
theorem xld (f : MForm) : Statement (.xld f) := Nat.le_of_ble_eq_true rfl
theorem xst (f : MForm) : Statement (.xst f) := Nat.le_of_ble_eq_true rfl
theorem xldx (c b : BitVec 4) (w : BitVec 2) (sp : Bool) (x : BitVec 4) : Statement (.xldx c b w sp x) := Nat.le_of_ble_eq_true rfl
theorem xb (a b : BitVec 4) (cond : BitVec 3) (o : BitVec 11) : Statement (.xb a b cond o) := Nat.le_of_ble_eq_true rfl
theorem xloop (n : BitVec 2) (o : BitVec 11) : Statement (.xloop n o) := Nat.le_of_ble_eq_true rfl
theorem xswait (d : BitVec 4) (m : BitVec 16) : Statement (.xswait d m) := Nat.le_of_ble_eq_true rfl
theorem xpost (a : BitVec 4) : Statement (.xpost a) := Nat.le_of_ble_eq_true rfl
theorem xaddr (d : BitVec 4) (h : BitVec 6) (i : BitVec 4) (n : BitVec 3) : Statement (.xaddr d h i n) := Nat.le_of_ble_eq_true rfl
theorem xcopy (f : XForm) (g : CopyWord) : Statement (.xcopy f g) := Nat.le_of_ble_eq_true rfl
theorem xgath (f : XForm) (g : RowWord) : Statement (.xgath f g) := Nat.le_of_ble_eq_true rfl
theorem xscat (f : XForm) (g : RowWord) : Statement (.xscat f g) := Nat.le_of_ble_eq_true rfl
theorem xarv (f : VForm) : Statement (.xarv f) := Nat.le_of_ble_eq_true rfl
theorem xwait (f : VForm) : Statement (.xwait f) := Nat.le_of_ble_eq_true rfl
theorem xfe (b : BitVec 4) (o : BitVec 13) (g : BitVec 9) : Statement (.xfe b o g) := Nat.le_of_ble_eq_true rfl
theorem xpub (h : BitVec 6) (scope : BitVec 3) : Statement (.xpub h scope) := Nat.le_of_ble_eq_true rfl
theorem xfence (f : FenceForm) : Statement (.xfence f) := Nat.le_of_ble_eq_true rfl
theorem xend : Statement (.xend) := Nat.le_of_ble_eq_true rfl
theorem xtrap (code : BitVec 16) : Statement (.xtrap code) := Nat.le_of_ble_eq_true rfl
theorem xnop : Statement (.xnop) := Nat.le_of_ble_eq_true rfl
theorem spinExpiry (g : GroupRef) : Statement (.spinExpiry g) := Nat.le_of_ble_eq_true rfl
theorem breakpointHit (g : GroupRef) : Statement (.breakpointHit g) := Nat.le_of_ble_eq_true rfl
theorem maybeFaultCheckDone (g : GroupRef) : Statement (.maybeFaultCheckDone g) := Nat.le_of_ble_eq_true rfl
theorem faultRecordDeferred : Statement (.faultRecordDeferred) := Nat.le_of_ble_eq_true rfl
theorem fpxWindowClose (core launch : Nat) : Statement (.fpxWindowClose core launch) := Nat.le_of_ble_eq_true rfl
theorem loadResultReturn (g : GroupRef) (tag : Nat) : Statement (.loadResultReturn g tag) := Nat.le_of_ble_eq_true rfl
theorem overflowReadFill (g : GroupRef) (tag : Nat) : Statement (.overflowReadFill g tag) := Nat.le_of_ble_eq_true rfl
theorem accessPerformed (p : PartyRef) (n scope : Nat) : Statement (.accessPerformed p n scope) := Nat.le_of_ble_eq_true rfl
theorem fenceComplete (p : PartyRef) : Statement (.fenceComplete p) := Nat.le_of_ble_eq_true rfl
theorem ntdrainComplete (p : PartyRef) : Statement (.ntdrainComplete p) := Nat.le_of_ble_eq_true rfl
theorem publishSwap (p : PartyRef) : Statement (.publishSwap p) := Nat.le_of_ble_eq_true rfl
theorem promoteRequest (p : PartyRef) (n : Nat) : Statement (.promoteRequest p n) := Nat.le_of_ble_eq_true rfl
theorem promoteReply (p : PartyRef) (n : Nat) : Statement (.promoteReply p n) := Nat.le_of_ble_eq_true rfl
theorem reggrowGrant (core part : Nat) : Statement (.reggrowGrant core part) := Nat.le_of_ble_eq_true rfl
theorem registerReclaim (core part : Nat) : Statement (.registerReclaim core part) := Nat.le_of_ble_eq_true rfl
theorem engineOpStart (core : Nat) : Statement (.engineOpStart core) := Nat.le_of_ble_eq_true rfl
theorem engineStepCommit (core : Nat) : Statement (.engineStepCommit core) := Nat.le_of_ble_eq_true rfl
theorem bulkByteCredit (x : ProgRef) (op unit : Nat) : Statement (.bulkByteCredit x op unit) := Nat.le_of_ble_eq_true rfl
theorem transferLoadReturn (x : ProgRef) (c : Nat) : Statement (.transferLoadReturn x c) := Nat.le_of_ble_eq_true rfl
theorem xarvApply (x : ProgRef) : Statement (.xarvApply x) := Nat.le_of_ble_eq_true rfl
theorem teamRetire (t : TeamRef) : Statement (.teamRetire t) := Nat.le_of_ble_eq_true rfl
theorem launchComplete (launch : Nat) : Statement (.launchComplete launch) := Nat.le_of_ble_eq_true rfl
theorem placementDecision (herd winOff : Nat) : Statement (.placementDecision herd winOff) := Nat.le_of_ble_eq_true rfl
theorem headAgeExpiry : Statement (.headAgeExpiry) := Nat.le_of_ble_eq_true rfl
theorem stallVacate (launch : Nat) : Statement (.stallVacate launch) := Nat.le_of_ble_eq_true rfl
theorem spatialPreemption (launch : Nat) : Statement (.spatialPreemption launch) := Nat.le_of_ble_eq_true rfl
theorem vacateTeam (t : TeamRef) : Statement (.vacateTeam t) := Nat.le_of_ble_eq_true rfl
theorem contextWrite (t : TeamRef) : Statement (.contextWrite t) := Nat.le_of_ble_eq_true rfl
theorem contextRestore (launch key : Nat) (cores : List Nat) : Statement (.contextRestore launch key cores) := Nat.le_of_ble_eq_true rfl
theorem watchdogExpiry (t : TeamRef) : Statement (.watchdogExpiry t) := Nat.le_of_ble_eq_true rfl
theorem clusterFree (launch key : Nat) : Statement (.clusterFree launch key) := Nat.le_of_ble_eq_true rfl
theorem clusterRelaunch (launch key : Nat) : Statement (.clusterRelaunch launch key) := Nat.le_of_ble_eq_true rfl
theorem hotEpochEnd (core entry : Nat) : Statement (.hotEpochEnd core entry) := Nat.le_of_ble_eq_true rfl
theorem forageSearchDone (core entry : Nat) (cand : Option Candidate) : Statement (.forageSearchDone core entry cand) := Nat.le_of_ble_eq_true rfl
theorem tetherCompare (core place : Nat) : Statement (.tetherCompare core place) := Nat.le_of_ble_eq_true rfl
theorem forageAuditCompare (core place : Nat) : Statement (.forageAuditCompare core place) := Nat.le_of_ble_eq_true rfl
theorem forageRelaunch (launch : Nat) : Statement (.forageRelaunch launch) := Nat.le_of_ble_eq_true rfl
theorem queueUnmap (slot : Nat) : Statement (.queueUnmap slot) := Nat.le_of_ble_eq_true rfl
theorem packetClaim (core slot : Nat) : Statement (.packetClaim core slot) := Nat.le_of_ble_eq_true rfl
theorem launch (core : Nat) : Statement (.launch core) := Nat.le_of_ble_eq_true rfl
theorem launchTableAdmit (core : Nat) : Statement (.launchTableAdmit core) := Nat.le_of_ble_eq_true rfl
theorem signal (core : Nat) : Statement (.signal core) := Nat.le_of_ble_eq_true rfl
theorem wait (core : Nat) : Statement (.wait core) := Nat.le_of_ble_eq_true rfl
theorem waitSatisfied (core : Nat) : Statement (.waitSatisfied core) := Nat.le_of_ble_eq_true rfl
theorem waitTimeout (core : Nat) : Statement (.waitTimeout core) := Nat.le_of_ble_eq_true rfl
theorem indirect (core : Nat) : Statement (.indirect core) := Nat.le_of_ble_eq_true rfl
theorem ttset (core : Nat) : Statement (.ttset core) := Nat.le_of_ble_eq_true rfl
theorem attest (core : Nat) : Statement (.attest core) := Nat.le_of_ble_eq_true rfl
theorem manifest (core : Nat) : Statement (.manifest core) := Nat.le_of_ble_eq_true rfl
theorem scan (core : Nat) : Statement (.scan core) := Nat.le_of_ble_eq_true rfl
theorem queueFence (core : Nat) : Statement (.queueFence core) := Nat.le_of_ble_eq_true rfl
theorem timeTriggerFire (entry : Nat) : Statement (.timeTriggerFire entry) := Nat.le_of_ble_eq_true rfl
theorem scanDrained (core : Nat) : Statement (.scanDrained core) := Nat.le_of_ble_eq_true rfl
theorem scanPatternEnd (core : Nat) (sig : BitVec 64) (faildom : BitVec 8) : Statement (.scanPatternEnd core sig faildom) := Nat.le_of_ble_eq_true rfl
theorem errorRecordDeferred : Statement (.errorRecordDeferred) := Nat.le_of_ble_eq_true rfl
theorem predictIntervalEnd : Statement (.predictIntervalEnd) := Nat.le_of_ble_eq_true rfl
theorem scoreboardResultArrival (g : GroupRef) (tag : Nat) : Statement (.scoreboardResultArrival g tag) := Nat.le_of_ble_eq_true rfl
theorem traceCacheFill (g : GroupRef) : Statement (.traceCacheFill g) := Nat.le_of_ble_eq_true rfl
theorem idleIssuePosition (core part : Nat) (forage : Bool) : Statement (.idleIssuePosition core part forage) := Nat.le_of_ble_eq_true rfl
theorem transferIllegalWord (x : ProgRef) : Statement (.transferIllegalWord x) := Nat.le_of_ble_eq_true rfl
theorem faultAck (port : FaultPort) (seq : BitVec 64) : Statement (.faultAck port seq) := Nat.le_of_ble_eq_true rfl
theorem faultKill (port : FaultPort) (seq : BitVec 64) : Statement (.faultKill port seq) := Nat.le_of_ble_eq_true rfl
theorem signalStore (queue : Nat) (w : BitVec 64) : Statement (.signalStore queue w) := Nat.le_of_ble_eq_true rfl
theorem queueRecordWrite (queue owner : Nat) (secure : Bool) (r : List (BitVec 8)) : Statement (.queueRecordWrite queue owner secure r) := Nat.le_of_ble_eq_true rfl
theorem scanClose (core : Nat) (v : BitVec 64) : Statement (.scanClose core v) := Nat.le_of_ble_eq_true rfl
theorem scanStart (core : Nat) (v : BitVec 64) : Statement (.scanStart core v) := Nat.le_of_ble_eq_true rfl
theorem scanOpen (core : Nat) (v : BitVec 64) : Statement (.scanOpen core v) := Nat.le_of_ble_eq_true rfl
theorem scanRemove (core : Nat) (v : BitVec 64) : Statement (.scanRemove core v) := Nat.le_of_ble_eq_true rfl
theorem scanCtlNoCommand (core : Nat) (v : BitVec 64) : Statement (.scanCtlNoCommand core v) := Nat.le_of_ble_eq_true rfl
theorem errorDetected (e : ErrorInput) : Statement (.errorDetected e) := Nat.le_of_ble_eq_true rfl
theorem linkCrcError (unit die idx : Nat) (retrain : Bool) : Statement (.linkCrcError unit die idx retrain) := Nat.le_of_ble_eq_true rfl
theorem selftestDone (n outcome : Nat) : Statement (.selftestDone n outcome) := Nat.le_of_ble_eq_true rfl
theorem errorQueueFree (n : Nat) : Statement (.errorQueueFree n) := Nat.le_of_ble_eq_true rfl
theorem dieThermalTrip (die : Nat) : Statement (.dieThermalTrip die) := Nat.le_of_ble_eq_true rfl
theorem dieThermalReopen (die : Nat) : Statement (.dieThermalReopen die) := Nat.le_of_ble_eq_true rfl
theorem powerCapCheck (meas : BitVec 16) : Statement (.powerCapCheck meas) := Nat.le_of_ble_eq_true rfl
theorem moduleReset : Statement (.moduleReset) := Nat.le_of_ble_eq_true rfl
theorem ptpMessage (offset : Int) (port : BitVec 8) : Statement (.ptpMessage offset port) := Nat.le_of_ble_eq_true rfl
theorem firmwareHandoverCommit : Statement (.firmwareHandoverCommit) := Nat.le_of_ble_eq_true rfl
theorem firmwareHandoverAbandon : Statement (.firmwareHandoverAbandon) := Nat.le_of_ble_eq_true rfl
theorem keySlotLoad (key : KeyAccess) : Statement (.keySlotLoad key) := Nat.le_of_ble_eq_true rfl
theorem keySlotClear (key : KeyAccess) : Statement (.keySlotClear key) := Nat.le_of_ble_eq_true rfl
theorem objectRegister (r : RegisterInput) : Statement (.objectRegister r) := Nat.le_of_ble_eq_true rfl
theorem objectUnregister (obj : Nat) : Statement (.objectUnregister obj) := Nat.le_of_ble_eq_true rfl
theorem hostMemoryRead (owner : Nat) (secure : Bool) (va len : Nat) : Statement (.hostMemoryRead owner secure va len) := Nat.le_of_ble_eq_true rfl
theorem hostMemoryWrite (owner : Nat) (secure : Bool) (va : Nat) (bytes : List (BitVec 8)) : Statement (.hostMemoryWrite owner secure va bytes) := Nat.le_of_ble_eq_true rfl
theorem peerAccess (a : PeerInput) : Statement (.peerAccess a) := Nat.le_of_ble_eq_true rfl
theorem dbgHalt (port : DebugPort) (team : BitVec 64) : Statement (.dbgHalt port team) := Nat.le_of_ble_eq_true rfl
theorem dbgStep (port : DebugPort) (seq : BitVec 64) : Statement (.dbgStep port seq) := Nat.le_of_ble_eq_true rfl
theorem lcrClear (core : Nat) : Statement (.lcrClear core) := Nat.le_of_ble_eq_true rfl
theorem forageBlacklistClear (core : Nat) : Statement (.forageBlacklistClear core) := Nat.le_of_ble_eq_true rfl
theorem forageDisable (core : Nat) : Statement (.forageDisable core) := Nat.le_of_ble_eq_true rfl
theorem fpFlagClear (g : GroupRef) (csr : Nat) (v : BitVec 64) : Statement (.fpFlagClear g csr v) := Nat.le_of_ble_eq_true rfl
theorem registerWrite (host : Option Cred) (core csr : Nat) (v : BitVec 64) : Statement (.registerWrite host core csr v) := Nat.le_of_ble_eq_true rfl
theorem tlbShootdown (old : Option (Nat × Nat)) (page : Option PageMap) : Statement (.tlbShootdown old page) := Nat.le_of_ble_eq_true rfl
theorem publishedBufferCreate (n front back owner len : Nat) : Statement (.publishedBufferCreate n front back owner len) := Nat.le_of_ble_eq_true rfl
theorem publishedBufferFree (n : Nat) : Statement (.publishedBufferFree n) := Nat.le_of_ble_eq_true rfl
theorem firmwareHandoverStart (m : BitVec 512) : Statement (.firmwareHandoverStart m) := Nat.le_of_ble_eq_true rfl
theorem ptpHoldover : Statement (.ptpHoldover) := Nat.le_of_ble_eq_true rfl
theorem peerPageUnreachable (owner va : Nat) : Statement (.peerPageUnreachable owner va) := Nat.le_of_ble_eq_true rfl

end Sys2Proof.Laws.Shape
end

