-- ==== Sys2Proof/Laws/Step.lean ====
section
/-! SUPPORT. The cases of a step: what sequencing does to an outcome, and which branch of `stepWith` a state takes. -/
namespace Sys2Proof.Machine

@[simp] theorem thenDo_next (s : State) (k : State → State) : thenDo (.next s) k = .next (k s) := rfl
@[simp] theorem thenDo_fault (r : Fault) (k : State → State) : thenDo (.fault r) k = .fault r := rfl
@[simp] theorem thenDo_refused (r : Refusal) (k : State → State) : thenDo (.refused r) k = .refused r := rfl

theorem thenDo_thenDo (o : Host.Outcome State Fault Refusal) (j k : State → State) : thenDo (thenDo o j) k = thenDo o (fun s => k (j s)) := by
  cases o <;> rfl

/-- What was done and went on: a next state of a sequence comes of a next state of its first part. -/
theorem thenDo_eq_next {o : Host.Outcome State Fault Refusal} {k : State → State} {t : State} (h : thenDo o k = .next t) :
    ∃ u, o = .next u ∧ t = k u := by
  cases o with
  | next u => exact ⟨u, rfl, by cases h; rfl⟩
  | fault r => cases h
  | refused r => cases h

theorem stepWith_cons (ex : Exec) (s : State) (it : Item) (rest : List Item) (h : s.agenda = it :: rest) :
    stepWith ex s = runItem ex it { s with agenda := rest } := by
  unfold stepWith
  rw [h]

theorem stepWith_nil (ex : Exec) (s : State) (h : s.agenda = []) : stepWith ex s = autoStep ex s := by
  unfold stepWith
  rw [h]

/-- A step by itself is a happening that is due, or the barrel's. -/
theorem autoStep_cases {ex : Exec} {s t : State} (h : autoStep ex s = .next t) :
    (∃ i u, i ∈ dueItems s ∧ ex i s = .next u ∧ t = settle u) ∨ (∃ u, agentServes s = some u ∧ t = settle u)
      ∨ ∃ u, barrel ex s = .next u ∧ t = settle u := by
  have hb (h : thenDo (barrel ex s) settle = .next t) : ∃ u, barrel ex s = .next u ∧ t = settle u := thenDo_eq_next h
  unfold autoStep at h
  dsimp only at h
  by_cases ht : s.turn = {}
  · rw [if_pos ht] at h
    cases hd : (dueItems s).findSome? (dueState ex s) with
    | some v =>
      rw [hd] at h
      have hv : v = t := by simpa using h
      subst hv
      obtain ⟨i, hi, hv⟩ := List.exists_of_findSome?_eq_some hd
      unfold dueState at hv
      split at hv
      · rename_i u hu
        dsimp only at hv
        split at hv
        · cases hv
        · exact .inl ⟨i, u, hi, hu, by cases hv; rfl⟩
      · cases hv
    | none =>
      rw [hd] at h
      cases ha : agentServes s with
      | some u =>
        rw [ha] at h
        exact .inr (.inl ⟨u, rfl, by simpa using h.symm⟩)
      | none =>
        rw [ha] at h
        exact .inr (.inr (hb (by simpa using h)))
  · rw [if_neg ht] at h
    exact .inr (.inr (hb h))

end Sys2Proof.Machine
end

