-- ==== Sys2Proof/Tests/Slice0.lean ====
section
/-! SUPPORT. Tests: ill-formed terms that the checks refuse; words written out from the spec's encodings; values and effects of single steps
taken from the spec's examples or from its rules by hand; and for each statement a state and operands that meet its hypotheses. -/
namespace Sys2Proof.Machine
section
set_option Elab.async false

/-! ## A small device to test on -/

/-- A lane at the start of the test text. v0 and v1 hold a global VA, v2 an SRAM address, v3 a small number, v4 and v5 a
floating-point one. -/
def testLane (n : Nat) : Lane :=
  { pc := 0x100000#64
    v := [(0, BitVec.ofNat 32 (0x20000 + 64 * n)), (2, BitVec.ofNat 32 (0xFFE00000 + 16 * n)), (3, BitVec.ofNat 32 (n + 1)),
          (4, 0x3F800000#32), (5, 0x40000000#32)] }

/-- A group of these lanes in a partition and slot, with a lease from the start of the text. -/
def testGroup (lanes : List (Nat × Lane)) (part slot : Nat) : Group :=
  { id := 0, role := 0, part := part, slot := slot, lanes := lanes, alloc := 32, base := 0
    s := [(0, 0x20000#64), (1, 1#64), (2, 0xFFE00000#64)]
    lease := some { mask := maskOf (lanes.map Prod.fst), start := 0x100000#64, pc := 0x100000#64 } }

/-- A tensor handle of 16 FP32 elements in a row. -/
def testHandle : Handle := ⟨0x20000#64, 0, 1, 0, 0, false, [16, 0, 0, 0, 0], [1, 0, 0, 0, 0], 0#64⟩

/-- A team of one group on core 0, with a window of 4 KiB, a tile, a weight-buffer unit and two handles, the second of a published buffer. -/
def testTeam (g : Group) : Team :=
  { ref := ⟨1, 0⟩, core := 0, winOff := 0, winLen := 4096, units := [0], tiles := [0], groups := [g]
    handles := [(1, testHandle), (2, { testHandle with base := 0x40000#64, pub := true })] }

/-- A device on which that team runs, its owner's pages mapped. -/
def testState (t : Team) : State :=
  { State.reset with
    teams := [t]
    launches := [(1, { obj := 1, kernel := 0, ltag := 1, owner := 1, clusters := [{ key := 0, state := 1, cores := [0] }] })]
    launchNext := 2
    objects := [(1, { fetchObj [] with poolVa := 0x20000, poolCount := 4 })]
    objNext := 2
    pages := [{ owner := 1, va := 0x20000, size := 0x10000, target := .hbm 0x80000 },
              { owner := 1, va := 0x40000, size := 0x10000, target := .published 3 0 }]
    published := [(3, ⟨0xA0000, 0xB0000, 1, 1, 5#64⟩)]
    cur := .group ⟨0, t.groups.head?.elim 0 Group.part, t.groups.head?.elim 0 Group.slot⟩ }

/-- Four lanes, and one. -/
def lanes4 : List (Nat × Lane) := (List.range 4).map (fun n => (n, testLane n))
def state4 : State := testState (testTeam (testGroup lanes4 0 0))
def state1 : State := testState (testTeam (testGroup [(0, testLane 0)] 0 0))

/-- The issue of an instruction in a state, when it is clean. -/
def cleanIssue (s : State) (o : Op) (f : Form) : Option Issue :=
  (issueOf s o f).filter (fun i => f.wellFormed o && i.wholeFault.isNone && i.active.all (fun p => !i.indexBad p.2))

theorem clean_of_issue {s : State} {o : Op} {f : Form} {i : Issue} (h : cleanIssue s o f = some i) : Clean s o f i := by
  obtain ⟨h1, h2⟩ := Option.filter_eq_some_iff.mp h
  simp only [Bool.and_eq_true, List.all_eq_true, Bool.not_eq_true', Option.isNone_iff_eq_none] at h2
  exact ⟨h2.1.1, h1, h2.1.2, h2.2⟩

/-! ## Well-formedness: an ill-formed term for each check, beside a well-formed neighbour -/

/-- Each first instruction is well formed and its second, one field away, is not. -/
def separated (ps : List (Instr × Instr)) : Bool := ps.all (fun p => p.1.wellFormed && !p.2.wellFormed)

/-- The form checks of 07 R99 in order: SUB, TYPE, RM, SCOPE, the word-2 fields an entry does not use, IMM23, the guard, the entry's own
checks, K, unread selectors, extension bits, the literal, and a base form's fields (R87). -/
theorem test_ill_formed_forms : separated [
    (.icmp { ext := true, d := 4#7, a := 0#7, b := 3#7, sub := 5#8 }, .icmp { ext := true, d := 4#7, a := 0#7, b := 3#7, sub := 6#8 }),
    (.iadd { ext := true, d := 8#7, a := 0#7, b := 3#7, ty := 4#5 }, .iadd { ext := true, d := 8#7, a := 0#7, b := 3#7, ty := 8#5 }),
    (.fadd { ext := true, d := 8#7, a := 0#7, b := 3#7, rm := 5#3 }, .fadd { ext := true, d := 8#7, a := 0#7, b := 3#7, rm := 6#3 }),
    (.fence { ext := true, scope := 5#3 }, .fence { ext := true, scope := 6#3 }),
    (.fmin { ext := true, d := 8#7, a := 0#7, b := 3#7 }, .fmin { ext := true, d := 8#7, a := 0#7, b := 3#7, rm := 1#3 }),
    (.iadd { ext := true, d := 8#7, a := 0#7, b := 3#7, sat := true }, .imul { ext := true, d := 8#7, a := 0#7, b := 3#7, sat := true }),
    (.atom { ext := true, d := 8#7, a := 0#7, b := 3#7, scope := 4#3 }, .ld { ext := true, d := 8#7, a := 0#7, scope := 4#3 }),
    (.ld { ext := true, d := 8#7, a := 0#7, hint := 1#2 }, .ldm { ext := true, d := 8#7, a := 0#7, hint := 1#2 }),
    (.lea { ext := true, d := 8#7, a := 0#7, b := 3#7, imm := 7#23 }, .lea { ext := true, d := 8#7, a := 0#7, b := 3#7, imm := 8#23 }),
    (.br { ext := true, imm := 2#23, pred := 0#3 }, .jmpDirect { ext := true, imm := 2#23, pred := 0#3 }),
    (.cctl { ext := true, a := 0#7, hint := 1#2 }, .cctl { ext := true, a := 0#7 }),
    (.publish { ext := true, a := 0#7, scope := 4#3 }, .publish { ext := true, a := 0#7, scope := 3#3 }),
    (.iadd { k := true, a := 0#7, b := 3#7 }, .iadd { k := true, d := 8#7, a := 0#7, b := 3#7 }),
    (.st { a := 0#7, b := 3#7 }, .st { k := true, a := 0#7, b := 3#7 }),
    (.ineg { d := 8#7, a := 0#7 }, .ineg { d := 8#7, a := 0#7, b := 3#7 }),
    (.iadd { ext := true, d := 8#7, a := 0#7, b := 3#7, ax := 3#2 }, .iadd { ext := true, d := 8#7, a := 0x40#7, b := 3#7, ax := 3#2 }),
    (.iadd { d := 8#7, a := 0#7, b := 0x6A#7, lit := some 1#64 }, .iadd { d := 8#7, a := 0#7, b := 0x6A#7 }),
    (.iadd { d := 8#7, a := 0#7, b := 3#7 }, .iadd { d := 8#7, a := 0#7, b := 3#7, lit := some 1#64 }),
    (.iadd { ext := true, d := 8#7, a := 0#7, b := 3#7, ty := 4#5 }, .iadd { d := 8#7, a := 0#7, b := 3#7, ty := 4#5 })] = true := by decide

/-- The operand checks of 07 R99: D, A, B, C, pairs, numbers, and the entries' own ranges. -/
theorem test_ill_formed_operands : separated [
    (.iadd { d := 0x63#7, a := 0#7, b := 3#7 }, .iadd { d := 0x64#7, a := 0#7, b := 3#7 }),
    (.sadd { d := 0x57#7, a := 0x41#7, b := 0x41#7 }, .sadd { d := 0x58#7, a := 0x41#7, b := 0x41#7 }),
    (.iadd { d := 8#7, a := 0x6B#7, b := 3#7, lit := some 1#64 }, .iadd { d := 8#7, a := 0x6C#7, b := 3#7 }),
    (.iadd { d := 8#7, a := 0#7, b := 0x70#7 }, .iadd { d := 8#7, a := 0#7, b := 0x6F#7 }),
    (.imad { ext := true, d := 8#7, a := 0#7, b := 3#7, c := 0x0FF#9 }, .imad { ext := true, d := 8#7, a := 0#7, b := 3#7, c := 0x100#9 }),
    (.dadd { ext := true, d := 8#7, a := 2#7, b := 4#7, ty := 14#5 }, .dadd { ext := true, d := 8#7, a := 3#7, b := 4#7, ty := 14#5 }),
    (.ldm { d := 8#7, a := 0x40#7 }, .ldm { d := 8#7, a := 0x58#7 }),
    (.pand { d := 7#7, a := 0#7, b := 3#7 }, .pand { d := 8#7, a := 0#7, b := 3#7 }),
    (.pand { d := 7#7, a := 7#7, b := 3#7 }, .pand { d := 7#7, a := 8#7, b := 3#7 }),
    (.pand { d := 7#7, a := 7#7, b := 7#7 }, .pand { d := 7#7, a := 7#7, b := 8#7 }),
    (.sel { ext := true, d := 8#7, a := 0#7, b := 3#7, c := 7#9 }, .sel { ext := true, d := 8#7, a := 0#7, b := 3#7, c := 8#9 }),
    (.tdld { a := 63#7, b := 4#7 }, .tdld { a := 64#7, b := 4#7 }),
    (.awset { ext := true, d := 3#7, a := 0#7, imm := 0x10000#23 }, .awset { ext := true, d := 3#7, a := 0#7, imm := 0x10001#23 }),
    (.reggrow { ext := true, imm := 256#23 }, .reggrow { ext := true, imm := 12#23 }),
    (.csrr { ext := true, d := 0x44#7, imm := 0x00D#23 }, .csrr { ext := true, d := 0x44#7, imm := 0x00E#23 }),
    (.worknext { d := 0x53#7 }, .worknext { d := 0x54#7 })] = true := by decide

/-- The entries of 16 R269 to R281. -/
theorem test_ill_formed_transfer : separated [
    (.xadd { d := 1#4, a := 1#4, i := true, m := 1#17 }, .xadd { d := 1#4, a := 1#4, i := false, m := 1#17 }),
    (.xsetk 0#2 true 15#23, .xsetk 0#2 true 16#23),
    (.xb 1#4 2#4 6#3 0#11, .xb 1#4 2#4 7#3 0#11),
    (.xb 0#4 0#4 0#3 0#11, .xb 1#4 0#4 0#3 0#11),
    (.xswait 1#4 1#16, .xswait 1#4 0#16),
    (.xaddr 1#4 0#6 11#4 5#3, .xaddr 1#4 0#6 12#4 5#3),
    (.xaddr 1#4 0#6 0#4 1#3, .xaddr 1#4 0#6 0#4 0#3),
    (.xcopy ⟨3#3, 1#4, 2#4, 3#4, 0#11⟩ ⟨false, 1#11, false, false, 0#9, 0#9⟩, .xcopy ⟨4#3, 1#4, 2#4, 3#4, 0#11⟩ ⟨false, 1#11, false, false, 0#9, 0#9⟩),
    (.xcopy ⟨0#3, 1#4, 2#4, 3#4, 0#11⟩ ⟨true, 15#11, false, false, 0#9, 0#9⟩, .xcopy ⟨0#3, 1#4, 2#4, 3#4, 0#11⟩ ⟨true, 16#11, false, false, 0#9, 0#9⟩),
    (.xcopy ⟨1#3, 1#4, 2#4, 3#4, 0#11⟩ ⟨false, 1#11, true, false, 0#9, 0#9⟩, .xcopy ⟨0#3, 1#4, 2#4, 3#4, 0#11⟩ ⟨false, 1#11, true, false, 0#9, 0#9⟩),
    (.xcopy ⟨1#3, 1#4, 2#4, 3#4, 0#11⟩ ⟨false, 1#11, false, true, 0#9, 63#9⟩, .xcopy ⟨2#3, 1#4, 2#4, 3#4, 0#11⟩ ⟨false, 1#11, false, true, 0#9, 63#9⟩),
    (.xgath ⟨2#3, 1#4, 2#4, 3#4, 0#11⟩ ⟨1#4, 2#4, 1#11⟩, .xgath ⟨1#3, 1#4, 2#4, 3#4, 0#11⟩ ⟨1#4, 2#4, 1#11⟩),
    (.xscat ⟨3#3, 1#4, 2#4, 3#4, 0#11⟩ ⟨1#4, 2#4, 1#11⟩, .xscat ⟨3#3, 1#4, 2#4, 3#4, 0#11⟩ ⟨1#4, 2#4, 0#11⟩),
    (.xarv ⟨1#4, 0#11, true, 15#10⟩, .xarv ⟨1#4, 0#11, true, 16#10⟩),
    (.xwait ⟨1#4, 0#11, false, 1#10⟩, .xwait ⟨1#4, 0#11, false, 2#10⟩),
    (.xfe 1#4 0#13 1#9, .xfe 1#4 0#13 0#9),
    (.xpub 1#6 5#3, .xpub 1#6 3#3),
    (.xfence ⟨5#3, false, 0#6, false, 0#6, false, 0#4, false⟩, .xfence ⟨0#3, false, 0#6, false, 0#6, false, 0#4, false⟩),
    (.xfence ⟨4#3, true, 0#6, true, 0#6, false, 0#4, false⟩, .xfence ⟨4#3, true, 0#6, false, 0#6, false, 0#4, false⟩),
    (.xfence ⟨4#3, true, 0#6, true, 0#6, false, 0#4, false⟩, .xfence ⟨4#3, true, 0#6, true, 1#6, false, 0#4, false⟩)] = true := by decide

/-- 07 R99 with R97: a VOTE with F set and no predicate as operand A answers ILLEGAL_OPERAND, with one ILLEGAL_FORM by its entry (09 R143). -/
theorem test_cross_lane_format_order :
    (checkForm .vote { ext := true, sub := 0x80#8, d := 0#7, a := 8#7 } matches .bad .illegalOperand) = true
    ∧ (checkForm .vote { ext := true, sub := 0x80#8, d := 0#7, a := 1#7 } matches .bad .illegalForm) = true := by
  decide +kernel

/-! ## Decoding -/

/-- Compute words that decode to these instructions, and transfer words. -/
def decodesTo (ps : List (List Word × Instr)) : Bool := ps.all (fun p => decodeWords p.1 == .instr p.2 && p.2.wellFormed)
def decodesToX (ps : List (List Word × Instr)) : Bool :=
  ps.all (fun p => decodeXWord (p.1[0]?.getD 0#32) (p.1[1]?.getD 0#32) == .instr p.2 && p.2.wellFormed)
/-- Words that the decoder refuses with these fates. -/
def refusedAs (ps : List (List Word × DecodeFault)) : Bool := ps.all (fun p => decodeWords p.1 == .bad p.2)
def refusedAsX (ps : List (List Word × DecodeFault)) : Bool :=
  ps.all (fun p => decodeXWord (p.1[0]?.getD 0#32) (p.1[1]?.getD 0#32) == .bad p.2)

/-- The words of 07 R86 to R89 and R97, field by field. -/
theorem test_decode_integer : decodesTo [
    ([0xB10C3001#32, 0x38050164#32, 0x00000008#32], .iadd { ext := true, d := 0xC#7, a := 0x43#7, b := 0x58#7, ty := 0x7#5, sat := true, pred := 0x2#3, neg := true }),
    ([0x06002004#32], .isub { d := 0x8#7, a := 0x0#7, b := 0x3#7 }),
    ([0x08082009#32, 0x280B8164#32, 0x00000000#32], .imul { ext := true, d := 0x8#7, a := 0x2#7, b := 0x4#7, sub := 0x1#8, ty := 0x5#5 }),
    ([0x0404200D#32, 0x0003F2FF#32, 0x00000000#32], .imad { ext := true, d := 0x8#7, a := 0x1#7, b := 0x2#7, c := 0xFF#9, dx := 0x1#2, ax := 0x2#2, bx := 0x3#2 }),
    ([0x06002010#32], .imin { d := 0x8#7, a := 0x0#7, b := 0x3#7 }),
    ([0x06002014#32], .imax { d := 0x8#7, a := 0x0#7, b := 0x3#7 }),
    ([0xC8002018#32], .iabs { d := 0x8#7, a := 0x0#7 }),
    ([0xC800201C#32], .ineg { d := 0x8#7, a := 0x0#7 }),
    ([0x06002020#32], .and { d := 0x8#7, a := 0x0#7, b := 0x3#7 }),
    ([0x06002024#32], .or { d := 0x8#7, a := 0x0#7, b := 0x3#7 }),
    ([0x06002028#32], .xor { d := 0x8#7, a := 0x0#7, b := 0x3#7 }),
    ([0x0600202C#32], .andn { d := 0x8#7, a := 0x0#7, b := 0x3#7 }),
    ([0xC8002030#32], .not { d := 0x8#7, a := 0x0#7 }),
    ([0x06002034#32], .shl { d := 0x8#7, a := 0x0#7, b := 0x3#7 }),
    ([0x06002038#32], .shr { d := 0x8#7, a := 0x0#7, b := 0x3#7 }),
    ([0x0600203C#32], .sar { d := 0x8#7, a := 0x0#7, b := 0x3#7 }),
    ([0x06002040#32], .rot { d := 0x8#7, a := 0x0#7, b := 0x3#7 }),
    ([0xC8002044#32], .popc { d := 0x8#7, a := 0x0#7 }),
    ([0xC8002048#32], .clz { d := 0x8#7, a := 0x0#7 }),
    ([0xC800204C#32], .ctz { d := 0x8#7, a := 0x0#7 }),
    ([0xC8002050#32], .brev { d := 0x8#7, a := 0x0#7 }),
    ([0x06002054#32], .bfx { d := 0x8#7, a := 0x0#7, b := 0x3#7 }),
    ([0x0600205B#32, 0x0003816A#32, 0x00000000#32, 0x00001008#32, 0x00000000#32], .bfi { ext := true, d := 0x8#7, a := 0x0#7, b := 0x3#7, c := 0x16A#9, lit := some 0x1008#64 }),
    ([0x0600205C#32], .perm { d := 0x8#7, a := 0x0#7, b := 0x3#7 }),
    ([0x06002061#32, 0x00008005#32, 0x00000000#32], .sel { ext := true, d := 0x8#7, a := 0x0#7, b := 0x3#7, c := 0x5#9, pred := 0x1#3 }),
    ([0x28001465#32, 0x20138164#32, 0x00000000#32], .icmp { ext := true, d := 0x5#7, a := 0x0#7, b := 0x14#7, sub := 0x2#8, ty := 0x4#5 }),
    ([0x07001869#32, 0x00038164#32, 0x00000E00#32], .lea { ext := true, d := 0x6#7, a := 0x40#7, b := 0x3#7, imm := 0x7#23 }),
    ([0x06001080#32], .pand { d := 0x4#7, a := 0x0#7, b := 0x3#7 }),
    ([0x06001084#32], .por { d := 0x4#7, a := 0x0#7, b := 0x3#7 }),
    ([0x06001088#32], .pxor { d := 0x4#7, a := 0x0#7, b := 0x3#7 }),
    ([0xC800108C#32], .pnot { d := 0x4#7, a := 0x0#7 }),
    ([0xC8001090#32], .pmov { d := 0x4#7, a := 0x0#7 }),
    ([0xC8000CC1#32, 0x00038164#32, 0x00204000#32], .awset { ext := true, d := 0x3#7, a := 0x0#7, imm := 0x1020#23 }),
    ([0xC99190C5#32, 0x00038164#32, 0x00008000#32], .reggrow { ext := true, imm := 0x40#23 }),
    ([0xC99190C9#32, 0x00038164#32, 0x00004000#32], .regshrink { ext := true, imm := 0x20#23 })] = true := by decide

/-- The words of 07 R86 to R89 and R97, field by field. -/
theorem test_decode_scalar_and_control : decodesTo [
    ([0xD7051103#32, 0x28038164#32, 0x00000000#32, 0x9ABCDEF0#32, 0x12345678#32], .sadd { ext := true, d := 0x44#7, a := 0x41#7, b := 0x6B#7, ty := 0x5#5, lit := some 0x123456789ABCDEF0#64 }),
    ([0x83051104#32], .ssub { d := 0x44#7, a := 0x41#7, b := 0x41#7 }),
    ([0x83051108#32], .smul { d := 0x44#7, a := 0x41#7, b := 0x41#7 }),
    ([0x8305110C#32], .sand { d := 0x44#7, a := 0x41#7, b := 0x41#7 }),
    ([0x83051110#32], .sor { d := 0x44#7, a := 0x41#7, b := 0x41#7 }),
    ([0x83051114#32], .sxor { d := 0x44#7, a := 0x41#7, b := 0x41#7 }),
    ([0x83051118#32], .sshl { d := 0x44#7, a := 0x41#7, b := 0x41#7 }),
    ([0x8305111C#32], .sshr { d := 0x44#7, a := 0x41#7, b := 0x41#7 }),
    ([0x85041121#32, 0x002B8164#32, 0x00000000#32], .scmp { ext := true, d := 0x4#7, a := 0x41#7, b := 0x42#7, sub := 0x5#8 }),
    ([0xC9051124#32], .smov { d := 0x44#7, a := 0x41#7 }),
    ([0xC9011129#32, 0x080B8164#32, 0xFFFFF100#32], .sld { ext := true, d := 0x44#7, a := 0x40#7, sub := 0x1#8, ty := 0x1#5, hint := 0x2#2, imm := 0x7FFFF8#23 }),
    ([0xC904212C#32], .bcast { d := 0x8#7, a := 0x41#7 }),
    ([0x82011130#32], .readlane { d := 0x44#7, a := 0x0#7, b := 0x41#7 }),
    ([0xC9919181#32, 0x00040164#32, 0xFFFFFA00#32], .br { ext := true, imm := 0x7FFFFD#23, pred := 0x0#3, neg := true }),
    ([0xC9919185#32, 0x00038164#32, 0x00000A00#32], .jmpDirect { ext := true, imm := 0x5#23 }),
    ([0xC9059185#32, 0x000B8164#32, 0x00000000#32], .jmpRegister { ext := true, a := 0x41#7, sub := 0x1#8 }),
    ([0xC9919189#32, 0x00038164#32, 0x00002000#32], .call { ext := true, imm := 0x10#23 }),
    ([0xC801918C#32], .calli { a := 0x0#7 }),
    ([0xC9919190#32], .ret {}),
    ([0xC9919194#32], .exit {}),
    ([0xC9919198#32], .next {}),
    ([0x0609919D#32, 0x00038164#32, 0x00000800#32], .park { ext := true, a := 0x2#7, b := 0x3#7, imm := 0x4#23 }),
    ([0xC801919D#32, 0x000B8164#32, 0x00000000#32], .parkFull { ext := true, a := 0x0#7, sub := 0x1#8 }),
    ([0xC99191A0#32], .yield {}),
    ([0xC99191A4#32], .nop {})] = true := by decide

/-- The words of 07 R86 to R89 and R97, field by field. -/
theorem test_decode_lanes_and_system : decodesTo [
    ([0x061021A9#32, 0x281B8164#32, 0x00000000#32], .shfl { ext := true, d := 0x8#7, a := 0x4#7, b := 0x3#7, sub := 0x3#8, ty := 0x5#5 }),
    ([0xC80C21AD#32, 0x00138164#32, 0x00000000#32], .vote { ext := true, d := 0x8#7, a := 0x3#7, sub := 0x2#8 }),
    ([0xC81021B1#32, 0x0C0B8164#32, 0x00000000#32], .redux { ext := true, d := 0x8#7, a := 0x4#7, sub := 0x81#8, ty := 0x1#5 }),
    ([0xC81021B5#32, 0x20138164#32, 0x00000000#32], .scanx { ext := true, d := 0x8#7, a := 0x4#7, sub := 0x2#8, ty := 0x4#5 }),
    ([0xC80021B8#32], .matchLanes { d := 0x8#7, a := 0x0#7 }),
    ([0xC99011BC#32], .elect { d := 0x4#7 }),
    ([0xC99191C0#32], .barsync {}),
    ([0x060191C4#32], .barinit { a := 0x0#7, b := 0x3#7 }),
    ([0xC80191C8#32], .bararv { a := 0x0#7 }),
    ([0x060191CC#32], .barwait { a := 0x0#7, b := 0x3#7 }),
    ([0x079191D1#32, 0x00038164#32, 0x00000020#32], .syncm { ext := true, b := 0x3#7, scope := 0x2#3 }),
    ([0xC99111E1#32, 0x00038164#32, 0x00064A00#32], .csrr { ext := true, d := 0x44#7, imm := 0x325#23 }),
    ([0xC90591E5#32, 0x00038164#32, 0x00003200#32], .csrw { ext := true, a := 0x41#7, imm := 0x19#23 }),
    ([0xC99191E9#32, 0x00038164#32, 0x01FFFE00#32], .syscall { ext := true, imm := 0xFFFF#23 }),
    ([0xC90591ED#32, 0x00038164#32, 0x00000200#32], .eret { ext := true, a := 0x41#7, imm := 0x1#23 }),
    ([0xC99191F1#32, 0x00038164#32, 0x00001200#32], .trap { ext := true, imm := 0x9#23 }),
    ([0xC99191F4#32], .brk {})] = true := by decide

/-- The words of 07 R86 to R89 and R97, field by field. -/
theorem test_decode_float : decodesTo [
    ([0x0A102201#32, 0x10038164#32, 0x0000000D#32], .fadd { ext := true, d := 0x8#7, a := 0x4#7, b := 0x5#7, ty := 0x2#5, rm := 0x5#3, sat := true }),
    ([0x06002204#32], .fsub { d := 0x8#7, a := 0x0#7, b := 0x3#7 }),
    ([0x06002208#32], .fmul { d := 0x8#7, a := 0x0#7, b := 0x3#7 }),
    ([0x0600220C#32], .ffma { d := 0x8#7, a := 0x0#7, b := 0x3#7 }),
    ([0x06002210#32], .fmin { d := 0x8#7, a := 0x0#7, b := 0x3#7 }),
    ([0x06002214#32], .fmax { d := 0x8#7, a := 0x0#7, b := 0x3#7 }),
    ([0x0A101219#32, 0x003B8164#32, 0x00000000#32], .fcmp { ext := true, d := 0x4#7, a := 0x4#7, b := 0x5#7, sub := 0x7#8 }),
    ([0xC8100E1D#32, 0x00038164#32, 0x00040000#32], .fclass { ext := true, d := 0x3#7, a := 0x4#7, imm := 0x200#23 }),
    ([0xC8002220#32], .frcp { d := 0x8#7, a := 0x0#7 }),
    ([0xC8002224#32], .frsq { d := 0x8#7, a := 0x0#7 }),
    ([0xC8002228#32], .fsqrt { d := 0x8#7, a := 0x0#7 }),
    ([0xC800222C#32], .fexp2 { d := 0x8#7, a := 0x0#7 }),
    ([0xC8002230#32], .flog2 { d := 0x8#7, a := 0x0#7 }),
    ([0xC8002234#32], .fsin { d := 0x8#7, a := 0x0#7 }),
    ([0xC8002238#32], .fcos { d := 0x8#7, a := 0x0#7 }),
    ([0xC800223C#32], .ftanh { d := 0x8#7, a := 0x0#7 }),
    ([0x08002241#32, 0x70038164#32, 0x00000000#32], .dadd { ext := true, d := 0x8#7, a := 0x0#7, b := 0x4#7, ty := 0xE#5 }),
    ([0x08002245#32, 0x70038164#32, 0x00000000#32], .dmul { ext := true, d := 0x8#7, a := 0x0#7, b := 0x4#7, ty := 0xE#5 }),
    ([0x08002249#32, 0x70038004#32, 0x00000000#32], .dfma { ext := true, d := 0x8#7, a := 0x0#7, b := 0x4#7, c := 0x4#9, ty := 0xE#5 }),
    ([0x0600224D#32, 0x08038164#32, 0x00000000#32], .hadd2 { ext := true, d := 0x8#7, a := 0x0#7, b := 0x3#7, ty := 0x1#5 }),
    ([0x06002251#32, 0x08038003#32, 0x00000000#32], .hfma2 { ext := true, d := 0x8#7, a := 0x0#7, b := 0x3#7, c := 0x3#9, ty := 0x1#5 }),
    ([0xC8181E81#32, 0x18038164#32, 0x00000408#32], .fcvt { ext := true, d := 0x7#7, a := 0x6#7, ty := 0x3#5, sat := true, imm := 0x2#23 }),
    ([0xC8181E85#32, 0x20038164#32, 0x00000201#32], .f2i { ext := true, d := 0x7#7, a := 0x6#7, ty := 0x4#5, rm := 0x1#3, imm := 0x1#23 }),
    ([0xC8181E89#32, 0x08038164#32, 0x00000E00#32], .i2f { ext := true, d := 0x7#7, a := 0x6#7, ty := 0x1#5, imm := 0x7#23 }),
    ([0x0600228D#32, 0x40038003#32, 0x00000002#32], .qdot4 { ext := true, d := 0x8#7, a := 0x0#7, b := 0x3#7, c := 0x3#9, ty := 0x8#5, rm := 0x2#3 }),
    ([0x06002291#32, 0x48038003#32, 0x00001200#32], .pack { ext := true, d := 0x8#7, a := 0x0#7, b := 0x3#7, c := 0x3#9, ty := 0x9#5, imm := 0x9#23 }),
    ([0xC8002295#32, 0x38038164#32, 0x00000600#32], .unpack { ext := true, d := 0x8#7, a := 0x0#7, ty := 0x7#5, imm := 0x3#23 })] = true := by decide

/-- The words of 07 R86 to R89 and R97, field by field. -/
theorem test_decode_memory_and_engine : decodesTo [
    ([0xC9002301#32, 0x00138164#32, 0xFFFFE180#32], .ld { ext := true, d := 0x8#7, a := 0x40#7, sub := 0x2#8, imm := 0x7FFFF0#23, hint := 0x3#2 }),
    ([0x08019305#32, 0x280B8164#32, 0x00000000#32], .st { ext := true, a := 0x0#7, b := 0x4#7, sub := 0x1#8, ty := 0x5#5 }),
    ([0xC8082309#32, 0x301B8164#32, 0x00000000#32], .ldm { ext := true, d := 0x8#7, a := 0x2#7, sub := 0x3#8, ty := 0x6#5 }),
    ([0x0609930D#32, 0x18238164#32, 0x00000000#32], .stm { ext := true, a := 0x2#7, b := 0x3#7, sub := 0x4#8, ty := 0x3#5 }),
    ([0xC8082311#32, 0x00438164#32, 0x00000000#32], .ldfe { ext := true, d := 0x8#7, a := 0x2#7, sub := 0x8#8 }),
    ([0x08099315#32, 0x080B8164#32, 0x00000000#32], .stfe { ext := true, a := 0x2#7, b := 0x4#7, sub := 0x1#8, ty := 0x1#5 }),
    ([0x06002319#32, 0x003B8005#32, 0x00000040#32], .atom { ext := true, d := 0x8#7, a := 0x0#7, b := 0x3#7, c := 0x5#9, sub := 0x7#8, scope := 0x4#3 }),
    ([0x0609931D#32, 0x00438164#32, 0x000000B0#32], .red { ext := true, a := 0x2#7, b := 0x3#7, sub := 0x8#8, hint := 0x1#2, scope := 0x3#3 }),
    ([0xC8002320#32], .ldnt { d := 0x8#7, a := 0x0#7 }),
    ([0x06019324#32], .stnt { a := 0x0#7, b := 0x3#7 }),
    ([0xC8019328#32], .prefetch { a := 0x0#7 }),
    ([0xC801932D#32, 0x00038164#32, 0x00008180#32], .cctl { ext := true, a := 0x0#7, hint := 0x3#2, imm := 0x40#23 }),
    ([0xC9051330#32], .pld { d := 0x44#7, a := 0x41#7 }),
    ([0xC9919341#32, 0x00038164#32, 0x00000050#32], .fence { ext := true, scope := 0x5#3 }),
    ([0x80059345#32, 0x00038164#32, 0x00001240#32], .fenceR { ext := true, a := 0x1#7, b := 0x40#7, scope := 0x4#3, imm := 0x9#23 }),
    ([0xC9919348#32], .ntdrain {}),
    ([0xC809934D#32, 0x00038164#32, 0x00000050#32], .publish { ext := true, a := 0x2#7, scope := 0x5#3 }),
    ([0xC8002350#32], .ldgen { d := 0x8#7, a := 0x0#7 }),
    ([0x08019380#32], .tdld { a := 0x0#7, b := 0x4#7 }),
    ([0x06059385#32, 0x60038005#32, 0x00000000#32], .tdst { ext := true, a := 0x1#7, b := 0x3#7, c := 0x5#9, ty := 0xC#5 }),
    ([0x08059389#32, 0x00038164#32, 0x00001600#32], .tdset { ext := true, a := 0x1#7, b := 0x4#7, imm := 0xB#23 }),
    ([0xC809938D#32, 0x00038164#32, 0x00008000#32], .mxgo { ext := true, a := 0x2#7, imm := 0x40#23 }),
    ([0xC8019390#32], .mxv { a := 0x0#7 }),
    ([0xC80C2395#32, 0x18038164#32, 0x00000009#32], .accrd { ext := true, d := 0x8#7, a := 0x3#7, ty := 0x3#5, rm := 0x1#3, sat := true }),
    ([0x06019398#32], .accwr { a := 0x0#7, b := 0x3#7 }),
    ([0xC991939D#32, 0x00038164#32, 0x01000200#32], .acczero { ext := true, imm := 0x8001#23 }),
    ([0xC90023A1#32, 0x00038164#32, 0x00000200#32], .xstart { ext := true, d := 0x8#7, a := 0x40#7, imm := 0x1#23 }),
    ([0x079193A5#32, 0x00038164#32, 0x00000400#32], .xsig { ext := true, b := 0x3#7, imm := 0x2#23 }),
    ([0xC99023A9#32, 0x00038164#32, 0x00000600#32], .xstat { ext := true, d := 0x8#7, imm := 0x3#23 }),
    ([0xC99113AC#32], .worknext { d := 0x44#7 })] = true := by decide

/-- The words of 16 R269 to R281, field by field. -/
theorem test_decode_transfer : decodesToX [
    ([0x047C6000#32], .xadd { d := 1#4, a := 15#4, i := false, m := 0x6000#17 }),
    ([0x08BBFFF1#32], .xsub { d := 2#4, a := 14#4, i := true, m := 0x1FFF1#17 }),
    ([0x0CF4A000#32], .xmul { d := 3#4, a := 13#4, i := false, m := 0xA000#17 }),
    ([0x1133FFF3#32], .xand { d := 4#4, a := 12#4, i := true, m := 0x1FFF3#17 }),
    ([0x156CE000#32], .xior { d := 5#4, a := 11#4, i := false, m := 0xE000#17 }),
    ([0x19ABFFF5#32], .xxor { d := 6#4, a := 10#4, i := true, m := 0x1FFF5#17 }),
    ([0x1DE52000#32], .xshl { d := 7#4, a := 9#4, i := false, m := 0x12000#17 }),
    ([0x2223FFF7#32], .xshr { d := 8#4, a := 8#4, i := true, m := 0x1FFF7#17 }),
    ([0x265D6000#32], .xsar { d := 9#4, a := 7#4, i := false, m := 0x16000#17 }),
    ([0x2A30ABCD#32], .xmov 8#4 3#2 0xABCD#16),
    ([0x2E30ABCD#32], .xmovk 8#4 3#2 0xABCD#16),
    ([0x327FFFFF#32], .xsetk 2#2 false 0x7FFFFF#23),
    ([0x36500000#32], .xrdk 9#4 1#2),
    ([0x41597FF8#32], .xld { c := 5#4, b := 6#4, w := 1#2, sp := false, o := 0x7FF8#15 }),
    ([0x455B8008#32], .xst { c := 5#4, b := 6#4, w := 3#2, sp := true, o := 8#15 }),
    ([0x495AB800#32], .xldx 5#4 6#4 2#2 true 7#4),
    ([0x604A87FF#32], .xb 1#4 2#4 5#3 0x7FF#11),
    ([0x670007F0#32], .xloop 3#2 0x7F0#11),
    ([0x69008001#32], .xswait 4#4 0x8001#16),
    ([0x6EC00000#32], .xpost 11#4),
    ([0x80A1AA00#32], .xaddr 2#4 33#6 10#4 5#3),
    ([0xA0891C00#32, 0x080BFF01#32], .xcopy { mode := 1#3, dst := 1#4, src := 2#4, bar := 3#4, off := 0x400#11 } { lr := false, len := 128#11, dz := true, sh := false, doff := 0x1FF#9, soff := 0x101#9 }),
    ([0xA5091C00#32, 0xDEFFE000#32], .xgath { mode := 2#3, dst := 1#4, src := 2#4, bar := 3#4, off := 0x400#11 } { idx := 13#4, cnt := 14#4, row := 2047#11 }),
    ([0xA9891C00#32, 0xDEFFE000#32], .xscat { mode := 3#3, dst := 1#4, src := 2#4, bar := 3#4, off := 0x400#11 } { idx := 13#4, cnt := 14#4, row := 2047#11 }),
    ([0xC1C91BFF#32], .xarv { b := 7#4, o := 0x123#11, i := false, m := 1023#10 }),
    ([0xC5C91C0F#32], .xwait { b := 7#4, o := 0x123#11, i := true, m := 15#10 }),
    ([0xC9FFFFFF#32], .xfe 7#4 0x1FFF#13 511#9),
    ([0xCFFA0000#32], .xpub 63#6 5#3),
    ([0xD2428798#32], .xfence { scope := 4#3, r := true, h0 := 2#6, v0 := true, h1 := 3#6, v1 := true, rr := 9#4, vr := true }),
    ([0xE0000000#32], .xend),
    ([0xE400BEEF#32], .xtrap 0xBEEF#16),
    ([0xE8000000#32], .xnop)] = true := by decide

/-- The fates of 07 R101: reserved opcodes; TYPE, RM, K, an unread C, an extension beside an s register, a guard on the scalar pipe;
reserved selector, a source as destination, odd pair, LIT32 in 64 bits, AWSET of length 0, an unassigned CSR, predicate 8. -/
theorem test_decode_refusals : refusedAs [
    ([0x0000006C#32], .illegalOp),
    ([0x00000094#32], .illegalOp),
    ([0x000003C3#32], .illegalOp),
    ([0x06002001#32, 0x40038164#32, 0x00000000#32], .illegalForm),
    ([0x06002001#32, 0x00038164#32, 0x00000001#32], .illegalForm),
    ([0x06022000#32], .illegalForm),
    ([0x06002001#32, 0x00038003#32, 0x00000000#32], .illegalForm),
    ([0x070C2001#32, 0x00038964#32, 0x00000000#32], .illegalForm),
    ([0x85051101#32, 0x00000164#32, 0x00000000#32], .illegalForm),
    ([0xD8002000#32], .illegalOperand),
    ([0x06019400#32], .illegalOperand),
    ([0x08042241#32, 0x70038164#32, 0x00000000#32], .illegalOperand),
    ([0xD4002243#32, 0x70038164#32, 0x00000000#32, 0x00000001#32, 0x00000000#32], .illegalOperand),
    ([0xC80008C1#32, 0x00038164#32, 0x00000000#32], .illegalOperand),
    ([0xC99111E1#32, 0x00038164#32, 0x00001C00#32], .illegalOperand),
    ([0x06002080#32], .illegalOperand)] = true := by decide

/-- The refusals of 16 R270: reserved opcodes, and fields that break their entry. -/
theorem test_decode_transfer_refusals : refusedAsX [
    ([0x00000000#32], .illegalOp),
    ([0xEC000000#32], .illegalOp),
    ([0x04440001#32], .illegalForm),
    ([0x28410001#32], .illegalForm),
    ([0x604B8000#32], .illegalForm),
    ([0x60400000#32], .illegalForm),
    ([0x69000000#32], .illegalForm),
    ([0x8083CA00#32], .illegalForm),
    ([0xC9C00000#32], .illegalForm),
    ([0xCC360000#32], .illegalForm),
    ([0xD2020000#32], .illegalForm),
    ([0xE0000001#32], .illegalForm),
    ([0xA2091C00#32, 0x00100000#32], .illegalForm),
    ([0xA4891C00#32, 0xDEFFE000#32], .illegalForm)] = true := by decide

/-! ## Values: one step on small states, with results taken from the spec's worked examples or computed by hand from its rules -/

/-- The state an instruction leaves; the state itself where it gives none. -/
def after (j : Instr) (s : State) : State := match exec j s with | .next t => t | _ => s

/-- A lane, a register, a predicate and a scalar register of the test group. -/
def lane' (s : State) (n : Nat) : Lane := ((laneIn s ⟨1, 0⟩ 0 n).getD { pc := 0#64 })
def reg' (s : State) (n r : Nat) : BitVec 32 := readReg (lane' s n) r
def pred' (s : State) (n p : Nat) : Bool := predOf (lane' s n) p
def scalar' (s : State) (r : Nat) : BitVec 64 := (groupIn s ⟨1, 0⟩ 0).elim 0#64 (fun g => mapGetD g.s r 0#64)

/-- One lane with these registers. -/
def oneLane (vs : List (Nat × BitVec 32)) : State := testState (testTeam (testGroup [(0, { pc := 0x100000#64, v := vs })] 0 0))

/-- Each instruction, run in a lane with these registers, leaves this value in v8. -/
def gives (ps : List (Instr × List (Nat × BitVec 32) × BitVec 32)) : Bool := ps.all (fun p => reg' (after p.1 (oneLane p.2.1)) 0 8 == p.2.2)
/-- The same with the sticky flags it leaves. -/
def givesF (ps : List (Instr × List (Nat × BitVec 32) × BitVec 32 × BitVec 5)) : Bool :=
  ps.all (fun p => reg' (after p.1 (oneLane p.2.1)) 0 8 == p.2.2.1 && (lane' (after p.1 (oneLane p.2.1)) 0).flags == p.2.2.2)
/-- Each instruction leaves this value in p4. -/
def decides (ps : List (Instr × List (Nat × BitVec 32) × Bool)) : Bool := ps.all (fun p => pred' (after p.1 (oneLane p.2.1)) 0 4 == p.2.2)

/-- 09 R125: wrap and saturation at the ends of the range, products by halves, signed and unsigned order. -/
theorem test_value_integer : gives [
    (.iadd { d := 8#7, a := 0#7, b := 0x79#7 }, [(0, 0xFFFFFFFF#32)], 0#32),
    (.iadd { ext := true, d := 8#7, a := 0#7, b := 0x79#7, ty := 4#5, sat := true }, [(0, 0x7FFFFFFF#32)], 0x7FFFFFFF#32),
    (.isub { d := 8#7, a := 0#7, b := 0x7F#7 }, [(0, 5#32)], 0xFFFFFFFE#32),
    (.isub { ext := true, d := 8#7, a := 0#7, b := 0x7F#7, sat := true }, [(0, 5#32)], 0#32),
    (.imul { ext := true, d := 8#7, a := 0#7, b := 0#7, sub := 1#8, ty := 4#5 }, [(0, 0x80000000#32)], 0x40000000#32),
    (.imul { d := 8#7, a := 0#7, b := 0#7 }, [(0, 0x10001#32)], 0x20001#32),
    (.imad { ext := true, d := 8#7, a := 0#7, b := 0x7B#7, c := 1#9 }, [(0, 5#32), (1, 0xFFFFFFFF#32)], 14#32),
    (.imin { ext := true, d := 8#7, a := 0#7, b := 0x7D#7, ty := 4#5 }, [(0, 0xFFFFFFFF#32)], 0xFFFFFFFF#32),
    (.imin { d := 8#7, a := 0#7, b := 0x7D#7 }, [(0, 0xFFFFFFFF#32)], 5#32),
    (.imax { ext := true, d := 8#7, a := 0#7, b := 0x7D#7, ty := 4#5 }, [(0, 0xFFFFFFFF#32)], 5#32),
    (.iabs { ext := true, d := 8#7, a := 0#7, ty := 4#5 }, [(0, 0xFFFFFFFB#32)], 5#32),
    (.ineg { d := 8#7, a := 0#7 }, [(0, 5#32)], 0xFFFFFFFB#32)] = true := by decide +kernel

/-- 09 R126 and R128: logic, shifts by less than the width, by the width and under the sign, counts, fields and bytes. -/
theorem test_value_bits : gives [
    (.and { d := 8#7, a := 0#7, b := 0x6A#7, lit := some 0xFFFF#64 }, [(0, 0x12345678#32)], 0x5678#32),
    (.or { d := 8#7, a := 0#7, b := 0x7F#7 }, [(0, 0x12345678#32)], 0x1234567F#32),
    (.xor { d := 8#7, a := 0#7, b := 0x77#7 }, [(0, 0x12345678#32)], 0xEDCBA987#32),
    (.andn { d := 8#7, a := 0#7, b := 0x6A#7, lit := some 0xFFFF#64 }, [(0, 0x12345678#32)], 0x12340000#32),
    (.not { d := 8#7, a := 0#7 }, [(0, 0x12345678#32)], 0xEDCBA987#32),
    (.shl { d := 8#7, a := 0#7, b := 0x7C#7 }, [(0, 5#32)], 0x50#32),
    (.shl { d := 8#7, a := 0#7, b := 1#7 }, [(0, 5#32), (1, 32#32)], 0#32),
    (.shr { d := 8#7, a := 0#7, b := 0x7C#7 }, [(0, 0x80000000#32)], 0x08000000#32),
    (.sar { ext := true, d := 8#7, a := 0#7, b := 0x7C#7, ty := 4#5 }, [(0, 0x80000000#32)], 0xF8000000#32),
    (.rot { d := 8#7, a := 0#7, b := 0x7C#7 }, [(0, 0x12345678#32)], 0x23456781#32),
    (.popc { d := 8#7, a := 0#7 }, [(0, 0x12345678#32)], 13#32),
    (.clz { d := 8#7, a := 0#7 }, [(0, 5#32)], 29#32),
    (.ctz { d := 8#7, a := 0#7 }, [(0, 0x80000000#32)], 31#32),
    (.brev { d := 8#7, a := 0#7 }, [(0, 5#32)], 0xA0000000#32),
    (.bfx { ext := true, d := 8#7, a := 0#7, b := 1#7, ty := 4#5 }, [(0, 0x1234F678#32), (1, 0x0808#32)], 0xFFFFFFF6#32),
    (.bfi { ext := true, d := 8#7, a := 0#7, b := 1#7, c := 2#9 }, [(0, 0x12345678#32), (1, 5#32), (2, 0x0808#32)], 0x12340578#32),
    (.perm { ext := true, d := 8#7, a := 0#7, b := 1#7, c := 2#9 }, [(0, 0x12345678#32), (1, 0xF0#32), (2, 0xC123#32)], 0xFF563412#32),
    (.sel { ext := true, d := 8#7, a := 0#7, b := 1#7, c := 3#9 }, [(0, 1#32), (1, 2#32)], 2#32),
    (.lea { ext := true, d := 8#7, a := 0#7, b := 2#7, imm := 3#23 }, [(0, 0x100#32), (2, 0xFFFFFFFF#32)], 0xF8#32)] = true := by decide +kernel

/-- 09 R127 and R129; 10 R154 and R155: what a predicate receives. -/
theorem test_value_predicates : decides [
    (.icmp { ext := true, d := 4#7, a := 0#7, b := 1#7, sub := 2#8, ty := 4#5 }, [(0, 0xFFFFFFFF#32), (1, 1#32)], true),
    (.icmp { ext := true, d := 4#7, a := 0#7, b := 1#7, sub := 2#8 }, [(0, 0xFFFFFFFF#32), (1, 1#32)], false),
    (.pand { d := 4#7, a := 7#7, b := 0#7 }, [], false), (.por { d := 4#7, a := 7#7, b := 0#7 }, [], true),
    (.pxor { d := 4#7, a := 7#7, b := 7#7 }, [], false), (.pnot { d := 4#7, a := 0#7 }, [], true), (.pmov { d := 4#7, a := 7#7 }, [], true),
    (.fcmp { ext := true, d := 4#7, a := 0#7, b := 1#7 }, [(0, 0x80000000#32), (1, 0#32)], true),
    (.fcmp { ext := true, d := 4#7, a := 0#7, b := 1#7, sub := 7#8 }, [(0, 0x7FC00000#32), (1, 0#32)], true),
    (.fclass { ext := true, d := 4#7, a := 0#7, imm := 0x300#23 }, [(0, 0x7F800001#32)], true),
    (.scmp { ext := true, d := 4#7, a := 0x41#7, b := 0x7A#7, sub := 3#8 }, [], true),
    (.vote { ext := true, d := 4#7, a := 0#7, sub := 1#8 }, [], false), (.elect { d := 4#7 }, [], true)] = true := by decide +kernel

/-- 10 R152 to R159: sums, one rounding, signed zeros, overflow, NaN, exact special results. -/
theorem test_value_float : givesF [
    (.fadd { d := 8#7, a := 0#7, b := 1#7 }, [(0, 0x3F800000#32), (1, 0x40000000#32)], 0x40400000#32, 0#5),
    (.fadd { d := 8#7, a := 0#7, b := 1#7 }, [(0, 0x3F800000#32), (1, 0x33800000#32)], 0x3F800000#32, flagNX),
    (.fadd { d := 8#7, a := 0#7, b := 1#7 }, [(0, 0x7F800000#32), (1, 0xFF800000#32)], 0x7FC00000#32, flagNV),
    (.fsub { d := 8#7, a := 0#7, b := 1#7 }, [(0, 0x3F800000#32), (1, 0x3F800000#32)], 0#32, 0#5),
    (.fmul { d := 8#7, a := 0#7, b := 0#7 }, [(0, 0x7F000000#32)], 0x7F800000#32, flagOF ||| flagNX),
    (.ffma { ext := true, d := 8#7, a := 0#7, b := 0#7, c := 1#9 }, [(0, 0x40000000#32), (1, 0x3F800000#32)], 0x40A00000#32, 0#5),
    (.fmin { d := 8#7, a := 0#7, b := 1#7 }, [(0, 0#32), (1, 0x80000000#32)], 0x80000000#32, 0#5),
    (.fmax { d := 8#7, a := 0#7, b := 1#7 }, [(0, 0x7FC00000#32), (1, 0x3F800000#32)], 0x3F800000#32, 0#5),
    (.fclass { d := 8#7, a := 0#7 }, [(0, 0x80000001#32)], 4#32, 0#5),
    (.dadd { ext := true, d := 8#7, a := 0#7, b := 0#7, ty := 14#5 }, [(0, 1#32), (1, 0x3FF00000#32)], 1#32, 0#5),
    (.dmul { ext := true, d := 8#7, a := 0#7, b := 2#7, ty := 14#5 }, [(0, 1#32), (1, 0x3FF00000#32), (3, 0x40000000#32)], 1#32, 0#5),
    (.dfma { ext := true, d := 8#7, a := 0#7, b := 0x64#7, c := 0#9, ty := 14#5 }, [(0, 1#32), (1, 0x3FF00000#32)], 1#32, 0#5),
    (.hadd2 { ext := true, d := 8#7, a := 0#7, b := 0#7, ty := 1#5 }, [(0, 0x40003C00#32)], 0x44004000#32, 0#5),
    (.hfma2 { ext := true, d := 8#7, a := 0#7, b := 0#7, c := 0#9, ty := 1#5 }, [(0, 0x40003C00#32)], 0x46004000#32, 0#5)] = true := by decide +kernel

/-- 10 R156 and R157: exact results and special operands. -/
theorem test_value_special_functions : givesF [
    (.frcp { d := 8#7, a := 0#7 }, [(0, 0x40000000#32)], 0x3F000000#32, 0#5),
    (.frsq { d := 8#7, a := 0#7 }, [(0, 0x80000000#32)], 0xFF800000#32, flagDZ),
    (.fsqrt { d := 8#7, a := 0#7 }, [(0, 0x40800000#32)], 0x40000000#32, 0#5),
    (.fexp2 { d := 8#7, a := 0#7 }, [(0, 0x40400000#32)], 0x41000000#32, 0#5),
    (.flog2 { d := 8#7, a := 0#7 }, [(0, 0x41000000#32)], 0x40400000#32, 0#5),
    (.fsin { d := 8#7, a := 0#7 }, [(0, 0x80000000#32)], 0x80000000#32, 0#5),
    (.fcos { d := 8#7, a := 0#7 }, [(0, 0#32)], 0x3F800000#32, 0#5),
    (.ftanh { d := 8#7, a := 0#7 }, [(0, 0xFF800000#32)], 0xBF800000#32, 0#5)] = true := by decide +kernel

/-- 10 R156: the references of the error bounds, rounded: 1/3, 1/√2, √2, log2 3, sin 1, cos 1, tanh 1, and sin of the value nearest 10^30, whose
argument reduction must be exact; and what is one and two units beyond a bound. -/
theorem test_sfu_reference :
    ([(8, 0x40400000, 0x3EAAAAAB), (9, 0x40000000, 0x3F3504F3), (11, 0x3F000000, 0x3FB504F3), (12, 0x40400000, 0x3FCAE00D), (13, 0x3F800000, 0x3F576AA4),
        (14, 0x3F800000, 0x3F0A5140), (15, 0x3F800000, 0x3F42F7D6), (13, 0x7149F2CA, 0xBF4A89B0)].all (fun p => match floatVal 0 p.2.1 with
      | .num y => (roundFloat 0 0 false 0#32 (sfuReference p.1 y)).bits == p.2.2 && sfuNear p.1 y p.2.2
      | _ => false)) = true
    ∧ ([(8, 0x40400000, 0x3EAAAAAD), (9, 0x40000000, 0x3F3504F6), (11, 0x3F000000, 0x3FB504F0), (15, 0x3F800000, 0x3F42F7DC)].all (fun p =>
      match floatVal 0 p.2.1 with | .num y => !sfuNear p.1 y p.2.2 | _ => false)) = true := by decide +kernel

/-- 08, the worked conversions; 10 R161 to R163, the lines worked to the bit; 10 R164 to R167. -/
theorem test_value_conversions : givesF [
    (.fcvt { ext := true, d := 8#7, a := 0#7, ty := 3#5 }, [(0, 0x3E99999A#32)], 0x2A#32, flagNX),
    (.fcvt { ext := true, d := 8#7, a := 0#7, ty := 7#5 }, [(0, 0x40A00000#32)], 6#32, flagNX),
    (.fcvt { ext := true, d := 8#7, a := 0#7, ty := 4#5 }, [(0, 0x47C35000#32)], 0x7C#32, flagOF ||| flagNX),
    (.fcvt { ext := true, d := 8#7, a := 0#7, ty := 4#5, sat := true }, [(0, 0x47C35000#32)], 0x7B#32, flagOF ||| flagNX),
    (.fcvt { ext := true, d := 8#7, a := 0#7, ty := 3#5 }, [(0, 0x43FA0000#32)], 0x7F#32, flagOF ||| flagNX),
    (.fcvt { ext := true, d := 8#7, a := 0#7, ty := 3#5, sat := true }, [(0, 0xC3FA0000#32)], 0xFE#32, flagOF ||| flagNX),
    (.fcvt { ext := true, d := 8#7, a := 0#7, ty := 8#5 }, [(0, 0x40200000#32)], 0x15#32, flagNX),
    (.fcvt { ext := true, d := 8#7, a := 0#7, imm := 3#23 }, [(0, 0x12A#32)], 0x3EA00000#32, 0#5),
    (.f2i { ext := true, d := 8#7, a := 0#7, ty := 4#5, rm := 1#3 }, [(0, 0xC0200000#32)], 0xFFFFFFFE#32, flagNX),
    (.f2i { ext := true, d := 8#7, a := 0#7, ty := 4#5 }, [(0, 0x7F800000#32)], 0x7FFFFFFF#32, flagNV ||| flagNX),
    (.i2f { ext := true, d := 8#7, a := 0#7, ty := 7#5, imm := 4#23 }, [(0, 5#32)], 6#32, flagNX),
    (.i2f { ext := true, d := 8#7, a := 0#7, ty := 3#5, imm := 4#23 }, [(0, 1000#32)], 0x7F#32, flagOF ||| flagNX),
    (.qdot4 { ext := true, d := 8#7, a := 0#7, b := 1#7, c := 2#9, ty := 10#5 }, [(0, 0xFF020304#32), (1, 0x01010101#32), (2, 100#32)], 108#32, 0#5),
    (.pack { ext := true, d := 8#7, a := 0#7, b := 1#7, ty := 3#5, sat := true }, [(0, 0x3E99999A#32), (1, 0x40A00000#32)], 0x4A2A#32, flagNX),
    (.pack { ext := true, d := 8#7, a := 0#7, b := 1#7, c := 8#9, ty := 3#5, sat := true, imm := 1#23 },
      [(0, 0x3EAAAAAB#32), (1, 0xC3FA0000#32), (8, 0x4A2A#32)], 0xFE2B4A2A#32, flagOF ||| flagNX),
    (.unpack { ext := true, d := 8#7, a := 0#7, ty := 3#5, imm := 1#23 }, [(0, 0xFE2B4A2A#32)], 0x3EB00000#32, 0#5)] = true := by decide +kernel

/-! ## Witnesses: for each statement with hypotheses, a state and operands that meet them together -/

theorem clean_of {s : State} {o : Op} {f : Form} (h : (cleanIssue s o f).isSome = true) : ∃ i, Clean s o f i :=
  (Option.isSome_iff_exists.mp h).imp (fun _ hi => clean_of_issue hi)

theorem any_some {α : Type} {x : Option α} {q : α → Bool} (h : x.any q = true) : ∃ i, x = some i ∧ q i = true := by
  cases x with
  | none => cases h
  | some i => exact ⟨i, rfl, h⟩

theorem clean_with {s : State} {o : Op} {f : Form} {P : Issue → Prop} [DecidablePred P]
    (h : (cleanIssue s o f).any (fun i => decide (P i)) = true) : ∃ i, Clean s o f i ∧ P i := by
  obtain ⟨i, hi, hp⟩ := any_some h
  exact ⟨i, clean_of_issue hi, of_decide_eq_true hp⟩

theorem quiet_with {s : State} {o : Op} {f : Form} {P : Issue → Prop} [DecidablePred P]
    (h : (cleanIssue s o f).any (fun i => i.t.fpxen == 0#5 && decide (P i)) = true) : ∃ i, Quiet s o f i ∧ P i := by
  obtain ⟨i, hi, hp⟩ := any_some h
  obtain ⟨h1, h2⟩ := Bool.and_eq_true_iff.mp hp
  exact ⟨i, ⟨clean_of_issue hi, eq_of_beq h1⟩, of_decide_eq_true h2⟩

theorem clean_all {s : State} {ps : List (Op × Form)} (h : ps.all (fun p => (cleanIssue s p.1 p.2).isSome) = true) :
    ∀ p ∈ ps, ∃ i, Clean s p.1 p.2 i := fun p hp => clean_of (List.all_eq_true.mp h p hp)

theorem clean_all_with {s : State} {ps : List (Op × Form)} {P : Issue → Prop} [DecidablePred P]
    (h : ps.all (fun p => (cleanIssue s p.1 p.2).any (fun i => decide (P i))) = true) : ∀ p ∈ ps, ∃ i, Clean s p.1 p.2 i ∧ P i :=
  fun p hp => clean_with (List.all_eq_true.mp h p hp)

theorem quiet_all_with {s : State} {ps : List (Op × Form)} {P : Issue → Prop} [DecidablePred P]
    (h : ps.all (fun p => (cleanIssue s p.1 p.2).any (fun i => i.t.fpxen == 0#5 && decide (P i))) = true) :
    ∀ p ∈ ps, ∃ i, Quiet s p.1 p.2 i ∧ P i := fun p hp => quiet_with (List.all_eq_true.mp h p hp)

theorem quiet_all {s : State} {ps : List (Op × Form)}
    (h : ps.all (fun p => (cleanIssue s p.1 p.2).any (fun i => i.t.fpxen == 0#5 && decide True)) = true) : ∀ p ∈ ps, ∃ i, Quiet s p.1 p.2 i :=
  fun p hp => (quiet_all_with h p hp).imp (fun _ q => q.1)

/-- Whether a place is in HBM. -/
def isHbm : Xl → Bool | .hbm _ => true | _ => false

/-- The four lanes with the last two PARKed; granules full; a barrier word that expects one arrival; a DETERMINISTIC launch; and the
firmware slot's team. -/
def stateHalf : State :=
  testState (testTeam (testGroup (lanes4.map (fun p => (p.1, if p.1 < 2 then p.2 else { p.2 with st := .park, wait := .parkFull 0#32 }))) 0 0))
def stateFull : State := { state4 with cores := [(0, { full := [(0, true), (1, true), (2, true), (3, true)] })] }
def stateBar : State := { state1 with cores := [(0, { sram := [(6, 1#8)] })] }
def stateDet : State :=
  { state4 with launches := [(1, { obj := 1, kernel := 0, ltag := 1, owner := 1, det := true, clusters := [{ key := 0, state := 1, cores := [0] }] })] }
def stateDetPeer : State :=
  { stateDet with pages := [{ owner := 1, va := 0x20000, size := 0x10000, target := .peer 7 0 0 }] }
def stateFirm : State := testState (testTeam (testGroup lanes4 5 15))

/-- A clean issue of each. -/
theorem test_meets_IntegerArithmeticResults : ∀ p ∈ ([(.iadd, { d := 0x8#7, a := 0x0#7, b := 0x3#7 }), (.isub, { d := 0x8#7, a := 0x0#7, b := 0x3#7 }), (.imul, { d := 0x8#7, a := 0x0#7, b := 0x3#7 }), (.imad, { d := 0x8#7, a := 0x0#7, b := 0x3#7 }), (.imin, { d := 0x8#7, a := 0x0#7, b := 0x3#7 }), (.imax, { d := 0x8#7, a := 0x0#7, b := 0x3#7 }), (.iabs, { d := 0x8#7, a := 0x0#7 }), (.ineg, { d := 0x8#7, a := 0x0#7 })] : List (Op × Form)), ∃ i, Clean state4 p.1 p.2 i :=
  clean_all (by decide +kernel)

/-- A clean issue of each. -/
theorem test_meets_LogicShiftAndBitResults : ∀ p ∈ ([(.and, { d := 0x8#7, a := 0x0#7, b := 0x3#7 }), (.or, { d := 0x8#7, a := 0x0#7, b := 0x3#7 }), (.xor, { d := 0x8#7, a := 0x0#7, b := 0x3#7 }), (.andn, { d := 0x8#7, a := 0x0#7, b := 0x3#7 }), (.not, { d := 0x8#7, a := 0x0#7 }), (.shl, { d := 0x8#7, a := 0x0#7, b := 0x3#7 }), (.shr, { d := 0x8#7, a := 0x0#7, b := 0x3#7 }), (.sar, { d := 0x8#7, a := 0x0#7, b := 0x3#7 }), (.rot, { d := 0x8#7, a := 0x0#7, b := 0x3#7 }), (.popc, { d := 0x8#7, a := 0x0#7 }), (.clz, { d := 0x8#7, a := 0x0#7 }), (.ctz, { d := 0x8#7, a := 0x0#7 }), (.brev, { d := 0x8#7, a := 0x0#7 }), (.bfx, { d := 0x8#7, a := 0x0#7, b := 0x3#7 }), (.bfi, { d := 0x8#7, a := 0x0#7, b := 0x3#7 }), (.perm, { d := 0x8#7, a := 0x0#7, b := 0x3#7 }), (.sel, { ext := true, d := 0x8#7, a := 0x0#7, b := 0x3#7, c := 0x3#9 })] : List (Op × Form)), ∃ i, Clean state4 p.1 p.2 i :=
  clean_all (by decide +kernel)

/-- A clean issue of each. -/
theorem test_meets_CompareAndAddressResults : ∀ p ∈ ([(.icmp, { d := 0x4#7, a := 0x0#7, b := 0x3#7 }), (.lea, { d := 0x8#7, a := 0x0#7, b := 0x3#7 })] : List (Op × Form)), ∃ i, Clean state4 p.1 p.2 i :=
  clean_all (by decide +kernel)

/-- A clean issue of each. -/
theorem test_meets_PredicateInstructionResults : ∀ p ∈ ([(.pand, { d := 0x4#7, a := 0x0#7, b := 0x3#7 }), (.por, { d := 0x4#7, a := 0x0#7, b := 0x3#7 }), (.pxor, { d := 0x4#7, a := 0x0#7, b := 0x3#7 }), (.pnot, { d := 0x4#7, a := 0x0#7 }), (.pmov, { d := 0x4#7, a := 0x0#7 }), (.nop, {})] : List (Op × Form)), ∃ i, Clean state4 p.1 p.2 i :=
  clean_all (by decide +kernel)

/-- A clean issue of each. -/
theorem test_meets_ScalarResults : ∀ p ∈ ([(.sadd, { d := 0x44#7, a := 0x41#7, b := 0x41#7 }), (.ssub, { d := 0x44#7, a := 0x41#7, b := 0x41#7 }), (.smul, { d := 0x44#7, a := 0x41#7, b := 0x41#7 }), (.sand, { d := 0x44#7, a := 0x41#7, b := 0x41#7 }), (.sor, { d := 0x44#7, a := 0x41#7, b := 0x41#7 }), (.sxor, { d := 0x44#7, a := 0x41#7, b := 0x41#7 }), (.sshl, { d := 0x44#7, a := 0x41#7, b := 0x41#7 }), (.sshr, { d := 0x44#7, a := 0x41#7, b := 0x41#7 }), (.smov, { d := 0x44#7, a := 0x41#7 }), (.scmp, { d := 0x4#7, a := 0x41#7, b := 0x41#7 }), (.bcast, { d := 0x8#7, a := 0x41#7 }), (.readlane, { d := 0x44#7, a := 0x0#7, b := 0x41#7 })] : List (Op × Form)), ∃ i, Clean state4 p.1 p.2 i :=
  clean_all (by decide +kernel)

/-- A clean issue of each, the folds of integers. -/
theorem test_meets_CrossLaneAndFoldResults : ∀ p ∈ ([(.shfl, { d := 0x8#7, a := 0x0#7, b := 0x3#7 }), (.vote, { d := 0x4#7, a := 0x0#7 }), (.matchLanes, { d := 0x8#7, a := 0x0#7 }), (.elect, { d := 0x4#7 }), (.redux, { d := 0x8#7, a := 0x0#7 }), (.scanx, { d := 0x8#7, a := 0x0#7 })] : List (Op × Form)), ∃ i, Clean state4 p.1 p.2 i :=
  clean_all (by decide +kernel)

/-- The folds of floats, F = 1. -/
theorem test_meets_CrossLaneAndFoldResults_float : ∀ p ∈ [(Op.redux, ({ ext := true, d := 8#7, a := 4#7, sub := 0x80#8 } : Form)), (Op.scanx, { ext := true, d := 8#7, a := 4#7, sub := 0x82#8, ty := 1#5 })],
    p.2.sub.toNat / 128 = 1 ∧ ∃ i, Quiet state4 p.1 p.2 i :=
  fun p h => ⟨by revert p; decide, quiet_all (by decide +kernel) p h⟩

/-- A quiet issue of each. -/
theorem test_meets_FloatArithmeticResults : ∀ p ∈ ([(.fadd, { d := 0x8#7, a := 0x0#7, b := 0x3#7 }), (.fsub, { d := 0x8#7, a := 0x0#7, b := 0x3#7 }), (.fmul, { d := 0x8#7, a := 0x0#7, b := 0x3#7 }), (.ffma, { d := 0x8#7, a := 0x0#7, b := 0x3#7 }), (.dadd, { ext := true, d := 0x8#7, a := 0x0#7, b := 0x4#7, ty := 0xE#5 }), (.dmul, { ext := true, d := 0x8#7, a := 0x0#7, b := 0x4#7, ty := 0xE#5 }), (.dfma, { ext := true, d := 0x8#7, a := 0x0#7, b := 0x4#7, c := 0x4#9, ty := 0xE#5 }), (.hadd2, { ext := true, d := 0x8#7, a := 0x0#7, b := 0x3#7, ty := 0x1#5 }), (.hfma2, { ext := true, d := 0x8#7, a := 0x0#7, b := 0x3#7, c := 0x3#9, ty := 0x1#5 }), (.fmin, { d := 0x8#7, a := 0x0#7, b := 0x3#7 }), (.fmax, { d := 0x8#7, a := 0x0#7, b := 0x3#7 }), (.fcmp, { d := 0x4#7, a := 0x0#7, b := 0x3#7 })] : List (Op × Form)), ∃ i, Quiet state4 p.1 p.2 i :=
  quiet_all (by decide +kernel)

/-- A clean issue of FCLASS. -/
theorem test_meets_FloatArithmeticResults_class : ∀ p ∈ ([(.fclass, { d := 0x8#7, a := 0x0#7 })] : List (Op × Form)), ∃ i, Clean state4 p.1 p.2 i :=
  clean_all (by decide +kernel)

/-- A quiet issue of each. -/
theorem test_meets_SpecialFunctionAndConversionResults : ∀ p ∈ ([(.frcp, { d := 0x8#7, a := 0x0#7 }), (.frsq, { d := 0x8#7, a := 0x0#7 }), (.fexp2, { d := 0x8#7, a := 0x0#7 }), (.flog2, { d := 0x8#7, a := 0x0#7 }), (.fsin, { d := 0x8#7, a := 0x0#7 }), (.fcos, { d := 0x8#7, a := 0x0#7 }), (.ftanh, { d := 0x8#7, a := 0x0#7 }), (.fsqrt, { d := 0x8#7, a := 0x0#7 }), (.fcvt, { d := 0x8#7, a := 0x0#7 }), (.f2i, { d := 0x8#7, a := 0x0#7 }), (.i2f, { d := 0x8#7, a := 0x0#7 }), (.qdot4, { ext := true, d := 0x8#7, a := 0x0#7, b := 0x3#7, c := 0x3#9, ty := 0xA#5 })] : List (Op × Form)), ∃ i, Quiet state4 p.1 p.2 i :=
  quiet_all (by decide +kernel)

/-- TRI5, the last pair of PACK and the first of UNPACK. -/
theorem test_meets_PackAndUnpackResults : (∃ i, Quiet state4 .pack { ext := true, d := 8#7, a := 4#7, b := 5#7, c := 3#9, ty := 9#5, imm := 9#23 } i
      ∧ ∀ p ∈ i.active, triBad (low32 (i.srcs (launchOf state4 i.t) p.1 p.2).c).toNat 18 = false ∧ triBad (low32 (i.srcs (launchOf state4 i.t) p.1 p.2).c).toNat 19 = false)
    ∧ (∃ i, Clean state4 .unpack { ext := true, d := 8#7, a := 3#7, ty := 9#5 } i
      ∧ ∀ p ∈ i.active, triBad (low32 (i.srcs (launchOf state4 i.t) p.1 p.2).a).toNat 0 = false ∧ triBad (low32 (i.srcs (launchOf state4 i.t) p.1 p.2).a).toNat 1 = false) :=
  ⟨quiet_with (by decide +kernel), clean_with (by decide +kernel)⟩

/-- A clean issue of each. -/
theorem test_meets_WindowAndAllotmentResults : ∀ p ∈ ([(.awset, { ext := true, d := 0x2#7, a := 0x0#7, imm := 0x100#23 }), (.reggrow, { ext := true, imm := 0x100#23 }), (.regshrink, { ext := true, imm := 0x100#23 })] : List (Op × Form)), ∃ i, Clean state4 p.1 p.2 i :=
  clean_all (by decide +kernel)

/-- A clean issue of each and a lane of its issue set, under stochastic rounding for the floats. -/
theorem test_meets_EveryIssuePushesAndCounts : (∀ p ∈ ([(.imul, { d := 0x8#7, a := 0x0#7, b := 0x3#7 }), (.lea, { d := 0x8#7, a := 0x0#7, b := 0x3#7 }), (.pand, { d := 0x4#7, a := 0x0#7, b := 0x3#7 })] : List (Op × Form)), ∃ i, Clean state4 p.1 p.2 i ∧ (i.lane 3).isSome = true ∧ hasLane i.m 3 = true)
    ∧ (∀ p ∈ ([(.fadd, { d := 0x8#7, a := 0x0#7, b := 0x3#7, ext := true, rm := 0x5#3 }), (.fmul, { d := 0x8#7, a := 0x0#7, b := 0x3#7, ext := true, rm := 0x5#3 }), (.ffma, { d := 0x8#7, a := 0x0#7, b := 0x3#7, ext := true, rm := 0x5#3 })] : List (Op × Form)), ∃ i, Quiet state4 p.1 p.2 i ∧ (i.lane 3).isSome = true ∧ hasLane i.m 3 = true)
    ∧ ∀ p ∈ ([(.iadd, { d := 0x8#7, a := 0x0#7, b := 0x3#7 }), (.isub, { d := 0x8#7, a := 0x0#7, b := 0x3#7 }), (.imul, { d := 0x8#7, a := 0x0#7, b := 0x3#7 }), (.imad, { d := 0x8#7, a := 0x0#7, b := 0x3#7 }), (.imin, { d := 0x8#7, a := 0x0#7, b := 0x3#7 }), (.imax, { d := 0x8#7, a := 0x0#7, b := 0x3#7 }), (.iabs, { d := 0x8#7, a := 0x0#7 }), (.ineg, { d := 0x8#7, a := 0x0#7 }), (.and, { d := 0x8#7, a := 0x0#7, b := 0x3#7 }), (.or, { d := 0x8#7, a := 0x0#7, b := 0x3#7 }), (.xor, { d := 0x8#7, a := 0x0#7, b := 0x3#7 }), (.andn, { d := 0x8#7, a := 0x0#7, b := 0x3#7 }), (.not, { d := 0x8#7, a := 0x0#7 }), (.shl, { d := 0x8#7, a := 0x0#7, b := 0x3#7 }), (.shr, { d := 0x8#7, a := 0x0#7, b := 0x3#7 }), (.sar, { d := 0x8#7, a := 0x0#7, b := 0x3#7 }), (.rot, { d := 0x8#7, a := 0x0#7, b := 0x3#7 }), (.popc, { d := 0x8#7, a := 0x0#7 }), (.clz, { d := 0x8#7, a := 0x0#7 }), (.ctz, { d := 0x8#7, a := 0x0#7 }), (.brev, { d := 0x8#7, a := 0x0#7 }), (.bfx, { d := 0x8#7, a := 0x0#7, b := 0x3#7 }), (.bfi, { d := 0x8#7, a := 0x0#7, b := 0x3#7 }), (.perm, { d := 0x8#7, a := 0x0#7, b := 0x3#7 }), (.sel, { ext := true, d := 0x8#7, a := 0x0#7, b := 0x3#7, c := 0x3#9 }), (.icmp, { d := 0x4#7, a := 0x0#7, b := 0x3#7 }), (.lea, { d := 0x8#7, a := 0x0#7, b := 0x3#7 }), (.pand, { d := 0x4#7, a := 0x0#7, b := 0x3#7 }), (.por, { d := 0x4#7, a := 0x0#7, b := 0x3#7 }), (.pxor, { d := 0x4#7, a := 0x0#7, b := 0x3#7 }), (.pnot, { d := 0x4#7, a := 0x0#7 }), (.pmov, { d := 0x4#7, a := 0x0#7 }), (.shfl, { d := 0x8#7, a := 0x0#7, b := 0x3#7 }), (.vote, { d := 0x4#7, a := 0x0#7 }), (.redux, { d := 0x8#7, a := 0x0#7 }), (.scanx, { d := 0x8#7, a := 0x0#7 }), (.matchLanes, { d := 0x8#7, a := 0x0#7 }), (.elect, { d := 0x4#7 }), (.fadd, { d := 0x8#7, a := 0x0#7, b := 0x3#7 }), (.fsub, { d := 0x8#7, a := 0x0#7, b := 0x3#7 }), (.fmul, { d := 0x8#7, a := 0x0#7, b := 0x3#7 }), (.ffma, { d := 0x8#7, a := 0x0#7, b := 0x3#7 }), (.fmin, { d := 0x8#7, a := 0x0#7, b := 0x3#7 }), (.fmax, { d := 0x8#7, a := 0x0#7, b := 0x3#7 }), (.fcmp, { d := 0x4#7, a := 0x0#7, b := 0x3#7 }), (.fclass, { d := 0x8#7, a := 0x0#7 }), (.frcp, { d := 0x8#7, a := 0x0#7 }), (.frsq, { d := 0x8#7, a := 0x0#7 }), (.fsqrt, { d := 0x8#7, a := 0x0#7 }), (.fexp2, { d := 0x8#7, a := 0x0#7 }), (.flog2, { d := 0x8#7, a := 0x0#7 }), (.fsin, { d := 0x8#7, a := 0x0#7 }), (.fcos, { d := 0x8#7, a := 0x0#7 }), (.ftanh, { d := 0x8#7, a := 0x0#7 }), (.dadd, { ext := true, d := 0x8#7, a := 0x0#7, b := 0x4#7, ty := 0xE#5 }), (.dmul, { ext := true, d := 0x8#7, a := 0x0#7, b := 0x4#7, ty := 0xE#5 }), (.dfma, { ext := true, d := 0x8#7, a := 0x0#7, b := 0x4#7, c := 0x4#9, ty := 0xE#5 }), (.hadd2, { ext := true, d := 0x8#7, a := 0x0#7, b := 0x3#7, ty := 0x1#5 }), (.hfma2, { ext := true, d := 0x8#7, a := 0x0#7, b := 0x3#7, c := 0x3#9, ty := 0x1#5 }), (.fcvt, { d := 0x8#7, a := 0x0#7 }), (.f2i, { d := 0x8#7, a := 0x0#7 }), (.i2f, { d := 0x8#7, a := 0x0#7 }), (.qdot4, { ext := true, d := 0x8#7, a := 0x0#7, b := 0x3#7, c := 0x3#9, ty := 0xA#5 }), (.pack, { ext := true, d := 0x8#7, a := 0x0#7, b := 0x3#7, c := 0x3#9, ty := 0x3#5 }), (.unpack, { ext := true, d := 0x8#7, a := 0x0#7, ty := 0x3#5 })] : List (Op × Form)), p.1 ∈ computeOps ∧ p.2.ty ≠ 9#5 ∧ ∃ i, Quiet state4 p.1 p.2 i ∧ (i.lane 3).isSome = true ∧ hasLane i.m 3 = true :=
  ⟨clean_all_with (by decide +kernel), quiet_all_with (by decide +kernel), fun p h => ⟨by revert p; decide, by revert p; decide, quiet_all_with (by decide +kernel) p h⟩⟩

/-- A clean request, and a launch of one iteration. -/
theorem test_meets_WorkNextHandsOutThePieces : (∃ i, Clean state4 .worknext { d := 0x44#7 } i) ∧ ∃ l : Launch, 1 ≤ l.gx ∧ 1 ≤ l.gy ∧ 1 ≤ l.gz ∧ 1 ≤ l.iter ∧ 1 ≤ l.tile ∧ 0 < l.iter :=
  ⟨clean_of (by decide +kernel), { obj := 1, kernel := 0, ltag := 1, iter := 1, tile := 1 }, by decide⟩

/-- A clean issue of each, below the depth limit. -/
theorem test_meets_BranchesMoveTheLanes : (∀ p ∈ ([(.br, {}), (.jmpDirect, {}), (.jmpRegister, { ext := true, a := 0x0#7, sub := 0x1#8 })] : List (Op × Form)), ∃ i, Clean state4 p.1 p.2 i)
    ∧ ∀ p ∈ ([(.call, {}), (.calli, { a := 0x0#7 })] : List (Op × Form)), ∃ i, Clean state4 p.1 p.2 i ∧ ∀ q ∈ i.active, q.2.rstack.length < 1024 :=
  ⟨clean_all (by decide +kernel), clean_all_with (by decide +kernel)⟩

/-- A clean issue of each. -/
theorem test_meets_ReturnExitNextAndYield : ∀ p ∈ ([(.ret, {}), (.exit, {}), (.next, {}), (.yield, {})] : List (Op × Form)), ∃ i, Clean state4 p.1 p.2 i :=
  clean_all (by decide +kernel)

/-- Waits on the window of the team. -/
theorem test_meets_WaitsAndTheirReleases : (∃ i, Clean state4 .park { a := 0x2#7, b := 0x3#7 } i ∧ ∀ p ∈ i.active, (sramCheck state4 i.t (low32 (i.srcs (launchOf state4 i.t) p.1 p.2).a + BitVec.ofInt 32 0) 4 false).toOption.isSome = true)
    ∧ (∃ i, Clean state4 .parkFull { ext := true, a := 0x2#7, sub := 0x1#8 } i ∧ ∀ p ∈ i.active, (sramCheck state4 i.t (low32 (i.srcs (launchOf state4 i.t) p.1 p.2).a + BitVec.ofInt 32 0) 1 false).toOption.isSome = true)
    ∧ (∃ i, Clean state4 .barwait { a := 0x2#7, b := 0x3#7 } i ∧ ∀ p ∈ i.active, (sramCheck state4 i.t (low32 (i.srcs (launchOf state4 i.t) p.1 p.2).a + BitVec.ofInt 32 0) 8 false).toOption.isSome = true)
    ∧ (∃ i, Clean state4 .barsync {} i) :=
  ⟨clean_with (by decide +kernel), clean_with (by decide +kernel), clean_with (by decide +kernel), clean_of (by decide +kernel)⟩

/-- SYNCM of all four lanes, and of two lanes that name the two that do not stand there. -/
theorem test_meets_WaitsAndTheirReleases_syncm : (∃ i, Clean state4 .syncm { b := 0x6A#7, lit := some 0xF#64 } i ∧ (∀ p ∈ i.active, low32 (i.srcs (launchOf state4 i.t) p.1 p.2).b = i.on)
      ∧ (∀ k, k < 32 → hasLane i.on k = true → (i.lane k).isSome = true) ∧ i.l16 = false)
    ∧ (∃ i, Clean stateHalf .syncm { b := 0x6A#7, lit := some 0xF#64 } i ∧ i.l16 = false ∧ ∀ p ∈ i.active,
        hasLane (low32 (i.srcs (launchOf stateHalf i.t) p.1 p.2).b) p.1 = true
        ∧ (∀ k, k < 32 → hasLane (low32 (i.srcs (launchOf stateHalf i.t) p.1 p.2).b) k = true → (i.lane k).isSome = true)
        ∧ ∃ k, k < 4 ∧ hasLane (low32 (i.srcs (launchOf stateHalf i.t) p.1 p.2).b) k = true ∧ hasLane i.m k = false
            ∧ (i.lane k).bind syncMask = none ∧ (i.lane k).isSome = true) :=
  ⟨clean_with (by decide +kernel), clean_with (by decide +kernel)⟩

/-- Loads whose places are found. -/
theorem test_meets_LoadsReadTheirBytes : (∃ i, Clean state4 .ld { d := 0x8#7, a := 0x0#7 } i ∧ ∀ p ∈ i.active, (globalPlace state4 { d := 0x8#7, a := 0x0#7 } i 4 .read p).isSome = true)
    ∧ (∃ i, Clean state4 .ldnt { d := 0x8#7, a := 0x0#7 } i ∧ ∀ p ∈ i.active, (globalPlace state4 { d := 0x8#7, a := 0x0#7 } i 4 .read p).isSome = true)
    ∧ (∃ i, Clean state4 .ldm { d := 0x8#7, a := 0x2#7 } i ∧ ∀ p ∈ i.active, (slicePlace state4 { d := 0x8#7, a := 0x2#7 } i 4 false p).isSome = true) :=
  ⟨clean_with (by decide +kernel), clean_with (by decide +kernel), clean_with (by decide +kernel)⟩

/-- Stores whose places are found. -/
theorem test_meets_StoresWriteTheirBytes : (∃ i, Clean state4 .st { a := 0x0#7, b := 0x3#7 } i ∧ ∀ p ∈ i.active, (globalPlace state4 { a := 0x0#7, b := 0x3#7 } i 4 .write p).isSome = true)
    ∧ (∃ i, Clean state4 .stnt { a := 0x0#7, b := 0x3#7 } i ∧ ∀ p ∈ i.active, (globalPlace state4 { a := 0x0#7, b := 0x3#7 } i 4 .write p).isSome = true ∧ ∀ p ∈ i.active, (globalPlace state4 { a := 0x0#7, b := 0x3#7 } i 4 .write p).any (detPeer state4 i.t) = false)
    ∧ (∃ i, Clean state4 .stm { a := 0x2#7, b := 0x3#7 } i ∧ ∀ p ∈ i.active, (slicePlace state4 { a := 0x2#7, b := 0x3#7 } i 4 true p).isSome = true) :=
  ⟨clean_with (by decide +kernel), clean_with (by decide +kernel), clean_with (by decide +kernel)⟩

/-- LDFE .clr on full granules and on empty ones, and STFE. -/
theorem test_meets_FullEmptyAccesses : (∃ i, Clean stateFull .ldfe { ext := true, d := 8#7, a := 2#7, sub := 8#8 } i ∧ (∀ p ∈ i.active, (slicePlace stateFull { ext := true, d := 8#7, a := 2#7, sub := 8#8 } i 4 true p).isSome = true)
      ∧ (∀ p ∈ i.active, (slicePlace stateFull { ext := true, d := 8#7, a := 2#7, sub := 8#8 } i 4 true p).any (fun q => granuleFull stateFull q.1 q.2) = true)
      ∧ (∀ p ∈ i.active, ∀ q ∈ i.active, p.1 ≠ q.1 → ((slicePlace stateFull { ext := true, d := 8#7, a := 2#7, sub := 8#8 } i 4 true p).bind (fun x =>
          (slicePlace stateFull { ext := true, d := 8#7, a := 2#7, sub := 8#8 } i 4 true q).map (fun y => decide (x.1 = y.1 ∧ x.2 / 16 = y.2 / 16)))) = some false)
      ∧ (i.g.lanes.map Prod.fst).Nodup ∧ i.g.lease.any (fun le => !le.susp) = true ∧ (∀ p ∈ i.g.lanes, hasLane i.m p.1 = true → p.2.wait = .none))
    ∧ (∃ i, Clean state4 .ldfe { ext := true, d := 8#7, a := 2#7, sub := 8#8 } i ∧ (∀ p ∈ i.active, (slicePlace state4 { ext := true, d := 8#7, a := 2#7, sub := 8#8 } i 4 true p).isSome = true)
      ∧ (∃ p ∈ i.active, i.lane p.1 = some p.2 ∧ (slicePlace state4 { ext := true, d := 8#7, a := 2#7, sub := 8#8 } i 4 true p).any (fun q => !granuleFull state4 q.1 q.2) = true)
      ∧ (i.g.lanes.map Prod.fst).Nodup)
    ∧ (∃ i, Clean state4 .stfe { a := 0x2#7, b := 0x3#7 } i ∧ ∀ p ∈ i.active, (slicePlace state4 { a := 0x2#7, b := 0x3#7 } i 4 true p).isSome = true ∧ (i.g.lanes.map Prod.fst).Nodup ∧ i.g.lease.any (fun le => !le.susp) = true ∧ ∀ p ∈ i.g.lanes, hasLane i.m p.1 = true → p.2.wait = .none) :=
  ⟨clean_with (by decide +kernel), clean_with (by decide +kernel), clean_with (by decide +kernel)⟩

/-- Atomics on four places apart from one another, in HBM and in the window. -/
theorem test_meets_AtomicsReadModifyWrite : (∃ i, Clean state4 .atom { d := 0x8#7, a := 0x0#7, b := 0x3#7 } i ∧ (launchOf state4 i.t).det = false ∧ (∀ p ∈ i.active, (globalPlace state4 { d := 0x8#7, a := 0x0#7, b := 0x3#7 } i 4 .atomic p).any isHbm = true)
      ∧ (∀ p ∈ i.active, ∀ q ∈ i.active, p.1 ≠ q.1 → globalPlace state4 { d := 0x8#7, a := 0x0#7, b := 0x3#7 } i 4 .atomic p ≠ globalPlace state4 { d := 0x8#7, a := 0x0#7, b := 0x3#7 } i 4 .atomic q ∧
          ((i.srcs (launchOf state4 i.t) p.1 p.2).a.toNat + 4 ≤ (i.srcs (launchOf state4 i.t) q.1 q.2).a.toNat ∨ (i.srcs (launchOf state4 i.t) q.1 q.2).a.toNat + 4 ≤ (i.srcs (launchOf state4 i.t) p.1 p.2).a.toNat))
      ∧ (i.g.lanes.map Prod.fst).Nodup)
    ∧ (∃ i, Clean state4 .atom { d := 0x8#7, a := 0x2#7, b := 0x3#7, ext := true, hint := 0x1#2 } i ∧ (launchOf state4 i.t).det = false ∧ (∀ p ∈ i.active, (slicePlace state4 { d := 0x8#7, a := 0x2#7, b := 0x3#7, ext := true, hint := 0x1#2 } i 4 true p).isSome = true)
      ∧ (∀ p ∈ i.active, ∀ q ∈ i.active, p.1 ≠ q.1 → ((slicePlace state4 { d := 0x8#7, a := 0x2#7, b := 0x3#7, ext := true, hint := 0x1#2 } i 4 true p).bind (fun x =>
          (slicePlace state4 { d := 0x8#7, a := 0x2#7, b := 0x3#7, ext := true, hint := 0x1#2 } i 4 true q).map (fun y => decide (x.1 = y.1 ∧ x.2 < y.2 + 4 ∧ y.2 < x.2 + 4)))) = some false)
      ∧ (i.g.lanes.map Prod.fst).Nodup)
    ∧ (∃ i, Clean state4 .red { a := 0x0#7, b := 0x3#7 } i ∧ (launchOf state4 i.t).det = false ∧ (∀ p ∈ i.active, (globalPlace state4 { a := 0x0#7, b := 0x3#7 } i 4 .atomic p).any isHbm = true)
      ∧ (∀ p ∈ i.active, ∀ q ∈ i.active, p.1 ≠ q.1 → globalPlace state4 { a := 0x0#7, b := 0x3#7 } i 4 .atomic p ≠ globalPlace state4 { a := 0x0#7, b := 0x3#7 } i 4 .atomic q ∧
          ((i.srcs (launchOf state4 i.t) p.1 p.2).a.toNat + 4 ≤ (i.srcs (launchOf state4 i.t) q.1 q.2).a.toNat ∨ (i.srcs (launchOf state4 i.t) q.1 q.2).a.toNat + 4 ≤ (i.srcs (launchOf state4 i.t) p.1 p.2).a.toNat))
      ∧ (i.g.lanes.map Prod.fst).Nodup)
    ∧ (∃ i, Clean state4 .red { a := 0x2#7, b := 0x3#7, ext := true, hint := 0x1#2 } i ∧ (launchOf state4 i.t).det = false ∧ (∀ p ∈ i.active, (slicePlace state4 { a := 0x2#7, b := 0x3#7, ext := true, hint := 0x1#2 } i 4 true p).isSome = true)
      ∧ (∀ p ∈ i.active, ∀ q ∈ i.active, p.1 ≠ q.1 → ((slicePlace state4 { a := 0x2#7, b := 0x3#7, ext := true, hint := 0x1#2 } i 4 true p).bind (fun x =>
          (slicePlace state4 { a := 0x2#7, b := 0x3#7, ext := true, hint := 0x1#2 } i 4 true q).map (fun y => decide (x.1 = y.1 ∧ x.2 < y.2 + 4 ∧ y.2 < x.2 + 4)))) = some false)
      ∧ (i.g.lanes.map Prod.fst).Nodup) :=
  ⟨clean_with (by decide +kernel), clean_with (by decide +kernel), clean_with (by decide +kernel), clean_with (by decide +kernel)⟩

/-- RED .fadd, ATOM, and STNT to a peer page in a DETERMINISTIC launch. -/
theorem test_meets_DeterministicLaunchesBufferTheirReds : (∃ i, Clean stateDet .red { ext := true, a := 0#7, b := 4#7, sub := 8#8 } i ∧ (launchOf stateDet i.t).det = true ∧ (mapGet stateDet.launches i.t.ref.launch).isSome = true
      ∧ (∀ p ∈ i.active, (globalPlace stateDet { ext := true, a := 0#7, b := 4#7, sub := 8#8 } i 4 .atomic p).any isHbm = true) ∧ 0 + i.active.length ≤ 2 ^ 20)
    ∧ (∃ i, Clean stateDet .atom { d := 0x8#7, a := 0x0#7, b := 0x3#7 } i ∧ (∀ p ∈ i.active, (globalPlace stateDet { d := 0x8#7, a := 0x0#7, b := 0x3#7 } i 4 .atomic p).isSome = true) ∧ (i.lane 3).isSome = true ∧ hasLane i.on 3 = true)
    ∧ (∃ i, Clean stateDetPeer .stnt { a := 0x0#7, b := 0x3#7 } i ∧ (i.lane 3).any (fun l => (globalPlace stateDetPeer { a := 0x0#7, b := 0x3#7 } i 4 .write (3, l)).any isPeer) = true ∧ (i.g.lanes.map Prod.fst).Nodup ∧ hasLane i.on 3 = true) :=
  ⟨clean_with (by decide +kernel), clean_with (by decide +kernel), clean_with (by decide +kernel)⟩

/-- SLD and PLD in HBM, and the hints. -/
theorem test_meets_ScalarLoadsPoolAndHints : (∃ i, Clean state4 .sld { d := 0x44#7, a := 0x40#7 } i ∧ (globalCheck state4 i.t 0x20000 4 .read).toOption.any isHbm = true)
    ∧ (∃ i, Clean state4 .pld { d := 0x44#7, a := 0x41#7 } i ∧ (low64 (scalarSrcs state4 i).a).toNat < (poolOf state4 (launchOf state4 i.t)).2
      ∧ (globalCheck state4 i.t (((poolOf state4 (launchOf state4 i.t)).1 + 16 * (low64 (scalarSrcs state4 i).a).toNat) % 2 ^ 57) 8 .read).toOption.any isHbm = true)
    ∧ (∀ p ∈ ([(.prefetch, { a := 0x0#7 }), (.cctl, { ext := true, a := 0x0#7, hint := 0x1#2 })] : List (Op × Form)), ∃ i, Clean state4 p.1 p.2 i) :=
  ⟨clean_with (by decide +kernel), clean_with (by decide +kernel), clean_all (by decide +kernel)⟩

/-- FENCE.R on a handle and a range, and PUBLISH of the entry that a handle names. -/
theorem test_meets_FencesGoIntoFlight : (∀ p ∈ ([(.fence, {}), (.ntdrain, {})] : List (Op × Form)), ∃ i, Clean state4 p.1 p.2 i ∧ i.on ≠ 0#32)
    ∧ (∃ i, Clean state4 .fenceR { ext := true, a := 1#7, b := 0x40#7, scope := 4#3, imm := 9#23 } i ∧ i.on ≠ 0#32 ∧ (∀ q ∈ fenceItems state4 i, q.1 = 2 → ∀ v ∈ q.2.2, (rangeOf v).isSome = true)
      ∧ (∀ q ∈ fenceItems state4 i, q.1 = 1 → (mapGet i.t.handles q.2.1).isSome = true))
    ∧ (∃ i, Clean state4 .publish { ext := true, a := 2#7, scope := 4#3 } i ∧ i.on ≠ 0#32 ∧ (mapGet i.t.handles 2).bind (publishedOf state4 i.t) = some 3) :=
  ⟨clean_all_with (by decide +kernel), clean_with (by decide +kernel), clean_with (by decide +kernel)⟩

/-- Four lanes with words of their own, and one lane at a barrier word, which expects one arrival and has none. -/
theorem test_meets_BarrierWords : (∃ i, Clean state1 .barinit { a := 0x2#7, b := 0x3#7 } i ∧ ∃ p, i.active = [p] ∧ slicePlace state1 { a := 0x2#7, b := 0x3#7 } i 8 true p = some (0, 0) ∧ vacatedAt state1 i.t 0 0 = none
      ∧ 1 ≤ (low32 (i.srcs (launchOf state1 i.t) p.1 p.2).b).toNat ∧ (low32 (i.srcs (launchOf state1 i.t) p.1 p.2).b).toNat ≤ 32767)
    ∧ (∃ i, Clean stateBar .bararv { a := 2#7 } i ∧ ∃ p, i.active = [p] ∧ slicePlace stateBar { a := 2#7 } i 8 true p = some (0, 0) ∧ vacatedAt stateBar i.t 0 0 = none
      ∧ bytesNat (sramRead stateBar 0 0 8) / 2 ^ 33 % 2 ^ 15 < bytesNat (sramRead stateBar 0 0 8) / 2 ^ 48 % 2 ^ 15)
    ∧ (∃ i, Clean state4 .barinit { a := 0x2#7, b := 0x3#7 } i ∧ i.active.length = 4 ∧ (∀ p ∈ i.active, (slicePlace state4 { a := 0x2#7, b := 0x3#7 } i 8 true p).any (fun q => vacatedAt state4 i.t q.1 q.2 == none) = true)
      ∧ ∀ p ∈ i.active, 1 ≤ (low32 (i.srcs (launchOf state4 i.t) p.1 p.2).b).toNat ∧ (low32 (i.srcs (launchOf state4 i.t) p.1 p.2).b).toNat ≤ 32767) :=
  ⟨⟨_, clean_of_issue rfl, _, rfl, by decide +kernel⟩, ⟨_, clean_of_issue rfl, _, rfl, by decide +kernel⟩, clean_with (by decide +kernel)⟩

/-- Handles loaded, changed, stored through and read. -/
theorem test_meets_TensorHandleInstructions : (∃ i, Clean state4 .tdld { a := 5#7, b := 0#7 } i ∧ i.on ≠ 0#32 ∧ (globalCheck state4 i.t 0x20000 64 .read).toOption.any isHbm = true)
    ∧ (∃ i, Clean state4 .tdset { ext := true, a := 1#7, b := 0#7, imm := 0#23 } i ∧ i.on ≠ 0#32 ∧ mapGet i.t.handles 1 = some testHandle
      ∧ handleOk (setField testHandle 0 (low64 (electSrcs state4 i).b).toNat) = true)
    ∧ (∃ i, Clean state4 .tdst { a := 1#7, b := 3#7 } i ∧ i.on ≠ 0#32 ∧ mapGet i.t.handles 1 = some testHandle ∧ testHandle.fmt = 0
      ∧ (∀ p ∈ i.active, (low32 (i.srcs (launchOf state4 i.t) p.1 p.2).b).toNat < handleCount testHandle)
      ∧ ∀ p ∈ i.active, (globalCheck state4 i.t (vaOf testHandle.base ((elementOffset testHandle (low32 (i.srcs (launchOf state4 i.t) p.1 p.2).b).toNat * 4 : Nat) : Int)) 4 .write).toOption.isSome = true)
    ∧ (∃ i, Clean state4 .ldgen { d := 8#7, a := 2#7 } i ∧ i.on ≠ 0#32 ∧ (mapGet i.t.handles 2).bind (publishedOf state4 i.t) = some 3 ∧ (mapGet state4.published 3).isSome = true)
    ∧ (bits (bytesNat (natBytes (2 ^ 4 + 2 ^ 128) 64)) 127 97 = 0) :=
  ⟨clean_with (by decide +kernel), clean_with (by decide +kernel), clean_with (by decide +kernel), clean_with (by decide +kernel), by decide +kernel⟩

/-- Two lanes behind the others; lane 1 with an index at the bound of its window; a full return stack; a team that enables every trap. -/
def stateHalf2 : State :=
  testState (testTeam { testGroup lanes4 0 0 with lease := some { mask := 3#32, start := 0x100000#64, pc := 0x100000#64 } })
def stateIdx : State :=
  testState (testTeam (testGroup (lanes4.map (fun p => (p.1, if p.1 = 1 then { p.2 with x := [(0, 256#16)] } else { p.2 with x := [(0, 255#16)] }))) 0 0))
def stateDeep : State := testState (testTeam (testGroup [(0, { testLane 0 with rstack := List.replicate 1024 0x100000#64 })] 0 0))
def stateTrap : State :=
  testState { testTeam (testGroup (lanes4.map (fun p => (p.1, { p.2 with v := [(4, 0x3F800000#32), (9, 0x33800000#32)] }))) 0 0) with fpxen := 0x1F#5 }
/-- After a TRAP of the test team; and the firmware slot's team beside it, whose s0 names the record. -/
def stateHeld : State := after (.trap {}) state4
def stateEret : State :=
  { stateHeld with
    teams := { testTeam { testGroup lanes4 5 15 with s := [] } with ref := ⟨0, 0⟩ } :: stateHeld.teams, cur := .group ⟨0, 5, 15⟩ }
/-- An MXGO block of one row of INT8 against 64 columns, K 64, and an MXV block of one vector against handle 3; the block stands at the
start of the window, A at 0x100, the barrier at 0x200. -/
def mxgoBlock : Nat :=
  0x0A * 2 ^ 8 + 0x0A * 2 ^ 16 + 1 * 2 ^ 32 + 64 * 2 ^ 48 + 64 * 2 ^ 64 + 0xFFE00100 * 2 ^ 128 + 0xFFE00200 * 2 ^ 320
def mxvBlock : Nat := 1 + 0x0A * 2 ^ 8 + 64 * 2 ^ 32 + 64 * 2 ^ 64 + 0xFFE00100 * 2 ^ 128 + 3 * 2 ^ 192 + 0xFFE00200 * 2 ^ 320
def stateMx (b : Nat) : State :=
  let t := testTeam (testGroup lanes4 0 0)
  { testState { t with handles := mapPut t.handles 3 ⟨0x20000#64, 0x0A, 2, 0, 0, false, [64, 64, 0, 0, 0], [1, 64, 0, 0, 0], 0#64⟩ } with
    cores := [(0, { sram := writeBytes [] 0 (natBytes b 64) })] }
/-- An INT8 operation of one row and two steps, not yet started, and a device whose core 0 has these operations. -/
def testOp : EngineOp :=
  { ref := ⟨1, 0⟩, mxv := false, part := 0, gid := 0, lane := 0, pc := 0x100000#64, block := 0xFFE00000#32, acc := false, afmt := 0x0A
    bfmt := 0x0A, sa := false, sb := false, dtile := 0, k := 128, a := 0x100, aHandle := none, ascl := 0, bscl := 0, bar := 0xFFE00200#32
    rows := [(1, 0, 0)], bHandle := none }
def stateEng (ops : List EngineOp) : State := { state4 with cores := [(0, { engine := ops })] }
/-- The test team with one transfer program in a state. -/
def stateProg (st : Nat) : State := testState { testTeam (testGroup lanes4 0 0) with progs := [{ n := 0, proc := 0, state := st }] }

/-- A state with the trap policy of its launches 1. -/
def hostPolicy (s : State) : State := { s with launches := s.launches.map (fun p => (p.1, { p.2 with tpol := 1 })) }

/-- A latch of an empty window, a scalar instruction in a diverged group, and an issue set at UDF. -/
theorem test_meets_WholeIssueSetFaultsHoldTheSet : (∃ i, issueOf state4 .iadd { d := 8#7, a := 0x58#7, b := 3#7 } = some i ∧ i.wholeFault = some cLatchScope)
    ∧ (∃ i, issueOf stateHalf2 .smov { d := 0x44#7, a := 0x41#7 } = some i ∧ i.wholeFault = some cScalarDiverged) ∧ (issueOf state4 .nop {}).isSome = true :=
  ⟨⟨_, rfl, by decide +kernel⟩, ⟨_, rfl, by decide +kernel⟩, by decide +kernel⟩

/-- An index inside its window and one at its bound, a misaligned, an unmapped and a mapped address, and a return stack with room and a full one. -/
theorem test_meets_LaneFaultsHoldTheirLanes : (∃ i, issueOf stateIdx .iadd { d := 8#7, a := 0x60#7, b := 3#7 } = some i ∧ i.wholeFault = none ∧ ({ d := 8#7, a := 0x60#7, b := 3#7 } : Form).wellFormed .iadd = true
      ∧ (i.lane 0).any (fun l => !i.indexBad l && hasLane i.on 0) = true ∧ (i.lane 1).any (fun l => i.indexBad l && hasLane i.on 1) = true)
    ∧ (∃ i, Clean state4 .ld { ext := true, d := 8#7, a := 0#7, imm := 1#23 } i ∧ (i.g.lanes.map Prod.fst).Nodup
      ∧ (i.lane 0).any (fun l => vaIn state4 { ext := true, d := 8#7, a := 0#7, imm := 1#23 } i (0, l) % 4 != 0) = true)
    ∧ (∃ i, Clean state4 .ld { d := 8#7, a := 8#7 } i ∧ (i.g.lanes.map Prod.fst).Nodup ∧ (i.lane 0).any (fun l => vaIn state4 { d := 8#7, a := 8#7 } i (0, l) == 0) = true
      ∧ teamTranslate state4 i.t 0 .read = .fault cXlate)
    ∧ (∃ i, Clean state4 .ld { d := 8#7, a := 0#7 } i ∧ (i.lane 0).any (fun l => vaIn state4 { d := 8#7, a := 0#7 } i (0, l) == 0x20000) = true
      ∧ teamTranslate state4 i.t 0x20000 .read = .hbm 0x80000)
    ∧ (∃ i, Clean state4 .call {} i ∧ (i.g.lanes.map Prod.fst).Nodup ∧ (i.lane 0).any (fun l => decide (l.rstack.length < 1024) && hasLane i.on 0) = true)
    ∧ (∃ i, Clean stateDeep .call {} i ∧ (i.g.lanes.map Prod.fst).Nodup ∧ (i.lane 0).any (fun l => decide (1024 ≤ l.rstack.length) && hasLane i.on 0) = true) :=
  ⟨⟨_, rfl, by decide +kernel⟩, clean_with (by decide +kernel), clean_with (by decide +kernel), clean_with (by decide +kernel), clean_with (by decide +kernel), clean_with (by decide +kernel)⟩

/-- 1 + 2^-24 is inexact and NX is enabled. -/
theorem test_meets_EnabledFloatFlagsTrap : ∃ i, Clean stateTrap .fadd { d := 8#7, a := 4#7, b := 9#7 } i ∧ (∀ p ∈ i.g.lanes, p.2.skipTrap = false)
    ∧ (fAdd 0 0 false 0#32 (fsrc 0 0x3F800000#128) (fsrc 0 0x33800000#128)).flags &&& i.t.fpxen ≠ 0#5 :=
  clean_with (by decide +kernel)

/-- A clean issue of each with guard-true lanes. -/
theorem test_meets_SyscallTrapAndBreakEnterTheHandler : ∀ p ∈ ([(.syscall, {}), (.trap, {}), (.brk, {})] : List (Op × Form)), ∃ i, Clean state4 p.1 p.2 i ∧ i.on ≠ 0#32 :=
  clean_all_with (by decide +kernel)

/-- The record of a TRAP of a resident team. -/
theorem test_meets_ResumeAndKillResolveARecord : ∃ r, stateHeld.faultQ.find? (fun q => q.seq == (0#64).toNat && q.core == 0 && !q.resolved) = some r ∧ r.code = cTrap ∧ r.code ≠ cEscaped ∧ EndedNot stateHeld r.ref
    ∧ (∀ q ∈ stateHeld.faultQ, q.set = r.set → q.seq ≠ 0 → q.resolved = true) ∧ (∀ q ∈ stateHeld.faultWait, q.set ≠ r.set)
    ∧ (∃ h, (lane' stateHeld 3).hold = some h ∧ h.set = r.set ∧ (lane' stateHeld 3).st = .hold)
    ∧ (mapGet stateHeld.launches r.ref.launch).any (fun la => credOwns (.owner 1) la.owner && !credOwns (.owner 2) la.owner && la.tpol == 0) = true
    ∧ (mapGet (hostPolicy stateHeld).launches r.ref.launch).any (fun la => la.tpol == 1) = true ∧ (hostPolicy stateHeld).faultQ = stateHeld.faultQ :=
  ⟨_, rfl, by decide +kernel, by decide +kernel, ⟨_, rfl, rfl⟩, by decide +kernel, by decide +kernel, ⟨_, rfl, by decide +kernel⟩, by decide +kernel, by decide +kernel, rfl⟩

/-- ERET in the firmware slot beside that team, and outside it. -/
theorem test_meets_ResumeAndKillResolveARecord_eret : (∃ i, Clean stateEret .eret { a := 0x40#7 } i ∧ isFirmwareSlot i.g.part i.g.slot = true ∧ (low64 (scalarSrcs stateEret i).a).toNat = 0
      ∧ (stateEret.faultQ.find? (fun q => q.seq == 0 && q.core == i.t.core && !q.resolved)).any (fun r => r.ref == ⟨1, 0⟩ && r.code != cEscaped) = true)
    ∧ (∃ i, Clean stateEret .eret { ext := true, a := 0x40#7, imm := 1#23 } i ∧ isFirmwareSlot i.g.part i.g.slot = true ∧ (low64 (scalarSrcs stateEret i).a).toNat = 0)
    ∧ (∃ i, Clean state4 .eret { a := 0x41#7 } i ∧ isFirmwareSlot i.g.part i.g.slot = false)
    ∧ State.reset.faultQ.find? (fun q => q.seq == 7 && q.core == 0 && !q.resolved) = none :=
  ⟨clean_with (by decide +kernel), clean_with (by decide +kernel), clean_with (by decide +kernel), rfl⟩

/-- Every number, at the ends of its range, and the flag masks. -/
theorem test_meets_CsrReadsGiveTheRegisters : (∀ p ∈ ([(.csrr, { ext := true, d := 0x44#7, imm := 0x000#23 }), (.csrr, { ext := true, d := 0x44#7, imm := 0x002#23 }), (.csrr, { ext := true, d := 0x44#7, imm := 0x003#23 }), (.csrr, { ext := true, d := 0x44#7, imm := 0x004#23 }), (.csrr, { ext := true, d := 0x44#7, imm := 0x005#23 }), (.csrr, { ext := true, d := 0x44#7, imm := 0x009#23 }), (.csrr, { ext := true, d := 0x44#7, imm := 0x00A#23 }), (.csrr, { ext := true, d := 0x44#7, imm := 0x00B#23 }), (.csrr, { ext := true, d := 0x44#7, imm := 0x00C#23 }), (.csrr, { ext := true, d := 0x44#7, imm := 0x00D#23 }), (.csrr, { ext := true, d := 0x44#7, imm := 0x010#23 }), (.csrr, { ext := true, d := 0x44#7, imm := 0x011#23 }), (.csrr, { ext := true, d := 0x44#7, imm := 0x012#23 }), (.csrr, { ext := true, d := 0x44#7, imm := 0x013#23 }), (.csrr, { ext := true, d := 0x44#7, imm := 0x014#23 }), (.csrr, { ext := true, d := 0x44#7, imm := 0x017#23 }), (.csrr, { ext := true, d := 0x44#7, imm := 0x018#23 }), (.csrr, { ext := true, d := 0x44#7, imm := 0x019#23 }), (.csrr, { ext := true, d := 0x44#7, imm := 0x01A#23 }), (.csrr, { ext := true, d := 0x44#7, imm := 0x01B#23 }), (.csrr, { ext := true, d := 0x44#7, imm := 0x100#23 }), (.csrr, { ext := true, d := 0x44#7, imm := 0x110#23 }), (.csrr, { ext := true, d := 0x44#7, imm := 0x11F#23 }), (.csrr, { ext := true, d := 0x44#7, imm := 0x120#23 }), (.csrr, { ext := true, d := 0x44#7, imm := 0x12F#23 }), (.csrr, { ext := true, d := 0x44#7, imm := 0x130#23 }), (.csrr, { ext := true, d := 0x44#7, imm := 0x13F#23 }), (.csrr, { ext := true, d := 0x44#7, imm := 0x140#23 }), (.csrr, { ext := true, d := 0x44#7, imm := 0x14F#23 }), (.csrr, { ext := true, d := 0x44#7, imm := 0x150#23 }), (.csrr, { ext := true, d := 0x44#7, imm := 0x15F#23 }), (.csrr, { ext := true, d := 0x44#7, imm := 0x160#23 }), (.csrr, { ext := true, d := 0x44#7, imm := 0x16F#23 }), (.csrr, { ext := true, d := 0x44#7, imm := 0x170#23 }), (.csrr, { ext := true, d := 0x44#7, imm := 0x171#23 }), (.csrr, { ext := true, d := 0x44#7, imm := 0x172#23 }), (.csrr, { ext := true, d := 0x44#7, imm := 0x173#23 }), (.csrr, { ext := true, d := 0x44#7, imm := 0x174#23 }), (.csrr, { ext := true, d := 0x44#7, imm := 0x175#23 }), (.csrr, { ext := true, d := 0x44#7, imm := 0x176#23 }), (.csrr, { ext := true, d := 0x44#7, imm := 0x300#23 }), (.csrr, { ext := true, d := 0x44#7, imm := 0x320#23 }), (.csrr, { ext := true, d := 0x44#7, imm := 0x321#23 }), (.csrr, { ext := true, d := 0x44#7, imm := 0x322#23 }), (.csrr, { ext := true, d := 0x44#7, imm := 0x323#23 }), (.csrr, { ext := true, d := 0x44#7, imm := 0x324#23 }), (.csrr, { ext := true, d := 0x44#7, imm := 0x325#23 }), (.csrr, { ext := true, d := 0x44#7, imm := 0x400#23 }), (.csrr, { ext := true, d := 0x44#7, imm := 0x401#23 }), (.csrr, { ext := true, d := 0x44#7, imm := 0x403#23 })] : List (Op × Form)), ∃ i, Clean state4 p.1 p.2 i)
    ∧ ∀ p ∈ ([(.csrr, { ext := true, d := 0x44#7, imm := 0x01C#23 }), (.csrr, { ext := true, d := 0x44#7, imm := 0x020#23 })] : List (Op × Form)), ∃ i, Clean state4 p.1 p.2 i ∧ (i.g.lanes.map Prod.fst).Nodup :=
  ⟨clean_all (by decide +kernel), clean_all_with (by decide +kernel)⟩

/-- The writable and read-only numbers, and from the firmware slot the device registers at the ends of their ranges. -/
theorem test_meets_CsrWritesChangeWhatTheyMay : (∀ p ∈ ([(.csrw, { ext := true, a := 0x41#7, imm := 0x00C#23 }), (.csrw, { ext := true, a := 0x41#7, imm := 0x019#23 }), (.csrw, { ext := true, a := 0x41#7, imm := 0x01C#23 }), (.csrw, { ext := true, a := 0x41#7, imm := 0x020#23 }), (.csrw, { ext := true, a := 0x41#7, imm := 0x000#23 }), (.csrw, { ext := true, a := 0x41#7, imm := 0x00B#23 }), (.csrw, { ext := true, a := 0x41#7, imm := 0x00D#23 }), (.csrw, { ext := true, a := 0x41#7, imm := 0x010#23 }), (.csrw, { ext := true, a := 0x41#7, imm := 0x018#23 }), (.csrw, { ext := true, a := 0x41#7, imm := 0x01A#23 }), (.csrw, { ext := true, a := 0x41#7, imm := 0x01B#23 }), (.csrw, { ext := true, a := 0x41#7, imm := 0x403#23 }), (.csrw, { ext := true, a := 0x41#7, imm := 0x176#23 })] : List (Op × Form)), ∃ i, Clean state4 p.1 p.2 i)
    ∧ ∀ p ∈ ([(.csrw, { ext := true, a := 0x41#7, imm := 0x100#23 }), (.csrw, { ext := true, a := 0x41#7, imm := 0x110#23 }), (.csrw, { ext := true, a := 0x41#7, imm := 0x11F#23 }), (.csrw, { ext := true, a := 0x41#7, imm := 0x120#23 }), (.csrw, { ext := true, a := 0x41#7, imm := 0x12F#23 }), (.csrw, { ext := true, a := 0x41#7, imm := 0x200#23 }), (.csrw, { ext := true, a := 0x41#7, imm := 0x201#23 }), (.csrw, { ext := true, a := 0x41#7, imm := 0x21F#23 }), (.csrw, { ext := true, a := 0x41#7, imm := 0x300#23 }), (.csrw, { ext := true, a := 0x41#7, imm := 0x510#23 }), (.csrw, { ext := true, a := 0x41#7, imm := 0x511#23 }), (.csrw, { ext := true, a := 0x41#7, imm := 0x513#23 }), (.csrw, { ext := true, a := 0x41#7, imm := 0x402#23 })] : List (Op × Form)), ∃ i, Clean stateFirm p.1 p.2 i ∧ isFirmwareSlot i.g.part i.g.slot = true
      ∧ (isDeviceRegister (p.2.imm.extractLsb' 0 12).toNat = true ∨ ((p.2.imm.extractLsb' 0 12).toNat = 0x402 ∧ stateFirm.faultBaseSet = false)) :=
  ⟨clean_all (by decide +kernel), fun p h => (clean_all_with (P := fun i => isFirmwareSlot i.g.part i.g.slot = true) (by decide +kernel) p h).imp (fun i q => ⟨q.1, q.2, by clear q; clear i; revert p; decide⟩)⟩

/-- Reserved and privileged numbers at the ends of their ranges. -/
theorem test_meets_CsrAccessesThatFault : (∀ n ∈ [0xE, 0xF, 0x21, 0xFF, 0x101, 0x10F, 0x177, 0x180, 0x1FF, 0x220, 0x2FF, 0x301, 0x326, 0x3FF, 0x405, 0x41F, 0x438, 0x4FF, 0x500, 0x532, 0xFFF], (namesCsr n = false ∨ 0x500 ≤ n)
      ∧ (issueOf state4 .csrr { ext := true, d := 0x44#7, imm := BitVec.ofNat 23 n }).isSome = true
      ∧ (issueOf state4 .csrw { ext := true, a := 0x41#7, imm := BitVec.ofNat 23 n }).isSome = true
      ∧ (issueOf state4 .nop {}).any (fun i => !isFirmwareSlot i.g.part i.g.slot) = true)
    ∧ (∀ n ∈ [0x520, 0x532], (issueOf stateFirm .csrw { ext := true, a := 0x41#7, imm := BitVec.ofNat 23 n }).any (fun i => isFirmwareSlot i.g.part i.g.slot) = true)
    ∧ (∀ n ∈ [0xD, 0x100, 0x110, 0x11F, 0x120, 0x12F, 0x200, 0x201, 0x21F, 0x300, 0x400, 0x401, 0x402, 0x404, 0x420, 0x437], isPrivilegedCsr n = true)
    ∧ (∀ p ∈ ([(.csrw, { ext := true, a := 0x41#7, imm := 0x00D#23 }), (.csrw, { ext := true, a := 0x41#7, imm := 0x100#23 }), (.csrw, { ext := true, a := 0x41#7, imm := 0x110#23 }), (.csrw, { ext := true, a := 0x41#7, imm := 0x11F#23 }), (.csrw, { ext := true, a := 0x41#7, imm := 0x120#23 }), (.csrw, { ext := true, a := 0x41#7, imm := 0x12F#23 }), (.csrw, { ext := true, a := 0x41#7, imm := 0x200#23 }), (.csrw, { ext := true, a := 0x41#7, imm := 0x201#23 }), (.csrw, { ext := true, a := 0x41#7, imm := 0x21F#23 }), (.csrw, { ext := true, a := 0x41#7, imm := 0x300#23 }), (.csrw, { ext := true, a := 0x41#7, imm := 0x400#23 }), (.csrw, { ext := true, a := 0x41#7, imm := 0x401#23 }), (.csrw, { ext := true, a := 0x41#7, imm := 0x402#23 }), (.csrw, { ext := true, a := 0x41#7, imm := 0x404#23 }), (.csrw, { ext := true, a := 0x41#7, imm := 0x420#23 }), (.csrw, { ext := true, a := 0x41#7, imm := 0x437#23 })] : List (Op × Form)), ∃ i, Clean state4 p.1 p.2 i ∧ isFirmwareSlot i.g.part i.g.slot = false)
    ∧ (∀ p ∈ ([(.csrr, { ext := true, d := 0x44#7, imm := 0x404#23 }), (.csrr, { ext := true, d := 0x44#7, imm := 0x420#23 }), (.csrr, { ext := true, d := 0x44#7, imm := 0x437#23 })] : List (Op × Form)), ∃ i, Clean state4 p.1 p.2 i ∧ isFirmwareSlot i.g.part i.g.slot = false)
    ∧ (∃ i, Clean { stateFirm with faultBaseSet := true } .csrw { ext := true, a := 0x41#7, imm := 0x402#23 } i ∧ isFirmwareSlot i.g.part i.g.slot = true) :=
  ⟨by decide +kernel, by decide +kernel, by decide, clean_all_with (by decide +kernel), clean_all_with (by decide +kernel), clean_with (by decide +kernel)⟩

/-- Blocks that pass and fail the checks, a full queue, and no guard-true lane. -/
theorem test_meets_EngineOperationsAreQueuedOrRefused : (∀ p ∈ [(Op.mxgo, stateMx mxgoBlock), (Op.mxgo, state4), (Op.mxv, stateMx mxvBlock), (Op.mxv, state4)], ∃ i, Clean p.2 p.1 { a := 0x42#7 } i ∧ i.on ≠ 0#32 ∧ (coreAt p.2 i.t.core).engine.length < 8)
    ∧ (∃ i, Clean (stateMx mxgoBlock) .mxgo { a := 0x42#7 } i ∧ (mxgoCheck (stateMx mxgoBlock) i.t 0xFFE00000#32 (0, 0, 0, i.pc)).toOption.isSome = true)
    ∧ (∃ i, Clean (stateMx mxvBlock) .mxv { a := 0x42#7 } i ∧ (mxvCheck (stateMx mxvBlock) i.t 0xFFE00000#32 (0, 0, 0, i.pc)).toOption.isSome = true)
    ∧ (∃ i, Clean state4 .mxgo { a := 0x42#7 } i ∧ (mxgoCheck state4 i.t 0xFFE00000#32 (0, 0, 0, i.pc)).toOption.isNone = true)
    ∧ (∃ i, Clean state4 .mxv { a := 0x42#7 } i ∧ (mxvCheck state4 i.t 0xFFE00000#32 (0, 0, 0, i.pc)).toOption.isNone = true)
    ∧ (∃ i, Clean (stateEng (List.replicate 8 testOp)) .mxgo { a := 0x42#7 } i ∧ 8 ≤ (coreAt (stateEng (List.replicate 8 testOp)) i.t.core).engine.length)
    ∧ (∃ i, Clean state4 .mxgo { ext := true, a := 0x42#7, pred := 0#3 } i ∧ i.on = 0#32) :=
  ⟨fun p h => clean_with (by revert p; decide +kernel), clean_with (by decide +kernel), clean_with (by decide +kernel), clean_with (by decide +kernel), clean_with (by decide +kernel), clean_with (by decide +kernel), clean_with (by decide +kernel)⟩

/-- A fresh operation of one group of one row, one without a row, and one that runs. -/
theorem test_meets_EngineTakesItsHead : (coreAt (stateEng [testOp]) 0).engine = testOp :: [] ∧ testOp.atStep = 0 ∧ testOp.atGroup = 0 ∧ testOp.running = false
    ∧ (teamAt (stateEng [testOp]) testOp.ref).any (fun u => !teamStops u && u.core == 0) = true
    ∧ testOp.rows = [] ++ (1, 0, 0) :: [] ∧ (∀ x ∈ ([] : List (Nat × Nat × Nat)), x.1 = 0)
    ∧ ({ testOp with rows := [(0, 0, 0)] } : EngineOp).rows.all (fun x => x.1 == 0) = true ∧ ({ testOp with running := true } : EngineOp).running = true
    ∧ testOp.interrupted = false ∧ (teamAt (stateEng [testOp]) testOp.ref).any (fun u => (sramPlace (stateEng [testOp]) u testOp.block).isSome && (sramPlace (stateEng [testOp]) u testOp.bar).isSome) = true
    ∧ teamAt ({ stateEng [testOp] with teams := [] } : State) testOp.ref = none
    ∧ (let t := testTeam { testGroup lanes4 0 0 with lease := none }
       teamStops { t with vacating := true } = true) :=
  by decide +kernel

/-- The first of two steps of a running operation. -/
theorem test_meets_IntegerStepsAccumulateExactly : let op := { testOp with running := true }
    (coreAt (stateEng [op]) 0).engine = op :: [] ∧ op.running = true ∧ op.stop = false ∧ op.holdSet = none ∧ op.due ≤ (stateEng [op]).clk
    ∧ (teamAt (stateEng [op]) op.ref).any (fun u => u.core == 0 && !teamStops u && u.tiles.Nodup && decide (op.dtile + (1 + 63) / 64 ≤ u.tiles.length)) = true
    ∧ op.mxv = false ∧ op.afmt = 0x0A ∧ op.bfmt = 0x0A ∧ op.sa = false ∧ op.sb = false ∧ op.aHandle = none ∧ op.bHandle = none
    ∧ op.rows = [(1, 0, 0)] ∧ op.atGroup = 0 ∧ op.atStep + 1 < op.k / 64 :=
  by decide +kernel

/-- Indices inside the one tile and the first outside it. -/
theorem test_meets_AccumulatorAccesses : (∃ i, Quiet state4 .accrd { d := 8#7, a := 3#7 } i ∧ ∀ p ∈ i.active, (low32 (i.srcs (launchOf state4 i.t) p.1 p.2).a).toNat < i.t.tiles.length * 4096)
    ∧ (∃ i, Quiet state4 .accrd { ext := true, d := 8#7, a := 3#7, ty := 1#5 } i ∧ ∀ p ∈ i.active, (low32 (i.srcs (launchOf state4 i.t) p.1 p.2).a).toNat < i.t.tiles.length * 4096)
    ∧ (∃ i, Clean state4 .accrd { d := 8#7, a := 0x6A#7, lit := some 4096#64 } i ∧ i.t.fpxen = 0#5
      ∧ ∀ p ∈ i.active, i.t.tiles.length * 4096 ≤ (low32 (i.srcs (launchOf state4 i.t) p.1 p.2).a).toNat)
    ∧ (∃ i, Clean state4 .accwr { a := 3#7, b := 4#7 } i ∧ ∀ p ∈ i.active, (low32 (i.srcs (launchOf state4 i.t) p.1 p.2).a).toNat < i.t.tiles.length * 4096)
    ∧ (∃ i, Clean state4 .accwr { a := 0x6A#7, b := 4#7, lit := some 4096#64 } i
      ∧ ∀ p ∈ i.active, i.t.tiles.length * 4096 ≤ (low32 (i.srcs (launchOf state4 i.t) p.1 p.2).a).toNat)
    ∧ (∃ i, Clean state4 .acczero { ext := true, imm := 1#23 } i ∧ i.on ≠ 0#32 ∧ i.t.tiles.length = 1)
    ∧ (∃ i, Clean state4 .acczero { ext := true, imm := 2#23 } i ∧ i.on ≠ 0#32 ∧ i.t.tiles.length ≤ 1) :=
  ⟨quiet_with (by decide +kernel), quiet_with (by decide +kernel), clean_with (by decide +kernel), clean_with (by decide +kernel), clean_with (by decide +kernel), clean_with (by decide +kernel), clean_with (by decide +kernel)⟩

/-- With an ENDED program, with one that runs, and with none. -/
theorem test_meets_ProgramsAreStartedAndSignalled : (∀ p ∈ [(Op.xstart, ({ d := 8#7, a := 0#7 } : Form)), (.xsig, { b := 3#7 }), (.xstat, { d := 8#7 })],
      (∃ i, Clean (stateProg 4) p.1 p.2 i ∧ (progIn (stateProg 4) i.t.ref 0).any (fun x => x.state == 4) = true ∧ i.on ≠ 0#32)
      ∧ (∃ i, Clean (stateProg 1) p.1 p.2 i ∧ (progIn (stateProg 1) i.t.ref 0).any (fun x => x.state != 4) = true)
      ∧ (∃ i, issueOf state4 p.1 p.2 = some i ∧ progIn state4 i.t.ref 0 = none)) :=
  fun p h => ⟨clean_with (by revert p; decide +kernel), clean_with (by revert p; decide +kernel), ⟨_, (by revert p; decide +kernel : issueOf state4 p.1 p.2 = some ((issueOf state4 p.1 p.2).getD ((issueOf state4 .nop {}).get (by decide +kernel)))), by revert p; decide +kernel⟩⟩

/-- A program at a word: c0 the window's address, c1 a mapped VA, c2 an unmapped one, c3 a misaligned one, c4 an SRAM address outside the
window, c5 one, c6 the address of a barrier word at offset 0x100, c7 the end of the window. -/
def testProg (pc : Nat) : XProg :=
  { n := 0, proc := 0, xpc := pc
    c := [(0, 0xFFE00000#64), (1, 0x20000#64), (2, 0x900000#64), (3, 0x20001#64), (4, 0xFFE80000#64), (5, 1#64), (6, 0xFFE00100#64)] }
def teamX (x : XProg) : Team := { testTeam (testGroup lanes4 0 0) with progs := [x] }
/-- That program runs; the barrier word at offset 0x100 expects one arrival and the word at 0x108 has 16 pending bytes. -/
def stateX (x : XProg) : State :=
  { testState (teamX x) with
    cur := .prog ⟨0, 0⟩, cores := [(0, { sram := writeBytes [] 0x100 (natBytes (2 ^ 48 + (2 ^ 48 + 2 ^ 33 + 16) * 2 ^ 64) 16) })] }

theorem runs_of {s : State} {u : Team} {x : XProg} (h : s.cur = .prog ⟨0, 0⟩ ∧ progAt s ⟨0, 0⟩ = some (u, x)) : Runs s u x := ⟨_, h.1, h.2⟩

/-- Below word 1,023. -/
theorem test_meets_TransferArithmetic : Runs (stateX (testProg 1022)) (teamX (testProg 1022)) (testProg 1022) ∧ (testProg 1022).xpc < 1023 :=
  ⟨runs_of (by decide +kernel), by decide⟩

/-- The last word whose successor is in the window, the last word, a branch back to before word 0 and past the end, each condition. -/
theorem test_meets_TransferConstantsLoopsAndBranches :
    Runs (stateX (testProg 1022)) (teamX (testProg 1022)) (testProg 1022) ∧ ((testProg 1022).xpc : Int) + 1 ≤ 1023
    ∧ Runs (stateX (testProg 1023)) (teamX (testProg 1023)) (testProg 1023) ∧ 1023 < ((testProg 1023).xpc : Int) + 1
    ∧ Runs (stateX (testProg 0)) (teamX (testProg 0)) (testProg 0) ∧ ((testProg 0).xpc : Int) + (0x7FF#11).toInt < 0
    ∧ (6#3 : BitVec 3) ≠ 7#3 ∧ cReg (testProg 0) 1#4 ≠ cReg (testProg 0) 5#4 ∧ (cReg (testProg 0) 5#4).toInt < (cReg (testProg 0) 1#4).toInt
    ∧ (cReg (testProg 0) 5#4).toNat ≤ (cReg (testProg 0) 5#4).toNat :=
  ⟨runs_of (by decide +kernel), by decide, runs_of (by decide +kernel), by decide, runs_of (by decide +kernel), by decide⟩

/-- Places found, an unmapped page, a misaligned address, an address outside the window, and an index inside the handle. -/
theorem test_meets_TransferLoadsAndStores :
    let s := stateX (testProg 0)
    let u := teamX (testProg 0)
    Runs s u (testProg 0) ∧ (testProg 0).xpc < 1023
    ∧ (sramCheck s u 0xFFE00000#32 8 false).toOption = some (0, 0) ∧ (sramCheck s u 0xFFE00000#32 8 true).toOption = some (0, 0)
    ∧ sramCheck s u 0xFFE80000#32 8 false = .error cSramProt ∧ cSramProt ≠ cDetAtomic ∧ cSramProt ≠ cXlate
    ∧ globalCheck s u 0x20000 8 .read = .ok (.hbm 0x80000) ∧ globalCheck s u 0x20000 8 .write = .ok (.hbm 0x80000)
    ∧ globalCheck s u 0x900000 8 .read = .error cXlate
    ∧ globalCheck s u 0x20001 8 .read = .error cAlign ∧ cAlign ≠ cDetAtomic ∧ cAlign ≠ cXlate
    ∧ mapGet u.handles 1 = some testHandle ∧ (cReg (testProg 0) 5#4).toNat < testHandle.size[0]?.getD 0
    ∧ (cReg (testProg 0) 5#4).toNat * (testHandle.stride[0]?.getD 0) % 1 = 0 :=
  ⟨runs_of (by decide +kernel), by decide, by decide +kernel, by decide +kernel, rfl, by decide, by decide, rfl, rfl, rfl, rfl, by decide, by decide,
    by decide +kernel, by decide⟩

/-- A bulk operation at an offset, of one unit, from HBM to the window. -/
def testBulk (d : Nat) : BulkOp :=
  { num := 0, srcSpace := 0, dstSpace := 1, xpc := 0, bar := 0xFFE00108#32, units := [(0x20000, 0xFFE00000 + d)] }

/-- A free queue and a full one, a barrier and places that pass, a handle, and an index list of one row. -/
theorem test_meets_BulkOperationsAreQueued :
    let s := stateX (testProg 1021)
    let u := teamX (testProg 1021)
    let full := { testProg 0 with queue := List.replicate 8 (testBulk 0) }
    Runs s u (testProg 1021) ∧ (testProg 1021).xpc < 1022 ∧ (testProg 1021).queue.length < 8 ∧ (sramCheck s u 0xFFE00100#32 8 true).toOption = some (0, 0x100)
    ∧ (mapGet u.handles 1).isSome = true ∧ (cReg (testProg 0) 1#4).toNat % 16 = 0 ∧ (cReg (testProg 0) 0#4).toNat % 16 = 0
    ∧ (0 : Int) ≤ 0 ∧ (0 : Int) + 64 ≤ (wbGrant u : Int)
    ∧ (readIndices s u (cReg (testProg 1021) 6#4) (cReg (testProg 1021) 5#4).toNat).toOption = some [0]
    ∧ indexWaits s u (testProg 1021) (cReg (testProg 1021) 6#4) (cReg (testProg 1021) 5#4).toNat = false
    ∧ indexWaits s u { testProg 1021 with queue := [testBulk 0x100] } (cReg (testProg 1021) 6#4) (cReg (testProg 1021) 5#4).toNat = true
    ∧ Runs (stateX full) (teamX full) full ∧ 8 ≤ full.queue.length :=
  ⟨runs_of (by decide +kernel), by decide, by decide, by decide +kernel, by decide, by decide, by decide, by decide, by decide,
    by decide +kernel, by decide +kernel, by decide +kernel, runs_of (by decide +kernel), by decide⟩

/-- One unit whose barrier has exactly 16 pending bytes and the expected arrival. -/
theorem test_meets_BulkUnitsMoveAndCredit :
    let op := testBulk 0
    let x := { testProg 0 with queue := [op] }
    let s := stateX x
    let u := teamX x
    progAt s ⟨0, 0⟩ = some (u, x) ∧ x.queue.find? (fun q => q.num == 0) = some op ∧ op.units[0]? = some (0x20000, 0xFFE00000)
    ∧ (∀ q ∈ x.queue, q.num = 0 → q = op) ∧ op.waiting = none ∧ u.ended = none ∧ teamStops u = false
    ∧ teamStops { u with vacating := true, groups := [] } = true ∧ op.start ≤ s.clk ∧ x.promos = [] ∧ sourceReady s u x op 0x20000 = true
    ∧ earlierUnit s u x op 0 0xFFE00000 = false ∧ op.srcSpace = 0 ∧ op.dstSpace = 1 ∧ bulkSource s u (opFronts s op) 0x20000 = .hbm 0x80000
    ∧ findPage s (ownerOf s u) 0x20000 = some { owner := 1, va := 0x20000, size := 0x10000, target := .hbm 0x80000 }
    ∧ teamTranslate s u 0x20000 .read = .hbm 0x80000 ∧ (sramCheck s u (BitVec.ofNat 32 0xFFE00000) 16 true).toOption = some (0, 0)
    ∧ sramPlace s u op.bar = some (0, 0x108) ∧ vacatedAt s u 0 0x108 = none ∧ 0 + 16 ≤ 0x108
    ∧ bytesNat (sramRead s 0 0x108 8) % 2 ^ 33 = 16 ∧ bytesNat (sramRead s 0 0x108 8) / 2 ^ 33 % 2 ^ 15 = bytesNat (sramRead s 0 0x108 8) / 2 ^ 48 % 2 ^ 15 := by
  decide +kernel

/-- An access not yet performed at any scope. -/
def testAccess : Access := { ctr := 16, store := true, due := 0 }

/-- A barrier that expects an arrival, with every access performed and with one that is not; an arrival and a load that wait; granules. -/
theorem test_meets_TransferArrivalsAndWaits :
    let x := testProg 0
    let late := { x with ctr := { accs := [testAccess] } }
    let busy := { x with queue := [testBulk 0x100] }
    let arriving := { x with state := 2, wait := .arrive 0xFFE00100#32 64#64, loads := [(3, 0)] }
    Runs (stateX x) (teamX x) x ∧ x.xpc < 1023 ∧ (∀ a ∈ x.ctr.accs, a.perf.getLsbD 3 = true)
    ∧ (sramCheck (stateX x) (teamX x) 0xFFE00100#32 8 true).toOption = some (0, 0x100)
    ∧ (sramCheck (stateX x) (teamX x) 0xFFE00100#32 8 false).toOption = some (0, 0x100) ∧ vacatedAt (stateX x) (teamX x) 0 0x100 = none
    ∧ bytesNat (sramRead (stateX x) 0 0x100 8) / 2 ^ 33 % 2 ^ 15 < bytesNat (sramRead (stateX x) 0 0x100 8) / 2 ^ 48 % 2 ^ 15
    ∧ bytesNat (sramRead (stateX x) 0 0x100 8) % 2 ^ 33 + 64 < 2 ^ 33
    ∧ (∀ k, k < 2 → (sramCheck (stateX x) (teamX x) ((cReg x 0#4).setWidth 32 + BitVec.ofInt 32 (16 * (0#13 : BitVec 13).toInt) + BitVec.ofNat 32 (16 * k)) 16 true).toOption
        = some (0, 16 * k))
    ∧ queueWrites (stateX x) (teamX x) x (sliceUnit 0 0x100) = false ∧ queueReads (stateX x) (teamX x) x (sliceUnit 0 0x100) = false
    ∧ queueWrites (stateX busy) (teamX busy) busy (sliceUnit 0 0x100) = true ∧ (stateX busy).cur = .prog ⟨0, 0⟩ ∧ progAt (stateX busy) ⟨0, 0⟩ = some (teamX busy, busy)
    ∧ Runs (stateX late) (teamX late) late ∧ (∃ a ∈ late.ctr.accs, a.bulk = none ∧ a.perf.getLsbD 3 = false ∧ a.perf.getLsbD 1 = false)
    ∧ progAt (stateX arriving) ⟨0, 0⟩ = some (teamX arriving, arriving) ∧ arriving.wait = .arrive 0xFFE00100#32 64#64
    ∧ sramPlace (stateX arriving) (teamX arriving) 0xFFE00100#32 = some (0, 0x100) ∧ (teamX arriving).ended = none
    ∧ (3, 0) ∈ arriving.loads ∧ 0 ≤ (stateX arriving).clk :=
  ⟨runs_of (by decide +kernel), by decide, by decide, by decide +kernel, by decide +kernel, by decide +kernel, by decide +kernel, by decide +kernel,
    by decide +kernel, by decide +kernel, by decide +kernel, by decide +kernel, rfl, by decide +kernel, runs_of (by decide +kernel), by decide,
    by decide +kernel⟩

/-- Handles valid and not, a range value, a published buffer; and words that decode to nothing (all zero), and to XEND. -/
theorem test_meets_TransferFencesTrapsAndEnds :
    let x := testProg 0
    let s := stateX x
    let u := teamX x
    let y := { x with c := [(4, 0xE800000000000000#64)] }
    let e := { s with cores := [(0, { sram := writeBytes [] (programWindow 0) (wordBytes 0xE0000000#32) })] }
    Runs s u x ∧ x.xpc < 1023 ∧ mapGet u.handles 1 = some testHandle ∧ (rangeOf (cReg x 5#4).toNat).isSome = true
    ∧ (mapGet u.handles 2).bind (publishedOf s u) = some 3 ∧ (mapGet u.handles 0).bind (publishedOf s u) = none
    ∧ (mapGet u.handles 1).bind (publishedOf s u) = none ∧ mapGet u.handles 0 = none ∧ rangeOf (cReg y 4#4).toNat = none ∧ (stateX y).cur = .prog ⟨0, 0⟩ ∧ progAt (stateX y) ⟨0, 0⟩ = some (teamX y, y)
    ∧ progAt s ⟨0, 0⟩ = some (u, x) ∧ x.state = 1 ∧ u.ended = none ∧ fetchX s u x = .bad .illegalOp
    ∧ progAt e ⟨0, 0⟩ = some (u, x) ∧ fetchX e u x = .instr .xend :=
  ⟨runs_of (by decide +kernel), by decide, by decide +kernel⟩

/-! ## Effects: one step on the four lanes of the test group, whose v3 is lane + 1 -/

/-- An instruction leaves these values in v8 of lanes 0 to 3. -/
def spreads (ps : List (Instr × List (BitVec 32))) : Bool :=
  ps.all (fun p => (List.range 4).map (fun n => reg' (after p.1 state4) n 8) == p.2)

/-- 09 R144 to R147: a lane without a source keeps its own value; a fold of 1 to 4; the lanes that match lane 1's. -/
theorem test_effect_cross_lane : spreads [
    (.shfl { ext := true, d := 8#7, a := 3#7, b := 0x79#7, sub := 2#8 }, [2#32, 3#32, 4#32, 4#32]),
    (.shfl { ext := true, d := 8#7, a := 3#7, b := 0x79#7, sub := 1#8 }, [1#32, 1#32, 2#32, 3#32]),
    (.shfl { ext := true, d := 8#7, a := 3#7, b := 0x79#7, sub := 3#8 }, [2#32, 1#32, 4#32, 3#32]),
    (.redux { d := 8#7, a := 3#7 }, [10#32, 10#32, 10#32, 10#32]),
    (.scanx { d := 8#7, a := 3#7 }, [1#32, 3#32, 6#32, 10#32]),
    (.scanx { ext := true, d := 8#7, a := 3#7, sub := 1#8 }, [1#32, 1#32, 1#32, 1#32]),
    (.vote { ext := true, d := 8#7, a := 7#7, sub := 2#8 }, [0xF#32, 0xF#32, 0xF#32, 0xF#32])] = true := by decide +kernel

/-- 14 R228, its worked example: an SRAM word that holds 10 and adds of 1 to 4 in ascending lane order; and a `.cas` that stores once. -/
def stateTen : State :=
  { testState (testTeam (testGroup (lanes4.map (fun p => (p.1, { p.2 with v := [(2, 0xFFE00000#32), (3, BitVec.ofNat 32 (p.1 + 1)), (4, 10#32)] }))) 0 0)) with
    cores := [(0, { sram := [(0, 10#8)] })] }
theorem test_effect_atomics :
    (List.range 4).map (fun n => reg' (after (.atom { ext := true, d := 8#7, a := 2#7, b := 3#7, hint := 1#2, scope := 1#3 }) stateTen) n 8)
      = [10#32, 11#32, 13#32, 16#32]
    ∧ (coreAt (after (.atom { ext := true, d := 8#7, a := 2#7, b := 3#7, hint := 1#2, scope := 1#3 }) stateTen) 0).sram = [(0, 20#8)]
    ∧ (coreAt (after (.red { ext := true, a := 2#7, b := 3#7, hint := 1#2, scope := 1#3, sub := 2#8 }) stateTen) 0).sram = [(0, 10#8)]
    ∧ (List.range 4).map (fun n => reg' (after (.atom { ext := true, d := 8#7, a := 2#7, b := 4#7, c := 3#9, hint := 1#2, scope := 1#3, sub := 7#8 }) stateTen) n 8)
      = [10#32, 1#32, 1#32, 1#32] := by decide +kernel

/-- 14 R222 and R224: a lane's word at its own address, low byte first; a load of it back; a byte store. -/
theorem test_effect_memory :
    let s := after (.st { a := 0#7, b := 4#7 }) state4
    hbmRead s 1 0x80040 4 = [0#8, 0#8, 0x80#8, 0x3F#8] ∧ reg' (after (.ld { d := 8#7, a := 0#7 }) s) 1 8 = 0x3F800000#32
    ∧ hbmRead (after (.st { ext := true, a := 0#7, b := 3#7, sub := 3#8, imm := 1#23 }) s) 1 0x80040 4 = [0#8, 2#8, 0x80#8, 0x3F#8]
    ∧ (coreAt (after (.stm { a := 2#7, b := 3#7 }) state4) 0).sram = [(0, 1#8), (16, 2#8), (32, 3#8), (48, 4#8)] := by decide +kernel

/-- 09 R133, R135, R138 to R140: scalar sums and a broadcast; a branch moves the PC by 4 × IMM from its own word, a call pushes the next
one; a barrier waits while a lane is PARKed, and completes at once when none is missing. -/
theorem test_effect_scalar_control :
    scalar' (after (.sadd { d := 0x44#7, a := 0x40#7, b := 0x41#7 }) state4) 4 = 0x20001#64
    ∧ scalar' (after (.ssub { ext := true, d := 0x44#7, a := 0x79#7, b := 0x7A#7, ty := 4#5 }) state4) 4 = 0xFFFFFFFFFFFFFFFF#64
    ∧ (lane' (after (.br { ext := true, imm := 4#23 }) state4) 2).pc = 0x100010#64
    ∧ (lane' (after (.br { ext := true, imm := 4#23, pred := 0#3 }) state4) 2).pc ≠ 0x100010#64
    ∧ ((lane' (after (.call { ext := true, imm := 4#23 }) state4) 2).pc, (lane' (after (.call { ext := true, imm := 4#23 }) state4) 2).rstack)
      = (0x100010#64, [0x10000C#64])
    ∧ (lane' (after (.exit {}) state4) 3).st = .done ∧ (lane' (after (.barsync {}) stateHalf) 1).st = .waitb ∧ (lane' (after (.barsync {}) state4) 1).st = .run ∧ (lane' (after (.trap {}) state4) 0).st = .hold := by
  decide +kernel

/-- 16 R271 to R275 and R281: arithmetic modulo 2^64, a shift by 64, a field set and kept, a store and a load, an element's address, a branch
not taken, and the end. -/
def creg' (s : State) (n : Nat) : BitVec 64 := (progAt s ⟨0, 0⟩).elim 0#64 (fun q => mapGetD q.2.c n 0#64)
theorem test_effect_transfer :
    let s := stateX (testProg 0)
    creg' (after (.xsub ⟨7#4, 5#4, true, 2#17⟩) s) 7 = 0xFFFFFFFFFFFFFFFF#64 ∧ creg' (after (.xshl ⟨7#4, 5#4, true, 64#17⟩) s) 7 = 0#64
    ∧ creg' (after (.xadd ⟨7#4, 5#4, true, 0x1FFFF#17⟩) s) 7 = 0#64 ∧ creg' (after (.xmov 1#4 1#2 7#16) s) 1 = 0x70000#64
    ∧ creg' (after (.xmovk 1#4 1#2 7#16) s) 1 = 0x70000#64 ∧ creg' (after (.xmovk 1#4 0#2 7#16) s) 1 = 0x20007#64
    ∧ hbmRead (after (.xst ⟨5#4, 1#4, 1#2, false, 8#15⟩) s) 1 0x80000 16 = [0#8, 0#8, 0#8, 0#8, 0#8, 0#8, 0#8, 0#8, 1#8, 0#8, 0#8, 0#8, 0#8, 0#8, 0#8, 0#8]
    ∧ creg' (after (.xaddr 7#4 1#6 5#4 1#3) s) 7 = 0x20004#64
    ∧ (progAt (after .xend s) ⟨0, 0⟩).map (fun q => q.2.state) = some 4 := by decide +kernel

/-! The events. -/

/-- The test team's group changed, at a clock. -/
def stateG (f : Group → Group) (clk : Nat) : State := { testState (testTeam (f (testGroup lanes4 0 0))) with clk := clk }
/-- Pending results of each class, due at clock 5, 6 and 7; two accesses, one performed at DEVICE and due at 5; a promotion. -/
def pendingSb : List Sb := [⟨1, 5, 0, false, [(0, 3)], [], [], []⟩, ⟨1, 6, 1, false, [(0, 4)], [], [], []⟩, ⟨1, 7, 2, false, [(0, 5)], [], [], []⟩]
def testAccs : List Access :=
  [{ ctr := 0, perf := 0x1F#6, store := true, due := 5 }, { ctr := 0, perf := 1#6, store := false, due := 5 }]
def fenceState (k : FenceKind) (sc : Nat) : State :=
  stateG (fun g => { g with fences := [⟨k, sc⟩], ctr := { accs := testAccs, nt := [{ ctr := 0, perf := 0x1F#6, store := true, due := 5 }] } }) 5

/-- Results, an access due at this clock, fences whose accesses are and are not performed, and a promotion before and after its service. -/
theorem test_meets_ResultsAccessesAndFencesComplete :
    let p : GroupRef := ⟨0, 0, 0⟩
    let at' (s : State) : Prop := ((groupAt s p).isSome && (placeGroups s p).length == 1) = true
    at' (stateG (fun g => { g with sb := pendingSb }) 6)
    ∧ at' (fenceState .plain 4) ∧ testAccs[0]? = some { ctr := 0, perf := 0x1F#6, store := true, due := 5 }
    ∧ (testAccs[1]?).any (fun a => decide (a.due ≤ 5) && !a.peer && !a.perf.getLsbD 5) = true
    ∧ testAccs.all (fun a => a.perf.getLsbD 0) = true ∧ testAccs.all (fun a => a.perf.getLsbD 4) = false
    ∧ at' (fenceState .plain 0) ∧ at' (fenceState (.ranged []) 0) ∧ at' (fenceState .drain 4) ∧ at' (fenceState (.publish 3) 0)
    ∧ mapGet (fenceState (.publish 3) 0).published 3 = some ⟨0xA0000, 0xB0000, 1, 1, 5#64⟩
    ∧ at' (stateG (fun g => { g with promos := [{ tag := 1, core := 0, epoch := 0, key := (0, 0) }] }) 0)
    ∧ at' (stateG (fun g => { g with promos := [{ tag := 1, core := 0, epoch := 0, key := (0, 0), served := true }] }) 0) := by
  decide +kernel

/-- A spin expiry with a rotation of two keys, a fill, a breakpoint, a halt, a step, a check that ends and one that has not, a deferred record,
an FPX window at and before its 64th clock, a grant that fits and a reclaim. -/
def stateSpin : State :=
  let s := stateG (fun g => { g with
    lease := none, spinPc := 0x100000#57, spinCnt := 9#16, spinLim := 9#16
    lanes := g.lanes.map (fun p => (p.1, if p.1 < 2 then p.2 else { p.2 with pc := 0x100010#64 })) }) 0
  { s with
    objects := [(1, { fetchObj [] with textVa := 0x100000, textLen := 0x100, segments := [(0x100000, 1), (0x100010, 1)] })]
    cores := [(0, { trace := [(0x100010#64, 8), (0x100010#64, 9), (0x100010#64, 10), (0x100010#64, 11)] })] }
def stateFetch (pages : List PageMap) : State := { stateG (fun g => { g with lease := none, fetching := some 0 }) 0 with pages := pages }
def stateBp : State := { stateG id 0 with cores := [(0, { bps := [(0, 0x8000000000100000#64)], dbgLtag := 1#16 })] }
def testRec : FaultRec := { code := cBreak, kind := 0, ltag := 1, team := 0#32, lcore := 0, lanes := 1#32, pc := 0x100000#57, ref := ⟨1, 0⟩, core := 0, set := 0 }
def stateWin : State :=
  { stateG id 64 with
    cores := [(0, { windows := [⟨1, 0, 0, [⟨⟨1, 0⟩, 0, 0, 2, 1#5, 0x100000#64, 4#32⟩, ⟨⟨1, 0⟩, 0, 0, 1, 0#5, 0x100000#64, 4#32⟩]⟩, ⟨2, 1, 0, []⟩] })] }

theorem test_meets_SelectionBreakpointsRowsAndRecords :
    let p : GroupRef := ⟨0, 0, 0⟩
    let g' (s : State) : Option Group := (groupAt s p).map Prod.snd
    (g' stateSpin).any (fun g => (keysOf (runLanesOf g)).length == 2 && g.lease == none && g.fetching == none
      && decide (g.spinLim.toNat ≤ g.spinCnt.toNat) && decide (((keysOf (runLanesOf g)).headD (0, 0)).2 ≤ g.spinPc.toNat)
      && (groupAt stateSpin p).any (fun q => (pick g).any (fun k => k.pc == 0x100010#64 && startOk stateSpin q.1 g k && traceHit stateSpin q.1 k))) = true
    ∧ (let s := stateFetch [{ owner := 1, va := 0x100000, size := 0x10000, target := .hbm 0, exec := true }]
       (groupAt s p).any (fun q => q.2.fetching.isSome && (pick q.2).any (fun k => fetchFault s q.1 k.pc == none)) = true)
    ∧ (let s := stateFetch []
       (groupAt s p).any (fun q => q.2.fetching.isSome && (pick q.2).any (fun k => (fetchFault s q.1 k.pc).isSome)) = true)
    ∧ (groupAt stateBp p).any (fun q => breakpointAt stateBp q.1 q.2 == some (0, 0xF#32, 0x100000#64)) = true
    ∧ (stateBp.teams.map Team.ref).Nodup ∧ (stateBp.teams.all (fun u => decide (u.groups.map Group.id).Nodup)) = true
    ∧ (coreAt stateBp 0).dbgLtag = 1#16 ∧ (groupAt stateBp p).any (fun q => (launchOf stateBp q.1).ltag == 1 && q.2.lease.any (fun le => !le.susp && !le.atHalt)) = true
    ∧ credTag stateBp (.owner 1) 1 = true ∧ credTag stateBp (.owner 2) 1 = false
    ∧ ({ state4 with faultQ := [testRec] } : State).faultQ.find? (fun r => r.seq == (0#64).toNat && r.core == 0 && !r.resolved && r.code == cBreak) = some testRec
    ∧ hostResolves { state4 with faultQ := [{ testRec with owner := 1, tpol := 1 }] } (.owner 1) 0 0 = true
    ∧ hostResolves { state4 with faultQ := [{ testRec with owner := 1, tpol := 1 }] } (.owner 2) 0 0 = false ∧ testRec.ref = ⟨1, 0⟩ ∧ testRec.group = 0
    ∧ (g' (stateG (fun g => { g with checking := some 4 }) 4)).any (fun g => g.checking == some 4) = true
    ∧ ({ state4 with faultWait := [testRec] } : State).faultWait = testRec :: [] ∧ faultPlaceFree { state4 with faultWait := [testRec] } = true
    ∧ (coreAt stateWin 0).windows.find? (fun w => w.launch == 1) = some ⟨1, 0, 0, [⟨⟨1, 0⟩, 0, 0, 2, 1#5, 0x100000#64, 4#32⟩, ⟨⟨1, 0⟩, 0, 0, 1, 0#5, 0x100000#64, 4#32⟩]⟩
    ∧ 0 + 64 ≤ stateWin.clk ∧ (coreAt stateWin 0).windows.find? (fun w => w.launch == 2) = some ⟨2, 1, 0, []⟩ ∧ stateWin.clk < 1 + 64
    ∧ (let s := stateG (fun g => { g with req := 2048 }) 0
       (requester s 0 0 = (groupAt s p)) ∧ (groupAt s p).any (fun q => decide (q.2.req ≤ q.2.alloc + freeRows s 0 0)) = true)
    ∧ (let s := testState { testTeam { testGroup lanes4 0 0 with req := 2048 } with
          groups := [{ testGroup lanes4 0 0 with req := 2048 }, { testGroup [(0, { testLane 0 with st := .waitb })] 0 1 with id := 1 }] }
       (requester s 0 0 = (groupAt s p)) ∧ (groupAt s p).any (fun q => decide (q.2.req ≤ partRows 0) && decide (q.2.alloc + freeRows s 0 0 < q.2.req)) = true
        ∧ (partGroups s 0 0).all (fun q => q.2.req != 0 || q.2.lanes.all (fun l => l.2.st != .run)) = true
        ∧ (s.teams.map Team.ref).Nodup ∧ s.teams.all (fun u => decide (u.groups.map Group.id).Nodup) = true) := by
  decide +kernel

/-- A team with a record of its launch changed, on a device whose launch table holds the launch as a function of the default one. -/
def stateL (t : Team → Team) (l : Launch → Launch) (q : Cluster → Cluster) : State :=
  let s := testState (t (testTeam (testGroup lanes4 0 0)))
  { s with launches := [(1, l { obj := 1, kernel := 0, ltag := 1, owner := 1, dispatched := 1, clusters := [q { key := 0, state := 1, cores := [0] }] })] }
def freedTeam (t : Team) : Team := { t with groups := t.groups.map (fun g => { g with freed := true }), progs := [{ n := 0, proc := 0, state := 4 }] }
/-- The context that VACATE_TEAM and CONTEXT_WRITE save. -/
def contextTeam : Team := { testTeam { testGroup lanes4 0 0 with lease := none } with stopped := true, vacating := true, units := [], tiles := [] }

def moves1 : State := stateL freedTeam id id
def moves2 : State := stateL (fun t => { t with ended := some cWatchdog }) id (fun q => { q with state := 3 })
def moves3 : State := stateL (fun t => { t with ended := some cWatchdog }) (fun l => { l with idem := true, retry := 1 }) (fun q => { q with state := 3 })
def moves4 : State := { stateL id id (fun q => { q with state := 5 }) with teams := [] }
def moves5 : State :=
  { stateL id (fun l => { l with idem := true, withdrawnS := true, withdrawnE := [0x100000] }) (fun q => { q with state := 4, usedS := true }) with teams := [] }
def moves6 (n : Nat) : State := stateL (fun t => { t with stalled := n }) (fun l => { l with wdog := 20 }) id
def moves7 : State := stateL (fun t => { t with vacating := true, groups := t.groups.map (fun g => { g with lease := none }) }) id id
def moves8 : State := stateL (fun _ => { contextTeam with units := [0], tiles := [0] }) id id
def moves9 : State := { stateL id id (fun q => { q with state := 2, cores := [0], saved := [contextTeam] }) with teams := [] }
def moves10 : State := stateL (fun t => { t with groups := t.groups.map (fun g => { g with lanes := g.lanes.map (fun p => (p.1, { p.2 with st := .waitb })) }) }) (fun l => { l with idleFor := 240000, gx := 2 }) id
def lowLaunch : Launch := { obj := 1, kernel := 0, ltag := 1, owner := 1, dispatched := 1, clusters := [{ key := 0, state := 1, cores := [0] }] }
def moves11 (n : Nat) : State :=
  { stateL id id id with
    launches := [(1, lowLaunch), (2, { lowLaunch with prio := 7, preempt := n, preemptPending := true, dispatched := 0, clusters := [], order := 1 })] }

/-- The vacated cluster behind a head of higher priority. -/
def moves9b (cx : Nat) : State :=
  { moves9 with launches := moves9.launches ++ [(2, { lowLaunch with prio := 7, dispatched := 0, clusters := [], order := 1, gx := cx, cx := cx })] }
/-- A kernel of one team of 32 lanes. -/
def testKernel : Kernel :=
  { khdr := 1#64, sram := 0, lanes := 32, mgrp := 0, egrp := 0, cx := 1, cy := 1, cz := 1, roles := [{ kind := 0, regs := 8, entry := 0 }], toff := 0, tlen := 4 }
/-- Two clusters of a launch, a core under scan, and a request for as many cores as are free and one more. -/
def moves12 : State :=
  let t := testTeam (testGroup lanes4 0 0)
  { moves11 1535 with
    teams := [t, { t with ref := ⟨1, 1⟩, core := 1 }]
    launches := (1, { lowLaunch with gx := 2, dispatched := 2, clusters := [{ key := 0, state := 1, cores := [0] }, { key := 1, state := 1, cores := [1] }] })
      :: (moves11 1535).launches.drop 1
    objects := [(1, { fetchObj [] with kernels := [testKernel] })]
    cores := [(2, { scan := { state := 3 } })] }

/-- A team that may retire; an ended cluster, without and with a relaunch left. -/
theorem test_meets_TeamsRetireEndAndMove_end :
    (teamAt moves1 ⟨1, 0⟩).any (fun u => !u.retired && u.ended == none && u.groups.all Group.freed && u.progs.all (fun x => x.state == 4)
        && teamPerformed u && !hasEngineOp moves1 u) = true ∧ (clusterResident moves1 1 0).all (fun v => v.ref == ⟨1, 0⟩) = true
    ∧ ([moves2, moves3].all (fun s => (mapGet s.launches 1).any (fun l => (l.clusters.find? (fun q => q.key == 0)).any (fun q => q.state == 3))
        && (clusterResident s 1 0).all (fun v => teamPerformed v && !hasEngineOp s v))) = true := by
  decide +kernel

/-- A cluster to relaunch; one to run again without a class; a team at its watchdog limit and one below. -/
theorem test_meets_TeamsRetireEndAndMove_again :
    headCluster moves4 = some (1, 0) ∧ (mapGet moves4.launches 1).any (fun l => clusterState l 0 == 5
        && ((List.range herdCount).findSome? (fun h => (clusterCores moves4 l (countScans moves4 1 0) h).map (fun cs => (h, cs)))).isSome) = true
    ∧ (mapGet moves5.launches 1).any (fun l => launchOver l && l.clusters.any (forageAgain l)) = true
    ∧ (teamAt (moves6 (2 ^ 20)) ⟨1, 0⟩).any (fun u => decide (2 ^ (launchOf (moves6 (2 ^ 20)) u).wdog ≤ u.stalled) && u.ended == none) = true
    ∧ (teamAt (moves6 (2 ^ 20 - 1)) ⟨1, 0⟩).any (fun u => decide (u.stalled < 2 ^ (launchOf (moves6 (2 ^ 20 - 1)) u).wdog)) = true := by
  decide +kernel

/-- A team that may vacate, and one stopped; a context that fits its core and not another choice; a stalled launch. -/
theorem test_meets_TeamsRetireEndAndMove_vacate :
    (teamAt moves7 ⟨1, 0⟩).any (canVacate moves7) = true
    ∧ (teamAt moves8 ⟨1, 0⟩).any (fun u => u.ended == none && u.stopped) = true ∧ (clusterResident moves8 1 0).all (fun v => v.stopped || v.retired) = true
    ∧ (mapGet moves9.launches 1).any (fun l => nextCluster l == some 0 && l.clusters.any (fun q => q.key == 0 && q.state == 2 && restoreFits moves9 l q (countScans moves9 1 0) [0]
        && !restoreFits moves9 l q (countScans moves9 1 0) [])) = true
    ∧ herdTurn moves9 1 0 0 = some true ∧ herdTurn (moves9b 1) 1 0 0 = none ∧ herdTurn (moves9b 20) 1 0 0 = some false
    ∧ (mapGet moves10.launches 1).any (fun l => l.idleFor == 240000 && launchIdle moves10 1 && (nextCluster l).isSome && l.clusters.all (fun q => q.state != 1 || q.key == 0)) = true := by
  decide +kernel

/-- A spatial pre-emption with enough cores free, one that a cluster and a scan make way for, and one without enough. -/
theorem test_meets_TeamsRetireEndAndMove_preempt :
    (mapGet (moves11 1).launches 2).any (fun l => l.preemptPending && (enoughClusters (moves11 1) l (preemptOrder (moves11 1) l)).any (fun gone =>
          gone == [])) = true
    ∧ (mapGet moves12.launches 2).any (fun l => l.preemptPending && enoughClusters moves12 l (preemptOrder moves12 l) == some [(1, 1)]
        && takenScans moves12 l == [2]) = true ∧ (coreTeams moves12 2).isEmpty = true
    ∧ (match execSpatialPreemption 2 moves12 with | .next t => (coreTeams t 2).any (fun u : Team => u.ref.launch == 2) | _ => false) = true
    ∧ (match execSpatialPreemption 2 { moves12 with objects := [] } with | .next t => (coreAt t 2).scan.state == 3#8 | _ => false) = true
    ∧ (mapGet (moves11 (2 ^ 16)).launches 2).any (fun l => l.preemptPending && (enoughClusters (moves11 (2 ^ 16)) l (preemptOrder (moves11 (2 ^ 16)) l)).isNone) = true := by
  decide +kernel

/-- Two IADDs alike before an EXIT at the start of the text, and one of them as a candidate. -/
def forageBody : List (Op × Form) := [(.iadd, { d := 8#7, a := 3#7, b := 4#7 }), (.iadd, { d := 8#7, a := 3#7, b := 4#7 })]
def forageCand : List (Op × Form) := [(.iadd, { d := 8#7, a := 3#7, b := 4#7 })]
def codeBytesOf (is : List Instr) : List Byte := is.flatMap (fun i => (encode i).flatMap wordBytes)
def stateFo (k : Core) : State :=
  hbmWrite { state4 with objects := [(1, { fetchObj [] with textVa := 0x100000, textLen := 0x100, segments := [(0x100000, 3)] })], cores := [(0, k)] } 1 0
    (codeBytesOf ((forageBody.map (fun q => Instr.ofOp q.1 q.2)) ++ [.exit {}]))
/-- A search whose budget is spent, and an overlay with a finished comparison of lane 0, whose v8 afterwards is given. -/
def searchCore (done : Nat) : Core :=
  { searching := some 0, searchDone := done, hot := [(0, { launch := 1, pc := 0x100000#64, epoch := some 0, progress := 2 })] }
def checkCore (audit classS : Bool) (v8 : BitVec 32) : Core :=
  { overlays := [(0, { entry := 0, launch := 1, pc := 0x100000#64, body := forageCand, classS := classS, agree := 7
                       check := some { team := ⟨1, 0⟩, gid := 0, part := 0, before := [(0, testLane 0)]
                                       after := [(0, { testLane 0 with v := (testLane 0).v ++ [(8, v8)] })], mask := 1#32, audit := audit, count := 1
                                       ended := true } })] }

/-- The instruction of a one-word pattern. -/
def wordForms (ws : List Word) : List (Op × Form) :=
  ws.filterMap (fun w => match decodeWords [w] with | .instr i => i.opForm | .bad _ => none)

/-- The additions of `times_nine` and the two instructions of its overlay, by the words that 17 writes out: the overlay comes from them by the
rewrites of 18 R293 and is proven by 17 R288. -/
theorem test_forage_times_nine :
    (wordForms [0x060C1000#32, 0x08101000#32, 0x08101000#32, 0x06101000#32]).length = 4
    ∧ derives [] (wordForms [0x060C1000#32, 0x08101000#32, 0x08101000#32, 0x06101000#32]) (wordForms [0xF60F9034#32, 0x07601000#32]) = true
    ∧ proven (wordForms [0x060C1000#32, 0x08101000#32, 0x08101000#32, 0x06101000#32]) (wordForms [0xF60F9034#32, 0x07601000#32]) = true := by
  decide +kernel

/-- 18 R293: IMUL.lo by 1 gives its other source unchanged, so v2 stands for v6 in what follows; by 3 it does not. -/
theorem test_forage_identity_folds :
    derives [] [(.imul, { d := 6#7, a := 2#7, b := 0x79#7 }), (.iadd, { d := 6#7, a := 6#7, b := 3#7 })] [(.iadd, { d := 6#7, a := 2#7, b := 3#7 })] = true
    ∧ derives [] [(.imul, { d := 6#7, a := 2#7, b := 0x7B#7 }), (.iadd, { d := 6#7, a := 6#7, b := 3#7 })] [(.iadd, { d := 6#7, a := 2#7, b := 3#7 })] = false := by
  decide +kernel

/-- 18 R293 and R294: IMUL.lo by 4 with an addition of its latch is LEA #2; a live IMIN does not vanish; a guarded product is not fused into an
unguarded IMAD. -/
theorem test_forage_values_compared :
    derives [] [(.imul, { k := true, d := 0x64#7, a := 2#7, b := 0x7C#7 }), (.iadd, { d := 4#7, a := 6#7, b := 0x58#7, ty := 1#5 })]
        [(.lea, { d := 4#7, a := 6#7, b := 2#7, imm := 2#23 })] = true
    ∧ derives [] [(.imin, { d := 1#7, a := 1#7, b := 2#7 }), (.iadd, { d := 3#7, a := 1#7, b := 4#7 })] [(.iadd, { d := 3#7, a := 1#7, b := 4#7 })] = false
    ∧ derives [] [(.imul, { d := 6#7, a := 2#7, b := 3#7, pred := 0#3 }), (.iadd, { d := 6#7, a := 6#7, b := 4#7 })]
        [(.imad, { d := 6#7, a := 2#7, b := 3#7, c := 4#9 })] = false := by
  decide +kernel

/-- 18 R293: a guarded chain of self-additions is a guarded SHL; a live ICMP of constants does not vanish, but may be PNOT of p7; a predicate
that every sample held folds the PAND that reads it. -/
theorem test_forage_guards_and_predicates :
    derives [] [(.iadd, { d := 4#7, a := 3#7, b := 3#7, pred := 0#3 }), (.iadd, { d := 4#7, a := 4#7, b := 4#7, pred := 0#3 })]
        [(.shl, { d := 4#7, a := 3#7, b := 0x7A#7, pred := 0#3 })] = true
    ∧ derives [] [(.icmp, { d := 0#7, a := 0x79#7, b := 0x7A#7 })] [] = false
    ∧ derives [] [(.icmp, { d := 0#7, a := 0x79#7, b := 0x7A#7 })] [(.pnot, { d := 0#7, a := 7#7 })] = true
    ∧ derives [(locKey (.p 1), 1)] [(.pand, { d := 0#7, a := 1#7, b := 7#7 })] [(.pmov, { d := 0#7, a := 7#7 })] = true
    ∧ derives [] [(.pand, { d := 0#7, a := 1#7, b := 7#7 })] [(.pmov, { d := 0#7, a := 7#7 })] = false := by
  decide +kernel

/-- An epoch at its end and one clock before, in both states that may end; a Forage position; a search before and after its budget, with a
candidate that is acceptable and proven; comparisons and audits that agree and that do not. -/
theorem test_meets_ForageCountsComparesAndClears :
    (2 ^ 20 : Nat) ≤ ({ state4 with clk := 2 ^ 20 } : State).clk
    ∧ (mapGet (coreAt (stateFo { hot := [(0, { launch := 1, pc := 0#64, epoch := some 0 }), (1, { launch := 1, pc := 0#64, epoch := some 1, progress := 4 })] }) 0).hot 0).any
        (fun h => h.epoch == some 0 && h.progress == 0) = true
    ∧ forageReady (stateFo (searchCore 0)) 0 0 = true ∧ forageReady state4 0 0 = false ∧ (coreAt (stateFo { scan := { state := 3 } }) 0).scan.state = 3
    ∧ ((coreAt (stateFo (searchCore (2 ^ 16))) 0).searching = some 0 ∧ (2 ^ 16 : Nat) ≤ (coreAt (stateFo (searchCore (2 ^ 16))) 0).searchDone
      ∧ (coreAt (stateFo (searchCore 0)) 0).searchDone < 2 ^ 16)
    ∧ (mapGet (stateFo (searchCore 0)).launches 1).any (fun la => segmentBody (stateFo (searchCore 0)) la 0x100000#64 == some (forageBody, 0x100008)) = true
    ∧ acceptable (searchCore 0) 0 forageBody forageCand = true ∧ proven forageBody forageCand = true ∧ derives [] forageBody forageCand = true
    ∧ overlayRoom (stateFo (searchCore 0)) (searchCore 0) = some 0 ∧ acceptable (searchCore 0) 0 forageBody [] = false
    ∧ ((mapGet (stateFo (searchCore 0)).launches 1).any (fun la => !la.forageSpec) && (searchCore 0).forageEn && !(coreAt (stateFo { forageEn := false }) 0).forageEn) = true
    ∧ (∀ audit ∈ [false, true],
      (readyCheck (stateFo (checkCore audit true 0x3F800001#32)) 0 0 audit).any (fun q => checkAgrees (stateFo (checkCore audit true 0x3F800001#32)) q.2.2 q.1 q.2.1) = true
      ∧ (readyCheck (stateFo (checkCore audit true 0#32)) 0 0 audit).any
          (fun q => !checkAgrees (stateFo (checkCore audit true 0#32)) q.2.2 q.1 q.2.1 && q.1.classS) = true
      ∧ (readyCheck (stateFo (checkCore audit false 0#32)) 0 0 audit).any
          (fun q => !checkAgrees (stateFo (checkCore audit false 0#32)) q.2.2 q.1 q.2.1 && !q.1.classS) = true) := by
  decide +kernel

/-! Queues and commands. The signal word of queue 0 is at 0x20000 of owner 1, its ring at 0x20040, its packets NOPs unless said. -/

def testQueue : Queue := { ring := 0x20040, prio := 0, log2 := 4, sigva := 0x20000, read := 0#64, err := 0, errAddr := 0, ticket := 0#64, owner := 1 }
def words64 (ws : List Nat) : List Byte := ws.flatMap (fun w => natBytes w 8)
/-- A device with the queue, on a doorbell page, in a slot, W as given and one packet in the ring. -/
def stateQ (w : Nat) (packet : List Nat) (slots : List (Nat × HwSlot)) : State :=
  hbmWrite
    { state4 with
      pages := [{ owner := 1, va := 0x20000, size := 0x10000, target := .hbm 0x80000, doorbell := true }]
      queues := [(0, testQueue), (1, { testQueue with sigva := 0x20010 })], slots := slots, cores := [] } 1 0x80000
    (natBytes w 64 ++ words64 packet)
def slot0 : HwSlot := { queue := 0, signalled := 0, ticket := 0#64 }

/-- A record at the bounds of what is well formed, and one past each; a signal of a mapped queue, one that finds a free slot, one that finds
none; an idle slot at its limit; a packet that is claimed, one that is malformed, one without a mapping. -/
theorem test_meets_QueuesSlotsAndClaims :
    (let w (r : List Byte) (o : Nat) : Nat := bytesNat ((r.drop o).take 8)
     let good (r : List Byte) : Bool := decide (w r 0 < 2 ^ 57 ∧ w r 0 % 64 = 0 ∧ w r 8 < 2 ^ 11 ∧ w r 8 / 32 % 8 = 0 ∧ 4 ≤ w r 8 % 32 ∧ w r 8 % 32 ≤ 16
        ∧ w r 0x10 < 2 ^ 57 ∧ w r 0x10 % 8 = 0 ∧ w r 0x20 < 256 ∧ w r 0x28 < 2 ^ 57 ∧ w r 0x38 = 0)
     good (words64 [2 ^ 57 - 64, 0x710, 2 ^ 57 - 8, 0, 255, 2 ^ 57 - 1, 0, 0]) = true ∧ good (words64 [0, 4, 0, 0, 0, 0, 0, 0]) = true
      ∧ good (words64 [2 ^ 57, 4, 0, 0, 0, 0, 0, 0]) = false ∧ good (words64 [0, 3, 0, 0, 0, 0, 0, 0]) = false
      ∧ good (words64 [0, 17, 0, 0, 0, 0, 0, 0]) = false)
    ∧ (let s := stateQ 1 [] [(0, slot0)]
       (mapGet s.queues 0 = some testQueue ∧ vaWritable s 1 false 0x20000 8 = true ∧ signalPlace s testQueue = some 0x80000 ∧ s.rung = []
        ∧ signalPlace s { testQueue with sigva := 0x20010 } = some 0x80010)
       ∧ slotOf { s with pendingQ := [1] } 1 = none ∧ slotOf s 0 = some (0, slot0) ∧ mapGet s.slots 0 = some slot0
       ∧ slotOf s 1 = none ∧ mapGet s.slots 1 = none ∧ (s.slots.any (fun p => p.1 == 0)) = true)
    ∧ (let s := stateQ 1 [] ((List.range 64).map (fun n => (n, slot0)))
       slotOf s 1 = none ∧ ((List.range 64).all (fun n => (mapGet s.slots n).isSome)) = true
        ∧ (s.slots.all (fun e => (mapGet s.queues e.2.queue).any (fun x => queueW s x e.2.ticket != e.2.ticket.toNat))) = true)
    ∧ ((stateQ 0 [] ((List.range 64).map (fun n => (n, slot0)))).slots.any (fun e =>
        (mapGet (stateQ 0 [] []).queues e.2.queue).all (fun x => queueW (stateQ 0 [] []) x e.2.ticket == e.2.ticket.toNat))) = true
    ∧ (let s := { stateQ 0 [] [(0, slot0)] with clk := 2400 * State.reset.qidle.toNat + 1, pendingQ := [1] }
       max slot0.signalled slot0.claimed + s.qidle.toNat * 2400 < s.clk ∧ queueW s testQueue slot0.ticket = slot0.ticket.toNat
        ∧ (mapGet s.queues 1).any (fun x => !x.bad) = true)
    ∧ (stateQ 0 [] [(0, slot0)]).clk ≤ max slot0.signalled slot0.claimed + (stateQ 0 [] [(0, slot0)]).qidle.toNat * 2400
    ∧ (let s := stateQ 1 [2, 0x20800, 5] [(0, slot0)]
       (nextClaim s).any (fun q => q.1 == 0 && q.2.1 == slot0) = true ∧ agentFree s 0 = true
        ∧ (vaRead s 1 false 0x20040 64).any packetFormatOk = true)
    ∧ (let s := stateQ 1 [0, 0x20800, 5] [(0, slot0)]
       (nextClaim s).isSome = true ∧ agentFree s 0 = true ∧ (vaRead s 1 false 0x20040 64).any (fun b => !packetFormatOk b) = true)
    ∧ (let s := { stateQ 1 [] [(0, slot0)] with queues := [(0, { testQueue with ring := 0x2FFFC0 })] }
       (nextClaim s).isSome = true ∧ vaRead s 1 false 0x2FFFC0 64 = none) := by
  decide +kernel

/-- Core 0's agent with a packet of queue 0, running or not, its index and the queue's READ. -/
def stateCmd (ws : List Nat) (running : Bool) (index : Nat) (deadline : Option Nat) : State :=
  { stateQ 9 [] [] with
    clk := 7
    cores := [(0, { cmd := some { queue := 0, index := BitVec.ofNat 64 index, va := 0x20040, bytes := (words64 ws ++ List.replicate 64 0#8).take 64
                                  running := running, deadline := deadline } })] }

/-- The same with the packet's block, and the arrays it stands in, given. -/
def cmdHeld (s : State) (block : List Byte) (chain : List Frame) : State :=
  { s with cores := s.cores.map (fun p => (p.1, { p.2 with cmd := p.2.cmd.map (fun c => { c with block := block, chain := chain }) })) }
def testFrame : Frame := { base := 0x20400, count := 2, next := 1, va := 0x20040, csig := 0 }

/-- Each command ready to run or running: a SIGNAL that stores and one that adds, a WAIT that is met, one that is not, one at its limit and one
whose word has no mapping, an INDIRECT below and inside its ring, a TTSET, an ATTEST, a MANIFEST, a SCAN of a number past the map and of one in
it, a FENCE before and after its turn, a packet whose completion word has no mapping, and one of an array with a packet left. -/
theorem test_meets_CommandsRunAndComplete :
    let ready (s : State) (ty : Nat) : Bool := (readyPacket s 0 ty).any (fun q => packetCsigOk s q.1 q.2) && (coreAt s 0).cmd.any (fun p => p.chain.isEmpty && recWord p.bytes 0x38 == 0)
    ready (stateCmd [2, 0x20800, 5, 0] false 0 none) 2 = true ∧ ready (stateCmd [2, 0x20800, 5, 1] false 0 none) 2 = true
    ∧ translate (stateCmd [] false 0 none) 1 (some false) 0x20800 .atomic = .hbm 0x80800
    ∧ ready (stateCmd [3, 0x20000, 9, 0, 1] false 0 none) 3 = true
    ∧ (runningPacket (stateCmd [3, 0x20000, 9, 0, 1] true 0 none) 0 3).isSome = true
    ∧ (runningPacket (stateCmd [3, 0x20000, 10, 0, 1] true 0 (some 7)) 0 3).isSome = true
    ∧ (vaRead (stateCmd [] false 0 none) 1 false 0x20000 8).map bytesNat = some 9
    ∧ ready (stateCmd [4, 0x20400, 1] false 0 none) 4 = true ∧ 0x20040 + 64 * 2 ^ 4 ≤ 0x20440
    ∧ ready (stateCmd [4, 0x20440, 1] false 0 none) 4 = true ∧ ready (stateCmd [5, 3, 100, 10, 0x20900, 1] false 0 none) 5 = true
    ∧ ready (stateCmd [6, 0x20400, 0x20800] false 0 none) 6 = true ∧ ready (stateCmd [7, 0x20400, 0x20800] false 0 none) 7 = true
    ∧ ready (stateCmd [8, 2 ^ 11 - 1] false 0 none) 8 = true ∧ ready (stateCmd [8, 1] false 0 none) 8 = true
    ∧ ready (stateCmd [9] false 0 none) 9 = true ∧ ready (stateCmd [9] false 1 none) 9 = true
    ∧ (readyPacket (stateCmd [9, 0, 0, 0, 0, 0, 0, 0x900000] false 0 none) 0 9).any
        (fun q => !packetCsigOk (stateCmd [9, 0, 0, 0, 0, 0, 0, 0x900000] false 0 none) q.1 q.2) = true
    ∧ (runningPacket (stateCmd [3, 0x900000, 9, 0, 1] true 0 none) 0 3).isSome = true ∧ vaRead (stateCmd [] false 0 none) 1 false 0x900000 8 = none
    ∧ ready (cmdHeld (stateCmd [6, 0x20400, 0x20800] false 0 none) (List.replicate 208 0#8) []) 6 = true
    ∧ (∀ k, k < 512 → translate (stateCmd [] false 0 none) 1 (some false) ((0x20800 + k) % 2 ^ 57) .write = .hbm (0x80800 + k))
    ∧ ready (stateCmd [6, 0x20400, 0x900000] false 0 none) 6 = true ∧ vaWritable (stateCmd [] false 0 none) 1 false 0x900000 512 = false
    ∧ vaWritable (stateCmd [] false 0 none) 1 false 0x900000 264 = false
    ∧ (let s := cmdHeld (stateCmd [2, 0x20800, 5, 0] false 0 none) [] [testFrame]
       (readyPacket s 0 2).any (fun q => q.1.chain == [testFrame] && recWord q.1.bytes 0x38 == 0) = true ∧ testFrame.next < testFrame.count)
    ∧ (let s := stateCmd [8, 1] false 0 none
       physOfLogical s s.epoch 1 = 1 ∧ (s.cores.all (fun k => k.2.scanJob == none && k.2.scans == [])) = true ∧ s.selftests = []
        ∧ (coreAt s 1).cmd = none ∧ (coreAt s 1).scan.state = 0 ∧ s.removed.contains 1 = false ∧ firmwareTeam s 1 = none) := by
  decide +kernel

/-- A launch parameter block of one team of 32 lanes of object 1's kernel, and with a field out of range or an unaligned or unmapped
completion word. -/
def testBlock (w8 w48 csig : Nat) : List Nat := [1, w8, 0, 0, 0, 0, 0, 0, 0, w48, csig, 1] ++ List.replicate 20 0
/-- Core 0's agent holds a LAUNCH of the block at 0x21000, ready or running. -/
def stateLb (b : List Nat) (running : Bool) : State :=
  let s := stateCmd [1, 0x21000] running 0 none
  hbmWrite
    { s with
      objects := [(1, { fetchObj [] with kernels := [testKernel] })]
      cores := s.cores.map (fun p => (p.1, { p.2 with cmd := p.2.cmd.map (fun c => { c with block := words64 b }) })) } 1 0x81000
    (words64 b)
def goodBlock : List Nat := testBlock (2 * 2 ^ 32) 0 0x21800
def fullTable (s : State) : State := { s with launches := (List.range 256).map (fun n => (n + 1, { obj := 1, kernel := 0, ltag := n + 5 })) }

/-- A good block, one of a time trigger and one out of range; each in a table with a free place and in a full one; completion words that a
rejection can and cannot write. -/
theorem test_meets_LaunchesAreEnteredPlacedAndEnd_enter :
    (readyPacket (stateLb goodBlock false) 0 1).any (fun q => q.1.chain.isEmpty && !bit (recWord q.1.block 0x48) 56) = true
    ∧ (readyPacket (stateLb (testBlock (2 * 2 ^ 32) (2 ^ 56) 0) false) 0 1).any (fun q => bit (recWord q.1.block 0x48) 56) = true
    ∧ (blockCsig (words64 goodBlock)).1 % 8 = 0 ∧ vaWritable (stateLb goodBlock false) 1 false 0x21800 8 = true
    ∧ (blockCsig (words64 (testBlock (2 * 2 ^ 32) 0 0x21804))).1 % 8 ≠ 0
    ∧ (blockCsig (words64 (testBlock (2 * 2 ^ 32) 0 0x900000))).1 ≠ 0 ∧ vaWritable (stateLb goodBlock false) 1 false 0x900000 8 = false
    ∧ (checkBlock (stateLb goodBlock false) (words64 goodBlock)).toOption.isSome = true ∧ activeCount (stateLb goodBlock false) < 256
    ∧ (checkBlock (fullTable (stateLb goodBlock false)) (words64 goodBlock)).toOption.isSome = true ∧ 256 ≤ activeCount (fullTable (stateLb goodBlock false))
    ∧ (checkBlock (stateLb goodBlock false) (words64 (testBlock 0 0 0))).toOption.isNone = true
    ∧ (runningPacket (stateLb goodBlock true) 0 1).any (fun q => q.1.chain.isEmpty && q.1.block == words64 goodBlock) = true
    ∧ (runningPacket (fullTable (stateLb goodBlock true)) 0 1).isSome = true := by
  decide +kernel

/-- Launches that are over and that are not; an entry before its time, at it with and without an active launch; a head that fits herd 0 and
one that does not, herd 0 reserved; a head that has aged, and one that has not. -/
def overState : State := stateL id (fun l => { l with queue := some 0, packet := some 0#64, csig := 0x20800 }) (fun q => { q with state := 4 })
def testTrigger : Trigger := { start := 10, period := 5, lpb := 0x21000, skip := 0#32, catchup := true, en := true, owner := 1, next := 10 }
def stateTtOf (w8 w48 lpb time : Nat) (active : Option Nat) : State :=
  { stateLb (testBlock w8 w48 0) false with time := time, triggers := [(3, { testTrigger with active := active, lpb := lpb })] }
def stateTt : Nat → Option Nat → State := stateTtOf (2 * 2 ^ 32) (2 ^ 56 + 3 * 2 ^ 48) 0x21000
def stateHead (f : Launch → Launch) : State :=
  { stateL id (fun l => f { l with gx := 2, regG := 8 }) id with headOf := some (1, 1), reserved := some 0 }

/-- A fresh cluster behind a head that fits no herd. -/
def behind : State :=
  { moves9b 20 with launches := (1, { lowLaunch with gx := 2, regG := 8 }) :: ((moves9b 20).launches.drop 1).map (fun p => (p.1, { p.2 with regG := 8 })) }

theorem test_meets_LaunchesAreEnteredPlacedAndEnd_run :
    (mapGet overState.launches 1).any (fun l => launchOver l && l.clusters.all (fun k => !forageAgain l k) && l.detBuf.isEmpty && l.queue == some 0
        && l.packet == some 0#64) = true ∧ (mapGet (stateQ 1 [] []).queues 0).isSome = true
    ∧ (mapGet (stateL id id id).launches 1).any (fun l => !launchOver l) = true
    ∧ ({ testTrigger with spent := true } : Trigger).spent = true ∧ testTrigger.spent = false ∧ (stateTt 9 none).time < testTrigger.next ∧ testTrigger.next ≤ (stateTt 10 none).time ∧ (mapGet (stateTt 10 (some 1)).triggers 3).any (fun g => g.active == some 1) = true
    ∧ (vaRead (stateTt 10 none) 1 false 0x21000 256).any (fun b => csigAligned b && csigOk (stateTt 10 none) b && bit (recWord b 0x48) 56
        && bits (recWord b 0x48) 55 48 == 3 && (checkBlock (stateTt 10 none) b).toOption.isSome) = true
    ∧ vaRead (stateTtOf 0 0 0x900000 10 none) 1 false 0x900000 256 = none
    ∧ (vaRead (stateTtOf (2 * 2 ^ 32) 0 0x21000 10 none) 1 false 0x21000 256).any (fun b => csigAligned b && csigOk (stateTtOf 0 0 0x21000 10 none) b
        && !bit (recWord b 0x48) 56) = true
    ∧ (vaRead (stateTtOf 0 (2 ^ 56 + 3 * 2 ^ 48) 0x21000 10 none) 1 false 0x21000 256).any (fun b => csigAligned b && bit (recWord b 0x48) 56
        && bits (recWord b 0x48) 55 48 == 3 && !(checkBlock (stateTtOf 0 (2 ^ 56 + 3 * 2 ^ 48) 0x21000 10 none) b).toOption.isSome) = true
    ∧ headCluster (stateL id id id) = none
    ∧ (mapGet moves9.launches 1).any (fun l => clusterState l 0 == 2 && (fitInHerd moves9 1 0 (countScans moves9 1 0) 0).isSome
        && (l.clusters.find? (fun q => q.key == 0 && q.state == 2)).isSome) = true
    ∧ (fitInHerd (moves9b 20) 2 0 (countScans (moves9b 20) 2 0) 0 = none ∧ backfill (moves9b 20) (2, 0) 0 = some (1, 0)
      ∧ (fitInHerd (moves9b 20) 1 0 false 0).isSome = true)
    ∧ (fitInHerd behind 2 0 (countScans behind 2 0) 0 = none ∧ backfill behind (2, 0) 0 = some (1, 1)
      ∧ (fitInHerd behind 1 1 false 0).any (fun p => (p.1.clusters.find? (fun q => q.key == 1 && q.state == 2)).isNone) = true)
    ∧ headCluster (stateHead id) = some (1, 1)
    ∧ (mapGet (stateHead id).launches 1).any (fun _ => (fitInHerd (stateHead id) 1 1 (countScans (stateHead id) 1 1) 0).isSome) = true
    ∧ (mapGet (stateHead (fun l => { l with sram := 0x100000 })).launches 1).any
        (fun _ => (fitInHerd { stateHead (fun l => { l with sram := 0x100000 }) with removed := List.range 18 } 1 1 false 0).isNone) = true
    ∧ (let s := { stateHead id with reserved := none, clk := (stateHead id).age.toNat * 2400 }
       s.headSince + s.age.toNat * 2400 ≤ s.clk)
    ∧ (stateHead id).clk < (stateHead id).headSince + (stateHead id).age.toNat * 2400 ∧ (stateHead id).backfills < 4 := by
  decide +kernel

/-- Core 0 in a scan state, drained and clean, or with dirty lines, or busy; each state of R345. -/
def stateScan (n : Nat) (dirty : Bool) : State :=
  { State.reset with clk := 480000, cores := [(0, { scan := { state := n, sig := 1#64 }, dirty := dirty })] }

theorem test_meets_ScanCommandsAndRegisterWrites :
    (coreAt (stateScan 0 false) 0).scan.state = 0 ∧ coreDrained (stateScan 0 false) 0 = true ∧ (coreAt (stateScan 0 false) 0).dirty = false
    ∧ (coreAt (stateScan 6 true) 0).scan.state = 6 ∧ (coreAt (stateScan 6 true) 0).dirty = true
    ∧ coreDrained state4 0 = false ∧ (coreAt state4 0).scan.state = 0
    ∧ (coreAt (stateScan 1 false) 0).scan.state = 1 ∧ coreDrained (stateScan 1 false) 0 = true
    ∧ (coreAt (stateScan 2 false) 0).scan.state = 2 ∧ ((0xF0000#64 : BitVec 64).extractLsb' 16 8).toNat ≤ 15 ∧ 15 < ((0x100000#64 : BitVec 64).extractLsb' 16 8).toNat
    ∧ (coreAt (stateScan 3 false) 0).scan.state = 3 ∧ (stateScan 3 false).clk = (coreAt (stateScan 3 false) 0).scan.started + 480000
    ∧ ({ stateScan 3 false with clk := 479999 } : State).clk ≠ (coreAt (stateScan 3 false) 0).scan.started + 480000 ∧ scanDomain 0xCD#8 = true
    ∧ scanDomain 0xCE#8 = false ∧ scanDomain 0xE0#8 = false
    ∧ (coreAt (stateScan 4 false) 0).scan.state = 4 ∧ (coreAt (stateScan 5 false) 0).scan.state = 5 ∧ 0 ∉ (stateScan 5 false).removed
    ∧ (stateScan 5 false).errWait = [] ∧ mapGet (stateScan 5 false).errQ ((stateScan 5 false).errNext % 4096) = none
    ∧ hostGrants stateBp (.owner 1) 0 0x520 0 = true ∧ hostGrants stateBp (.owner 1) 0 0x530 1 = true ∧ hostGrants stateBp (.owner 2) 0 0x52F 0 = false
    ∧ ({ State.reset with faultBaseSet := true } : State).faultBaseSet = true
    ∧ isDeviceRegister 0x100 = true ∧ (stateScan 0 false).faultBaseSet = false
    ∧ (groupAt state4 ⟨0, 0, 0⟩).any (fun q => q.2.sb.all (fun b => !b.fp)) = true := by
  decide +kernel

/-- Errors whose unit has a self-test, corrected and consumed; a port's; a full error queue and a free place; a self-test of each kind; an
interval at its end with one counter past its limit; dies, keys and a handover. -/
def testError (unit : Nat) : ErrorRec :=
  { cls := 2, unit := unit, part := 255, die := 0, core := 0, ltag := 0, row := 0#32, col := 0#16, idx := 3#16, det1 := 0#64, det2 := 0#64 }
def testUnc (consumer : Option Consumer) : ErrorInput :=
  ⟨false, 5, 0, 0, 0, 0, 0, 3, 0#64, 0, consumer, 0x20000#57⟩

theorem test_meets_ErrorsHeatPowerAndKeys :
    [5, 8, 9, 10, 11, 14, 15, 20].contains (testUnc none).unit = true ∧ State.reset.errWait = [] ∧ mapGet State.reset.errQ (State.reset.errNext % 4096) = none
    ∧ (groupAt state4 ⟨0, 0, 0⟩).any (fun q => readingLanes q.2 != 0#32 && q.1.ended == none) = true
    ∧ (progAt (stateX { testProg 0 with queue := [testBulk 0] }) ⟨0, 0⟩).any (fun q => q.1.ended == none && q.2.queue.any (fun o => o.num == 0)) = true
    ∧ (let s := stateEng [{ testOp with running := true }]
       ((coreAt s 0).engine.find? EngineOp.running).any (fun o => (teamAt s o.ref).any (fun u => u.ended == none)) = true)
    ∧ isLink 16 = true ∧ isLink 18 = true ∧ isLink 15 = false
    ∧ ({ State.reset with errWait := [testError 5] } : State).errWait = testError 5 :: []
    ∧ mapGet ({ State.reset with errQ := [(0, testError 5)] } : State).errQ (0 % 4096) ≠ none
    ∧ retireReady State.reset 0 = true ∧ isDatapath (testError 16) = false ∧ isDatapath (testError 15) = false ∧ isDatapath (testError 0) = true
    ∧ (∀ n ∈ [4, 5, 7, 0], (coreAt (stateScan n false) (testError 0).core).scan.state = n) ∧ ({ testError 0 with testing := true } : ErrorRec).testing = true
    ∧ (testError 0).testing = false
    ∧ (let spares := countKey 16 5 0 0 3
       mapGetD State.reset.counts spares 0 < 32 ∧ 32 ≤ mapGetD ({ State.reset with counts := [(spares, 32)] } : State).counts spares 0 ∧ isLink 5 = false)
    ∧ (let s := { State.reset with clk := 2 ^ State.reset.logInt.toNat, counts := [(8 * 2 ^ 64, 1024 * State.reset.linkLim.toNat + 1)] }
       s.intervalFrom + 2 ^ s.logInt.toNat ≤ s.clk ∧ s.counts.filter (fun p => decide (8 ≤ p.1 / 2 ^ 64) && decide (p.1 / 2 ^ 64 < 16)) = s.counts)
    ∧ State.reset.clk < State.reset.intervalFrom + 2 ^ State.reset.logInt.toNat
    ∧ 31 ∉ State.reset.hotDies ∧ 31 ∈ ({ State.reset with hotDies := [31] } : State).hotDies
    ∧ (teamAt state4 ⟨1, 0⟩).any (fun u => u.core / 48 == 0 && u.ended == none) = true ∧ 0 ∉ state4.hotDies ∧ (63 : Nat) < 64 ∧ ¬ (64 : Nat) < 64
    ∧ 63 ∉ State.reset.keys ∧ 63 ∈ ({ State.reset with keys := [63] } : State).keys ∧ State.reset.pendingFw = none := by
  decide +kernel

/-- The smallest object: one kernel of one EXIT (21 R332 to R336). Its measurement is SHAKE256 of the bytes before it, computed outside the model
with FIPS 202's function. -/
def testObject : List Byte :=
  words64 ([0x14D495350, 1] ++ List.replicate 6 0 ++ [0xD0, 4, 0xD8, 0, 0xD8, 8, 0xE0, 0x80, 0x160, 0x20, 0x180, 0, 0x180, 0, 0x180, 0, 0x180, 0x40,
      0xC9919194, 0x100000000, 1, 0, 0x20, 0x10000, 0x400000000] ++ List.replicate 11 0
    ++ [0x800, 0, 0, 0, 0x40795ED17DC3B9F, 0xA0D5E18AAF61AC1A, 0xFD0AF2DDC9E50D98, 0x9E898A03A77B0B91, 0xE0EF9D025C171171, 0x5D565E9FCD46006D,
      0x8983197D2D81E951, 0xCD909028867BE4D7])
def testRegister (f : List Byte) : RegisterInput := ⟨f, 1, false, 0x1000000, 0x1100000, 0x1200000, 0x300000, 0x310000, 0x320000⟩

/-- That object passes every check. -/
theorem test_object_loads : (loadResult testObject).status = 0 := by decide +kernel

/-- Reads and writes that pass and that fault, a peer's atomic, a page that meets none, quiet and busy pages, a published entry that is free, an
object that loads and one that does not, and one to unregister with and without a launch. -/
theorem test_meets_MemoryMapsHostTimeAndObjects :
    translate state4 1 (some false) 0x20000 .read = .hbm 0x80000 ∧ translate state4 1 (some false) 0x20007 .write = .hbm 0x80007
    ∧ translate state4 1 (some false) 0x900000 .read = .fault cXlate ∧ translate state4 1 (some false) 0x2FFFF .read = .hbm 0x8FFFF
    ∧ translate state4 1 (some false) 0x30000 .read = .fault cXlate
    ∧ (let s := { state4 with pages := [{ owner := 1, va := 0x20000, size := 0x10000, target := .hbm 0x80000, peers := [7] }] }
       (∀ i, i < 16 → (findPage s 1 ((0x20000 + i) % 2 ^ 57)).any (fun p => p.peers.contains 7) = true)
        ∧ (findPage s 1 0x20000).any (fun p => p.peers.contains 8) = false
        ∧ (∀ i, i < 8 → translate s 1 none ((0x20000 + i) % 2 ^ 57) .atomic = .hbm (0x80000 + i)) ∧ intWidth 1#5 = 64 ∧ (0x20004 : Nat) % 8 ≠ 0)
    ∧ translate state4 1 none 0x20008 .atomic = .hbm 0x80008
    ∧ pageOk { owner := 1, va := 0x30000, size := 0x10000, target := .hbm 0xC0000 } = true
    ∧ (state4.pages.all (fun q => !pagesMeet { owner := 1, va := 0x30000, size := 0x10000, target := .hbm 0xC0000 } q)) = true
    ∧ writesText (textRanges state4) { owner := 1, va := 0x30000, size := 0x10000, target := .hbm 0xC0000 } = false
    ∧ (state4.pages.all (pageQuiet state4)) = true ∧ pagesMeet { owner := 1, va := 0x20000, size := 0x10000, target := .hbm 0 } (state4.pages.headD { owner := 0, va := 0, size := 0, target := .hbm 0 }) = true
    ∧ (let s := stateG (fun g => { g with ctr := { accs := testAccs, tags := [(0, ⟨0, 0x20000, 4, 0⟩)] } }) 0
       s.pages.any (fun p => p.owner == 1 && p.va == 0x20000 && !pageQuiet s p) = true ∧ retireReady s 8 = false ∧ retireReady s 9 = true
       ∧ (mapGet s.objects 1).any (fun o => objectQuiet s o && !objectQuiet s { o with pages := [0x20000] }) = true)
    ∧ mapGet state4.published 0 = none ∧ (1000001 : Int) > 1000000
    ∧ ((textRanges state4).any (fun r => decide (0 < r.1 + r.2) && decide (r.1 < 0 + 65536 * 1))) = true
    ∧ ([0xC0000, 0xD0000].all (fun b => (textRanges state4).all (fun r => decide (r.1 + r.2 ≤ b) || decide (b + 65536 * 1 ≤ r.1)))) = true
    ∧ (loadResult []).status ≠ 0 ∧ placesOk state4 (testRegister testObject) = true
    ∧ mapGet state4.objects 1 ≠ none ∧ 1 ∉ state4.unregistering ∧ (∃ p ∈ state4.launches, p.2.obj = 1)
    ∧ (({ state4 with launches := [] } : State).cores.all (fun c => heldObject c.2 == none)) = true := by
  decide +kernel

/-- A NaN operand, the value 1, and a result under each directed rounding without overflow. -/
theorem test_meets_FloatRoundingLaws :
    isNan (floatVal 0 0x7FC00000) = true ∧ (∃ y, floatVal 0 0x3F800000 = .num y ∧ y.m ≠ 0) ∧ 0x3F800000 < 2 ^ ((fmtOf 0).signAt + 1)
    ∧ (∀ rm, rm < 6 → (roundFloat 0 rm false 0#32 ⟨true, 0x1000001, 0⟩).flags &&& flagOF = 0#5)
    ∧ (∃ y, floatVal 0 (roundFloat 0 1 false 0#32 ⟨true, 0x1000001, 0⟩).bits = .num y) ∧ (∃ y, floatVal 0 (roundFloat 0 3 false 0#32 ⟨true, 0x1000001, 0⟩).bits = .num y)
    ∧ (∃ y, floatVal 0 (roundFloat 0 2 false 0#32 ⟨true, 0x1000001, 0⟩).bits = .num y) :=
  ⟨rfl, ⟨_, rfl, by decide⟩, by decide, by decide +kernel, ⟨_, rfl⟩, ⟨_, rfl⟩, ⟨_, rfl⟩⟩

/-- A compute instruction, a transfer instruction of one word and of two, each well formed, and words that decode. -/
theorem test_meets_DecodingAndEncodingAgree :
    isCompute (.exit {}) = true ∧ (Instr.exit {}).wellFormed = true ∧ isTransfer .xend = true ∧ Instr.xend.wellFormed = true ∧ encode .xend ≠ []
    ∧ decodeWords [0xC9919194#32] = .instr (.exit {}) ∧ decodeXWord ((encode .xend).headD 0#32) 0#32 = .instr .xend := by
  decide +kernel

/-- The step that finds an event at the head of the agenda; the barrel about to issue a decoded and an undecodable word of a group, and of a
program; a turn in progress; and a clock at which nothing is left to do. -/
theorem test_meets_AStepRunsTheDecodedInstruction_group :
    encode .moduleReset = []
    ∧ ([0xC9919194, 0x00000001].all (fun w =>
        let s := State.reset.withFetchWord 32 w
        let s0 := { s with agenda := s.agenda.drop 1 }
        s.agenda.head? == some .barrel && s.turn.core == some 0 && decide (s.turn.part < 6) && (coreAt s0 0).scan.state != 3
          && decide ((partAt (coreAt s0 0) s.turn.part).fp64Till ≤ s.clk) && !withheld s0 s.turn.part s.turn.pos
          && (scanRing exec s0 0).any (fun r => (groupAt r.2.2 ⟨0, s.turn.part, r.1⟩).any (fun q => q.2.lease.any (fun le =>
            le.overlay == none && breakpointAt r.2.2 q.1 q.2 == none && (objOf r.2.2 (launchOf r.2.2 q.1)).any (fun o =>
              match decodeBytes (hbmRead r.2.2 o.owner (o.textPa + (le.pc.toNat - o.textVa)) 20) with
              | .instr _ => w != 1
              | .bad _ => w == 1 && (issueOf { r.2.2 with cur := .group ⟨0, s.turn.part, r.1⟩ } .nop {}).isSome)))))) = true := by
  decide +kernel

/-- Every port's link retired. -/
def deadPorts : List (Nat × Nat) := (List.range Config.ports).map (fun n => (18 * 256 + linkDie 18 0, n))

/-- A program's instruction and a word that is none; endpoints that answer and that do not; a turn in progress; a clock at which nothing is left to do. -/
theorem test_meets_AStepRunsTheDecodedInstruction_rest :
    ([0xE0000000#32, 0xFFFFFFFF#32].all (fun w =>
        let s := placeFetch State.reset true [w]
        let s0 := { s with agenda := s.agenda.drop 1 }
        s.agenda.head? == some .barrel && s.turn.core == some 0 && decide (6 ≤ s.turn.part)
          && (progAt s0 ⟨0, s.turn.pos⟩).any (fun q => progReady s0 q.1 q.2 && (match fetchX s0 q.1 q.2 with
            | .instr _ => w == 0xE0000000#32 | .bad _ => w != 0xE0000000#32)))) = true
    ∧ endpointsAnswer State.reset = true ∧ endpointsAnswer { State.reset with retiredLinks := deadPorts } = false
    ∧ viaEndpoint (.dbgHalt ⟨.firmware, 0⟩ 0#64) = true ∧ viaEndpoint .moduleReset = false ∧ encode (.dbgHalt ⟨.firmware, 0⟩ 0#64) = []
    ∧ (devCsr State.reset 0x510).isSome = true ∧ devCsr State.reset 0 = none
    ∧ (State.reset.agenda = [] ∧ State.reset.turn = {}) ∧ (dueItems State.reset).findSome? (dueState exec State.reset) = none
    ∧ agentServes State.reset = none ∧ nextCore State.reset = none := by
  decide +kernel

/-- The state after reset is canonical, and a step of it answers a next state. -/
theorem test_meets_EveryStepKeepsMemoryCanonical :
    Canonical State.reset ∧ (match step State.reset with | .next _ => true | _ => false) = true := ⟨reset_canonical, by decide +kernel⟩

end
end Sys2Proof.Machine
end

section
/-! PROOFS. WORKNEXT (02 R26 to R29): the pieces of the teams cover every iteration once, and a clean issue hands the next one out. -/
namespace Sys2Proof.Machine

/-- A choice under a condition is the same choice under an equivalent one. -/
theorem ite_cond_iff {α : Type} {p q : Prop} [Decidable p] [Decidable q] {a b : α} (h : p ↔ q) : (if p then a else b) = if q then a else b :=
  ite_congr (propext h) (fun _ => rfl) (fun _ => rfl)

/-! ## The pieces partition the iterations (02 R26, R27) -/

/-- Whether an iteration lies in a piece. -/
def Piece.holds (p : Piece) (k : Nat) : Bool := decide (p.first ≤ k) && decide (k < p.first + p.count)

theorem Piece.holds_iff (k : Nat) (p : Piece) : p.holds k = true ↔ p.first ≤ k ∧ k < p.first + p.count := by simp [holds]

/-- The pieces cut from a range hold each of its iterations once and no other, when the bound on their number reaches its end. -/
theorem countP_cutTiles (t hi k : Nat) (ht : 1 ≤ t) (n lo : Nat) (hn : hi ≤ lo ∨ hi ≤ (lo / t + n) * t) :
    (cutTiles t hi lo n).countP (Piece.holds · k) = if lo ≤ k ∧ k < hi then 1 else 0 := by
  induction n generalizing lo with
  | zero =>
    have h := Nat.div_mul_le_self lo t
    rw [Nat.add_zero] at hn
    rw [if_neg (by omega)]
    rfl
  | succ n ih =>
    unfold cutTiles
    split
    case isFalse hlo => rw [if_neg (by omega)]; rfl
    case isTrue hlo =>
      have hnext : lo < (lo / t + 1) * t := by
        rw [Nat.mul_comm]
        exact Nat.lt_mul_div_succ lo ht
      have hrest : hi ≤ min hi ((lo / t + 1) * t) ∨ hi ≤ (min hi ((lo / t + 1) * t) / t + n) * t := by
        rcases Nat.le_total hi ((lo / t + 1) * t) with h | h
        · exact .inl (by omega)
        · rw [Nat.min_eq_right h, Nat.mul_div_cancel _ ht]
          have : lo / t + 1 + n = lo / t + (n + 1) := by omega
          rw [this]
          exact .inr (by omega)
      dsimp only
      rw [List.countP_cons, ih _ hrest, ite_cond_iff (Piece.holds_iff k _)]
      dsimp only
      generalize (lo / t + 1) * t = e at hnext
      by_cases h1 : lo ≤ k ∧ k < min hi e
      · rw [if_neg (by omega), if_pos (by omega), if_pos (by omega)]
      · rw [if_neg (c := lo ≤ k ∧ k < lo + _) (by omega), Nat.add_zero]
        exact ite_cond_iff (by omega)

theorem one_le_workTeams (l : Launch) (hx : 1 ≤ l.gx) (hy : 1 ≤ l.gy) (hz : 1 ≤ l.gz) : 1 ≤ workTeams l := by
  have h : 1 ≤ l.gx * l.gy * l.gz := Nat.mul_pos (Nat.mul_pos hx hy) hz
  unfold workTeams
  omega

theorem rangeStart_zero (l : Launch) : rangeStart l 0 = 0 := by simp [rangeStart]

theorem rangeStart_workTeams (l : Launch) (h : 1 ≤ workTeams l) : rangeStart l (workTeams l) = l.iter :=
  Nat.mul_div_cancel_left _ h

theorem rangeStart_mono (l : Launch) {a b : Nat} (h : a ≤ b) : rangeStart l a ≤ rangeStart l b :=
  Nat.div_le_div_right (Nat.mul_le_mul_right _ h)

/-- The pieces of a team hold each iteration of its range once: their marks and their order change nothing. -/
theorem countP_teamPieces (l : Launch) (r k : Nat) (ht : 1 ≤ l.tile) (hr : r < workTeams l) :
    (teamPieces l r).countP (Piece.holds · k) = if rangeStart l r ≤ k ∧ k < rangeStart l (r + 1) then 1 else 0 := by
  have hend : rangeStart l (r + 1) ≤ l.iter := by
    rw [← rangeStart_workTeams l (by omega)]
    exact rangeStart_mono l hr
  have hbound : rangeStart l (r + 1) ≤ (rangeStart l r / l.tile + (l.iter / l.tile + 2)) * l.tile :=
    calc rangeStart l (r + 1) ≤ l.tile * (l.iter / l.tile + 1) := Nat.le_trans hend (Nat.le_of_lt (Nat.lt_mul_div_succ l.iter ht))
      _ ≤ l.tile * (rangeStart l r / l.tile + (l.iter / l.tile + 2)) := Nat.mul_le_mul_left _ (by have := Nat.zero_le (rangeStart l r / l.tile); omega)
      _ = _ := Nat.mul_comm _ _
  unfold teamPieces
  rw [List.countP_append, Nat.add_comm, ← List.countP_eq_countP_filter_add, List.countP_map]
  exact countP_cutTiles l.tile _ k ht _ _ (.inr hbound)

theorem le_of_le_succ (b : Nat → Nat) (hb : ∀ r, b r ≤ b (r + 1)) (n : Nat) : b 0 ≤ b n := by
  induction n with
  | zero => exact Nat.le_refl _
  | succ n ih => exact Nat.le_trans ih (hb n)

/-- Of ranges that follow one another, one holds each number between the first start and the last end. -/
theorem sum_range_holds (b : Nat → Nat) (hb : ∀ r, b r ≤ b (r + 1)) (k n : Nat) :
    ((List.range n).map (fun r => if b r ≤ k ∧ k < b (r + 1) then 1 else 0)).sum = if b 0 ≤ k ∧ k < b n then 1 else 0 := by
  induction n with
  | zero => rw [if_neg (by omega)]; rfl
  | succ n ih =>
    have h0 : b 0 ≤ b n := le_of_le_succ b hb n
    have h1 := hb n
    rw [List.range_succ, List.map_append, List.sum_append, ih, List.map_singleton, List.sum_singleton]
    by_cases hk : k < b n
    · rw [if_neg (c := b n ≤ k ∧ _) (by omega), Nat.add_zero]
      exact ite_cond_iff (by omega)
    · rw [if_neg (c := _ ∧ k < b n) (by omega), Nat.zero_add]
      exact ite_cond_iff (by omega)

/-- THE PIECES PARTITION THE ITERATIONS: every iteration lies in one piece of the teams that own iterations. -/
theorem countP_all_teamPieces (l : Launch) (hx : 1 ≤ l.gx) (hy : 1 ≤ l.gy) (hz : 1 ≤ l.gz) (ht : 1 ≤ l.tile) (k : Nat) (hk : k < l.iter) :
    ((List.range (workTeams l)).flatMap (teamPieces l)).countP (Piece.holds · k) = 1 := by
  have hsum : (List.range (workTeams l)).map (List.countP (Piece.holds · k) ∘ teamPieces l) =
      (List.range (workTeams l)).map (fun r => if rangeStart l r ≤ k ∧ k < rangeStart l (r + 1) then 1 else 0) :=
    List.map_congr_left (fun r hr => countP_teamPieces l r k ht (List.mem_range.mp hr))
  rw [List.countP_flatMap, hsum, sum_range_holds (rangeStart l) (fun r => rangeStart_mono l (Nat.le_succ r)),
    rangeStart_zero, rangeStart_workTeams l (one_le_workTeams l hx hy hz), if_pos ⟨Nat.zero_le k, hk⟩]

/-! ## One request (02 R29) -/

theorem pieceWords_length (s : State) (l : Launch) (n team : Nat) (p : Option Piece) : (pieceWords s l n team p).length = 5 := by
  cases p <;> rfl

/-- Words set at numbers that follow one another read back, and every other number reads as before. -/
theorem mapGetD_setWords (ws : List (BitVec 64)) (n : Nat) (m : List (Nat × BitVec 64)) (j k : Nat) :
    mapGetD ((ws.zipIdx j).foldl (fun m w => mapSet m (n + w.2) w.1 0#64) m) k 0#64 =
      if n + j ≤ k ∧ k < n + j + ws.length then ws.getD (k - (n + j)) 0#64 else mapGetD m k 0#64 := by
  induction ws generalizing m j with
  | nil => rw [if_neg (by simp)]; rfl
  | cons w r ih =>
    rw [List.zipIdx_cons, List.foldl_cons, ih, mapGetD_mapSet, List.length_cons]
    by_cases h1 : n + (j + 1) ≤ k ∧ k < n + (j + 1) + r.length
    · rw [if_pos h1, if_pos (by omega), show k - (n + j) = (k - (n + (j + 1))) + 1 by omega, List.getD_cons_succ]
    · rw [if_neg h1]
      by_cases h2 : k = n + j
      · rw [if_pos h2, if_pos (by omega), show k - (n + j) = 0 by omega, List.getD_cons_zero]
      · rw [if_neg h2, if_neg (by omega)]

/-- A later change of the issue's group that keeps its name and its lanes keeps the frame, with what the group then keeps. -/
theorem IssueFrame.updGroup {gk gk' : Group → Group → Prop} {lk : Lane → Lane → Prop} {s t : State} {i : Issue}
    (h : IssueFrame gk lk s t i) (f : Group → Group) (hid : ∀ g, (f g).id = g.id) (hlanes : ∀ g, (f g).lanes = g.lanes)
    (hk : ∀ g g', gk g g' → gk' g (f g')) : IssueFrame gk' lk s (Machine.updGroup t i.t.ref i.g.id f) i := by
  have hg (n : Nat) : groupIn (Machine.updGroup t i.t.ref i.g.id f) i.t.ref n =
      if n = i.g.id then (groupIn t i.t.ref n).map f else groupIn t i.t.ref n := by
    rw [groupIn_updGroup _ _ _ _ _ _ hid]
    simp
  have hlane (n : Nat) : laneIn (Machine.updGroup t i.t.ref i.g.id f) i.t.ref i.g.id n = laneIn t i.t.ref i.g.id n := by
    unfold laneIn
    rw [hg, if_pos rfl]
    cases groupIn t i.t.ref i.g.id with
    | none => rfl
    | some g => simp [hlanes]
  have hteam (r : TeamRef) : teamAt (Machine.updGroup t i.t.ref i.g.id f) r =
      if r = i.t.ref then (teamAt t r).map (fun u => teamUpdGroup u i.g.id f) else teamAt t r :=
    teamAt_updTeam t i.t.ref r _ (fun _ => rfl)
  obtain ⟨u, hu, hukept⟩ := h.team
  obtain ⟨g', hg', hgk⟩ := h.group
  exact {
    rest := h.rest
    memory := ⟨h.memory.hbm, h.memory.sram⟩
    core := h.core
    otherTeams := fun r hr => by rw [hteam, if_neg hr, h.otherTeams r hr]
    team := ⟨teamUpdGroup u i.g.id f, by rw [hteam, if_pos rfl, hu]; rfl, hukept⟩
    otherCores := h.otherCores
    otherGroups := fun n hn => by rw [hg, if_neg hn, h.otherGroups n hn]
    group := ⟨f g', by rw [hg, if_pos rfl, hg']; rfl, hk _ _ hgk⟩
    otherLanes := fun n hn => by rw [hlane, h.otherLanes n hn]
    lanes := fun n l hn hl => by rw [hlane]; exact h.lanes n l hn hl }

/-- A scalar instruction's issue keeps the frame of one that computes. -/
theorem finishScalar_frame {s : State} {o : Op} {f : Form} {i : Issue} (h : Clean s o f i) (v : BitVec 64) :
    ComputeFrame s (finishScalar s i v) i := by
  obtain ⟨ht, hg, _, _⟩ := issueOf_group h.issue
  exact finishIssue_frame s i (fun _ _ => ⟨v.toNat, 0#5, 0⟩) ht hg (noTraps_of_noFlags i _ (fun _ _ => rfl))

/-- The piece a group's request is answered with: none in a launch that is not PERSISTENT, for a team without iterations, and past the last
piece. -/
def nextPiece (s : State) (i : Issue) : Option Piece :=
  let l := launchOf s i.t
  if l.persistent = true ∧ i.t.ref.team < workTeams l then (teamPieces l i.t.ref.team)[i.g.requests]? else none

/-- The five words a request is answered with. -/
def nextWords (s : State) (i : Issue) : List (BitVec 64) :=
  pieceWords s (launchOf s i.t) i.t.ref.launch i.t.ref.team (nextPiece s i)

/-- A group after a request: one request more, and the words of its piece in five scalar registers. -/
def takePiece (d : Nat) (ws : List (BitVec 64)) (g : Group) : Group :=
  { g with requests := g.requests + 1, s := ws.zipIdx.foldl (fun m w => mapSet m (d + w.2) w.1 0#64) g.s }

/-- Taking a piece changes the scalar registers and the count of a group, nothing else. -/
theorem takePiece_kept {d : Nat} {ws : List (BitVec 64)} {g h : Group} (hk : GroupKept g h) :
    GroupKept { g with s := (takePiece d ws h).s, requests := (takePiece d ws h).requests } (takePiece d ws h) := by
  unfold GroupKept at hk ⊢
  exact congrArg (fun x : Group => { x with s := (takePiece d ws h).s, requests := (takePiece d ws h).requests }) hk

/-- A clean WORKNEXT finishes as a scalar instruction, and its group takes the piece. -/
theorem exec_worknext {s : State} {f : Form} {i : Issue} (h : Clean s .worknext f i) :
    exec (.worknext f) s = .next (updGroup (finishScalar s i ((nextWords s i).headD 0#64)) i.t.ref i.g.id
      (takePiece (f.d.toNat - 0x40) (nextWords s i))) := by
  have hp : (if !(launchOf s i.t).persistent || decide (workTeams (launchOf s i.t) ≤ i.t.ref.team) then none
      else (teamPieces (launchOf s i.t) i.t.ref.team)[i.g.requests]?) = nextPiece s i := by
    unfold nextPiece
    dsimp only
    rw [← ite_not]
    exact ite_cond_iff (by simp)
  change execWorknext f s = _
  unfold execWorknext
  rw [withIssue_clean h.issue h.whole]
  simp only [hp]
  rfl

/-- Settles O13: a clean WORKNEXT is a scalar issue after which its group takes the next piece, and the pieces of the teams' ranges, which
follow one another from 0 to ITER, hold each iteration once. -/
theorem workNextHandsOutThePieces : Obligations.WorkNextHandsOutThePieces := by
  unfold Obligations.WorkNextHandsOutThePieces
  refine ⟨fun f s i h => ?_, fun l hx hy hz _ ht k hk => countP_all_teamPieces l hx hy hz ht k hk⟩
  have hframe := finishScalar_frame h ((nextWords s i).headD 0#64)
  obtain ⟨g, hg, hkept⟩ := hframe.group
  have hreq : g.requests = i.g.requests := by have h := congrArg Group.requests hkept; exact h
  have hs : g.s = i.g.s := by have h := congrArg Group.s hkept; exact h
  refine ⟨_, takePiece (f.d.toNat - 0x40) (nextWords s i) g, exec_worknext h, ?_, ?_, fun k => ?_, ?_⟩
  · rw [groupIn_updGroup _ _ _ _ _ (takePiece (f.d.toNat - 0x40) (nextWords s i)) (fun _ => rfl), if_pos ⟨rfl, rfl⟩, hg]
    rfl
  · exact congrArg (· + 1) hreq
  · have hlen : (nextWords s i).length = 5 := pieceWords_length _ _ _ _ _
    have hw := mapGetD_setWords (nextWords s i) (f.d.toNat - 0x40) g.s 0 k
    rw [hlen, Nat.add_zero] at hw
    rw [← hs]
    exact hw
  · exact hframe.updGroup _ (fun _ => rfl) (fun _ => rfl) (fun _ _ hk => takePiece_kept hk)
end Sys2Proof.Machine
end

section
/-! SUPPORT. Laws of teams and clusters: what freeing, starting, vacating and restoring a cluster leaves in the launch table and among the
teams (02 R21; 20 R319 to R325; 23 R363). -/
namespace Sys2Proof.Machine

/-! ## Lists and folds -/

/-- A test that a change keeps finds the changed element. -/
theorem find?_map_kept {α : Type} (p : α → Bool) (f : α → α) (h : ∀ x, p (f x) = p x) (xs : List α) :
    (xs.map f).find? p = (xs.find? p).map f := by
  rw [List.find?_map, show p ∘ f = p from funext h]

/-- What every step of a fold keeps, the fold keeps. -/
theorem foldl_keeps {α β σ : Type} (view : σ → β) (f : σ → α → σ) (h : ∀ s x, view (f s x) = view s) (xs : List α) (s : σ) :
    view (xs.foldl f s) = view s := by
  induction xs generalizing s with
  | nil => rfl
  | cons x r ih => rw [List.foldl_cons, ih, h]

theorem listMin_cons_cons {α : Type} (lt : α → α → Bool) (y x : α) (r : List α) :
    listMin lt (y :: x :: r) = listMin lt ((if lt x y then x else y) :: r) := by
  unfold listMin
  simp only [List.foldl_cons]
  cases lt x y <;> rfl

/-- The greatest number of a list, by the test that a greater one goes before. -/
theorem listMin_greatest {k : Nat} {xs : List Nat} (hk : k ∈ xs) (hle : ∀ x ∈ xs, x ≤ k) :
    listMin (fun a b => decide (b < a)) xs = some k := by
  have hmin (r : List Nat) : ∀ y, k ∈ y :: r → (∀ x ∈ y :: r, x ≤ k) → listMin (fun a b => decide (b < a)) (y :: r) = some k := by
    induction r with
    | nil => intro y hk _; rw [List.mem_singleton.mp hk]; rfl
    | cons x r ih =>
      intro y hk hle
      have hy := hle y (by simp)
      have hx := hle x (by simp)
      rw [listMin_cons_cons]
      simp only [List.mem_cons] at hk hle
      refine ih _ ?_ ?_
      · simp only [decide_eq_true_eq, List.mem_cons]
        rcases hk with hk | hk | hk
        · exact .inl (by split <;> omega)
        · exact .inl (by split <;> omega)
        · exact .inr hk
      · intro z hz
        simp only [decide_eq_true_eq, List.mem_cons] at hz
        rcases hz with rfl | hz
        · split <;> assumption
        · exact hle z (.inr (.inr hz))
  cases xs with
  | nil => cases hk
  | cons y r => exact hmin r y hk hle

/-! ## The head of the launch table -/

@[simp] theorem settleHead_teams (s : State) : (settleHead s).teams = s.teams := by
  unfold settleHead; dsimp only; split <;> rfl
@[simp] theorem settleHead_launches (s : State) : (settleHead s).launches = s.launches := by
  unfold settleHead; dsimp only; split <;> rfl
@[simp] theorem settleHead_mem (s : State) : (settleHead s).mem = s.mem := by
  unfold settleHead; dsimp only; split <;> rfl
@[simp] theorem settleHead_lineKeys (s : State) : (settleHead s).lineKeys = s.lineKeys := by
  unfold settleHead; dsimp only; split <;> rfl

/-! ## A team by its name -/

theorem teamAt_of_teams {s t : State} (h : t.teams = s.teams) (r : TeamRef) : teamAt t r = teamAt s r := by
  unfold teamAt; rw [h]

/-- A team found by its name after every team is changed, when the change keeps names. -/
theorem teamAt_map {s t : State} {f : Team → Team} (h : t.teams = s.teams.map f) (hf : ∀ u, (f u).ref = u.ref) (r : TeamRef) :
    teamAt t r = (teamAt s r).map f := by
  unfold teamAt
  rw [h]
  exact find?_map_kept _ f (fun u => by rw [hf]) s.teams

theorem mem_of_teamAt {s : State} {r : TeamRef} {u : Team} (h : teamAt s r = some u) : u ∈ s.teams := List.mem_of_find?_eq_some h

/-- A team is found by no name that is gone from the list. -/
theorem teamAt_eq_none {s : State} {r : TeamRef} (h : ∀ u ∈ s.teams, u.ref ≠ r) : teamAt s r = none :=
  List.find?_eq_none.mpr (fun u hu => by simpa using h u hu)

/-! ## A launch and its clusters -/

theorem mapGet_updLaunch (s : State) (n k : Nat) (f : Launch → Launch) :
    mapGet (updLaunch s n f).launches k = if k = n then (mapGet s.launches k).map f else mapGet s.launches k := by
  unfold updLaunch
  split
  case h_1 hn =>
    split
    case isTrue hk => rw [hk, hn]; rfl
    case isFalse => rfl
  case h_2 l hn =>
    dsimp only
    rw [mapGet_mapPut]
    split
    case isTrue hk => rw [hk, hn]; rfl
    case isFalse => rfl

theorem mapGet_updLaunch_same (s : State) (n : Nat) (f : Launch → Launch) :
    mapGet (updLaunch s n f).launches n = (mapGet s.launches n).map f := by rw [mapGet_updLaunch, if_pos rfl]

theorem launchOf_of_launches {s t : State} (h : t.launches = s.launches) (u : Team) : launchOf t u = launchOf s u := by
  unfold launchOf; rw [h]

/-- The launch of a team is the listed one of its name. -/
theorem launchOf_eq {s : State} {r : TeamRef} {u : Team} {l : Launch} (hu : u.ref = r) (hl : mapGet s.launches r.launch = some l) :
    launchOf s u = l := by
  unfold launchOf; rw [hu, hl]; rfl

/-- The cluster of a launch by its key. -/
def clusterOf (l : Launch) (key : Nat) : Option Cluster := l.clusters.find? (fun q => q.key == key)

theorem clusterOf_key {l : Launch} {key : Nat} {q : Cluster} (h : clusterOf l key = some q) : q.key = key := by
  simpa using List.find?_some h

/-- A listed launch has a cluster with a key, which stands as told. -/
def ClusterIs (t : State) (n key : Nat) (is : Cluster → Prop) : Prop :=
  ∃ l q, mapGet t.launches n = some l ∧ l.clusters.find? (fun q => q.key == key) = some q ∧ is q

/-- A launch with its clusters of one key changed. -/
def mapCluster (key : Nat) (f : Cluster → Cluster) (l : Launch) : Launch :=
  { l with clusters := l.clusters.map (fun q => if q.key == key then f q else q) }

theorem updCluster_eq (s : State) (n key : Nat) (f : Cluster → Cluster) : updCluster s n key f = updLaunch s n (mapCluster key f) := rfl

@[simp] theorem updCluster_teams (s : State) (n key : Nat) (f : Cluster → Cluster) : (updCluster s n key f).teams = s.teams :=
  updLaunch_teams s n _

theorem clusterOf_mapCluster (l : Launch) (key : Nat) (f : Cluster → Cluster) (hf : ∀ q, (f q).key = q.key) :
    clusterOf (mapCluster key f l) key = (clusterOf l key).map f := by
  have h := find?_map_key Cluster.key f hf key key l.clusters
  rwa [if_pos rfl] at h

/-- A cluster whose launch holds clusters no more is not released by `releaseHeld`. -/
theorem clusterOf_releaseHeld_of_ne (l : Launch) (key : Nat) (q : Cluster) (h : clusterOf l key = some q) (h6 : q.state ≠ 6) :
    clusterOf (releaseHeld l) key = some q := by
  unfold releaseHeld
  split
  case isTrue =>
    unfold clusterOf at h ⊢
    rw [find?_map_kept _ _ (fun q => by split <;> rfl), h, Option.map_some, if_neg h6]
  case isFalse => exact h

/-- A cluster put into a launch is the one found by its key. -/
theorem clusterOf_putCluster (l : Launch) (q : Cluster) : clusterOf (putCluster l q) q.key = some q := by
  unfold putCluster clusterOf
  dsimp only
  split
  case isTrue h =>
    rw [find?_map_kept _ _ (fun c => by
      split
      · rename_i hc; rw [hc]; exact beq_self_eq_true _
      · rfl)]
    obtain ⟨c, hc⟩ := Option.isSome_iff_exists.mp (List.find?_isSome.mpr (List.any_eq_true.mp h))
    have hk : (c.key == q.key) = true := by simpa using List.find?_some hc
    rw [hc, Option.map_some, if_pos hk]
  case isFalse h =>
    have hn : l.clusters.find? (fun c => c.key == q.key) = none := List.find?_eq_none.mpr (fun c hc hk => h (List.any_eq_true.mpr ⟨c, hc, hk⟩))
    rw [List.find?_append, hn]
    simp

/-- A PLACED CLUSTER stands in its launch in the state of a placed one, whether or not its placing starts the launch (02 R26; 23 R363). -/
theorem clusterOf_placed (l : Launch) (q : Cluster) (hs : q.state = placedState l) :
    ∃ q', clusterOf (releaseHeld (putCluster l q)) q.key = some q' ∧ q'.state = placedState (releaseHeld (putCluster l q))
      ∧ q'.cores = q.cores ∧ q'.herd = q.herd ∧ q'.saved = q.saved := by
  have hput := clusterOf_putCluster l q
  have hplaced : placedState (putCluster l q) = placedState l := rfl
  unfold releaseHeld
  split
  case isFalse => exact ⟨q, hput, hs, rfl, rfl, rfl⟩
  case isTrue h =>
    have hheld : placedState (putCluster l q) = 6 := by
      simp only [Bool.and_eq_true] at h
      obtain ⟨⟨⟨hp, hn⟩, _⟩, _⟩ := h
      unfold placedState
      rw [hp, hn]; rfl
    have h6 : q.state = 6 := by rw [hs, ← hplaced, hheld]
    refine ⟨{ q with state := 1 }, ?_, ?_, rfl, rfl, rfl⟩
    · unfold clusterOf at hput ⊢
      rw [find?_map_kept _ _ (fun q => by split <;> rfl), hput, Option.map_some, if_pos h6]
    · simp [placedState]

/-! ## The resident teams of a cluster -/

theorem mem_clusterResident {s : State} {n key : Nat} {u : Team} :
    u ∈ clusterResident s n key ↔ u ∈ s.teams ∧ u.ref.launch = n ∧ clusterKey (launchOf s u) u.ref.team = key := by
  simp [clusterResident]

/-- Changing a launch without its shape leaves the cluster of every team. -/
theorem clusterKey_updLaunch (s : State) (n : Nat) (f : Launch → Launch) (hf : ∀ l r, clusterKey (f l) r = clusterKey l r) (u : Team) (r : Nat) :
    clusterKey (launchOf (updLaunch s n f) u) r = clusterKey (launchOf s u) r := by
  unfold launchOf
  rw [mapGet_updLaunch]
  split
  case isTrue =>
    cases mapGet s.launches u.ref.launch with
    | none => rfl
    | some l => exact hf l r
  case isFalse => rfl

theorem clusterResident_updLaunch (s : State) (n m key : Nat) (f : Launch → Launch) (hf : ∀ l r, clusterKey (f l) r = clusterKey l r) :
    clusterResident (updLaunch s n f) m key = clusterResident s m key := by
  unfold clusterResident
  rw [updLaunch_teams]
  exact List.filter_congr (fun u _ => by rw [clusterKey_updLaunch s n f hf])

theorem clusterResident_settleHead (s : State) (n key : Nat) : clusterResident (settleHead s) n key = clusterResident s n key := by
  unfold clusterResident
  rw [settleHead_teams]
  exact List.filter_congr (fun u _ => by rw [launchOf_of_launches (settleHead_launches s)])

@[simp] theorem freeTeams_launches (s : State) (n key : Nat) : (freeTeams s n key).launches = s.launches :=
  foldl_keeps State.launches dropRows (fun _ _ => rfl) (clusterResident s n key) s

theorem freeTeams_teams (s : State) (n key : Nat) :
    (freeTeams s n key).teams = s.teams.filter (fun t => !(clusterResident s n key).any (fun u => u.ref == t.ref)) :=
  congrArg (List.filter _) (foldl_keeps State.teams dropRows (fun _ _ => rfl) (clusterResident s n key) s)

/-- No team of a freed cluster's name is left. -/
theorem teamAt_freeTeams {s : State} {n key : Nat} {u : Team} (hu : u ∈ clusterResident s n key) : teamAt (freeTeams s n key) u.ref = none := by
  refine teamAt_eq_none (fun v hv hr => ?_)
  rw [freeTeams_teams, List.mem_filter, Bool.not_eq_true', List.any_eq_false] at hv
  exact hv.2 u hu (by simp [hr])

/-- A freed cluster has no resident team. -/
theorem clusterResident_freeTeams (s : State) (n key : Nat) : clusterResident (freeTeams s n key) n key = [] := by
  refine List.eq_nil_iff_forall_not_mem.mpr (fun u hu => ?_)
  obtain ⟨hmem, hn, hkey⟩ := mem_clusterResident.mp hu
  rw [launchOf_of_launches (freeTeams_launches s n key)] at hkey
  rw [freeTeams_teams, List.mem_filter, Bool.not_eq_true', List.any_eq_false] at hmem
  exact hmem.2 u (mem_clusterResident.mpr ⟨hmem.1, hn, hkey⟩) (by simp)

end Sys2Proof.Machine
end

section
/-! PROOFS. The end of teams and clusters: retirement, freeing, the relaunch for Forage, and the watchdog (02 R21; 18 R300; 20 R319 to R321). -/
namespace Sys2Proof.Machine

/-! ## Retirement (02 R21) -/

/-- A team that has retired. -/
def retired (u : Team) : Team := { u with retired := true }

/-- A team that meets the conditions of R21 retires, and with the last of its cluster the cluster leaves. -/
theorem exec_teamRetire {s : State} {r : TeamRef} {u : Team} (hu : teamAt s r = some u) (hc : canRetire s u = true) :
    exec (.teamRetire r) s = .next (
      let s1 := updTeam s r retired
      let key := clusterKey (launchOf s u) r.team
      let ts := clusterResident s1 r.launch key
      if ts.all Team.retired then
        settleHead (updCluster (freeTeams s1 r.launch key) r.launch key (fun q =>
          { q with state := 4, usedS := ts.any Team.usedS, usedE := ts.any Team.usedE }))
      else s1) := by
  change execTeamRetire r s = _
  unfold execTeamRetire
  rw [hu]
  dsimp only
  rw [hc]
  rfl

theorem teamAt_retired {s : State} {r : TeamRef} {u : Team} (hu : teamAt s r = some u) :
    teamAt (updTeam s r retired) r = some (retired u) := by
  rw [teamAt_updTeam s r r retired (fun _ => rfl), if_pos rfl, hu]; rfl

/-- A retired team stands in its cluster as before. -/
theorem retired_mem_clusterResident {s : State} {r : TeamRef} {u : Team} (hu : teamAt s r = some u) :
    retired u ∈ clusterResident (updTeam s r retired) r.launch (clusterKey (launchOf s u) r.team) := by
  have hr := teamAt_ref hu
  exact mem_clusterResident.mpr ⟨mem_of_teamAt (teamAt_retired hu), congrArg TeamRef.launch hr,
    congrArg (fun x : TeamRef => clusterKey (launchOf s u) x.team) hr⟩

/-- With its freed cluster the team is gone. -/
theorem teamAt_retired_freed {s : State} {r : TeamRef} {u : Team} (hu : teamAt s r = some u) (f : Cluster → Cluster) :
    teamAt (settleHead (updCluster (freeTeams (updTeam s r retired) r.launch (clusterKey (launchOf s u) r.team)) r.launch
      (clusterKey (launchOf s u) r.team) f)) r = none := by
  have hr : (retired u).ref = r := teamAt_ref (teamAt_retired hu)
  have hgone := teamAt_freeTeams (retired_mem_clusterResident hu)
  rw [hr] at hgone
  rw [teamAt_of_teams ((settleHead_teams _).trans (updCluster_teams _ _ _ _)), hgone]

/-- The team retires: it is marked, or gone with its cluster. -/
theorem teamRetire_retires {s : State} {r : TeamRef} {u : Team} (hu : teamAt s r = some u) (hc : canRetire s u = true) :
    ∃ t, exec (.teamRetire r) s = .next t ∧ ∀ v, teamAt t r = some v → v.retired = true := by
  refine ⟨_, exec_teamRetire hu hc, fun v hv => ?_⟩
  dsimp only at hv
  split at hv
  case isTrue =>
    rw [teamAt_retired_freed hu] at hv
    cases hv
  case isFalse =>
    rw [teamAt_retired hu] at hv
    cases hv
    rfl

/-- The last team of its cluster takes the cluster with it: its windows are free, and the cluster is retired. -/
theorem teamRetire_last {s : State} {r : TeamRef} {u : Team} (hu : teamAt s r = some u) (hc : canRetire s u = true)
    (hlast : ∀ v ∈ clusterResident s r.launch (clusterKey (launchOf s u) r.team), v.ref = r) :
    ∃ t, exec (.teamRetire r) s = .next t ∧ teamAt t r = none
      ∧ (∀ l, mapGet t.launches r.launch = some l → ∀ q ∈ l.clusters, q.key = clusterKey (launchOf s u) r.team → q.state = 4) := by
  have hall : (clusterResident (updTeam s r retired) r.launch (clusterKey (launchOf s u) r.team)).all Team.retired = true := by
    refine List.all_eq_true.mpr (fun v hv => ?_)
    obtain ⟨hmem, hn, hkey⟩ := mem_clusterResident.mp hv
    obtain ⟨w, hw, rfl⟩ := List.mem_map.mp hmem
    split
    case isTrue => rfl
    case isFalse hne =>
      rw [if_neg hne] at hn hkey
      exact absurd (hlast w (mem_clusterResident.mpr ⟨hw, hn, hkey⟩)) (by simpa using hne)
  refine ⟨_, exec_teamRetire hu hc, ?_⟩
  dsimp only
  rw [if_pos hall]
  constructor
  · exact teamAt_retired_freed hu _
  · intro l hl q hq hk
    rw [settleHead_launches, updCluster_eq, mapGet_updLaunch_same] at hl
    obtain ⟨l0, _, rfl⟩ := Option.map_eq_some_iff.mp hl
    obtain ⟨q0, _, rfl⟩ := List.mem_map.mp hq
    split
    case isTrue => rfl
    case isFalse hne =>
      rw [if_neg hne] at hk
      exact absurd hk (by simpa using hne)

/-! ## An ended cluster freed (20 R319, R320) -/

/-- The event's condition finds the launch and the cluster. -/
theorem launch_cluster_found {s : State} {n key : Nat} {l : Launch} {q : Cluster} (hl : mapGet s.launches n = some l)
    (hq : l.clusters.find? (fun q => q.key == key) = some q) :
    (mapGet s.launches n).bind (fun l => (l.clusters.find? (fun q => q.key == key)).map (fun q => (l, q))) = some (l, q) := by
  rw [hl, Option.bind_some, hq]; rfl

/-- A freed cluster waits for its relaunch, counted, or has ended for good. -/
def afterFree (again : Bool) (q : Cluster) : Cluster :=
  { q with state := if again then 5 else 7, relaunches := if again then q.relaunches + 1 else q.relaunches }

/-- The launch after one of its clusters is freed. -/
def launchAfterFree (again : Bool) (key : Nat) (l : Launch) : Launch :=
  if again then dropReds key { l with relaunches := l.relaunches + 1 } else releaseHeld l

theorem clusterKey_releaseHeld (l : Launch) (r : Nat) : clusterKey (releaseHeld l) r = clusterKey l r := by
  unfold releaseHeld; split <;> rfl

theorem clusterKey_launchAfterFree (again : Bool) (key : Nat) (l : Launch) (r : Nat) :
    clusterKey (launchAfterFree again key l) r = clusterKey l r := by
  cases again
  · exact clusterKey_releaseHeld l r
  · rfl

/-- The freed cluster in its launch: what happens to the launch beside it leaves it alone. -/
theorem clusterOf_launchAfterFree (again : Bool) (key : Nat) (l : Launch) (q : Cluster) (hq : clusterOf l key = some q) :
    clusterOf (launchAfterFree again key (mapCluster key (afterFree again) l)) key = some (afterFree again q) := by
  have hmap : clusterOf (mapCluster key (afterFree again) l) key = some (afterFree again q) := by
    rw [clusterOf_mapCluster l key (afterFree again) (fun _ => rfl), hq]; rfl
  cases again
  · exact clusterOf_releaseHeld_of_ne _ key _ hmap (show (7 : Nat) ≠ 6 by decide)
  · exact hmap

theorem exec_clusterFree {s : State} {n key : Nat} {l : Launch} {q : Cluster} (hl : mapGet s.launches n = some l)
    (hq : l.clusters.find? (fun q => q.key == key) = some q) (h3 : q.state = 3)
    (hres : ∀ v ∈ clusterResident s n key, teamPerformed v = true ∧ hasEngineOp s v = false) :
    exec (.clusterFree n key) s = .next (
      let again := l.idem && decide (q.relaunches < l.retry)
      settleHead (updLaunch (updCluster (freeTeams s n key) n key (afterFree again)) n (launchAfterFree again key))) := by
  have hall : (clusterResident s n key).all (fun t => teamPerformed t && !hasEngineOp s t) = true := by
    refine List.all_eq_true.mpr (fun v hv => ?_)
    obtain ⟨hp, he⟩ := hres v hv
    rw [hp, he]; rfl
  change execClusterFree n key s = _
  unfold execClusterFree
  rw [launch_cluster_found hl hq]
  dsimp only
  rw [if_pos ⟨h3, hall⟩]
  rfl

/-- AN ENDED CLUSTER IS FREED: it has no resident team, and waits for its relaunch while the limit allows. -/
theorem clusterFree_frees {s : State} {n key : Nat} {l : Launch} {q : Cluster} (hl : mapGet s.launches n = some l)
    (hq : l.clusters.find? (fun q => q.key == key) = some q) (h3 : q.state = 3)
    (hres : ∀ v ∈ clusterResident s n key, teamPerformed v = true ∧ hasEngineOp s v = false) :
    ∃ t, exec (.clusterFree n key) s = .next t ∧ clusterResident t n key = []
      ∧ ClusterIs t n key (fun q' => if l.idem = true ∧ q.relaunches < l.retry then q'.state = 5 ∧ q'.relaunches = q.relaunches + 1
          else q'.state = 7 ∧ q'.relaunches = q.relaunches) := by
  refine ⟨_, exec_clusterFree hl hq h3 hres, ?_⟩
  dsimp only
  generalize hagain : (l.idem && decide (q.relaunches < l.retry)) = again
  constructor
  · rw [clusterResident_settleHead, clusterResident_updLaunch _ _ _ _ _ (clusterKey_launchAfterFree again key), updCluster_eq,
      clusterResident_updLaunch _ _ _ _ (mapCluster key (afterFree again)) (fun _ _ => rfl), clusterResident_freeTeams]
  · refine ⟨_, afterFree again q, ?_, clusterOf_launchAfterFree again key l q hq, ?_⟩
    · rw [settleHead_launches, mapGet_updLaunch_same, updCluster_eq, mapGet_updLaunch_same, freeTeams_launches, hl]; rfl
    · have hcond : (l.idem = true ∧ q.relaunches < l.retry) ↔ again = true := by simp [← hagain]
      dsimp only
      rw [ite_cond_iff hcond]
      cases again
      · exact ⟨rfl, rfl⟩
      · exact ⟨rfl, rfl⟩

/-! ## Relaunch after a Forage withdrawal (18 R300, R301) -/

/-- A launch without the buffered reductions of some clusters. -/
def dropAllReds (qs : List Cluster) (l : Launch) : Launch := qs.foldl (fun l q => dropReds q.key l) l

@[simp] theorem dropAllReds_relaunches (qs : List Cluster) (l : Launch) : (dropAllReds qs l).relaunches = l.relaunches :=
  foldl_keeps Launch.relaunches (fun l (q : Cluster) => dropReds q.key l) (fun _ _ => rfl) qs l

/-- A cluster that ran again under a withdrawn class, with that class barred. -/
def barWithdrawn (l : Launch) (q : Cluster) : Cluster :=
  { q with state := 5, usedS := false, usedE := false, barredS := q.barredS || (l.withdrawnS && q.usedS), barred := q.barred ++ l.withdrawnE }

/-- The launch whose clusters run again without the withdrawn classes. -/
def withoutWithdrawn (l : Launch) : Launch :=
  { dropAllReds (l.clusters.filter (forageAgain l)) l with
    withdrawnS := false, withdrawnE := [], clusters := l.clusters.map (fun q => if forageAgain l q then barWithdrawn l q else q) }

/-- THE CLUSTERS THAT USED A WITHDRAWN CLASS run again with it barred, counted against no limit. -/
theorem forageRelaunch_relaunches {s : State} {n : Nat} {l : Launch} (hl : mapGet s.launches n = some l) (hover : launchOver l = true)
    (hany : l.clusters.any (forageAgain l) = true) :
    ∃ t l', exec (.forageRelaunch n) s = .next t ∧ mapGet t.launches n = some l' ∧ l'.withdrawnS = false ∧ l'.withdrawnE = []
      ∧ l'.relaunches = l.relaunches
      ∧ ∀ q ∈ l.clusters, forageAgain l q = true → ∃ q' ∈ l'.clusters, q'.key = q.key ∧ q'.state = 5 ∧ q'.relaunches = q.relaunches
        ∧ (l.withdrawnS = true → q.usedS = true → q'.barredS = true) ∧ ∀ e ∈ l.withdrawnE, e ∈ q'.barred := by
  have hexec : exec (.forageRelaunch n) s = .next (settleHead (updLaunch s n withoutWithdrawn)) := by
    change execForageRelaunch n s = _
    unfold execForageRelaunch
    rw [hl]
    dsimp only
    rw [hover, hany]
    rfl
  refine ⟨_, withoutWithdrawn l, hexec, ?_, rfl, rfl, dropAllReds_relaunches _ l, fun q hq hagain => ?_⟩
  · rw [settleHead_launches, mapGet_updLaunch_same, hl]; rfl
  · refine ⟨barWithdrawn l q, List.mem_map.mpr ⟨q, hq, if_pos hagain⟩, rfl, rfl, rfl, fun hs hu => ?_, fun e he => ?_⟩
    · simp [barWithdrawn, hs, hu]
    · exact List.mem_append_right _ he

/-! ## The watchdog (20 R315, R321) -/

theorem hbmWrite_teams (s : State) (owner pa : Nat) (bs : List Byte) : (hbmWrite s owner pa bs).teams = s.teams := by
  have h := congrArg State.teams (hbmWrite_keeps s owner pa bs)
  exact h

theorem hbmWrite_launches (s : State) (owner pa : Nat) (bs : List Byte) : (hbmWrite s owner pa bs).launches = s.launches := by
  have h := congrArg State.launches (hbmWrite_keeps s owner pa bs)
  exact h

theorem putRecord_teams (s : State) (r : FaultRec) : (putRecord s r).teams = s.teams := by
  unfold putRecord
  dsimp only
  split
  · rw [hbmWrite_teams]
  · rfl

theorem postRecord_teams (s : State) (r : FaultRec) : (postRecord s r).teams = s.teams := by
  unfold postRecord
  split
  · exact putRecord_teams s _
  · rfl

/-- A record keeps what it says when it takes the owner and policy of its launch. -/
theorem ownRecord_keeps (s : State) (r : FaultRec) : { ownRecord s r with owner := r.owner, tpol := r.tpol } = r := by
  unfold ownRecord
  split <;> rfl

/-- A record posted while none waits and its place is free stands in the queue with the next number and the time. -/
theorem postRecord_queue (s : State) (r : FaultRec) (hw : s.faultWait = []) (hf : faultPlaceFree s = true) :
    (postRecord s r).faultNext = s.faultNext + 1 ∧ { ownRecord s r with seq := s.faultNext, time := s.time } ∈ (postRecord s r).faultQ := by
  unfold postRecord
  rw [hw, hf]
  exact putRecord_queue s (ownRecord s r)

/-- The teams of a cluster that ends, by name. -/
def endingRefs (s : State) (r : TeamRef) : List TeamRef := (s.teams.filter (inCluster s r)).map Team.ref

theorem endTeam_teams (s : State) (r : TeamRef) (c : Code) (seq : Nat) :
    (endTeam s r c seq).teams = s.teams.map (fun t => if (endingRefs s r).contains t.ref then stopTeam c t else t) := by
  unfold endTeam
  dsimp only
  rw [updLaunch_teams, updLaunch_teams]
  exact foldl_keeps State.teams _ (fun s t => updCore_teams s _ _) _ _

theorem endTeam_faultQ (s : State) (r : TeamRef) (c : Code) (seq : Nat) : (endTeam s r c seq).faultQ = s.faultQ := by
  unfold endTeam
  dsimp only
  rw [updLaunch_faultQ, updLaunch_faultQ]
  exact foldl_keeps State.faultQ _ (fun s t => updCore_faultQ s _ _) _ _

theorem endTeam_faultNext (s : State) (r : TeamRef) (c : Code) (seq : Nat) : (endTeam s r c seq).faultNext = s.faultNext := by
  unfold endTeam
  dsimp only
  rw [updLaunch_faultNext, updLaunch_faultNext]
  exact foldl_keeps State.faultNext _ (fun s t => updCore_faultNext s _ _) _ _

/-- A team that has not ended ends with the code. -/
theorem endTeam_endedWith {s : State} {r : TeamRef} {u : Team} (c : Code) (seq : Nat) (hu : teamAt s r = some u) (hne : u.ended = none) :
    EndedWith (endTeam s r c seq) r c := by
  have hin : (endingRefs s r).contains u.ref = true := by
    refine List.contains_iff_mem.mpr (List.mem_map.mpr ⟨u, List.mem_filter.mpr ⟨mem_of_teamAt hu, ?_⟩, rfl⟩)
    simp [inCluster, teamAt_ref hu]
  refine ⟨stopTeam c u, ?_, ?_⟩
  · rw [teamAt_map (endTeam_teams s r c seq) (fun v => by split <;> rfl), hu, Option.map_some, if_pos hin]
  · simp [stopTeam, hne]

/-- The record of a watchdog's expiry (20 R315, R321). -/
def watchdogRecord (s : State) (r : TeamRef) (t : Team) : FaultRec :=
  { code := cWatchdog, kind := 9, ltag := (launchOf s t).ltag, team := BitVec.ofNat 32 r.team, lcore := logicalOfPhys s t.epoch t.core
    part := match lowestLane t with | some q => q.1.part | none => 0
    group := match lowestLane t with | some q => q.1.id | none => 0
    pc := match lowestLane t with | some q => q.2.2.pc.extractLsb' 0 57 | none => 0#57
    ref := r, core := t.core, set := s.holdSets }

theorem exec_watchdogExpiry {s : State} {r : TeamRef} {u : Team} (hu : teamAt s r = some u) :
    exec (.watchdogExpiry r) s = .next (
      if r.launch ≠ 0 ∧ u.ended = none ∧ u.retired = false ∧ watchdogLimit (launchOf s u) ≤ u.stalled then
        endTeam (postRecord { s with holdSets := s.holdSets + 1 } (watchdogRecord s r u)) r cWatchdog (nextSeq s)
      else s) := by
  change execWatchdogExpiry r s = _
  unfold execWatchdogExpiry
  rw [hu]
  rfl

/-- A TEAM STALLED TO ITS LIMIT ends with WATCHDOG, one record saying so. -/
theorem watchdogExpiry_ends {s : State} {r : TeamRef} {u : Team} (hu : teamAt s r = some u) (hr : r.launch ≠ 0) (hne : u.ended = none)
    (hret : u.retired = false) (hlim : watchdogLimit (launchOf s u) ≤ u.stalled) :
    ∃ t, exec (.watchdogExpiry r) s = .next t ∧ EndedWith t r cWatchdog
      ∧ Recorded s t (fun k => k.code = cWatchdog ∧ k.kind = 9 ∧ k.lanes = 0#32 ∧ k.team = BitVec.ofNat 32 r.team) := by
  refine ⟨_, exec_watchdogExpiry hu, ?_⟩
  rw [if_pos ⟨hr, hne, hret, hlim⟩]
  constructor
  · refine endTeam_endedWith cWatchdog _ (u := u) ?_ hne
    rw [teamAt_of_teams (postRecord_teams _ _)]
    exact hu
  · intro hw hf
    obtain ⟨hnext, hmem⟩ := postRecord_queue { s with holdSets := s.holdSets + 1 } (watchdogRecord s r u) hw hf
    have hk := ownRecord_keeps { s with holdSets := s.holdSets + 1 } (watchdogRecord s r u)
    rw [endTeam_faultNext, endTeam_faultQ]
    refine ⟨hnext, _, hmem, rfl, rfl, ?_, ?_, ?_, ?_, ?_⟩
    · have h := congrArg FaultRec.resolved hk; exact h
    · have h := congrArg FaultRec.code hk; exact h
    · have h := congrArg FaultRec.kind hk; exact h
    · have h := congrArg FaultRec.lanes hk; exact h
    · have h := congrArg FaultRec.team hk; exact h

/-- Below the limit nothing happens. -/
theorem watchdogExpiry_waits {s : State} {r : TeamRef} {u : Team} (hu : teamAt s r = some u)
    (hlim : u.stalled < watchdogLimit (launchOf s u)) : exec (.watchdogExpiry r) s = .next s := by
  rw [exec_watchdogExpiry hu, if_neg (fun h => absurd h.2.2.2 (Nat.not_le.mpr hlim))]

end Sys2Proof.Machine
end

section
/-! PROOFS. Clusters that leave their cores: a team vacated, its context written, and who is asked to leave (02 R24; 20 R322 to R324). -/
namespace Sys2Proof.Machine

/-! ## A team vacated (20 R322, R323; 15 R264) -/

/-- A store to a slice keeps every team. -/
theorem teamAt_sramStore_isSome (s : State) (c o : Nat) (bs : List Byte) (r : TeamRef) :
    (teamAt (sramStore s c o bs) r).isSome = (teamAt s r).isSome := by
  have h := teamAt_map (s := s) (t := sramStore s c o bs) rfl (fun _ => rfl) r
  rw [h, Option.isSome_map]

theorem teamAt_updTeam_isSome (s : State) (r r' : TeamRef) (f : Team → Team) (hf : ∀ t, (f t).ref = t.ref) :
    (teamAt (updTeam s r f) r').isSome = (teamAt s r').isSome := by
  rw [teamAt_updTeam s r r' f hf]
  split
  · exact Option.isSome_map
  · rfl

/-- A team with an interrupted operation saved first. -/
def saveInterrupted (op : EngineOp) (t : Team) : Team :=
  { t with engSaved := { op with running := false, interrupted := true } :: t.engSaved }

/-- An interrupted operation leaves every team where it is. -/
theorem teamAt_engineInterrupt_isSome (s : State) (t : Team) (op : EngineOp) (r : TeamRef) :
    (teamAt (engineInterrupt s t op) r).isSome = (teamAt s r).isSome := by
  have hput : (teamAt (putProg s t op (progWord op)) r).isSome = (teamAt s r).isSome := by
    unfold putProg
    split
    · exact teamAt_sramStore_isSome _ _ _ _ _
    · rfl
  exact (teamAt_updTeam_isSome _ t.ref r (saveInterrupted op) (fun _ => rfl)).trans hput

/-- The state before a vacated team's operations leave the engine: the running one interrupted. -/
def interrupted (s : State) (r : TeamRef) (t : Team) : State :=
  match (coreAt s t.core).engine.find? (fun o => o.ref == r && o.running) with
  | some op => engineInterrupt s t op
  | none => s

/-- A core without the engine operations of a team. -/
def dropEngine (r : TeamRef) (k : Core) : Core := { k with engine := k.engine.filter (fun o => o.ref != r) }

/-- The engine operations of a team on a core. -/
def teamOps (s : State) (c : Nat) (r : TeamRef) : List EngineOp := (coreAt s c).engine.filter (fun o => o.ref == r)

/-- A team stopped, with its engine operations saved. -/
def stopWith (ops : List EngineOp) (t : Team) : Team := { t with stopped := true, engSaved := t.engSaved ++ ops }

theorem exec_vacateTeam {s : State} {r : TeamRef} {u : Team} (hu : teamAt s r = some u) (hc : canVacate s u = true) :
    exec (.vacateTeam r) s = .next (updTeam (updCore (interrupted s r u) u.core (dropEngine r)) r
      (stopWith (teamOps (interrupted s r u) u.core r))) := by
  change execVacateTeam r s = _
  unfold execVacateTeam
  rw [hu]
  dsimp only
  rw [if_pos hc]
  rfl

/-- A TEAM THAT CAN BE TAKEN stops, and the engine of its core holds no operation of it. -/
theorem vacateTeam_stops {s : State} {r : TeamRef} {u : Team} (hu : teamAt s r = some u) (hc : canVacate s u = true) :
    ∃ t v, exec (.vacateTeam r) s = .next t ∧ teamAt t r = some v ∧ v.stopped = true ∧ ∀ o ∈ (coreAt t u.core).engine, o.ref ≠ r := by
  have hsome : (teamAt (interrupted s r u) r).isSome = true := by
    unfold interrupted
    split
    · rw [teamAt_engineInterrupt_isSome, hu]; rfl
    · rw [hu]; rfl
  obtain ⟨w, hw⟩ := Option.isSome_iff_exists.mp hsome
  refine ⟨_, stopWith (teamOps (interrupted s r u) u.core r) w, exec_vacateTeam hu hc, ?_, rfl, fun o ho => ?_⟩
  · rw [teamAt_updTeam _ r r (stopWith _) (fun _ => rfl), if_pos rfl, teamAt_of_teams (updCore_teams _ _ _), hw]
    rfl
  · change o ∈ (coreAt (updCore (interrupted s r u) u.core (dropEngine r)) u.core).engine at ho
    rw [coreAt_updCore, if_pos rfl] at ho
    simpa using (List.mem_filter.mp ho).2

/-! ## Bytes of HBM -/

theorem hbmRead_eq (s : State) (owner pa n : Nat) : hbmRead s owner pa n = (List.range n).map (fun k => hbmByte s owner (pa + k)) := by
  induction n generalizing pa with
  | zero => rfl
  | succ n ih =>
    rw [hbmRead, ih, List.range_succ_eq_map]
    simp [Function.comp_def, Nat.add_assoc, Nat.add_comm 1]

/-- Bytes written to HBM read back under their owner's key. -/
theorem hbmRead_hbmWrite (s : State) (owner pa : Nat) (bs : List Byte) : hbmRead (hbmWrite s owner pa bs) owner pa bs.length = bs := by
  rw [hbmRead_eq]
  refine List.ext_getElem (by simp) (fun k _ hk => ?_)
  rw [List.getElem_map, List.getElem_range, hbmByte_hbmWrite, if_pos (by omega), Nat.add_sub_cancel_left]
  simp [hk]

/-- What is read of HBM depends on its bytes and keys alone. -/
theorem hbmRead_of_same {s t : State} (hm : t.mem = s.mem) (hk : t.lineKeys = s.lineKeys) (owner pa n : Nat) :
    hbmRead t owner pa n = hbmRead s owner pa n := by
  simp only [hbmRead_eq, hbmByte, lineKey, hm, hk]

/-! ## A context written (20 R323, R324) -/

/-- Numbers of one width, written one after another, take that width each. -/
theorem natBytes_flatMap_length (f : Nat → Nat) (w n : Nat) : ((List.range n).flatMap (fun k => natBytes (f k) w)).length = n * w := by
  induction n with
  | zero => rw [Nat.zero_mul]; rfl
  | succ n ih => rw [List.range_succ, List.flatMap_append, List.length_append, ih, List.flatMap_singleton, natBytes_length, Nat.succ_mul]

theorem teamRecord_length (l : Launch) (t : Team) : (teamRecord l t).length = 512 := by
  simp only [teamRecord, List.length_append, natBytes_length, natBytes_flatMap_length, List.length_replicate]

/-- A group as its context holds it. -/
def contextGroup (g : Group) : Group :=
  { g with fetching := none, lastIssue := none, ctr := {}
           lease := g.lease.map (fun le => { le with sample := none, checkAt := none, entryLanes := [] }) }

/-- A transfer program as its context holds it. -/
def contextProg (x : XProg) : XProg := { x with ctr := {} }

theorem contextOf_groups (s : State) (t : Team) : (contextOf s t).groups = t.groups.map contextGroup := rfl

/-- The lanes that wait at BARSYNC are those of the context. -/
theorem barsyncLanes_contextOf (s : State) (t : Team) (n : Nat) : barsyncLanes (contextOf s t) n = barsyncLanes t n := by
  unfold barsyncLanes
  rw [contextOf_groups, find?_map_kept _ contextGroup (fun _ => rfl)]
  cases t.groups.find? (fun g => g.id == n) <;> rfl

/-- The record of a context is the team's. -/
theorem teamRecord_contextOf (l : Launch) (s : State) (t : Team) : teamRecord l (contextOf s t) = teamRecord l t := by
  have hg : (contextOf s t).groups.length = t.groups.length := List.length_map contextGroup
  have hx : (contextOf s t).progs.length = t.progs.length := List.length_map contextProg
  have hb : barsyncLanes (contextOf s t) = barsyncLanes t := funext (barsyncLanes_contextOf s t)
  unfold teamRecord
  rw [hg, hx, hb]
  rfl

/-- The areas of a context but for its record. -/
def areasBefore (l : Launch) (t : Team) : List (Nat × List Byte) := (contextAreas l t).dropLast

/-- The record of a context is written last. -/
theorem writeContext_eq (s : State) (l : Launch) (t : Team) :
    writeContext s l t = hbmWrite ((areasBefore l t).foldl (fun s q => hbmWrite s l.owner (contextPlace t q.1) q.2) s) l.owner
      (contextPlace t 37) (teamRecord l t) := by
  have h : contextAreas l t = areasBefore l t ++ [(37, teamRecord l t)] := by
    unfold areasBefore
    exact (List.dropLast_concat_getLast (by simp [contextAreas])).symm.trans (by simp [contextAreas])
  unfold writeContext
  rw [h, List.foldl_append, List.foldl_cons, List.foldl_nil]

theorem writeContext_teams (s : State) (l : Launch) (t : Team) : (writeContext s l t).teams = s.teams :=
  foldl_keeps State.teams _ (fun s _ => hbmWrite_teams s _ _ _) _ _

theorem writeContext_launches (s : State) (l : Launch) (t : Team) : (writeContext s l t).launches = s.launches :=
  foldl_keeps State.launches _ (fun s _ => hbmWrite_launches s _ _ _) _ _

/-- The team record reads back under the owner's key. -/
theorem hbmRead_writeContext (s : State) (l : Launch) (s0 : State) (t : Team) :
    hbmRead (writeContext s l (contextOf s0 t)) l.owner (contextPlace t 37) 512 = teamRecord l t := by
  rw [writeContext_eq, teamRecord_contextOf, ← teamRecord_length l t]
  exact hbmRead_hbmWrite _ _ _ _

/-- A part of a map moved to start at 0 holds what stood in the range. -/
theorem mem_cutRange {α : Type} (m : List (Nat × α)) (lo n o : Nat) (b : α) : (o, b) ∈ cutRange m lo n ↔ (lo + o, b) ∈ m ∧ o < n := by
  unfold cutRange
  rw [List.mem_filterMap]
  constructor
  · rintro ⟨p, hp, h⟩
    split at h
    case isTrue hin =>
      cases h
      rw [show lo + (p.1 - lo) = p.1 by omega]
      exact ⟨hp, by omega⟩
    case isFalse => cases h
  · rintro ⟨hm, ho⟩
    refine ⟨(lo + o, b), hm, ?_⟩
    rw [if_pos (by dsimp only; omega)]
    simp

/-- A cluster with a context saved; with its last team it stands vacated. -/
def saveTeam (last : Bool) (t : Team) (q : Cluster) : Cluster := { q with saved := q.saved ++ [t], state := if last then 2 else q.state }

/-- The state without a stopped team's cached rows, comparisons, and itself. -/
def leftCore (s : State) (r : TeamRef) (t : Team) : State :=
  let s2 := t.groups.foldl (fun s g => match g.lease with | some le => forageDrop s t g.id le | none => s) (dropRows s t)
  { s2 with teams := s2.teams.filter (fun u => u.ref != r) }

theorem forageDrop_teams (s : State) (t : Team) (g : Nat) (le : Lease) : (forageDrop s t g le).teams = s.teams := by
  unfold forageDrop; split <;> rfl

theorem forageDrop_launches (s : State) (t : Team) (g : Nat) (le : Lease) : (forageDrop s t g le).launches = s.launches := by
  unfold forageDrop; split <;> rfl

theorem leftCore_launches (s : State) (r : TeamRef) (t : Team) : (leftCore s r t).launches = s.launches := by
  unfold leftCore
  refine foldl_keeps State.launches _ (fun s g => ?_) _ _
  split
  · exact forageDrop_launches _ _ _ _
  · rfl

theorem teamAt_leftCore (s : State) (r : TeamRef) (t : Team) : teamAt (leftCore s r t) r = none :=
  teamAt_eq_none (fun _ hu => by simpa using (List.mem_filter.mp hu).2)

theorem exec_contextWrite {s : State} {r : TeamRef} {u : Team} {l : Launch} (hu : teamAt s r = some u) (hne : u.ended = none)
    (hst : u.stopped = true) (hl : mapGet s.launches r.launch = some l)
    (hres : ∀ v ∈ clusterResident s r.launch (clusterKey l r.team), v.stopped = true ∨ v.retired = true) :
    exec (.contextWrite r) s = .next (
      let key := clusterKey l r.team
      settleHead (writeContext (updCluster (leftCore s r u) r.launch key
        (saveTeam ((clusterResident s r.launch key).length == 1) (contextOf s u))) l (contextOf s u))) := by
  have hr := teamAt_ref hu
  have hlo := launchOf_eq hr hl
  have hmem : u ∈ clusterResident s r.launch (clusterKey l r.team) :=
    mem_clusterResident.mpr ⟨mem_of_teamAt hu, by rw [hr], by rw [hlo, hr]⟩
  have hall : (clusterResident s r.launch (clusterKey l r.team)).all (fun v => v.stopped || v.retired) = true :=
    List.all_eq_true.mpr (fun v hv => by simpa using hres v hv)
  have hany : (clusterResident s r.launch (clusterKey l r.team)).any Team.stopped = true := List.any_eq_true.mpr ⟨u, hmem, hst⟩
  change execContextWrite r s = _
  unfold execContextWrite
  rw [hu]
  dsimp only
  rw [hlo, if_neg (by simp [hne, hall, hany])]
  rfl

/-- A STOPPED TEAM'S CONTEXT IS KEPT with its lanes, programs, handles and window, its record is written under the owner's key, and the team
leaves its core. -/
theorem contextWrite_saves {s : State} {r : TeamRef} {u : Team} {l : Launch} {q : Cluster} (hu : teamAt s r = some u) (hne : u.ended = none)
    (hst : u.stopped = true) (hl : mapGet s.launches r.launch = some l)
    (hq : l.clusters.find? (fun q => q.key == clusterKey l r.team) = some q)
    (hres : ∀ v ∈ clusterResident s r.launch (clusterKey l r.team), v.stopped = true ∨ v.retired = true) :
    ∃ t, exec (.contextWrite r) s = .next t ∧ teamAt t r = none ∧ ClusterIs t r.launch (clusterKey l r.team) (fun q' =>
      ∃ v, q'.saved = q.saved ++ [v] ∧ v.ref = r ∧ v.groups.map Group.lanes = u.groups.map Group.lanes
        ∧ v.progs = u.progs.map (fun x => { x with ctr := {} }) ∧ hbmRead t l.owner (contextPlace u 37) 512 = teamRecord l u
        ∧ v.handles = u.handles ∧ ∀ o b, (o, b) ∈ v.win ↔ (u.winOff + o, b) ∈ (coreAt s u.core).sram ∧ o < u.winLen) := by
  refine ⟨_, exec_contextWrite hu hne hst hl hres, ?_, ?_⟩
  all_goals
    dsimp only
    generalize ((clusterResident s r.launch (clusterKey l r.team)).length == 1) = last
  · rw [teamAt_of_teams (settleHead_teams _), teamAt_of_teams (writeContext_teams _ _ _), teamAt_of_teams (updCluster_teams _ _ _ _)]
    exact teamAt_leftCore s r u
  · refine ⟨mapCluster (clusterKey l r.team) (saveTeam last (contextOf s u)) l, saveTeam last (contextOf s u) q, ?_, ?_, ?_⟩
    · rw [settleHead_launches, writeContext_launches, updCluster_eq, mapGet_updLaunch_same, leftCore_launches, hl]
      rfl
    · have h := clusterOf_mapCluster l (clusterKey l r.team) (saveTeam last (contextOf s u)) (fun _ => rfl)
      rw [show clusterOf l (clusterKey l r.team) = some q from hq] at h
      exact h
    · refine ⟨contextOf s u, rfl, (teamAt_ref hu : u.ref = r), ?_, rfl, ?_, rfl, fun o b => mem_cutRange _ _ _ o b⟩
      · rw [contextOf_groups, List.map_map]
        rfl
      · rw [hbmRead_of_same (settleHead_mem _) (settleHead_lineKeys _)]
        exact hbmRead_writeContext _ l s u

end Sys2Proof.Machine
end

section
/-! PROOFS. Who is asked to leave: a stalled launch's highest cluster, and the clusters and scans a request for cores takes (02 R24; 20 R322; 22
R350). -/
namespace Sys2Proof.Machine

/-! ## Clusters asked to stop -/

/-- A team of a cluster asked to stop, unless it has ended; any other team as it is. -/
def askedToStop (s : State) (n key : Nat) (t : Team) : Team :=
  if t.ref.launch == n && clusterKey (launchOf s t) t.ref.team == key && t.ended.isNone then { t with vacating := true } else t

theorem askedToStop_ref (s : State) (n key : Nat) (t : Team) : (askedToStop s n key t).ref = t.ref := by
  unfold askedToStop; split <;> rfl

theorem askedToStop_ended (s : State) (n key : Nat) (t : Team) : (askedToStop s n key t).ended = t.ended := by
  unfold askedToStop; split <;> rfl

/-- A team is asked when it is of the cluster and has not ended; it stays asked. -/
theorem askedToStop_vacating (s : State) (n key : Nat) (t : Team) : (askedToStop s n key t).vacating =
    (t.vacating || (t.ended.isNone && decide ((t.ref.launch, clusterKey (launchOf s t) t.ref.team) = (n, key)))) := by
  unfold askedToStop
  by_cases h : (t.ref.launch, clusterKey (launchOf s t) t.ref.team) = (n, key)
  · rw [Prod.mk.injEq] at h
    cases t.ended <;> simp [h]
  · have h' : (t.ref.launch == n && clusterKey (launchOf s t) t.ref.team == key) = false := by simpa using h
    simp [h, h']

theorem teamAt_vacateCluster (s : State) (n key : Nat) (r : TeamRef) :
    teamAt (vacateCluster s n key) r = (teamAt s r).map (askedToStop s n key) :=
  teamAt_map rfl (askedToStop_ref s n key) r

/-- Clusters asked to stop one after another. -/
def vacateAll (gone : List (Nat × Nat)) (s : State) : State := gone.foldl (fun s q => vacateCluster s q.1 q.2) s

@[simp] theorem vacateAll_launches (gone : List (Nat × Nat)) (s : State) : (vacateAll gone s).launches = s.launches :=
  foldl_keeps State.launches (fun s (q : Nat × Nat) => vacateCluster s q.1 q.2) (fun _ _ => rfl) gone s
@[simp] theorem vacateAll_cores (gone : List (Nat × Nat)) (s : State) : (vacateAll gone s).cores = s.cores :=
  foldl_keeps State.cores (fun s (q : Nat × Nat) => vacateCluster s q.1 q.2) (fun _ _ => rfl) gone s
@[simp] theorem vacateAll_clk (gone : List (Nat × Nat)) (s : State) : (vacateAll gone s).clk = s.clk :=
  foldl_keeps State.clk (fun s (q : Nat × Nat) => vacateCluster s q.1 q.2) (fun _ _ => rfl) gone s

/-- After several clusters are asked to stop, a team is asked when its cluster is one of them. -/
theorem teamAt_vacateAll (gone : List (Nat × Nat)) {s : State} {r : TeamRef} {u : Team} (hu : teamAt s r = some u) :
    ∃ v, teamAt (vacateAll gone s) r = some v ∧ v.vacating =
      (u.vacating || (u.ended.isNone && decide ((r.launch, clusterKey (launchOf s u) r.team) ∈ gone))) := by
  induction gone generalizing s u with
  | nil => exact ⟨u, hu, by simp⟩
  | cons q gone ih =>
    obtain ⟨n, key⟩ := q
    have hr := teamAt_ref hu
    have hv : teamAt (vacateCluster s n key) r = some (askedToStop s n key u) := by rw [teamAt_vacateCluster, hu]; rfl
    have hl : launchOf (vacateCluster s n key) (askedToStop s n key u) = launchOf s u := by
      unfold launchOf
      rw [askedToStop_ref]
      rfl
    obtain ⟨v, hv, hvac⟩ := ih hv
    refine ⟨v, hv, ?_⟩
    rw [hvac, askedToStop_vacating, askedToStop_ended, hl, hr, Bool.or_assoc, ← Bool.and_or_distrib_left, ← Bool.decide_or]
    simp only [List.mem_cons]

/-! ## A stalled launch (02 R24) -/

/-- The launch that has given up a cluster counts its idle clocks anew. -/
def countAnew (l : Launch) : Launch := { l with idleFor := 0 }

/-- The highest key of a launch's resident clusters. -/
def highestResident (l : Launch) : Option Nat :=
  listMin (fun a b => decide (b < a)) ((l.clusters.filter (fun q => q.state == 1)).map Cluster.key)

theorem highestResident_eq {l : Launch} {k : Nat} (hk : ∃ q ∈ l.clusters, q.state = 1 ∧ q.key = k)
    (hmax : ∀ q ∈ l.clusters, q.state = 1 → q.key ≤ k) : highestResident l = some k := by
  obtain ⟨q, hq, h1, hqk⟩ := hk
  refine listMin_greatest (List.mem_map.mpr ⟨q, List.mem_filter.mpr ⟨hq, by simpa using h1⟩, hqk⟩) (fun x hx => ?_)
  obtain ⟨p, hp, rfl⟩ := List.mem_map.mp hx
  obtain ⟨hpm, hp1⟩ := List.mem_filter.mp hp
  exact hmax p hpm (by simpa using hp1)

theorem exec_stallVacate {s : State} {n k : Nat} {l : Launch} (hl : mapGet s.launches n = some l) (hk : highestResident l = some k)
    (h : 240000 ≤ l.idleFor ∧ launchIdle s n = true ∧ (nextCluster l).isSome = true) :
    exec (.stallVacate n) s = .next (updLaunch (vacateCluster s n k) n countAnew) := by
  unfold highestResident at hk
  change execStallVacate n s = _
  unfold execStallVacate
  rw [hl]
  dsimp only
  rw [if_pos h, hk]
  rfl

/-- A LAUNCH WITHOUT A RUNNABLE LANE FOR LONG gives up its highest resident cluster. -/
theorem stallVacate_asks {s : State} {n k : Nat} {l : Launch} (hl : mapGet s.launches n = some l) (hlong : 240000 ≤ l.idleFor)
    (hidle : launchIdle s n = true) (hnext : (nextCluster l).isSome = true) (hk : ∃ q ∈ l.clusters, q.state = 1 ∧ q.key = k)
    (hmax : ∀ q ∈ l.clusters, q.state = 1 → q.key ≤ k) :
    ∃ t, exec (.stallVacate n) s = .next t ∧ ∀ r u, teamAt s r = some u → r.launch = n → clusterKey l r.team = k → u.ended = none →
      ∃ v, teamAt t r = some v ∧ v.vacating = true := by
  refine ⟨_, exec_stallVacate hl (highestResident_eq hk hmax) ⟨hlong, hidle, hnext⟩, fun r u hu hr hkey hne => ?_⟩
  refine ⟨askedToStop s n k u, ?_, ?_⟩
  · rw [teamAt_of_teams (updLaunch_teams _ _ _), teamAt_vacateCluster, hu]
    rfl
  · have href := teamAt_ref hu
    rw [askedToStop_vacating, hne, launchOf_eq href (hr ▸ hl), href, hr, hkey]
    simp

/-- A launch that is not idle, or not for long, is asked for nothing. -/
theorem stallVacate_waits {s : State} {n : Nat} {l : Launch} (hl : mapGet s.launches n = some l)
    (h : l.idleFor < 240000 ∨ launchIdle s n = false) : exec (.stallVacate n) s = .next s := by
  have hnot : ¬ (240000 ≤ l.idleFor ∧ launchIdle s n = true ∧ (nextCluster l).isSome = true) := by
    rintro ⟨hlong, hidle, _⟩
    rcases h with h | h
    · omega
    · rw [h] at hidle; cases hidle
  change execStallVacate n s = _
  unfold execStallVacate
  rw [hl]
  dsimp only
  rw [if_neg hnot]

/-! ## Scans aborted (22 R349, R350) -/

theorem coreAt_of_cores {s t : State} (h : t.cores = s.cores) (hc : t.clk = s.clk) (c : Nat) : coreAt t c = coreAt s c := by
  unfold coreAt; rw [h, hc]

/-- A core changed in anything but its scan CSRs. -/
theorem scan_updCore (s : State) (c d : Nat) (f : Core → Core) (hf : ∀ k, (f k).scan = k.scan) :
    (coreAt (updCore s c f) d).scan = (coreAt s d).scan := by
  rw [coreAt_updCore]
  split
  case isTrue h => rw [hf, h]
  case isFalse => rfl

theorem scan_sramStore (s : State) (c o : Nat) (bs : List Byte) (d : Nat) : (coreAt (sramStore s c o bs) d).scan = (coreAt s d).scan :=
  scan_updCore s c d (fun k => { k with sram := writeBytes k.sram o bs }) (fun _ => rfl)

theorem scan_putScan (s : State) (c : Nat) (f : Scan → Scan) (d : Nat) :
    (coreAt (putScan s c f) d).scan = if d = c then f (coreAt s c).scan else (coreAt s d).scan := by
  have h : (coreAt (updCore s c (fun k => { k with scan := f k.scan })) d).scan = if d = c then f (coreAt s c).scan else (coreAt s d).scan := by
    rw [coreAt_updCore, apply_ite Core.scan]
  unfold putScan
  dsimp only
  split
  · exact h
  · rw [scan_sramStore]; exact h

/-- The scan state a launch's abort leaves: ABORTED of a running pattern, OPEN of a scan that has not begun or has ended. -/
def abortedState (n : Nat) : Nat := if n = 3 then 6 else if n = 1 ∨ n = 2 ∨ n = 4 then 0 else n

theorem abortedState_idem (n : Nat) : abortedState (abortedState n) = abortedState n := by
  unfold abortedState; split <;> split <;> simp_all

/-- An abort moves the scan state of its core alone. -/
theorem state_abortScan (s : State) (c d : Nat) :
    (coreAt (abortScan s c) d).scan.state = if d = c then abortedState (coreAt s d).scan.state else (coreAt s d).scan.state := by
  unfold abortScan abortedState
  dsimp only
  by_cases hd : d = c
  · subst hd
    rw [if_pos rfl]
    split
    · rw [scan_putScan, if_pos rfl]
    · split
      · rw [scan_putScan, if_pos rfl]
      · rfl
  · rw [if_neg hd]
    split
    · rw [scan_putScan, if_neg hd, scan_updCore _ _ _ (resetCore s.clk) (fun _ => rfl)]
    · split
      · rw [scan_putScan, if_neg hd]
      · rfl

theorem state_abortScans (cs : List Nat) (s : State) (d : Nat) :
    (coreAt (cs.foldl abortScan s) d).scan.state = if d ∈ cs then abortedState (coreAt s d).scan.state else (coreAt s d).scan.state := by
  induction cs generalizing s with
  | nil => simp
  | cons c r ih =>
    rw [List.foldl_cons, ih, state_abortScan]
    by_cases hd : d = c <;> by_cases hr : d ∈ r <;> simp [hd, hr, abortedState_idem]

/-! ## Cores opened for a request (22 R350) -/

/-- Whether a team of a launch stands on a core once a launch's next clusters have been placed on cores just opened. -/
def standsOn (n : Nat) (scans : List Nat) (s : State) (c : Nat) : Prop :=
  ∃ v ∈ coreTeams (scans.foldl (placeOn n) (scans.foldl abortScan s)) c, v.ref.launch = n

/-- Scans are opened until each of those opened holds a team of the launch: with all of them when each comes to hold one. -/
theorem openScans_opens (n k : Nat) (scans : List Nat) (s : State) (hk : scans.length < k) :
    ∃ opened, openScans n k scans s = opened.foldl (placeOn n) (opened.foldl abortScan s) ∧ (∀ c ∈ opened, c ∈ scans)
      ∧ (∀ c ∈ opened, standsOn n opened s c) ∧ ((∀ c ∈ scans, standsOn n scans s c) → opened = scans) := by
  induction k generalizing scans with
  | zero => omega
  | succ k ih =>
    have hstands (c : Nat) : (coreTeams (scans.foldl (placeOn n) (scans.foldl abortScan s)) c).any (fun u => u.ref.launch == n) = true
        ↔ standsOn n scans s c := by simp [standsOn]
    unfold openScans
    dsimp only
    split
    case isTrue hall =>
      refine ⟨scans, rfl, fun _ h => h, fun c hc => ?_, fun _ => rfl⟩
      exact (hstands c).mp (List.filter_eq_self.mp hall c hc)
    case isFalse hsome =>
      have hlt : (scans.filter (fun c => (coreTeams (scans.foldl (placeOn n) (scans.foldl abortScan s)) c).any
          (fun u => u.ref.launch == n))).length < scans.length :=
        Nat.lt_of_le_of_ne (List.length_filter_le _ scans) (fun h => hsome (List.filter_eq_self.mpr (List.length_filter_eq_length_iff.mp h)))
      obtain ⟨opened, hopen, hsub, hstand, _⟩ := ih _ (Nat.lt_of_lt_of_le hlt (Nat.le_of_lt_succ hk))
      refine ⟨opened, hopen, fun c hc => (List.mem_filter.mp (hsub c hc)).1, hstand, fun hc => absurd ?_ hsome⟩
      exact List.filter_eq_self.mpr (fun c hm => (hstands c).mpr (hc c hm))

/-- A scan that a request takes is on a core without teams, and gives way to the launch. -/
theorem takenScans_yield {s : State} {l : Launch} {c : Nat} (h : c ∈ takenScans s l) : coreTeams s c = [] ∧ scanYields s c l.prio = true := by
  obtain ⟨hfree, hclosed⟩ := List.mem_filter.mp (List.mem_of_mem_take h)
  obtain ⟨_, htakes⟩ := List.mem_filter.mp hfree
  obtain ⟨hopen, hteams⟩ := (Bool.and_eq_true _ _).mp htakes
  constructor
  · exact List.eq_nil_iff_forall_not_mem.mpr (fun u hu => by simpa using List.all_eq_true.mp hteams u hu)
  · simpa [show coreOpen s c = false by simpa using hclosed] using hopen

/-- A scan that gives way is aborted into OPEN or ABORTED. -/
theorem abortedState_of_yields {s : State} {c prio : Nat} (h : scanYields s c prio = true) :
    abortedState (coreAt s c).scan.state = 0 ∨ abortedState (coreAt s c).scan.state = 6 := by
  simp only [scanYields, Bool.and_eq_true, decide_eq_true_eq] at h
  obtain ⟨⟨⟨h1, h4⟩, _⟩, _⟩ := h
  unfold abortedState
  split
  · exact .inr rfl
  · rw [if_pos (by omega)]
    exact .inl rfl

/-! ## A request for cores (20 R322) -/

/-- The launch whose request for cores is served. -/
def served (l : Launch) : Launch := { l with preemptPending := false }

theorem exec_spatialPreemption {s : State} {n : Nat} {l : Launch} {gone : List (Nat × Nat)} (hl : mapGet s.launches n = some l)
    (hp : l.preemptPending = true) (hgone : enoughClusters s l (preemptOrder s l) = some gone) :
    exec (.spatialPreemption n) s = .next
      (openScans n ((takenScans s l).length + 1) (takenScans s l) (updLaunch (vacateAll gone s) n served)) := by
  change execSpatialPreemption n s = _
  unfold execSpatialPreemption
  rw [hl]
  dsimp only
  rw [hp, hgone, if_neg (by decide)]
  rfl

/-- A request that no run of clusters can meet takes nothing. -/
theorem spatialPreemption_waits {s : State} {n : Nat} {l : Launch} (hl : mapGet s.launches n = some l) (hp : l.preemptPending = true)
    (hno : enoughClusters s l (preemptOrder s l) = none) : exec (.spatialPreemption n) s = .next s := by
  change execSpatialPreemption n s = _
  unfold execSpatialPreemption
  rw [hl]
  dsimp only
  rw [hp, hno, if_neg (by decide)]

/-- A REQUEST FOR CORES that can be met asks the clusters of the shortest run to leave, and opens the scans on which its clusters come to stand. -/
theorem spatialPreemption_takes {s : State} {n : Nat} {l : Launch} {gone : List (Nat × Nat)} (hl : mapGet s.launches n = some l)
    (hp : l.preemptPending = true) (hgone : enoughClusters s l (preemptOrder s l) = some gone) :
    let scans := takenScans s l
    ∃ t l' opened, exec (.spatialPreemption n) s = .next (opened.foldl (placeOn n) (opened.foldl abortScan t))
      ∧ mapGet t.launches n = some l' ∧ l'.preemptPending = false ∧ t.cores = s.cores
      ∧ (∀ c ∈ opened, c ∈ scans ∧ coreTeams s c = [] ∧ scanYields s c l.prio = true
        ∧ ((coreAt (opened.foldl abortScan t) c).scan.state = 0 ∨ (coreAt (opened.foldl abortScan t) c).scan.state = 6)
        ∧ ∃ v ∈ coreTeams (opened.foldl (placeOn n) (opened.foldl abortScan t)) c, v.ref.launch = n)
      ∧ ((∀ c ∈ scans, ∃ v ∈ coreTeams (scans.foldl (placeOn n) (scans.foldl abortScan t)) c, v.ref.launch = n) → opened = scans)
      ∧ (∀ r u, teamAt s r = some u → u.ended = none → (r.launch, clusterKey (launchOf s u) r.team) ∈ gone →
        ∃ v, teamAt t r = some v ∧ v.vacating = true)
      ∧ ∀ r u, teamAt s r = some u → (r.launch, clusterKey (launchOf s u) r.team) ∉ gone →
        ∃ v, teamAt t r = some v ∧ v.vacating = u.vacating := by
  intro scans
  have hcores : (updLaunch (vacateAll gone s) n served).cores = s.cores := (updLaunch_cores _ _ _).trans (vacateAll_cores gone s)
  have hclk : (updLaunch (vacateAll gone s) n served).clk = s.clk := (updLaunch_clk _ _ _).trans (vacateAll_clk gone s)
  have hteam (r : TeamRef) : teamAt (updLaunch (vacateAll gone s) n served) r = teamAt (vacateAll gone s) r :=
    teamAt_of_teams (updLaunch_teams _ _ _) r
  obtain ⟨opened, hopen, hsub, hstand, hall⟩ := openScans_opens n (scans.length + 1) scans (updLaunch (vacateAll gone s) n served) (by omega)
  refine ⟨updLaunch (vacateAll gone s) n served, served l, opened, ?_, ?_, rfl, hcores, fun c hc => ?_, hall, fun r u hu hne hin => ?_,
    fun r u hu hout => ?_⟩
  · rw [exec_spatialPreemption hl hp hgone, ← hopen]
  · rw [mapGet_updLaunch_same, vacateAll_launches, hl]; rfl
  · obtain ⟨hempty, hyields⟩ := takenScans_yield (hsub c hc)
    refine ⟨hsub c hc, hempty, hyields, ?_, hstand c hc⟩
    rw [state_abortScans, if_pos hc, coreAt_of_cores hcores hclk]
    exact abortedState_of_yields hyields
  · obtain ⟨v, hv, hvac⟩ := teamAt_vacateAll gone hu
    exact ⟨v, (hteam r).trans hv, by simp [hvac, hne, hin]⟩
  · obtain ⟨v, hv, hvac⟩ := teamAt_vacateAll gone hu
    exact ⟨v, (hteam r).trans hv, by simp [hvac, hout]⟩

end Sys2Proof.Machine
end

section
/-! PROOFS. Clusters that come to cores again: relaunched from their start, or restored from their contexts (20 R320, R325; 23 R363, R364); and with
them the whole course of teams and clusters. -/
namespace Sys2Proof.Machine

/-! ## What starting a team leaves in the launch table -/

/-- Every listed launch was listed before, and is held or started as it was. -/
def CourseKept (s t : State) : Prop :=
  ∀ n l', mapGet t.launches n = some l' → ∃ l, mapGet s.launches n = some l ∧ l'.persistent = l.persistent ∧ l'.started = l.started

theorem CourseKept.of_launches {s t : State} (h : t.launches = s.launches) : CourseKept s t :=
  fun _ l' hl => ⟨l', h ▸ hl, rfl, rfl⟩

theorem CourseKept.trans {s t u : State} (h1 : CourseKept s t) (h2 : CourseKept t u) : CourseKept s u := by
  intro n l' hl
  obtain ⟨l1, hl1, hp1, hs1⟩ := h2 n l' hl
  obtain ⟨l0, hl0, hp0, hs0⟩ := h1 n l1 hl1
  exact ⟨l0, hl0, hp1.trans hp0, hs1.trans hs0⟩

/-- A launch changed in neither keeps the course. -/
theorem CourseKept.updLaunch {s t : State} (h : t.launches = s.launches) (n : Nat) (f : Launch → Launch)
    (hp : ∀ l, (f l).persistent = l.persistent) (hs : ∀ l, (f l).started = l.started) : CourseKept s (Machine.updLaunch t n f) := by
  intro k l' hl'
  rw [mapGet_updLaunch, h] at hl'
  split at hl'
  · obtain ⟨l, hl, hf⟩ := Option.map_eq_some_iff.mp hl'
    exact ⟨l, hl, hf ▸ hp l, hf ▸ hs l⟩
  · exact ⟨l', hl', rfl, rfl⟩

theorem CourseKept.foldl {α : Type} (f : State → α → State) (h : ∀ s x, CourseKept s (f s x)) (xs : List α) (s : State) :
    CourseKept s (xs.foldl f s) := by
  induction xs generalizing s with
  | nil => exact .of_launches rfl
  | cons x r ih => exact (h s x).trans (ih _)

theorem giveRows_launches (s : State) (r : TeamRef) (c : Nat) (g : Group) : (giveRows s r c g).launches = s.launches := by
  unfold giveRows; split <;> rfl

theorem giveAllRows_launches (s : State) (t : Team) : (giveAllRows s t).launches = s.launches :=
  foldl_keeps State.launches _ (fun s g => by exact giveRows_launches (updGroup s t.ref g.id (fun g => { g with alloc := 0 })) t.ref t.core g) _ _

/-- The exports entry and the fix-up barrier of a PERSISTENT team, noted in its launch. -/
def noteExport (c e team bar : Nat) (l : Launch) : Launch :=
  { l with exports := l.exports ++ [(c, e)], fixups := mapPut l.fixups team bar }

/-- Starting a team notes its exports entry and its fix-up barrier in its launch. -/
theorem startTeam_course (s : State) (n : Nat) (l : Launch) (cl : Cluster) (team c : Nat) (p : Spot) :
    CourseKept s (startTeam s n l cl team c p) := by
  unfold startTeam
  split
  case h_1 =>
    dsimp only
    split
    case h_1 => exact .of_launches (giveAllRows_launches _ _)
    case h_2 e _ =>
      refine CourseKept.updLaunch ?_ n (noteExport c e team (p.winOff + l.sram - 16)) (fun _ => rfl) (fun _ => rfl)
      exact giveAllRows_launches _ _
  case h_2 => exact .of_launches rfl

theorem startTeams_course (s : State) (n : Nat) (l : Launch) (cl : Cluster) (o : Nat) (cs : List Nat) :
    CourseKept s (startTeams s n l cl o cs) := by
  unfold startTeams
  refine CourseKept.foldl _ (fun s q => ?_) _ _
  split
  · exact startTeam_course _ _ _ _ _ _ _
  · exact .of_launches rfl

theorem sramStore_launches (s : State) (c o : Nat) (bs : List Byte) : (sramStore s c o bs).launches = s.launches := by
  have h := congrArg State.launches (sramStore_keeps s c o bs)
  exact h

/-- A write of a core's registers, and of its SRAM under some condition, leaves the launches. -/
theorem updCore_sramStore_launches (p : Prop) [Decidable p] (s : State) (c o : Nat) (f : Core → Core) (bs : List Byte) :
    (if p then updCore s c f else sramStore (updCore s c f) c o bs).launches = s.launches := by
  split
  · exact updCore_launches _ _ _
  · exact (sramStore_launches _ c o bs).trans (updCore_launches s c f)

theorem putScan_launches (s : State) (c : Nat) (f : Scan → Scan) : (putScan s c f).launches = s.launches := by
  unfold putScan
  exact updCore_sramStore_launches _ s c firmwareArea _ _

theorem abortScan_launches (s : State) (c : Nat) : (abortScan s c).launches = s.launches := by
  unfold abortScan
  dsimp only
  split
  · rw [putScan_launches, updCore_launches]
  · split
    · exact putScan_launches _ _ _
    · rfl

theorem patchCounts_launches (s : State) (l : Launch) : (patchCounts s l).launches = s.launches := by
  unfold patchCounts
  split
  · rfl
  · split
    · rfl
    · exact foldl_keeps State.launches _ (fun s p => hbmWrite_launches s _ _ _) _ _

/-! ## A cluster relaunched (20 R320) -/

/-- A cluster as it is placed on cores of a herd. -/
def placedCluster (l : Launch) (key h : Nat) (cs : List Nat) : Cluster :=
  { (clusterOf l key).getD { key := key } with state := placedState l, cores := cs, herd := h, saved := [], usedS := false, usedE := false }

theorem placedCluster_key (l : Launch) (key h : Nat) (cs : List Nat) : (placedCluster l key h cs).key = key := by
  unfold placedCluster
  cases hq : clusterOf l key with
  | none => rfl
  | some q => exact (clusterOf_key hq : q.key = key)

/-- A PLACED CLUSTER stands on its cores, held or resident as its launch then is. -/
theorem placeCluster_placed {s : State} {n : Nat} {l : Launch} (hl : mapGet s.launches n = some l) (key : Nat) (fresh : Bool) (h o : Nat)
    (cs : List Nat) (l' : Launch) (hl' : mapGet (placeCluster s n key l fresh h o cs).launches n = some l') :
    ClusterIs (placeCluster s n key l fresh h o cs) n key (fun q => q.state = placedState l' ∧ q.cores = cs ∧ q.herd = h) := by
  have hlisted := hl'
  unfold placeCluster at hl'
  dsimp only at hl'
  rw [settleHead_launches, mapGet_updLaunch_same] at hl'
  obtain ⟨l2, hl2, hput⟩ := Option.map_eq_some_iff.mp hl'
  have hcourse : CourseKept s (startTeams (cs.foldl abortScan (patchCounts s l)) n l (placedCluster l key h cs) o cs) :=
    CourseKept.trans (.of_launches (patchCounts_launches s l))
      (CourseKept.trans (.foldl _ (fun s c => .of_launches (abortScan_launches s c)) cs _) (startTeams_course _ _ _ _ _ _))
  obtain ⟨l0, hl0, hp, hs⟩ := hcourse n l2 hl2
  obtain rfl : l = l0 := Option.some.inj (hl.symm.trans hl0)
  obtain ⟨q, hq, hstate, hcores, hherd, _⟩ := clusterOf_placed
    { l2 with dispatched := if fresh then l2.dispatched + 1 else l2.dispatched } (placedCluster l key h cs)
    (show placedState l = _ by simp [placedState, hp, hs])
  rw [placedCluster_key] at hq
  subst hput
  exact ⟨_, q, hlisted, hq, hstate, hcores, hherd⟩

theorem exec_clusterRelaunch {s : State} {n key h : Nat} {l : Launch} {cs : List Nat} (hl : mapGet s.launches n = some l)
    (hhead : headCluster s = some (n, key)) (h5 : clusterState l key = 5)
    (hherd : (List.range herdCount).findSome? (fun h => (clusterCores s l (countScans s n key) h).map (fun cs => (h, cs))) = some (h, cs)) :
    exec (.clusterRelaunch n key) s = .next (placeCluster s n key l false h 0 cs) := by
  change execClusterRelaunch n key s = _
  unfold execClusterRelaunch
  rw [hl]
  dsimp only
  rw [if_pos ⟨hhead, h5⟩, hherd]

/-! ## A cluster restored (20 R325) -/

theorem ldfeTry_launches (s : State) (t : Team) (id l : Nat) : (ldfeTry s t id l).launches = s.launches := by
  unfold ldfeTry
  split
  · rfl
  · split
    · split
      · rfl
      · split
        · dsimp only
          split <;> rfl
        · rfl
    · rfl

theorem ldfeRetry_launches (s : State) : (ldfeRetry s).launches = s.launches := by
  unfold ldfeRetry
  refine foldl_keeps State.launches _ (fun s t => foldl_keeps State.launches _ (fun s g => ?_) _ _) _ _
  split
  · split
    · exact foldl_keeps State.launches _ (fun s p => ldfeTry_launches s t _ _) _ _
    · rfl
  · rfl

theorem barsyncSettle_launches (s : State) (r : TeamRef) : (barsyncSettle s r).launches = s.launches := by
  unfold barsyncSettle
  split
  · rfl
  · split <;> rfl

theorem retestWaits_launches (s : State) (r : TeamRef) : (retestWaits s r).launches = s.launches := by
  unfold retestWaits
  split
  · rfl
  · rw [ldfeRetry_launches, barsyncSettle_launches]; rfl

/-- A RESTORED CLUSTER stands on the cores given, without saved teams, held or resident as its launch then is. -/
theorem restoreCluster_restored {s t : State} {n key : Nat} {l : Launch} {q : Cluster} {cs : List Nat}
    (hq : l.clusters.find? (fun q => q.key == key) = some q) (ht : t.launches = (restoreCluster s n key l cs).launches) (l' : Launch)
    (hl' : mapGet t.launches n = some l') : ClusterIs t n key (fun q' => q'.state = placedState l' ∧ q'.saved = [] ∧ q'.cores = cs) := by
  obtain rfl : q.key = key := clusterOf_key (l := l) hq
  have hlisted := hl'
  rw [ht] at hl'
  unfold restoreCluster at hl'
  rw [hq] at hl'
  dsimp only at hl'
  rw [settleHead_launches, foldl_keeps State.launches retestWaits retestWaits_launches, mapGet_updLaunch_same] at hl'
  obtain ⟨l2, _, hput⟩ := Option.map_eq_some_iff.mp hl'
  obtain ⟨q', hq', hstate, hcores, _, hsaved⟩ := clusterOf_placed l2
    { q with state := placedState l2, saved := [], cores := cs, herd := cs.headD 0 / Config.coresPerHerd } rfl
  subst hput
  exact ⟨_, q', hlisted, hq', hstate, hsaved, hcores⟩

section
variable {s : State} {n key : Nat} {cs : List Nat} {l : Launch} {q : Cluster}
variable (hl : mapGet s.launches n = some l) (hq : l.clusters.find? (fun q => q.key == key) = some q) (h2 : q.state = 2)
include hl hq h2

/-- A vacated cluster whose turn it is not stays as it is. -/
theorem contextRestore_noTurn (hturn : herdTurn s n key (cs.headD 0 / Config.coresPerHerd) = none) :
    exec (.contextRestore n key cs) s = .next s := by
  change execContextRestore n key cs s = _
  unfold execContextRestore
  rw [launch_cluster_found hl hq]
  dsimp only
  rw [if_neg (not_not_intro h2), hturn]

/-- One whose turn it is, and whose teams fit, is restored; a back-fill is counted. -/
theorem contextRestore_fits {head : Bool} (hturn : herdTurn s n key (cs.headD 0 / Config.coresPerHerd) = some head)
    (hfits : restoreFits s l q (head && countScans s n key) cs = true) :
    ∃ t, exec (.contextRestore n key cs) s = .next t ∧ t.launches = (restoreCluster s n key l cs).launches := by
  change ∃ t, execContextRestore n key cs s = .next t ∧ _
  unfold execContextRestore
  rw [launch_cluster_found hl hq]
  dsimp only
  rw [if_neg (not_not_intro h2), hturn]
  dsimp only
  rw [hfits]
  cases head
  · exact ⟨_, rfl, rfl⟩
  · exact ⟨_, rfl, rfl⟩

/-- One that does not fit is refused: the head's refusal is counted. -/
theorem contextRestore_refused {head : Bool} (hturn : herdTurn s n key (cs.headD 0 / Config.coresPerHerd) = some head)
    (hfits : restoreFits s l q (head && countScans s n key) cs = false) :
    exec (.contextRestore n key cs) s = .next (if head then { s with ctxRefused := s.ctxRefused + 1 } else s) := by
  change execContextRestore n key cs s = _
  unfold execContextRestore
  rw [launch_cluster_found hl hq]
  dsimp only
  rw [if_neg (not_not_intro h2), hturn]
  dsimp only
  rw [hfits]
  rfl

end

/-! ## The course of teams and clusters -/

theorem canRetire_of {s : State} {r : TeamRef} {u : Team} (hu : teamAt s r = some u) (hr : r.launch ≠ 0) (hret : u.retired = false)
    (hne : u.ended = none) (hfreed : ∀ g ∈ u.groups, g.freed = true) (hprogs : ∀ x ∈ u.progs, x.state = 4) (hperf : teamPerformed u = true)
    (heng : hasEngineOp s u = false) : canRetire s u = true := by
  have hg : u.groups.all Group.freed = true := List.all_eq_true.mpr hfreed
  have hx : u.progs.all (fun x => x.state == 4) = true := List.all_eq_true.mpr (fun x hx => by simpa using hprogs x hx)
  simp [canRetire, teamAt_ref hu, hr, hret, hne, hg, hx, hperf, heng]

/-- Settles O48, event by event. -/
theorem teamsRetireEndAndMove : Obligations.TeamsRetireEndAndMove := by
  unfold Obligations.TeamsRetireEndAndMove
  intro s
  refine ⟨fun r u hu hr hret hne hfreed hprogs hperf heng => ?retire, fun n key l q => clusterFree_frees, ?relaunch, fun n l => forageRelaunch_relaunches,
    ?watchdog, fun r u => vacateTeam_stops, fun r u l q => contextWrite_saves, ?restore, fun n l k => stallVacate_asks, fun n l => stallVacate_waits,
    fun n l hl hp => ⟨spatialPreemption_waits hl hp, fun gone => spatialPreemption_takes hl hp⟩⟩
  case retire =>
    have hc := canRetire_of hu hr hret hne hfreed hprogs hperf heng
    exact ⟨teamRetire_retires hu hc, teamRetire_last hu hc⟩
  case relaunch =>
    intro n key l h cs hl hhead h5 hherd
    exact ⟨_, exec_clusterRelaunch hl hhead h5 hherd, placeCluster_placed hl key false h 0 cs⟩
  case watchdog =>
    intro r u hu hr hne hret
    exact ⟨watchdogExpiry_ends hu hr hne hret, watchdogExpiry_waits hu⟩
  case restore =>
    intro n key cs l q hl hq h2
    refine ⟨contextRestore_noTurn hl hq h2, fun head hturn hfits => ?_, fun head => contextRestore_refused hl hq h2⟩
    obtain ⟨t, hexec, ht⟩ := contextRestore_fits hl hq h2 hturn hfits
    exact ⟨t, hexec, restoreCluster_restored hq ht⟩

end Sys2Proof.Machine
end
